-- ==== Sys2Proof/Word.lean ====
section
/-! DEFINITION. The word types of the part's frames and records, and their plainest arithmetic.
A byte, a 2-byte field and a 4-byte field are what the manual treats as bits (R203); a pixel level is a
nibble of a picture byte (R1). -/
namespace Sys2Proof

/-- One byte of a frame, a record, a page or the picture memory. -/
abbrev Byte := BitVec 8

/-- A 2-byte field of a frame or record (R203). -/
abbrev U16 := BitVec 16

/-- A 4-byte field of a frame or record (R203). -/
abbrev U32 := BitVec 32

/-- A raw count of the 12-bit converter, 0..4095 (R93). -/
abbrev Count := BitVec 12

/-- A pixel level, 0 (black) to 15 (white): four bits of the picture memory (R1). -/
abbrev Level := BitVec 4

/-- One stored byte of a sparse memory: its address and its value. -/
abbrev Cell := Nat × Byte

/-- The quotient rounded toward plus infinity, the manual's `ceil(a / b)`. -/
def ceilDiv (a b : Nat) : Nat := (a + b - 1) / b

end Sys2Proof
end

