-- ==== Sys2Proof/Syntax.lean ====
section
/-! DEFINITION. The commands: one constructor per row of spec/opcode_table.json. A host message carries
the frame's tag and its body fields as they stand on the wire (chapter 11); an event of a pin, a timer or
an internal sequencer carries what the outside supplies with it and nothing else. -/
namespace Sys2Proof

/-- The four keys (R71). -/
inductive Key where
  | forward | backward | power | light
deriving DecidableEq, Repr

/-- The receive faults that RECEIVE_FAULT reports (R129; a gap and a rate change are reported by their
own commands). -/
inductive RxFault where
  | framing | badKind | badLength | crcMismatch
deriving DecidableEq, Repr

/-- A command to the part: a host message, another event of the host link, a pin event, the expiry of a
timer, or a step of an internal sequencer. -/
inductive Instr where
  -- Host link and notices (chapter 10)
  | identify (tag : Byte)
  | fetchNotices (tag : Byte) (selection : U16)
  | setNoticeMasks (tag : Byte) (enable wake : U16)
  | softReset (tag : Byte)
  | softResetDrainEnd
  -- Picture memory and slots (chapter 1)
  | openImage (tag slot : Byte) (width height : U16) (format endBehaviour : Byte)
  | imageDataHeader (declared : U16)
  | imageDataByte (value : Byte)
  | imageDataCut
  | closeImage (tag slot : Byte)
  | loadSlotFromStorage (tag slot : Byte) (width height : U16) (startPage : U32)
  | freeSlot (tag slot : Byte)
  | slotStatus (tag slot : Byte)
  | poolStatus (tag : Byte)
  -- Waveforms (chapter 2)
  | waveformData (tag : Byte) (offset : U32) (data : List Byte)
  | waveformCommit (tag : Byte)
  | waveformAdoption
  | waveformStatus (tag : Byte)
  -- Update engine (chapter 3)
  | updateRegion (tag slot mode forced notify : Byte) (x y w h sx sy : U16)
  | cancelUpdate (tag : Byte) (number : U16)
  | updateStatus (tag : Byte) (number : U16)
  | panelSettings (tag : Byte) (holdTime : U16)
  | panelStatus (tag : Byte)
  | preparationBegin
  | preparationEnd (context : Fin 8)
  | railRise
  | railsUp
  | railHoldExpiry
  | railsOff
  | scanStart
  | frameBoundary
  | contextComplete (context : Fin 8)
  -- Page turning (chapter 4)
  | keyInputChange (key : Key) (pressed : Bool)
  | keyPress (key : Key)
  | keyRelease (key : Key)
  | powerLongPress
  | turnPush (tag slot list : Byte) (pageTag : U32)
  | turnWithdraw (tag slot : Byte)
  | turnSync (tag slot : Byte) (pageTag : U32)
  | turnSettings (tag cadence lowMark forwardRouting backwardRouting : Byte)
  | turnStatus (tag : Byte)
  | keyStatus (tag : Byte)
  -- Sensor converter (chapter 5)
  | conversionStart
  | conversionEnd (count : Count)
  | ambientMiss
  | panelTempTimerExpiry
  | batteryTimerExpiry
  | readSensors (tag fresh : Byte)
  | sensorSettings (tag period : Byte)
  -- Front light (chapter 6)
  | periodBoundary
  | rampTick
  | ambientOpportunity
  | ambientRequest
  | lightSet (tag mode : Byte) (brightness : U16) (mix : Byte)
  | lightCurve (tag : Byte) (lux0 b0 lux1 b1 lux2 b2 lux3 b3 : U16)
  | lightRamp (tag step : Byte)
  | lightStatus (tag : Byte)
  -- Radio link and download spooler (chapter 7)
  | frameStart
  | receiveFault (fault : RxFault) (idReceived : Option Byte)
  | gap (idReceived : Option Byte)
  | dataFrame (id : Byte) (index : U32) (payload : List Byte) (crc : U16)
  | abortFrame (id : Byte) (index : U32) (payload : List Byte) (crc : U16)
  | statusTransmit
  | stallTimerExpiry (id : Byte)
  | downloadArm (tag id : Byte) (total : U32) (segmentSize : U16) (startPage : U32)
  | downloadResume (tag id : Byte)
  | downloadCancel (tag id : Byte)
  | downloadClear (tag id : Byte)
  | downloadStatus (tag id : Byte)
  | spoolSettings (tag : Byte) (budget : U16) (stallTime : Byte) (holdLimit : U16) (rateCode : Byte)
  -- Storage port (chapter 8)
  | storageOperationStart
  | srdyReady
  | waitTimeout
  | swaitTimeout
  | storageOperationEnd (status : Byte) (data : List Byte)
  | storageRead (tag : Byte) (page : U32)
  | storageProgram (tag : Byte) (page : U32) (data : List Byte)
  | storageErase (tag : Byte) (page : U32)
  | storageStatus (tag : Byte)
  -- Power supervisor (chapter 9)
  | enterDoze (tag : Byte)
  | enterDeep (tag : Byte)
  | deepIdleTimerExpiry
  | deepEntry
  | csFallWake
  | wakeHoldoffEnd
  | wakeTimerSet (tag : Byte) (time : U32)
  | wakeTimerExpiry
  | chargerInputChange (present : Bool)
  | chargerChange
  | powerSettings (tag : Byte) (lowMv critMv lowCeiling deepIdle : U16) (slot : Byte)
  | graceTimerExpiry
  | shutdownNow (tag : Byte)
  | sleepScreenRequest
  | cutoffEntry
  | powerStatus (tag : Byte)
  -- Frames of the host link (chapter 10)
  | writeFrame (mosi : List Byte)
  | readReply
  | replyCollected
  -- Resets and supply (chapters 8 to 10)
  | powerOn
  | resetLineAssert
  | resetLine
  | imageDataEnd
  | statusFrameSent
  | powerFail
deriving DecidableEq, Repr

end Sys2Proof
end

