-- ==== Sys2Proof/WellFormed.lean ====
section
/-! DEFINITION. Which commands can be sent at all. The widths of the operands are in their types; what is
left is the lengths of the byte strings and two combinations that cannot occur on the wire. -/
namespace Sys2Proof

/-- A command that can reach the part. A Waveform Data body is at most 4096 bytes, 4 of them the offset
(R26, 11.3); a Storage Program body is the page and 2048 bytes (R162); a radio frame's payload length
field has two bytes (R128); a storage operation's end brings the 2048 bytes of a read or no byte (R155); a
bad kind byte is judged before the id byte arrives (R128, R129); and a frame whose kind byte is READ_REPLY
is a read frame, not a write frame (R188). -/
def WellFormed : Instr → Bool
  | .waveformData _ _ data => decide (data.length ≤ 4092)
  | .storageProgram _ _ data => decide (data.length = 2048)
  | .dataFrame _ _ payload _ => decide (payload.length ≤ 65535)
  | .abortFrame _ _ payload _ => decide (payload.length ≤ 65535)
  | .storageOperationEnd _ data => decide (data.length = 0 ∨ data.length = 2048)
  | .receiveFault .badKind id => id.isNone
  | .writeFrame mosi => decide (mosi.head? ≠ some 0xFF#8)
  | _ => true

end Sys2Proof
end

