-- ==== Sys2Proof/Decode.lean ====
section
/-! DEFINITION. The host-link messages as bytes, and the table's words. spec/opcode_table.json gives no
row any bits, so no word spells a command. What the part does decode is the frame of a host message: the
kind codes, the body lengths and the body layouts of chapter 11 stand here, with the encoder that writes a
message's body from the same layouts. -/
namespace Sys2Proof

/-- The command that a word of `nbits` bits spells by the table's bits. The table of this block gives no
row any bits, so none is spelled. -/
def decodeTableWord (_nbits _w : Nat) : Option Instr := none

/-- A 2-byte field, least significant byte first (R203). -/
def le16 (v : U16) : List Byte := [v.extractLsb' 0 8, v.extractLsb' 8 8]

/-- A 4-byte field, least significant byte first (R203). -/
def le32 (v : U32) : List Byte :=
  [v.extractLsb' 0 8, v.extractLsb' 8 8, v.extractLsb' 16 8, v.extractLsb' 24 8]

/-- The 2-byte field that two bytes carry, the low one first (R203). -/
def un16 (a b : Byte) : U16 := b ++ a

/-- The 4-byte field that four bytes carry, the lowest first (R203). -/
def un32 (a b c d : Byte) : U32 := d ++ c ++ b ++ a

/-- The kind byte of READ_REPLY, which begins a read frame (11.3). -/
def kindReadReply : Byte := 0xFF#8

/-- The kind byte of Image Data (11.3). -/
def kindImageData : Byte := 0x11#8

/-- The smallest and the largest body length that a kind allows, for the kinds that R189 judges
(11.3); none for a kind that is not a known message. -/
def bodyLengths (kind : Byte) : Option (Nat × Nat) :=
  match kind.toNat with
  | 0x01 => some (0, 0)
  | 0x02 => some (2, 2)
  | 0x03 => some (4, 4)
  | 0x04 => some (0, 0)
  | 0x10 => some (7, 7)
  | 0x12 => some (1, 1)
  | 0x13 => some (9, 9)
  | 0x14 => some (1, 1)
  | 0x15 => some (1, 1)
  | 0x16 => some (0, 0)
  | 0x20 => some (4, 4096)
  | 0x21 => some (0, 0)
  | 0x22 => some (0, 0)
  | 0x30 => some (16, 16)
  | 0x31 => some (2, 2)
  | 0x32 => some (2, 2)
  | 0x33 => some (2, 2)
  | 0x34 => some (0, 0)
  | 0x40 => some (6, 6)
  | 0x41 => some (1, 1)
  | 0x42 => some (5, 5)
  | 0x43 => some (4, 4)
  | 0x44 => some (0, 0)
  | 0x45 => some (0, 0)
  | 0x50 => some (1, 1)
  | 0x51 => some (1, 1)
  | 0x60 => some (4, 4)
  | 0x61 => some (16, 16)
  | 0x62 => some (1, 1)
  | 0x63 => some (0, 0)
  | 0x70 => some (11, 11)
  | 0x71 => some (1, 1)
  | 0x72 => some (1, 1)
  | 0x73 => some (1, 1)
  | 0x74 => some (1, 1)
  | 0x75 => some (6, 6)
  | 0x80 => some (4, 4)
  | 0x81 => some (2052, 2052)
  | 0x82 => some (4, 4)
  | 0x83 => some (0, 0)
  | 0x90 => some (0, 0)
  | 0x91 => some (0, 0)
  | 0x92 => some (0, 0)
  | 0x93 => some (9, 9)
  | 0x94 => some (4, 4)
  | 0x95 => some (0, 0)
  | _ => none

/-- The kind byte of a host message (11.3); none for a command that is no message. -/
def messageKind : Instr → Option Byte
  | .identify .. => some 0x01#8
  | .fetchNotices .. => some 0x02#8
  | .setNoticeMasks .. => some 0x03#8
  | .softReset .. => some 0x04#8
  | .openImage .. => some 0x10#8
  | .closeImage .. => some 0x12#8
  | .loadSlotFromStorage .. => some 0x13#8
  | .freeSlot .. => some 0x14#8
  | .slotStatus .. => some 0x15#8
  | .poolStatus .. => some 0x16#8
  | .waveformData .. => some 0x20#8
  | .waveformCommit .. => some 0x21#8
  | .waveformStatus .. => some 0x22#8
  | .updateRegion .. => some 0x30#8
  | .cancelUpdate .. => some 0x31#8
  | .updateStatus .. => some 0x32#8
  | .panelSettings .. => some 0x33#8
  | .panelStatus .. => some 0x34#8
  | .turnPush .. => some 0x40#8
  | .turnWithdraw .. => some 0x41#8
  | .turnSync .. => some 0x42#8
  | .turnSettings .. => some 0x43#8
  | .turnStatus .. => some 0x44#8
  | .keyStatus .. => some 0x45#8
  | .readSensors .. => some 0x50#8
  | .sensorSettings .. => some 0x51#8
  | .lightSet .. => some 0x60#8
  | .lightCurve .. => some 0x61#8
  | .lightRamp .. => some 0x62#8
  | .lightStatus .. => some 0x63#8
  | .downloadArm .. => some 0x70#8
  | .downloadResume .. => some 0x71#8
  | .downloadCancel .. => some 0x72#8
  | .downloadClear .. => some 0x73#8
  | .downloadStatus .. => some 0x74#8
  | .spoolSettings .. => some 0x75#8
  | .storageRead .. => some 0x80#8
  | .storageProgram .. => some 0x81#8
  | .storageErase .. => some 0x82#8
  | .storageStatus .. => some 0x83#8
  | .enterDoze .. => some 0x90#8
  | .enterDeep .. => some 0x91#8
  | .shutdownNow .. => some 0x92#8
  | .powerSettings .. => some 0x93#8
  | .wakeTimerSet .. => some 0x94#8
  | .powerStatus .. => some 0x95#8
  | _ => none

/-- The tag byte of a host message; 0 for a command that is no message. -/
def messageTag : Instr → Byte
  | .identify tag => tag
  | .fetchNotices tag _ => tag
  | .setNoticeMasks tag _ _ => tag
  | .softReset tag => tag
  | .openImage tag _ _ _ _ _ => tag
  | .closeImage tag _ => tag
  | .loadSlotFromStorage tag _ _ _ _ => tag
  | .freeSlot tag _ => tag
  | .slotStatus tag _ => tag
  | .poolStatus tag => tag
  | .waveformData tag _ _ => tag
  | .waveformCommit tag => tag
  | .waveformStatus tag => tag
  | .updateRegion tag _ _ _ _ _ _ _ _ _ _ => tag
  | .cancelUpdate tag _ => tag
  | .updateStatus tag _ => tag
  | .panelSettings tag _ => tag
  | .panelStatus tag => tag
  | .turnPush tag _ _ _ => tag
  | .turnWithdraw tag _ => tag
  | .turnSync tag _ _ => tag
  | .turnSettings tag _ _ _ _ => tag
  | .turnStatus tag => tag
  | .keyStatus tag => tag
  | .readSensors tag _ => tag
  | .sensorSettings tag _ => tag
  | .lightSet tag _ _ _ => tag
  | .lightCurve tag _ _ _ _ _ _ _ _ => tag
  | .lightRamp tag _ => tag
  | .lightStatus tag => tag
  | .downloadArm tag _ _ _ _ => tag
  | .downloadResume tag _ => tag
  | .downloadCancel tag _ => tag
  | .downloadClear tag _ => tag
  | .downloadStatus tag _ => tag
  | .spoolSettings tag _ _ _ _ => tag
  | .storageRead tag _ => tag
  | .storageProgram tag _ _ => tag
  | .storageErase tag _ => tag
  | .storageStatus tag => tag
  | .enterDoze tag => tag
  | .enterDeep tag => tag
  | .shutdownNow tag => tag
  | .powerSettings tag _ _ _ _ _ => tag
  | .wakeTimerSet tag _ => tag
  | .powerStatus tag => tag
  | _ => 0#8

/-- The body of a host message in the layouts of 11.3 and 11.5. -/
def messageBody : Instr → List Byte
  | .fetchNotices _ sel => le16 sel
  | .setNoticeMasks _ en wk => le16 en ++ le16 wk
  | .openImage _ slot w h fmt eb => [slot] ++ le16 w ++ le16 h ++ [fmt] ++ [eb]
  | .closeImage _ slot => [slot]
  | .loadSlotFromStorage _ slot w h start => [slot] ++ le16 w ++ le16 h ++ le32 start
  | .freeSlot _ slot => [slot]
  | .slotStatus _ slot => [slot]
  | .waveformData _ offset data => le32 offset ++ data
  | .updateRegion _ slot mode forced notify x y w h sx sy => [slot] ++ [mode] ++ [forced] ++ [notify] ++ le16 x ++ le16 y ++ le16 w ++ le16 h ++ le16 sx ++ le16 sy
  | .cancelUpdate _ n => le16 n
  | .updateStatus _ n => le16 n
  | .panelSettings _ hold => le16 hold
  | .turnPush _ slot list pt => [slot] ++ [list] ++ le32 pt
  | .turnWithdraw _ slot => [slot]
  | .turnSync _ slot pt => [slot] ++ le32 pt
  | .turnSettings _ k low fr br => [k] ++ [low] ++ [fr] ++ [br]
  | .readSensors _ fresh => [fresh]
  | .sensorSettings _ period => [period]
  | .lightSet _ mode b mix => [mode] ++ le16 b ++ [mix]
  | .lightCurve _ l0 b0 l1 b1 l2 b2 l3 b3 => le16 l0 ++ le16 b0 ++ le16 l1 ++ le16 b1 ++ le16 l2 ++ le16 b2 ++ le16 l3 ++ le16 b3
  | .lightRamp _ step => [step]
  | .downloadArm _ id total size start => [id] ++ le32 total ++ le16 size ++ le32 start
  | .downloadResume _ id => [id]
  | .downloadCancel _ id => [id]
  | .downloadClear _ id => [id]
  | .downloadStatus _ id => [id]
  | .spoolSettings _ budget stall hold rate => le16 budget ++ [stall] ++ le16 hold ++ [rate]
  | .storageRead _ page => le32 page
  | .storageProgram _ page data => le32 page ++ data
  | .storageErase _ page => le32 page
  | .powerSettings _ low crit ceil idle slot => le16 low ++ le16 crit ++ le16 ceil ++ le16 idle ++ [slot]
  | .wakeTimerSet _ time => le32 time
  | _ => []

/-- The message that a complete frame of a known kind and an allowed length carries: kind, tag and the
body's bytes to its fields (R203, 11.3, 11.5). None where the kind is unknown or the body is not of a
length the kind allows. -/
def decodeMessage (kind tag : Byte) (body : List Byte) : Option Instr :=
  match kind.toNat, body with
  | 0x01, [] => some (.identify tag)
  | 0x02, [b0, b1] => some (.fetchNotices tag (un16 b0 b1))
  | 0x03, [b0, b1, b2, b3] => some (.setNoticeMasks tag (un16 b0 b1) (un16 b2 b3))
  | 0x04, [] => some (.softReset tag)
  | 0x10, [b0, b1, b2, b3, b4, b5, b6] => some (.openImage tag b0 (un16 b1 b2) (un16 b3 b4) b5 b6)
  | 0x12, [b0] => some (.closeImage tag b0)
  | 0x13, [b0, b1, b2, b3, b4, b5, b6, b7, b8] => some (.loadSlotFromStorage tag b0 (un16 b1 b2) (un16 b3 b4) (un32 b5 b6 b7 b8))
  | 0x14, [b0] => some (.freeSlot tag b0)
  | 0x15, [b0] => some (.slotStatus tag b0)
  | 0x16, [] => some (.poolStatus tag)
  | 0x20, b0 :: b1 :: b2 :: b3 :: data => if data.length ≤ 4092 then some (.waveformData tag (un32 b0 b1 b2 b3) data) else none
  | 0x21, [] => some (.waveformCommit tag)
  | 0x22, [] => some (.waveformStatus tag)
  | 0x30, [b0, b1, b2, b3, b4, b5, b6, b7, b8, b9, b10, b11, b12, b13, b14, b15] => some (.updateRegion tag b0 b1 b2 b3 (un16 b4 b5) (un16 b6 b7) (un16 b8 b9) (un16 b10 b11) (un16 b12 b13) (un16 b14 b15))
  | 0x31, [b0, b1] => some (.cancelUpdate tag (un16 b0 b1))
  | 0x32, [b0, b1] => some (.updateStatus tag (un16 b0 b1))
  | 0x33, [b0, b1] => some (.panelSettings tag (un16 b0 b1))
  | 0x34, [] => some (.panelStatus tag)
  | 0x40, [b0, b1, b2, b3, b4, b5] => some (.turnPush tag b0 b1 (un32 b2 b3 b4 b5))
  | 0x41, [b0] => some (.turnWithdraw tag b0)
  | 0x42, [b0, b1, b2, b3, b4] => some (.turnSync tag b0 (un32 b1 b2 b3 b4))
  | 0x43, [b0, b1, b2, b3] => some (.turnSettings tag b0 b1 b2 b3)
  | 0x44, [] => some (.turnStatus tag)
  | 0x45, [] => some (.keyStatus tag)
  | 0x50, [b0] => some (.readSensors tag b0)
  | 0x51, [b0] => some (.sensorSettings tag b0)
  | 0x60, [b0, b1, b2, b3] => some (.lightSet tag b0 (un16 b1 b2) b3)
  | 0x61, [b0, b1, b2, b3, b4, b5, b6, b7, b8, b9, b10, b11, b12, b13, b14, b15] => some (.lightCurve tag (un16 b0 b1) (un16 b2 b3) (un16 b4 b5) (un16 b6 b7) (un16 b8 b9) (un16 b10 b11) (un16 b12 b13) (un16 b14 b15))
  | 0x62, [b0] => some (.lightRamp tag b0)
  | 0x63, [] => some (.lightStatus tag)
  | 0x70, [b0, b1, b2, b3, b4, b5, b6, b7, b8, b9, b10] => some (.downloadArm tag b0 (un32 b1 b2 b3 b4) (un16 b5 b6) (un32 b7 b8 b9 b10))
  | 0x71, [b0] => some (.downloadResume tag b0)
  | 0x72, [b0] => some (.downloadCancel tag b0)
  | 0x73, [b0] => some (.downloadClear tag b0)
  | 0x74, [b0] => some (.downloadStatus tag b0)
  | 0x75, [b0, b1, b2, b3, b4, b5] => some (.spoolSettings tag (un16 b0 b1) b2 (un16 b3 b4) b5)
  | 0x80, [b0, b1, b2, b3] => some (.storageRead tag (un32 b0 b1 b2 b3))
  | 0x81, b0 :: b1 :: b2 :: b3 :: data => if data.length = 2048 then some (.storageProgram tag (un32 b0 b1 b2 b3) data) else none
  | 0x82, [b0, b1, b2, b3] => some (.storageErase tag (un32 b0 b1 b2 b3))
  | 0x83, [] => some (.storageStatus tag)
  | 0x90, [] => some (.enterDoze tag)
  | 0x91, [] => some (.enterDeep tag)
  | 0x92, [] => some (.shutdownNow tag)
  | 0x93, [b0, b1, b2, b3, b4, b5, b6, b7, b8] => some (.powerSettings tag (un16 b0 b1) (un16 b2 b3) (un16 b4 b5) (un16 b6 b7) b8)
  | 0x94, [b0, b1, b2, b3] => some (.wakeTimerSet tag (un32 b0 b1 b2 b3))
  | 0x95, [] => some (.powerStatus tag)
  | _, _ => none

/-- A message's whole write frame as it travels on MOSI: kind, tag, body length, body (11.2). None for a
command that is no message. -/
def encodeMessage (i : Instr) : Option (List Byte) :=
  (messageKind i).map fun k =>
    k :: messageTag i :: (le16 (BitVec.ofNat 16 (messageBody i).length) ++ messageBody i)

end Sys2Proof
end

