-- ==== Sys2Proof/Config.lean ====
section
/-! DEFINITION. What the part fixes for good: its capacities (R200), its fixed times, and the two
free values. Times are held in counts of the 4 MHz clock that the PWM counter counts
(R109), 250 ns each: every time the manual states is a whole number of them. -/
namespace Sys2Proof.Config

/-- Counts of the 4 MHz clock in one microsecond (R109: 1000 counts are 250 µs). -/
def perUs : Nat := 4
/-- Counts of the 4 MHz clock in one millisecond. -/
def perMs : Nat := 4000
/-- Counts of the 4 MHz clock in one second. -/
def perS : Nat := 4000000

/-- Bytes of one picture-memory block and of one flash page (R1, section 8.1). -/
def blockBytes : Nat := 2048
/-- Pixels of one picture-memory block at 4 bits each (section 1.1). -/
def blockPixels : Nat := 4096
/-- Blocks of the picture memory (R1). -/
def totalBlocks : Nat := 4096
/-- Blocks of the shown image (R1). -/
def shownBlocks : Nat := 500
/-- Blocks of the pool after a full reset (R2). -/
def poolBlocks : Nat := 3596
/-- Bytes of the shown image: 500 blocks of 2048 (R1). -/
def shownBytes : Nat := 1024000
/-- Panel columns. -/
def panelW : Nat := 1280
/-- Panel rows. -/
def panelH : Nat := 1600
/-- Pages of the book flash (section 8.1). -/
def flashPages : Nat := 524288
/-- The incoming table's store in bytes (R25). -/
def tableBytes : Nat := 92204
/-- The largest body of a host-link frame (R189). -/
def maxBody : Nat := 4096

/-- The 20 ms settle time of a key and of the CHARGER filter (R71, R178). -/
def settleTime : Nat := 20 * perMs
/-- The 3000 ms of a long POWER press (R74). -/
def longPressTime : Nat := 3000 * perMs
/-- The 3 ms of RAILS_RISING (R56). -/
def railRiseTime : Nat := 3 * perMs
/-- The 2 ms of RAILS_FALLING (R56). -/
def railFallTime : Nat := 2 * perMs
/-- The 10 s grace (R181). -/
def graceTime : Nat := 10 * perS
/-- The 1 ms wake holdoff (R195). -/
def holdoffTime : Nat := 1 * perMs
/-- The battery period in ACTIVE and DOZE, 1000 ms (R103). -/
def batteryTime : Nat := 1000 * perMs
/-- The battery period in DEEP, 60,000 ms (R103). -/
def batteryDeepTime : Nat := 60000 * perMs
/-- A PWM period, 1000 counts (R109). -/
def pwmPeriod : Nat := 1000

/-- What the unlisted bytes of the picture memory read as: level 15 in both pixels. The shown image is
so by R1; the other blocks are so by choice (DESIGN CHOICE, log entry 4, unsafe). -/
def pictureDefault : Byte := 0xFF#8
/-- What the unlisted bytes of the incoming table read as (R25). -/
def tableDefault : Byte := 0x00#8

/-- The 10 µs for which SWAIT may stretch a strobe (R153). -/
def swaitLimit : Nat := 10 * perUs

/-- FREE VALUE (log entry 22). The flash holds SWAIT asserted at a tick of the 4 MHz clock (R153). No row of the table
brings the level of the pin; the argument is the model's counter of free values taken so far. -/
opaque swaitHeld : Nat → Bool

/-- FREE VALUE (log entry 12). The download id byte that had been received of a frame in assembly when
something other than a radio event discards it (R139's rate change, R150's DEEP entry), or none when the
id byte had not arrived. The commands of the table do not report the single bytes of a frame, so the
model leaves it open; the argument is the model's counter of free values taken so far. -/
opaque idOfCutFrame : Nat → Option Byte

end Sys2Proof.Config
end

