-- ==== Sys2Proof/Machine/State.lean ====
section
/-! DEFINITION. The part's state as plain data, block by block (chapter 0's table of blocks), and the state
right after a full reset. A field's default is its value after a full reset (the rule that states it is in
the field's docstring). Times: `clock` counts the 4 MHz clock since the latest full reset, and a timer is
held as the clock value at which it expires (`none` = the timer is stopped). -/
namespace Sys2Proof.Machine
open Sys2Proof

/-- The faults a step can stop with. The manual gives every command an effect in every state, so no meaning
raises one; the one constructor keeps the type inhabited (safe: it is never answered). -/
inductive Fault where
  /-- Raised by nobody (safe). -/
  | neverRaised
deriving DecidableEq, Repr

/-- The refusals a step can answer. -/
inductive Refusal where
  /-- A command whose meaning is not written; raised by `exec`'s refused arms alone (safe). -/
  | notModelled (mnemonic : String)
deriving DecidableEq, Repr

/-! ### Values kept per key, per channel, per requester -/

/-- One value for each of the four keys (R71). -/
structure PerKey (α : Type) where
  forward : α
  backward : α
  power : α
  light : α
deriving DecidableEq, Repr

/-- The channels of the converter (R93). -/
inductive Channel where
  | ambient | panelTemp | battery
deriving DecidableEq, Repr

/-- One value for each channel of the converter. -/
structure PerChannel (α : Type) where
  ambient : α
  panelTemp : α
  battery : α
deriving DecidableEq, Repr

/-- The requesters of the storage port (R159). -/
inductive Requester where
  | link | spooler | loader
deriving DecidableEq, Repr

/-- One value for each requester of the storage port. -/
structure PerRequester (α : Type) where
  link : α
  spooler : α
  loader : α
deriving DecidableEq, Repr

/-! ### MEM: picture memory and slots (chapter 1) -/

/-- The stage of a slot's life (R3). -/
inductive SlotState where
  | free | loadingLink | loadingStorage | ready | releasing
deriving DecidableEq, Repr

/-- The party that may dispose of a slot (R3, R5). -/
inductive Owner where
  | host | turn | sleep
deriving DecidableEq, Repr

/-- A slot record (R3). Its block count is the length of its block list. -/
structure Slot where
  state : SlotState := .free
  width : Nat := 0
  height : Nat := 0
  /-- The picture-memory blocks held, in pixel order. -/
  blocks : List Nat := []
  owner : Owner := .host
  pins : Nat := 0
  tag : Option U32 := none
  incomplete : Bool := false
deriving DecidableEq, Repr

/-- The format of a link load (R8, R10). -/
inductive Format where
  | p4 | p8
deriving DecidableEq, Repr

/-- What a link load does at the end of the picture (R10). -/
inductive EndBehaviour where
  | stop | wrap
deriving DecidableEq, Repr

/-- The open link load (R9). -/
structure LinkLoad where
  slot : Fin 16
  format : Format
  endBehaviour : EndBehaviour
  cursor : Nat := 0
  written : Nat := 0
  overflow : Bool := false
  /-- The bits of a partly received byte (R9, R10); absent at every command, since IMAGE_DATA_BYTE brings
  whole bytes. -/
  held : Option (List Bool) := none
deriving DecidableEq, Repr

/-- The running storage load (R15). -/
structure StorageLoad where
  slot : Fin 16
  startPage : Nat
  pageCount : Nat
  written : Nat := 0
deriving DecidableEq, Repr

/-- The result of the latest storage load to end (R16, R17): the fault's one reason is
STORAGE_TIMEOUT. -/
structure LoadResult where
  slot : Fin 16
  faulted : Bool
  pageCount : Nat
  written : Nat
deriving DecidableEq, Repr

/-- The state of MEM (chapter 1). -/
structure Mem where
  /-- The 8 MiB picture memory, sparse: byte `o` of block `b` at address `2048 b + o`. Which 500 of the 4096 blocks hold
  the shown image R1 does not say: here they are blocks 0..499, and the pool begins as 500..4095 (DESIGN CHOICE, log
  entry 20). -/
  cells : List Cell := []
  /-- The free-block pool: 3596 blocks after a full reset (R2). -/
  pool : List Nat := List.range' Config.shownBlocks Config.poolBlocks
  slots : Vector Slot 16 := Vector.replicate 16 {}
  linkLoad : Option LinkLoad := none
  storageLoad : Option StorageLoad := none
  loadResult : Option LoadResult := none
deriving DecidableEq, Repr

/-! ### WAV: waveforms and update planning (chapter 2) -/

/-- The update modes (R23), in the order of the table image. -/
inductive Mode where
  | full | gray | quick
deriving DecidableEq, Repr

/-- Where the latest valid temperature lay (R32). -/
inductive RangeState where
  | inside | below | above
deriving DecidableEq, Repr

/-- Why a commit was refused (R27). -/
inductive CommitReason where
  | length | frameCount | period | symbol
deriving DecidableEq, Repr

/-- A refused commit's reason and location (R27). -/
structure CommitFault where
  reason : CommitReason
  mode : Option Nat := none
  band : Option Nat := none
  pair : Option Nat := none
  frame : Option Nat := none
deriving DecidableEq, Repr

/-- The outcome of the latest Waveform Commit (R30). -/
inductive CommitOutcome where
  | none | adopted | waiting | bad (fault : CommitFault)
deriving DecidableEq, Repr

/-- The state of WAV (chapter 2): both tables are byte images (11.8). -/
structure Wav where
  /-- The active table, none from a full reset until the first adoption (R29). -/
  active : Option (List Cell) := none
  incoming : List Cell := []
  incomingLen : Nat := 0
  adoptionWaiting : Bool := false
  lastCommit : CommitOutcome := .none
  /-- The current band, B4 after a reset (R32). -/
  band : Nat := 4
  firstTaken : Bool := false
  range : RangeState := .inside
  /-- The latest valid temperature in tenths of a degree (R32). -/
  latest : Option Int := none
deriving DecidableEq, Repr

/-- The plan record (R42). -/
structure Plan where
  mode : Mode
  band : Nat
  frames : Nat
  period : Nat
  duration : Nat
  active : Nat
  promoted : Bool
  demoted : Bool
  empty : Bool
deriving DecidableEq, Repr

/-! ### UPD: update engine and panel scan (chapter 3) -/

/-- A rectangle of the panel (R43). -/
structure Rect where
  x : Nat
  y : Nat
  w : Nat
  h : Nat
deriving DecidableEq, Repr

/-- Who submitted a request (R43). -/
inductive Origin where
  | link | turn | power
deriving DecidableEq, Repr

/-- An update request (R43). `serial` is the model's own: the request's place in admission order. -/
structure Request where
  number : Nat
  serial : Nat
  origin : Origin
  slot : Fin 16
  sx : Nat
  sy : Nat
  rect : Rect
  mode : Mode
  forced : Option Nat
  notify : Bool
  cadence : Bool
deriving DecidableEq, Repr

/-- A context (R53). While RESERVED it also holds the plan WAV is making, which UPD sees only when the
preparation ends (R37), and when that is. `joined` is the frame boundary of the scan at which it joined. -/
inductive Ctx where
  | free
  | reserved (request : Request) (band : Nat) (plan : Plan) (endsAt : Nat)
  | waiting (request : Request) (plan : Plan)
  | running (request : Request) (plan : Plan) (frame joined : Nat)
deriving DecidableEq, Repr

/-- How a request retired (R43). -/
inductive Retired where
  | done | doneEmpty | superseded | cancelled
deriving DecidableEq, Repr

/-- The rail and scan state (R56), with the end of a rise or fall, and the scan's latched band and period,
its next frame boundary and the boundaries fallen so far. -/
inductive Rails where
  | off
  | rising (endsAt : Nat)
  | onIdle
  | scanning (band period nextBoundary boundaries : Nat)
  | falling (endsAt : Nat)
deriving DecidableEq, Repr

/-- The state of UPD (chapter 3; R67 gives the values after a full reset). -/
structure Upd where
  queue : List Request := []
  contexts : Vector Ctx 8 := Vector.replicate 8 .free
  log : List (Nat × Retired) := []
  nextNumber : Nat := 1
  /-- The model's own: admissions so far. -/
  nextSerial : Nat := 0
  rails : Rails := .off
  holdTimer : Option Nat := none
  /-- The rail hold time in ms (R66). -/
  holdTime : Nat := 500
  freshWait : Bool := false
  known : Bool := false
deriving DecidableEq, Repr

/-! ### TRN: page turning (chapter 4) -/

/-- A key's debounce state (R71). -/
inductive Debounce where
  | released | pressSettling | pressed | releaseSettling
deriving DecidableEq, Repr

/-- A key: its input pin, its debounce state and settle timer (R71) and its capture record (R72). -/
structure KeyRec where
  /-- The input pin reads pressed. -/
  input : Bool := false
  debounce : Debounce := .released
  settle : Option Nat := none
  pressTime : Option Nat := none
  unread : Bool := false
  overwritten : Bool := false
deriving DecidableEq, Repr

/-- The POWER detail (R74). -/
inductive PowerDetail where
  | none | short | long
deriving DecidableEq, Repr

/-- The routing of a turn key (R77): `turns` is the manual's LOCAL. -/
inductive Routing where
  | turns | report
deriving DecidableEq, Repr

/-- The lists of the turn state (R79). -/
inductive TurnList where
  | forward | backward
deriving DecidableEq, Repr

/-- A slot in a place of TRN, with its page tag (R78). -/
structure Entry where
  slot : Fin 16
  tag : U32
deriving DecidableEq, Repr

/-- Why a turn was not served (R88). -/
inductive Unserved where
  | empty | noWaveform | powerDown | queueFull
deriving DecidableEq, Repr

/-- The latest unserved turn (R88). -/
structure UnservedRec where
  key : Key
  reason : Unserved
  time : Nat
deriving DecidableEq, Repr

/-- The state of TRN (chapter 4; R78 gives the values after a reset). -/
structure Trn where
  keys : PerKey KeyRec := ⟨{}, {}, {}, {}⟩
  longPress : Option Nat := none
  powerDetail : PowerDetail := .none
  forward : List Entry := []
  backward : List Entry := []
  current : Option Entry := none
  position : Int := 0
  cadence : Nat := 0
  cadenceCounter : Nat := 0
  lowMark : Nat := 1
  forwardRouting : Routing := .turns
  backwardRouting : Routing := .turns
  served : Nat := 0
  unserved : Nat := 0
  lastUnserved : Option UnservedRec := none
  lastUpdate : Option Nat := none
deriving DecidableEq, Repr

/-! ### SNS: sensor converter (chapter 5) -/

/-- A result record (R94). -/
structure Result where
  raw : Nat := 0
  derived : Int := 0
  sampleTime : Nat := 0
  valid : Bool := false
  fault : Bool := false
deriving DecidableEq, Repr

/-- The state of SNS (chapter 5; R107 gives the values after a full reset). -/
structure Sns where
  /-- The converter is powered (R103, R106). -/
  powered : Bool := true
  /-- The channel being converted and the end of the conversion (R93). -/
  converting : Option (Channel × Nat) := none
  lastChannel : Option Channel := none
  /-- The request set, the request in conversion included (R97). -/
  requests : PerChannel Bool := ⟨false, false, false⟩
  /-- The AMBIENT request's latest-start time (R99). -/
  ambientLatest : Option Nat := none
  records : PerChannel Result := ⟨{}, {}, {}⟩
  /-- The PANEL_TEMP period in seconds (R100). -/
  period : Nat := 10
  panelTimer : Option Nat := none
  batteryTimer : Option Nat := none
  missCount : Nat := 0
  abortCount : Nat := 0
deriving DecidableEq, Repr

/-! ### LGT: front light (chapter 6) -/

/-- A pair of duties, WARM and COOL, in thousandths of the period (R109). -/
structure Duty where
  warm : Nat := 0
  cool : Nat := 0
deriving DecidableEq, Repr

/-- The light mode (R115). -/
inductive LightMode where
  | off | manual | auto
deriving DecidableEq, Repr

/-- A point of the auto curve (R117). -/
structure Point where
  lux : Nat
  b : Nat
deriving DecidableEq, Repr

/-- The auto curve's four points (R117). -/
structure Curve where
  p0 : Point
  p1 : Point
  p2 : Point
  p3 : Point
deriving DecidableEq, Repr

/-- A sample decided on and not yet placed (R119): when it is placed and its latest-start time. -/
structure Placement where
  placeAt : Nat
  latest : Nat
deriving DecidableEq, Repr

/-- The state of LGT (chapter 6; R125 gives the values after a reset). -/
structure Lgt where
  /-- The next period boundary; none while the counter is stopped (R109, R123). -/
  nextBoundary : Option Nat := some Config.pwmPeriod
  index : Nat := 0
  /-- The model's own: the ramp step of the boundary to come has been taken by RAMP_TICK. -/
  rampTaken : Bool := false
  target : Duty := {}
  clamped : Duty := {}
  pending : Duty := {}
  latched : Duty := {}
  mode : LightMode := .off
  lastMode : LightMode := .manual
  manual : Nat := 300
  auto : Nat := 0
  mix : Nat := 50
  ceiling : Nat := 1000
  step : Nat := 5
  curve : Curve := ⟨⟨0, 50⟩, ⟨200, 200⟩, ⟨1000, 600⟩, ⟨4000, 900⟩⟩
  filtered : Option Nat := none
  firstSample : Bool := true
  skipRun : Nat := 0
  holdoff : Nat := 0
  stale : Bool := false
  taken : Nat := 0
  skipped : Nat := 0
  decided : Option Placement := none
deriving DecidableEq, Repr

/-! ### RAD: radio link (chapter 7) -/

/-- A segment in an assembly buffer (R128). -/
structure Segment where
  id : Byte
  index : Nat
  payload : List Byte
deriving DecidableEq, Repr

/-- An assembly buffer (R130). -/
inductive Buffer where
  | empty | assembling | waiting (segment : Segment)
deriving DecidableEq, Repr

/-- The result of a STATUS frame (R204). -/
inductive SegResult where
  | accepted | duplicate | badRange | outOfWindow | gapLimit | refused | overrun | held | aborted
deriving DecidableEq, Repr

/-- An entry of the STATUS transmit queue (R132). -/
structure StatusEntry where
  id : Byte
  lowest : Nat
  last : Nat
  result : SegResult
deriving DecidableEq, Repr

/-- The state of RAD (chapter 7; R152). The receiver is IN_FRAME exactly while a buffer is ASSEMBLING
(R128, R130). -/
structure Rad where
  bufA : Buffer := .empty
  bufB : Buffer := .empty
  queue : List StatusEntry := []
  /-- The STATUS frame being sent on TX, its 14 bytes (R132). -/
  sending : Option (List Byte) := none
  /-- The bit rate's code (11.3): 2 is 921600 baud. -/
  rate : Nat := 2
deriving DecidableEq, Repr

/-! ### SPL: download spooler (chapter 7) -/

/-- A download's stage (R133). -/
inductive DlState where
  | receiving | draining | complete | suspended | failed
deriving DecidableEq, Repr

/-- A download's fault reason (R133). -/
inductive DlFault where
  | stall | power | storageFault | storageTimeout | radioAbort
deriving DecidableEq, Repr

/-- A download record (R133). `runs` are (first, last) pairs, ascending. -/
structure Download where
  id : Byte
  state : DlState := .receiving
  total : Nat
  size : Nat
  start : Nat
  runs : List (Nat × Nat) := []
  committed : Nat := 0
  erased : Nat := 0
  fault : Option DlFault := none
  discards : Nat := 0
  stall : Option Nat := none
  removal : Bool := false
deriving DecidableEq, Repr

/-- A segment held in a staging block (R135). -/
structure Staged where
  id : Byte
  index : Nat
  block : Nat
deriving DecidableEq, Repr

/-- The state of SPL (chapter 7; R152). -/
structure Spl where
  table : List Download := []
  /-- The staging blocks held (R135). -/
  staging : List Nat := []
  staged : List Staged := []
  budget : Nat := 32
  /-- The stall time in seconds (R139). -/
  stallTime : Nat := 30
  /-- The hold limit in ms (R139). -/
  holdLimit : Nat := 2000
  /-- The place in the table where the next round starts (R145). -/
  round : Nat := 0
deriving DecidableEq, Repr

/-! ### STO: storage port (chapter 8) -/

/-- The kinds of operation (R155). -/
inductive OpKind where
  | read | program | erase
deriving DecidableEq, Repr

/-- How an operation ended (R155 to R157). -/
inductive OpOutcome where
  | ok | timeout | fault
deriving DecidableEq, Repr

/-- Where an operation stands in R155's script: the ready wait, the byte transfers of phases 2 to 4, the busy
wait, or the last phases (6 or 7). -/
inductive Stage where
  | readyWait | sending | busyWait | final
deriving DecidableEq, Repr

/-- A byte transfer on SD0–SD7 with the level of SPH beside it (R153): the byte STO drives with SWR, or none where it
reads with SRD a byte that the flash drives. -/
structure BusByte where
  sph : Bool
  value : Option Byte
deriving DecidableEq, Repr

/-- A request to the storage port (R159). `data` is a LINK program's 2048 bytes; `download` is the id of the
record a SPOOLER request is for. -/
structure StoRequest where
  kind : OpKind
  page : Nat
  data : List Byte := []
  download : Byte := 0#8
deriving DecidableEq, Repr

/-- The operation in progress (R155, R158). `buffer` is the page buffer's words (R154), `moved` the byte transfers
that have ended so far, `deadline` the limit of the wait phase, `stretch` the time at which the strobe of the transfer in
progress would have ended, while SWAIT stretches it (R153). -/
structure Op where
  requester : Requester
  kind : OpKind
  page : Nat
  download : Byte
  stage : Stage
  deadline : Nat
  buffer : List U16
  moved : List BusByte
  stretch : Option Nat := none
deriving DecidableEq, Repr

/-- A requester's latest finished operation (R158). -/
structure Finished where
  kind : OpKind
  page : Nat
  outcome : OpOutcome
deriving DecidableEq, Repr

/-- The state of STO (chapter 8; R166). -/
structure Sto where
  op : Option Op := none
  pending : PerRequester (Option StoRequest) := ⟨none, none, none⟩
  pointer : Requester := .loader
  latest : PerRequester (Option Finished) := ⟨none, none, none⟩
  faults : PerRequester Nat := ⟨0, 0, 0⟩
  timeouts : PerRequester Nat := ⟨0, 0, 0⟩
  /-- The SRDY input pin reads ready (R153, R155; log entry 3). -/
  srdy : Bool := true
deriving DecidableEq, Repr

/-! ### PWR: power supervisor (chapter 9) -/

/-- The battery level (R168). -/
inductive BatteryLevel where
  | normal | low | critical
deriving DecidableEq, Repr

/-- The load gate's holder (R170). -/
inductive Holder where
  | none | panel | radio
deriving DecidableEq, Repr

/-- The load gate (R170, R171). -/
structure Gate where
  holder : Holder := .none
  panelAsk : Bool := false
  radioAsk : Bool := false
  passing : Bool := false
  /-- The engine has released the gate at a scan's end, and asks again with the work that remains or follows (R61). -/
  renewed : Bool := false
deriving DecidableEq, Repr

/-- The power state (section 9.3). -/
inductive Power where
  | active | doze | deep | cutoff
deriving DecidableEq, Repr

/-- The kind of a DEEP entry that waits (R173). -/
inductive DeepKind where
  | commanded | automatic
deriving DecidableEq, Repr

/-- What woke the part from DEEP, or is to (R173, R176). -/
inductive WakeCause where
  | key | charger | wakeTimer | critical | host
deriving DecidableEq, Repr

/-- How the latest reset was taken (R185, R186). -/
inductive ResetCause where
  | powerOn | resetLine | cutoffExit | soft
deriving DecidableEq, Repr

/-- The state of PWR (chapter 9; R185). -/
structure Pwr where
  window : List Nat := []
  level : BatteryLevel := .normal
  lowMv : Nat := 3500
  critMv : Nat := 3350
  lowCeiling : Nat := 400
  /-- The deep-idle time in seconds (R174). -/
  deepIdle : Nat := 120
  gate : Gate := {}
  power : Power := .active
  deepWait : Option DeepKind := none
  pendingWake : Option WakeCause := none
  idleTimer : Option Nat := none
  wakeTimer : Option Nat := none
  graceTimer : Option Nat := none
  /-- The cutoff flag (R183). -/
  cutoff : Bool := false
  /-- The model's own: the no-context report of R184 has been acted on. -/
  sleepAsked : Bool := false
  designation : Option (Fin 16) := none
  /-- The CHARGER input pin reads present. -/
  chargerInput : Bool := false
  /-- The charger state is PRESENT (R178). -/
  charger : Bool := false
  chargerFilter : Option Nat := none
  wakeCause : Option WakeCause := none
  resetCause : ResetCause := .powerOn
deriving DecidableEq, Repr

/-! ### LNK: host link and notices (chapter 10) -/

/-- The status of a reply (11.4). -/
inductive Status where
  | ok | empty | tooLong | cut | unknownKind | badLength | badParam | powerDown
  | noMemory | loadBusy | slotBusy | slotPinned | slotState | slotListed | slotDesignated | notFullPanel
  | noWaveform | waveformBad | adoptionPending
  | badRect | badSource | queueFull | updateStarted | unknownUpdate
  | listFull
  | dlExists | dlTableFull | dlOverlap | unknownDownload | dlState | downloadActive
  | storageRange | storageLocked | storageFault | storageTimeout
  | noGrace
deriving DecidableEq, Repr

/-- The notice kinds (section 10.3). -/
inductive Notice where
  | updateDone | keyUnserved | keyReport | ringLow | slotReady | waveformAdopted | downloadDone
  | downloadFault | batteryLow | batteryCritical | charger | tempRange | sensorFault | wakeTimer
  | powerKey | lightKey
deriving DecidableEq, Repr

/-- A reply (R193). -/
structure Reply where
  kind : Byte
  tag : Byte
  status : Status
  overwrote : Bool := false
  discarded : Bool := false
  stray : Bool := false
  promoted : Bool := false
  demoted : Bool := false
  body : List Byte := []
deriving DecidableEq, Repr

/-- What a deferred request waits for (R192). -/
inductive Deferred where
  | storage | removal | softReset
deriving DecidableEq, Repr

/-- The request in processing (R192); present exactly while the request-in-progress flag is set. -/
structure Processing where
  kind : Byte
  tag : Byte
  work : Deferred
deriving DecidableEq, Repr

/-- The frame receiver and the transaction in progress (R188, R190, R194, R195). -/
inductive Receiver where
  /-- The receiver waits for a fall of CS. -/
  | idle
  /-- CS has fallen, and the header is still to come. -/
  | begun
  /-- CS is low in a transaction that is not heard: it began before the port took transactions, or was abandoned, and is
  discarded whole; the receiver waits for CS to rise (R188, R195). -/
  | unheard
  /-- An overlong Image Data frame, discarded whole (R190). -/
  | discarding
  /-- An Image Data frame, with the body bytes still to come; stray where it found no load open (R12). -/
  | imageData (left : Nat) (stray : Bool)
  /-- A read frame: the bytes shifted out on MISO, and whether the reply slot still holds that reply. -/
  | reading (miso : List Byte) (current : Bool)
deriving DecidableEq, Repr

/-- The state of LNK (chapter 10; R195). The notice sets are 2-byte words, bit n for kind n (11.7). -/
structure Lnk where
  receiver : Receiver := .idle
  processing : Option Processing := none
  reply : Option Reply := none
  discarded : Bool := false
  stray : Bool := false
  notices : U16 := 0#16
  enable : U16 := 0xFFFF#16
  wake : U16 := 0x62CA#16
  holdoff : Option Nat := none
deriving DecidableEq, Repr

/-! ### The whole part -/

/-- Whether the part is supplied, and whether RESET is asserted (R185). -/
inductive Supply where
  | off | resetHeld | on
deriving DecidableEq, Repr

/-- The state of the part, and the commands that wait, first in, first out. -/
structure State where
  /-- Counts of the 4 MHz clock since the latest full reset; the part's millisecond time is its quotient
  by 4000, wrapped at 2^32 (R72). -/
  clock : Nat := 0
  /-- The model's own: free values taken so far. -/
  freeUsed : Nat := 0
  supply : Supply := .on
  mem : Mem := {}
  wav : Wav := {}
  upd : Upd := {}
  trn : Trn := {}
  sns : Sns := {}
  lgt : Lgt := {}
  rad : Rad := {}
  spl : Spl := {}
  sto : Sto := {}
  pwr : Pwr := {}
  lnk : Lnk := {}
  /-- The commands that wait. -/
  pending : List Instr := []
deriving DecidableEq, Repr

/-- The part right after a full reset by power-on, no key pressed and no charger connected (R185 and every
chapter's reset rule): every block at its default, and the PANEL_TEMP and BATTERY requests that SNS places
at the end of the reset, the first of them in conversion for 18 µs (R107). -/
def State.reset : State :=
  { sns :=
      { converting := some (.panelTemp, 72)
        lastChannel := some .panelTemp
        requests := ⟨false, true, true⟩
        panelTimer := some 40000000
        batteryTimer := some 4000000 } }

end Sys2Proof.Machine
end

