-- ==== Sys2Proof/Machine/Operands.lean ====
section
/-! DEFINITION. The operand codes of the messages: which value of a byte is which name (R203, 11.3, 11.5).
A value outside an enumeration reads as none, and the message's own rule refuses it with BAD_PARAM. -/
namespace Sys2Proof.Machine
open Sys2Proof

/-- A slot id, 0..15 (R3). -/
def slotOf (b : Byte) : Option (Fin 16) :=
  if h : b.toNat < 16 then some ⟨b.toNat, h⟩ else none

/-- The byte of a slot id. -/
def slotByte (i : Fin 16) : Byte := BitVec.ofNat 8 i.val

/-- An optional slot id as a byte: 0xFF when absent (R203). -/
def optSlotByte : Option (Fin 16) → Byte
  | some i => slotByte i
  | none => 0xFF#8

/-- A Boolean carried in its own byte (R203). -/
def boolOf (b : Byte) : Option Bool :=
  if b = 0#8 then some false else if b = 1#8 then some true else none

/-- A Boolean as a byte (R203). -/
def boolByte (b : Bool) : Byte := if b then 1#8 else 0#8

/-- FULL, GRAY, QUICK are 0, 1, 2 (R203). -/
def modeOf (b : Byte) : Option Mode :=
  match b.toNat with
  | 0 => some .full
  | 1 => some .gray
  | 2 => some .quick
  | _ => none

/-- The code of a mode. -/
def Mode.code : Mode → Nat
  | .full => 0
  | .gray => 1
  | .quick => 2

/-- P4 is 0, P8 is 1 (11.3). -/
def formatOf (b : Byte) : Option Format :=
  match b.toNat with
  | 0 => some .p4
  | 1 => some .p8
  | _ => none

/-- The code of a format. -/
def Format.code : Format → Nat
  | .p4 => 0
  | .p8 => 1

/-- STOP is 0, WRAP is 1 (11.3). -/
def endBehaviourOf (b : Byte) : Option EndBehaviour :=
  match b.toNat with
  | 0 => some .stop
  | 1 => some .wrap
  | _ => none

/-- The code of an end behaviour. -/
def EndBehaviour.code : EndBehaviour → Nat
  | .stop => 0
  | .wrap => 1

/-- A forced level: 0xFF is absent, 0..15 a level, anything else an unknown code (R44, R203). -/
def forcedOf (b : Byte) : Option (Option Nat) :=
  if b = 0xFF#8 then some none else if b.toNat ≤ 15 then some (some b.toNat) else none

/-- A forced level as a byte. -/
def forcedByte : Option Nat → Byte
  | some f => BitVec.ofNat 8 f
  | none => 0xFF#8

/-- FORWARD is 0, BACKWARD is 1 (11.3). -/
def turnListOf (b : Byte) : Option TurnList :=
  match b.toNat with
  | 0 => some .forward
  | 1 => some .backward
  | _ => none

/-- The code of a list. -/
def TurnList.code : TurnList → Nat
  | .forward => 0
  | .backward => 1

/-- LOCAL is 0, REPORT is 1 (11.3). -/
def routingOf (b : Byte) : Option Routing :=
  match b.toNat with
  | 0 => some .turns
  | 1 => some .report
  | _ => none

/-- The code of a routing. -/
def Routing.code : Routing → Nat
  | .turns => 0
  | .report => 1

/-- OFF, MANUAL, AUTO are 0, 1, 2 (R115, R203). -/
def lightModeOf (b : Byte) : Option LightMode :=
  match b.toNat with
  | 0 => some .off
  | 1 => some .manual
  | 2 => some .auto
  | _ => none

/-- The code of a light mode. -/
def LightMode.code : LightMode → Nat
  | .off => 0
  | .manual => 1
  | .auto => 2

/-- The bit rate code of Spool Settings (11.3). -/
def rateOf (b : Byte) : Option Nat := if b.toNat ≤ 3 then some b.toNat else none

/-- The bit rate of a code, in baud (R126, 11.3). -/
def baud : Nat → Nat
  | 0 => 115200
  | 1 => 460800
  | 2 => 921600
  | _ => 3000000

/-- The four segment sizes (R133). -/
def segmentSizes : List Nat := [256, 512, 1024, 2048]

/-! ### One value of several -/

/-- The value kept for a key. -/
def PerKey.get {α : Type} (p : PerKey α) : Key → α
  | .forward => p.forward
  | .backward => p.backward
  | .power => p.power
  | .light => p.light

/-- The values with one key's replaced. -/
def PerKey.set {α : Type} (p : PerKey α) (k : Key) (a : α) : PerKey α :=
  match k with
  | .forward => { p with forward := a }
  | .backward => { p with backward := a }
  | .power => { p with power := a }
  | .light => { p with light := a }

/-- Every key's value changed alike. -/
def PerKey.map {α β : Type} (f : α → β) (p : PerKey α) : PerKey β :=
  ⟨f p.forward, f p.backward, f p.power, f p.light⟩

/-- The value kept for a channel. -/
def PerChannel.get {α : Type} (p : PerChannel α) : Channel → α
  | .ambient => p.ambient
  | .panelTemp => p.panelTemp
  | .battery => p.battery

/-- The values with one channel's replaced. -/
def PerChannel.set {α : Type} (p : PerChannel α) (c : Channel) (a : α) : PerChannel α :=
  match c with
  | .ambient => { p with ambient := a }
  | .panelTemp => { p with panelTemp := a }
  | .battery => { p with battery := a }

/-- The value kept for a requester. -/
def PerRequester.get {α : Type} (p : PerRequester α) : Requester → α
  | .link => p.link
  | .spooler => p.spooler
  | .loader => p.loader

/-- The values with one requester's replaced. -/
def PerRequester.set {α : Type} (p : PerRequester α) (r : Requester) (a : α) : PerRequester α :=
  match r with
  | .link => { p with link := a }
  | .spooler => { p with spooler := a }
  | .loader => { p with loader := a }

/-! ### Codes of the state's enumerations (R203, 11.6) -/

def SlotState.code : SlotState → Nat
  | .free => 0 | .loadingLink => 1 | .loadingStorage => 2 | .ready => 3 | .releasing => 4

def Owner.code : Owner → Nat
  | .host => 0 | .turn => 1 | .sleep => 2

def DlState.code : DlState → Nat
  | .receiving => 0 | .draining => 1 | .complete => 2 | .suspended => 3 | .failed => 4

/-- The fault reason's code, 0 when absent (11.6). -/
def dlFaultCode : Option DlFault → Nat
  | none => 0
  | some .stall => 1
  | some .power => 2
  | some .storageFault => 3
  | some .storageTimeout => 4
  | some .radioAbort => 5

/-- The result codes of a STATUS frame (R204). -/
def SegResult.code : SegResult → Nat
  | .accepted => 0 | .duplicate => 1 | .badRange => 2 | .outOfWindow => 3 | .gapLimit => 4
  | .refused => 5 | .overrun => 6 | .held => 7 | .aborted => 8

def Buffer.code : Buffer → Nat
  | .empty => 0 | .assembling => 1 | .waiting _ => 2

def Requester.code : Requester → Nat
  | .link => 0 | .spooler => 1 | .loader => 2

def OpKind.code : OpKind → Nat
  | .read => 0 | .program => 1 | .erase => 2

/-- The outcome's code in a storage status record: OK, STORAGE_TIMEOUT, STORAGE_FAULT in the order R155 and
R156 list them (DESIGN CHOICE, log entry 9). -/
def OpOutcome.code : OpOutcome → Nat
  | .ok => 0 | .timeout => 1 | .fault => 2

def BatteryLevel.code : BatteryLevel → Nat
  | .normal => 0 | .low => 1 | .critical => 2

def Holder.code : Holder → Nat
  | .none => 0 | .panel => 1 | .radio => 2

def Power.code : Power → Nat
  | .active => 0 | .doze => 1 | .deep => 2 | .cutoff => 3

/-- The DEEP entry's code: none 0, COMMANDED 1, AUTOMATIC 2 (11.6). -/
def deepKindCode : Option DeepKind → Nat
  | none => 0
  | some .commanded => 1
  | some .automatic => 2

/-- The wake cause's code: none 0, KEY, CHARGER, WAKE_TIMER, CRITICAL, HOST 1..5 (11.6). -/
def wakeCauseCode : Option WakeCause → Nat
  | none => 0
  | some .key => 1
  | some .charger => 2
  | some .wakeTimer => 3
  | some .critical => 4
  | some .host => 5

def ResetCause.code : ResetCause → Nat
  | .powerOn => 0 | .resetLine => 1 | .cutoffExit => 2 | .soft => 3

def Rails.code : Rails → Nat
  | .off => 0 | .rising _ => 1 | .onIdle => 2 | .scanning .. => 3 | .falling _ => 4

def Ctx.code : Ctx → Nat
  | .free => 0 | .reserved .. => 1 | .waiting .. => 2 | .running .. => 3

def Retired.code : Retired → Nat
  | .done => 0 | .doneEmpty => 1 | .superseded => 2 | .cancelled => 3

def Origin.code : Origin → Nat
  | .link => 0 | .turn => 1 | .power => 2

def RangeState.code : RangeState → Nat
  | .inside => 0 | .below => 1 | .above => 2

def Debounce.code : Debounce → Nat
  | .released => 0 | .pressSettling => 1 | .pressed => 2 | .releaseSettling => 3

def PowerDetail.code : PowerDetail → Nat
  | .none => 0 | .short => 1 | .long => 2

def keyCode : Key → Nat
  | .forward => 0 | .backward => 1 | .power => 2 | .light => 3

def Unserved.code : Unserved → Nat
  | .empty => 0 | .noWaveform => 1 | .powerDown => 2 | .queueFull => 3

def Channel.code : Channel → Nat
  | .ambient => 0 | .panelTemp => 1 | .battery => 2

/-- LENGTH 1, FRAME_COUNT 2, PERIOD 3, SYMBOL 4 (11.3). -/
def CommitReason.code : CommitReason → Nat
  | .length => 1 | .frameCount => 2 | .period => 3 | .symbol => 4

end Sys2Proof.Machine
end

