-- ==== Sys2Proof/Machine/Flags.lean ====
section
/-! DEFINITION. Notices, masks, status codes and reply flags (chapter 10, 11.4, 11.7): the bits of a notice
set, the lines ATTN and READY, and a reply's bytes. -/
namespace Sys2Proof.Machine
open Sys2Proof

/-- The bit of a notice kind in a notice set (11.7). -/
def Notice.bit : Notice → Nat
  | .updateDone => 0 | .keyUnserved => 1 | .keyReport => 2 | .ringLow => 3 | .slotReady => 4
  | .waveformAdopted => 5 | .downloadDone => 6 | .downloadFault => 7 | .batteryLow => 8
  | .batteryCritical => 9 | .charger => 10 | .tempRange => 11 | .sensorFault => 12 | .wakeTimer => 13
  | .powerKey => 14 | .lightKey => 15

/-- The notice set that holds one kind. -/
def Notice.set (k : Notice) : U16 := BitVec.twoPow 16 k.bit

/-- The default wake mask (R197, 11.7). -/
def defaultWake : U16 := 0x62CA#16

/-- The status code of a reply (11.4). -/
def Status.code : Status → Byte
  | .ok => 0x00#8 | .empty => 0x01#8 | .tooLong => 0x02#8 | .cut => 0x03#8
  | .unknownKind => 0x04#8 | .badLength => 0x05#8 | .badParam => 0x06#8 | .powerDown => 0x07#8
  | .noMemory => 0x10#8 | .loadBusy => 0x11#8 | .slotBusy => 0x12#8 | .slotPinned => 0x13#8
  | .slotState => 0x14#8 | .slotListed => 0x15#8 | .slotDesignated => 0x16#8 | .notFullPanel => 0x17#8
  | .noWaveform => 0x20#8 | .waveformBad => 0x21#8 | .adoptionPending => 0x22#8
  | .badRect => 0x30#8 | .badSource => 0x31#8 | .queueFull => 0x32#8 | .updateStarted => 0x33#8
  | .unknownUpdate => 0x34#8
  | .listFull => 0x40#8
  | .dlExists => 0x50#8 | .dlTableFull => 0x51#8 | .dlOverlap => 0x52#8 | .unknownDownload => 0x53#8
  | .dlState => 0x54#8 | .downloadActive => 0x55#8
  | .storageRange => 0x60#8 | .storageLocked => 0x61#8 | .storageFault => 0x62#8
  | .storageTimeout => 0x63#8
  | .noGrace => 0x70#8

/-- A byte of eight flags, bit 0 first. -/
def flagsByte (bits : List Bool) : Byte :=
  bits.foldr (fun b acc => (acc <<< 1) ||| boolByte b) 0#8

/-- The reply's flags: OVERWROTE, DISCARDED, STRAY, PROMOTED, DEMOTED from bit 0 (11.2). -/
def Reply.flags (r : Reply) : Byte :=
  flagsByte [r.overwrote, r.discarded, r.stray, r.promoted, r.demoted]

/-- The reply as MISO shifts it out: its 6-byte header and its body (11.2, R194). -/
def Reply.bytes (r : Reply) : List Byte :=
  [r.kind, r.tag, r.status.code, r.flags] ++ le16 (BitVec.ofNat 16 r.body.length) ++ r.body

/-- What an empty reply slot shifts out (R194). -/
def emptyReply : Reply := { kind := 0#8, tag := 0#8, status := .empty }

/-- READY is asserted while the reply slot holds a reply (R193), and deasserted while RESET holds the part,
in CUTOFF and without supply (R195). -/
def State.ready (s : State) : Bool :=
  s.supply = .on && s.pwr.power ≠ .cutoff && s.lnk.reply.isSome

/-- ATTN: some pending kind is in the mask of the power state (R197). -/
def State.attn (s : State) : Bool :=
  s.supply = .on &&
    match s.pwr.power with
    | .active => s.lnk.notices &&& s.lnk.enable ≠ 0#16
    | .doze | .deep => s.lnk.notices &&& s.lnk.wake ≠ 0#16
    | .cutoff => false

/-- A block raises a kind: it joins the pending set (R196). -/
def State.raise (s : State) (k : Notice) : State :=
  { s with lnk := { s.lnk with notices := s.lnk.notices ||| k.set } }

/-- A read frame in progress no longer shifts out the slot's reply once a new one takes the slot (R194). -/
def Receiver.replaced : Receiver → Receiver
  | .reading miso _ => .reading miso false
  | r => r

/-- A reply is placed (R193): it carries OVERWROTE where the slot held one, takes the two markers with it,
and ends the request in processing (R192). -/
def State.place (s : State) (r : Reply) : State :=
  { s with
    lnk :=
      { s.lnk with
        reply :=
          some { r with
            overwrote := s.lnk.reply.isSome
            discarded := s.lnk.discarded
            stray := s.lnk.stray }
        discarded := false
        stray := false
        processing := none
        receiver := s.lnk.receiver.replaced } }

/-- The reply to a message, with no PROMOTED or DEMOTED flag (R193). -/
def State.answer (s : State) (kind tag : Byte) (status : Status) (body : List Byte := []) : State :=
  s.place { kind := kind, tag := tag, status := status, body := body }

end Sys2Proof.Machine
end

