-- ==== Sys2Proof/Machine/Ops.lean ====
section
/-! DEFINITION. The named operations that more than one block uses: the sparse memory, the clock and its
timers, the fields of a record, the pixels of the picture memory, and the pool, the slots and their pins
(chapter 1). -/
namespace Sys2Proof.Machine
open Sys2Proof

/-! ### Sparse memory: addresses strictly rising, no entry equal to what an unlisted address reads as -/

/-- The byte at an address; `d` where the address is not listed. -/
def Memory.read (d : Byte) : List Cell → Nat → Byte
  | [], _ => d
  | (a, b) :: m, x => if a = x then b else Memory.read d m x

/-- Write one byte, keeping the canonical form: writing `d` removes the entry. -/
def Memory.write (d : Byte) : List Cell → Nat → Byte → List Cell
  | [], x, v => if v = d then [] else [(x, v)]
  | (a, b) :: m, x, v =>
    if x < a then (if v = d then (a, b) :: m else (x, v) :: (a, b) :: m)
    else if x = a then (if v = d then m else (x, v) :: m)
    else (a, b) :: Memory.write d m x v

/-- Write several bytes, one after another. -/
def Memory.writeMany (d : Byte) (m : List Cell) (ws : List Cell) : List Cell :=
  ws.foldl (fun m w => Memory.write d m w.1 w.2) m

/-- The writes of consecutive bytes from an address onward. -/
def Memory.run (start : Nat) (bytes : List Byte) : List Cell :=
  bytes.mapIdx fun i b => (start + i, b)

/-- The canonical form: strictly rising addresses above `lo`, no entry equal to `d`. -/
def Memory.wfFrom (d : Byte) : Nat → List Cell → Bool
  | _, [] => true
  | lo, (a, b) :: m => decide (lo ≤ a) && decide (b ≠ d) && Memory.wfFrom d (a + 1) m

/-- The canonical form of a sparse memory. -/
def Memory.wf (d : Byte) (m : List Cell) : Bool := Memory.wfFrom d 0 m

/-! ### Time -/

/-- The part's millisecond time, wrapping from 4,294,967,295 to 0 (R72). -/
def State.nowMs (s : State) : Nat := s.clock / Config.perMs % 4294967296

/-- The clock value `counts` from now. -/
def State.after (s : State) (counts : Nat) : Nat := s.clock + counts

/-- An event that falls at `deadline` is taken: time has reached it (log entry 2). -/
def State.reach (s : State) (deadline : Nat) : State := { s with clock := max s.clock deadline }

/-- The time a timer has still to run, in ms rounded upward (log entry 9); 0 when it is stopped. -/
def State.remainingMs (s : State) (timer : Option Nat) : Nat :=
  match timer with
  | some d => ceilDiv (d - s.clock) Config.perMs
  | none => 0

/-! ### The fields of a record (R203) -/

/-- A one-byte field. -/
def u8 (n : Nat) : List Byte := [BitVec.ofNat 8 n]
/-- A two-byte field. -/
def u16 (n : Nat) : List Byte := le16 (BitVec.ofNat 16 n)
/-- A four-byte field. -/
def u32 (n : Nat) : List Byte := le32 (BitVec.ofNat 32 n)
/-- A signed two-byte field (R203). -/
def i16 (n : Int) : List Byte := le16 (BitVec.ofInt 16 n)
/-- A Boolean field. -/
def flag (b : Bool) : List Byte := [boolByte b]
/-- An optional value: its presence flag, then its bytes, 0 when absent (R203). -/
def optional {α : Type} (width : Nat) (enc : α → List Byte) : Option α → List Byte
  | some a => 1#8 :: enc a
  | none => List.replicate (width + 1) 0#8
/-- A list: its count in one byte, then its items (R203). -/
def counted {α : Type} (enc : α → List Byte) (l : List α) : List Byte :=
  u8 l.length ++ l.flatMap enc

/-! ### Pixels of the picture memory (section 1.1, R16) -/

/-- The byte that holds pixel `n` of a picture whose blocks are `blocks`: 4096 pixels to a block, two to a
byte. -/
def pixelAddr (blocks : List Nat) (n : Nat) : Option Nat :=
  blocks[n / Config.blockPixels]?.map fun b =>
    b * Config.blockBytes + n % Config.blockPixels / 2

/-- A pixel's level within its byte: the even pixel is the high nibble (R10, R16). -/
def nibble (b : Byte) (n : Nat) : Level :=
  if n % 2 = 0 then b.extractLsb' 4 4 else b.extractLsb' 0 4

/-- The byte with one pixel's level replaced. -/
def putNibble (b : Byte) (n : Nat) (l : Level) : Byte :=
  if n % 2 = 0 then l ++ b.extractLsb' 0 4 else b.extractLsb' 4 4 ++ l

/-- A byte of the picture memory. -/
def Mem.byteAt (m : Mem) (a : Nat) : Byte := Memory.read Config.pictureDefault m.cells a

/-- The level of pixel `n` of the shown image: panel pixel (n mod 1280, n / 1280) (R1). -/
def Mem.shownLevel (m : Mem) (n : Nat) : Level := nibble (m.byteAt (n / 2)) n

/-- The level of pixel `n` of a slot. -/
def Mem.slotLevel (m : Mem) (i : Fin 16) (n : Nat) : Level :=
  match pixelAddr m.slots[i].blocks n with
  | some a => nibble (m.byteAt a) n
  | none => 15#4

/-- Write a byte of the picture memory. -/
def Mem.putByte (m : Mem) (a : Nat) (v : Byte) : Mem :=
  { m with cells := Memory.write Config.pictureDefault m.cells a v }

/-- Write several bytes of the picture memory. -/
def Mem.putBytes (m : Mem) (ws : List Cell) : Mem :=
  { m with cells := Memory.writeMany Config.pictureDefault m.cells ws }

/-- Write the level of pixel `n` of a slot. -/
def Mem.putSlotLevel (m : Mem) (i : Fin 16) (n : Nat) (l : Level) : Mem :=
  match pixelAddr m.slots[i].blocks n with
  | some a => m.putByte a (putNibble (m.byteAt a) n l)
  | none => m

/-- Every byte of a list of blocks set to level 15 in both pixels (R8). -/
def whitened (blocks : List Nat) : List Cell :=
  blocks.flatMap fun b =>
    Memory.run (b * Config.blockBytes) (List.replicate Config.blockBytes 0xFF#8)

/-! ### Pool, slots and pins (R2 to R7) -/

/-- The blocks a picture needs (section 1.1). -/
def blocksFor (w h : Nat) : Nat := ceilDiv (w * h) Config.blockPixels

/-- Replace one slot's record. -/
def Mem.setSlot (m : Mem) (i : Fin 16) (x : Slot) : Mem := { m with slots := m.slots.set i x }

/-- A slot becomes FREE: its blocks rejoin the pool and its record takes its reset values (R3). -/
def Mem.free (m : Mem) (i : Fin 16) : Mem :=
  { m with pool := m.pool ++ m.slots[i].blocks, slots := m.slots.set i {} }

/-- Slots that are not FREE hold these blocks in all. -/
def Mem.slotBlocks (m : Mem) : Nat := (m.slots.toList.map fun x => x.blocks.length).sum

/-- The owner of a slot is changed; every owner but TURN removes the page tag (R5). -/
def Mem.setOwner (m : Mem) (i : Fin 16) (o : Owner) (tag : Option U32) : Mem :=
  m.setSlot i { m.slots[i] with owner := o, tag := tag }

/-- An admission pins its source slot (R6). -/
def Mem.pin (m : Mem) (i : Fin 16) : Mem :=
  m.setSlot i { m.slots[i] with pins := m.slots[i].pins + 1 }

/-- A retirement releases a pin (R6); a RELEASING slot whose last pin goes becomes FREE (R7). -/
def Mem.unpin (m : Mem) (i : Fin 16) : Mem :=
  if m.slots[i].state = .releasing ∧ m.slots[i].pins ≤ 1 then m.free i
  else m.setSlot i { m.slots[i] with pins := m.slots[i].pins - 1 }

/-- TRN drops a slot: FREE at once without a pin, RELEASING otherwise (R7). -/
def Mem.drop (m : Mem) (i : Fin 16) : Mem :=
  if m.slots[i].pins = 0 then m.free i
  else m.setSlot i { m.slots[i] with state := .releasing }

/-! ### Block by block -/

/-- Change one block's state and nothing else. -/
def State.onMem (s : State) (f : Mem → Mem) : State := { s with mem := f s.mem }
def State.onWav (s : State) (f : Wav → Wav) : State := { s with wav := f s.wav }
def State.onUpd (s : State) (f : Upd → Upd) : State := { s with upd := f s.upd }
def State.onTrn (s : State) (f : Trn → Trn) : State := { s with trn := f s.trn }
def State.onSns (s : State) (f : Sns → Sns) : State := { s with sns := f s.sns }
def State.onLgt (s : State) (f : Lgt → Lgt) : State := { s with lgt := f s.lgt }
def State.onRad (s : State) (f : Rad → Rad) : State := { s with rad := f s.rad }
def State.onSpl (s : State) (f : Spl → Spl) : State := { s with spl := f s.spl }
def State.onSto (s : State) (f : Sto → Sto) : State := { s with sto := f s.sto }
def State.onPwr (s : State) (f : Pwr → Pwr) : State := { s with pwr := f s.pwr }
def State.onLnk (s : State) (f : Lnk → Lnk) : State := { s with lnk := f s.lnk }

/-! ### Conditions several blocks read -/

/-- The part is supplied, RESET is not asserted and it is not in CUTOFF: the blocks run. -/
def State.live (s : State) : Bool := s.supply = .on && s.pwr.power ≠ .cutoff

/-- A Soft Reset is in processing: its drain is in progress (R201). -/
def State.draining (s : State) : Bool :=
  match s.lnk.processing with
  | some p => p.work = .softReset
  | none => false

/-- The load gate applies while the level is LOW or CRITICAL (R170). -/
def State.gateApplies (s : State) : Bool := s.pwr.level ≠ .normal

/-- The power state is DEEP. -/
def State.inDeep (s : State) : Bool := s.pwr.power = .deep

/-- A counter that runs from 0 to 65535 and wraps to 0. -/
def wrap16 (n : Nat) : Nat := n % 65536

end Sys2Proof.Machine
end

