-- ==== Sys2Proof/Machine/Downloads.lean ====
section
/-! DEFINITION. The download record and SPL's own arithmetic (chapter 7): segments and pages, received runs,
the reserve, committability and the locked ranges; and RAD's CRC and STATUS frames. -/
namespace Sys2Proof.Machine
open Sys2Proof

/-! ### A record's arithmetic (R133) -/

/-- N = ceil(total / S). -/
def Download.segments (d : Download) : Nat := ceilDiv d.total d.size

/-- The pages the file occupies. -/
def Download.pages (d : Download) : Nat := ceilDiv d.total Config.blockBytes

/-- Segments to a page. -/
def Download.perPage (d : Download) : Nat := Config.blockBytes / d.size

/-- L: the end of the run that starts at 0, or 0. -/
def Download.lowest (d : Download) : Nat :=
  match d.runs with
  | (0, b) :: _ => b + 1
  | _ => 0

/-- The segments of a page, those below N. -/
def Download.pageSegments (d : Download) (page : Nat) : List Nat :=
  List.range' (page * d.perPage) (min d.perPage (d.segments - page * d.perPage))

/-- The index is in a run. -/
def inRuns (runs : List (Nat × Nat)) (i : Nat) : Bool := runs.any fun r => r.1 ≤ i && i ≤ r.2

/-- The index touches a run: it would extend one. -/
def touchesRun (runs : List (Nat × Nat)) (i : Nat) : Bool :=
  runs.any fun r => i = r.2 + 1 || i + 1 = r.1

/-- An index joins the runs: it extends a run, merges two, or starts a new one in its place (R141). -/
def addRun (i : Nat) : List (Nat × Nat) → List (Nat × Nat)
  | [] => [(i, i)]
  | (a, b) :: rest =>
    if i + 1 < a then (i, i) :: (a, b) :: rest
    else if i + 1 = a then (i, b) :: rest
    else if i ≤ b then (a, b) :: rest
    else if i = b + 1 then
      match rest with
      | (c, e) :: more => if c = i + 1 then (a, e) :: more else (a, i) :: rest
      | [] => [(a, i)]
    else (a, b) :: addRun i rest

/-- The page that holds segment L. -/
def Download.lowestPage (d : Download) : Nat := d.lowest / d.perPage

/-- The segments of the lowest page that are in no run. -/
def Download.shortfall (d : Download) : Nat :=
  ((d.pageSegments d.lowestPage).filter fun i => !inRuns d.runs i).length

/-- The payload length of a segment: S, and the remainder for the last (R133). -/
def Download.payloadLength (d : Download) (i : Nat) : Nat :=
  if i + 1 = d.segments then d.total - i * d.size else d.size

/-- The one run of the segments of the first pages (R149). -/
def Download.runsOfPages (d : Download) (pages : Nat) : List (Nat × Nat) :=
  let n := min (pages * d.perPage) d.segments
  if n = 0 then [] else [(0, n - 1)]

/-- Pages committed so far. -/
def Download.committedPages (d : Download) : Nat := ceilDiv d.committed Config.blockBytes

/-- The bytes of the file in a page: 2048, or the remainder on the last page (R146). -/
def Download.pageBytes (d : Download) (page : Nat) : Nat :=
  min Config.blockBytes (d.total - page * Config.blockBytes)

/-- A record's destination range is locked while it is RECEIVING or DRAINING (R133). -/
def Download.locked (d : Download) : Bool := d.state = .receiving || d.state = .draining

/-- The page lies in the record's destination range. -/
def Download.covers (d : Download) (page : Nat) : Bool := d.start ≤ page && page < d.start + d.pages

/-! ### The table, staging and the reserve -/

/-- The record of an id. -/
def Spl.find (p : Spl) (id : Byte) : Option Download := p.table.find? fun d => d.id = id

/-- Change the record of an id. -/
def Spl.update (p : Spl) (id : Byte) (f : Download → Download) : Spl :=
  { p with table := p.table.map fun d => if d.id = id then f d else d }

/-- The record's lowest missing index, 0 where no record has the id (R204). -/
def Spl.lowestOf (p : Spl) (id : Byte) : Nat :=
  match p.find id with
  | some d => d.lowest
  | none => 0

/-- The staging blocks that hold no segment (R135). -/
def Spl.freeBlocks (p : Spl) : Nat := p.staging.length - p.staged.length

/-- The staging block that an accepted segment is copied into: the first of staging that holds no segment, where R140 says
only a free one (DESIGN CHOICE, log entry 4). -/
def Spl.freeBlock (p : Spl) : Option Nat :=
  p.staging.find? fun b => p.staged.all fun g => g.block ≠ b

/-- The sum of the shortfalls of the lowest pages of all RECEIVING records (R135). -/
def Spl.reserve (p : Spl) : Nat :=
  ((p.table.filter fun d => d.state = .receiving).map Download.shortfall).sum

/-- Some record is RECEIVING or DRAINING. -/
def Spl.busy (p : Spl) : Bool := p.table.any Download.locked

/-- Some record is RECEIVING without a removal pending (R144). -/
def Spl.wantsGate (p : Spl) : Bool := p.table.any fun d => d.state = .receiving && !d.removal

/-- The page lies in the locked range of a record (R161). -/
def Spl.lockedPage (p : Spl) (page : Nat) : Bool := p.table.any fun d => d.locked && d.covers page

/-- A record's staged segments are discarded. -/
def Spl.discardStaged (p : Spl) (id : Byte) : Spl :=
  { p with staged := p.staged.filter fun g => g.id ≠ id }

/-- A record leaves the table; the round goes on with the record that followed it (R145). Where that record is removed
too before any request is placed, the round goes on at the same place in the table: with the record that then stands
there, one armed later included where none stood there, and with the first where no record does (DESIGN CHOICE, log entry
19: R145 does not say it). -/
def Spl.remove (p : Spl) (id : Byte) : Spl :=
  let at_ := p.table.findIdx fun d => d.id = id
  let table := p.table.eraseP fun d => d.id = id
  let round := if at_ < p.round then p.round - 1 else p.round
  { p.discardStaged id with
    table := table
    round := if at_ + 1 = p.round ∧ table.length ≤ round then 0 else round }

/-- Staging can carry a record that enters RECEIVING (R135). -/
def State.canCarry (s : State) (d : Download) : Bool :=
  let free := if s.spl.staging = [] then s.spl.budget else s.spl.freeBlocks
  (s.spl.staging ≠ [] || s.spl.budget ≤ s.mem.pool.length) && s.spl.reserve + d.shortfall ≤ free

/-- Staging is taken from the pool where none is held (R135). -/
def State.takeStaging (s : State) : State :=
  if s.spl.staging = [] then
    { s with
      mem := { s.mem with pool := s.mem.pool.drop s.spl.budget }
      spl := { s.spl with staging := s.mem.pool.take s.spl.budget } }
  else s

/-- Staging returns to the pool once no record is RECEIVING or DRAINING (R135). -/
def State.returnStaging (s : State) : State :=
  if s.spl.busy then s
  else
    { s with
      mem := { s.mem with pool := s.mem.pool ++ s.spl.staging }
      spl := { s.spl with staging := [], staged := [] } }

/-! ### Commit (R145) -/

/-- The record's next page. -/
def Download.nextPage (d : Download) : Nat := d.committed / Config.blockBytes

/-- The runs of a record are trimmed: some run lies within none of the new ones. -/
def trimmed (before after : List (Nat × Nat)) : Bool :=
  before.any fun r => !(after.any fun q => q.1 ≤ r.1 && r.2 ≤ q.2)

/-- What became of one record is an event in which SPL examines a WAITING segment again (R142): it was removed, it left
RECEIVING, its runs were trimmed, or its lowest page changed. -/
def Download.wakesWaiting (d : Download) : Option Download → Bool
  | none => true
  | some e =>
    (d.state = .receiving && e.state ≠ .receiving) || trimmed d.runs e.runs || d.lowestPage ≠ e.lowestPage

/-- What became of SPL's state is an event in which it examines a WAITING segment again (R142): staging blocks became
free, or it is one for some record. The change of the gate's holder is `State.withGate`'s. -/
def Spl.wakesWaiting (before after : Spl) : Bool :=
  decide (before.freeBlocks < after.freeBlocks) || before.table.any fun d => d.wakesWaiting (after.find d.id)

/-- A page is committable: every segment of it is in the run from 0 and held in staging (R145). -/
def Spl.committable (p : Spl) (d : Download) (page : Nat) : Bool :=
  d.locked && !d.removal && d.committed < d.total &&
    (d.pageSegments page).all fun i =>
      i < d.lowest && p.staged.any fun g => g.id = d.id && g.index = i

/-- The record's next storage operation: the erase of a block whose turn has come, else the program of the
next page (R145). -/
def Spl.nextOp (p : Spl) (d : Download) : Option StoRequest :=
  if p.committable d d.nextPage then
    some
      { kind := if d.nextPage % 64 = 0 ∧ d.erased = d.nextPage / 64 then .erase else .program
        page := d.start + d.nextPage
        download := d.id }
  else none

/-- The places of the table in the order of the round (R145). -/
def Spl.roundOrder (p : Spl) : List Nat :=
  let n := p.table.length
  (List.range n).map fun k => (p.round + k) % n

/-- The first record of the round that has a next operation: its place and the operation. -/
def Spl.nextRequest (p : Spl) : Option (Nat × StoRequest) :=
  p.roundOrder.findSome? fun k =>
    match p.table[k]? with
    | some d => (p.nextOp d).map fun r => (k, r)
    | none => none

/-- The 2048 bytes of page `page` of a record, from its staged segments in index order, 0xFF after the end of
the file (R145). -/
def State.composePage (s : State) (d : Download) (page : Nat) : List Byte :=
  let bytes :=
    (d.pageSegments page).flatMap fun i =>
      match s.spl.staged.find? fun g => g.id = d.id && g.index = i with
      | some g =>
        (List.range (d.payloadLength i)).map fun o => s.mem.byteAt (g.block * Config.blockBytes + o)
      | none => []
  bytes ++ List.replicate (Config.blockBytes - bytes.length) 0xFF#8

/-! ### The CRC and the STATUS queue (R127, R132, 11.9) -/

/-- One shift of the CRC register (R127). -/
def crcShift (r : U16) : U16 := if r.msb then (r <<< 1) ^^^ 0x1021#16 else r <<< 1

/-- One byte into the CRC register: into the upper 8 bits, then eight shifts (R127). -/
def crcByte (r : U16) (b : Byte) : U16 :=
  Nat.repeat crcShift 8 (r ^^^ (b ++ 0#8))

/-- The CRC of a frame's bytes from the kind byte on (R127). -/
def crc (bytes : List Byte) : U16 := bytes.foldl crcByte 0xFFFF#16

/-- The bytes of a radio-to-part frame that its CRC covers (R127, R128). -/
def radioFrameBytes (kind id : Byte) (index : U32) (payload : List Byte) : List Byte :=
  [kind, id] ++ le32 index ++ le16 (BitVec.ofNat 16 payload.length) ++ payload

/-- The 14 bytes of a STATUS frame (11.9). -/
def StatusEntry.bytes (e : StatusEntry) : List Byte :=
  let body := [3#8, e.id] ++ u32 e.lowest ++ u32 e.last ++ u8 e.result.code
  0xA5#8 :: body ++ le16 (crc body)

/-- A status becomes an entry of the queue (R132): replaced in place, or at the tail, or in place of the
oldest entry whose id names no record; `known id` says that the id names a record. A full queue with a new id that
names no record is not covered by R132 where some entry's id names none either: the status is not queued (DESIGN
CHOICE, log entry 19). -/
def enqueueStatus (known : Byte → Bool) (queue : List StatusEntry) (e : StatusEntry) :
    List StatusEntry :=
  if queue.any fun q => q.id = e.id then queue.map fun q => if q.id = e.id then e else q
  else if queue.length < 4 then queue ++ [e]
  else if known e.id then
    if queue.any fun q => !known q.id then (queue.eraseP fun q => !known q.id) ++ [e] else queue
  else queue

/-- RADIO_EN: asserted in ACTIVE and DOZE, the cutoff sequence included (R126). -/
def State.radioEn (s : State) : Bool :=
  s.supply = .on && (s.pwr.power = .active || s.pwr.power = .doze)

/-- The transmitter sends the head entry whenever it is idle and the queue is not empty (R132). -/
def State.transmit (s : State) : State :=
  if s.radioEn ∧ s.rad.sending = none then
    match s.rad.queue with
    | e :: rest => s.onRad fun r => { r with sending := some e.bytes, queue := rest }
    | [] => s
  else s

/-- A status is produced for an id (R132, R204). -/
def State.status (s : State) (id : Byte) (index : Nat) (result : SegResult) : State :=
  (s.onRad fun r =>
    { r with
      queue := enqueueStatus (fun i => (s.spl.find i).isSome) r.queue
        ⟨id, s.spl.lowestOf id, index, result⟩ }).transmit

/-- The record's discard count rises by 1, where a record has the id (R129, R130). -/
def State.countDiscard (s : State) (id : Byte) : State :=
  s.onSpl fun p => p.update id fun d => { d with discards := wrap16 (d.discards + 1) }

/-- Some buffer is ASSEMBLING: the receiver is IN_FRAME (R128, R130). -/
def Rad.inFrame (r : Rad) : Bool := r.bufA = .assembling || r.bufB = .assembling

/-- The WAITING segment, if a buffer holds one. -/
def Rad.waitingSegment (r : Rad) : Option Segment :=
  match r.bufA, r.bufB with
  | .waiting g, _ => some g
  | _, .waiting g => some g
  | _, _ => none

/-- The receiver claims an EMPTY buffer (R128): buffer A where both are EMPTY (DESIGN CHOICE, log entry 19). -/
def Rad.claim (r : Rad) : Rad :=
  if r.bufA = .empty then { r with bufA := .assembling }
  else if r.bufB = .empty then { r with bufB := .assembling }
  else r

/-- The ASSEMBLING buffer becomes something else. -/
def Rad.settleAssembling (r : Rad) (b : Buffer) : Rad :=
  if r.bufA = .assembling then { r with bufA := b }
  else if r.bufB = .assembling then { r with bufB := b }
  else r

/-- The WAITING buffer becomes EMPTY. -/
def Rad.clearWaiting (r : Rad) : Rad :=
  match r.bufA, r.bufB with
  | .waiting _, _ => { r with bufA := .empty }
  | _, .waiting _ => { r with bufB := .empty }
  | _, _ => r

/-- HOLD toward the radio module (R131); deasserted with every output in CUTOFF, under RESET and without
supply (R185). -/
def State.hold (s : State) : Bool :=
  s.live &&
    ((s.rad.inFrame && s.rad.waitingSegment.isSome) ||
      (s.gateApplies && s.pwr.gate.holder ≠ .radio) ||
      !s.spl.wantsGate || !s.radioEn || s.pwr.cutoff || s.pwr.gate.passing || s.draining)

end Sys2Proof.Machine
end

