-- ==== Sys2Proof/Machine/Storage.lean ====
section
/-! DEFINITION. STO's operations (chapter 8): the bus script of an operation, requests and the round-robin
arbiter, the phases and waits, and the record of a finished operation. -/
namespace Sys2Proof.Machine
open Sys2Proof

/-! ### Bytes, words and the bus (R153 to R155) -/

/-- Page data as words: two bytes from the bus make a word, the first its low byte; a word of which only the low
byte came is discarded (R154). -/
def toWords : List Byte → List U16
  | lo :: hi :: rest => (hi ++ lo) :: toWords rest
  | _ => []

/-- Words as the bus carries them: low byte first (R154). -/
def ofWords (ws : List U16) : List Byte := ws.flatMap le16

/-- A page number in three address bytes, least significant first, the upper five bits 0 (R154). -/
def addressBytes (page : Nat) : List Byte :=
  [BitVec.ofNat 8 (page % 256), BitVec.ofNat 8 (page / 256 % 256), BitVec.ofNat 8 (page / 65536 % 8)]

/-- A command byte and the three address bytes of a page, with SPH high (R153). -/
def commandBytes (command : Byte) (page : Nat) : List BusByte :=
  (command :: addressBytes page).map fun b => ⟨true, some b⟩

/-- Bytes that the flash drives, read with SPH low (R153). -/
def readBytes (n : Nat) : List BusByte := List.replicate n ⟨false, none⟩

/-- The command of an operation: 0x1A, 0x2B, 0x3C (R155). -/
def OpKind.command : OpKind → Byte
  | .read => 0x1A#8
  | .program => 0x2B#8
  | .erase => 0x3C#8

/-- The bytes STO writes in phases 2 to 4 (R155). -/
def Op.script (o : Op) : List BusByte :=
  commandBytes o.kind.command o.page ++
    match o.kind with
    | .program => (ofWords o.buffer).map fun b => ⟨false, some b⟩
    | _ => []

/-- The byte transfers of the last phase: the 2048 bytes of a read, or the status command, its address and the status
byte (R155). -/
def Op.lastScript (o : Op) : List BusByte :=
  match o.kind with
  | .read => readBytes Config.blockBytes
  | _ => commandBytes 0x4D#8 o.page ++ readBytes 1

/-- Every byte transfer of the operation, in order (R155). -/
def Op.transfers (o : Op) : List BusByte := o.script ++ o.lastScript

/-- The limit of the busy wait: 200 µs, 2 ms, 10 ms (R155). -/
def OpKind.busyLimit : OpKind → Nat
  | .read => 200 * Config.perUs
  | .program => 2 * Config.perMs
  | .erase => 10 * Config.perMs

/-- The limit of the ready wait (R155). -/
def readyLimit : Nat := 10 * Config.perMs

/-- The phase, 1..7, in which an operation stands (R155). -/
def Op.phase (o : Op) : Nat :=
  match o.stage with
  | .readyWait => 1
  | .sending => if o.moved.length = 0 then 2 else if o.moved.length < 4 then 3 else 4
  | .busyWait => 5
  | .final => if o.kind = .read then 6 else 7

/-- The transfers of phases 2 to 4 end and the busy wait begins (R155, R156). -/
def Op.transferred (o : Op) (now : Nat) : Op :=
  { o with stage := .busyWait, moved := o.script, deadline := now + o.kind.busyLimit, stretch := none }

/-- Bytes are being moved: SWAIT is judged (R153). -/
def Op.moving (o : Op) : Bool := o.stage = .sending || o.stage = .final

/-- The strobe in progress, which would have ended by now, is stretched: from now on, or for longer (R153). -/
def Op.stretched (o : Op) (now : Nat) : Op := { o with stretch := some (o.stretch.getD now) }

/-- The stretch in progress has passed 10 µs: the transfer cannot end any more (R153). -/
def Op.overdue (o : Op) (now : Nat) : Bool :=
  match o.stretch with
  | some start => start + Config.swaitLimit < now
  | none => false

/-- When the strobe in progress fails if SWAIT stays asserted: 10 µs after the time at which it would have ended, which
is the stretch's start, or the next tick where it is not stretched yet (R153; log entry 22). -/
def Op.swaitDeadline (o : Op) (now : Nat) : Nat := o.stretch.getD (now + 1) + Config.swaitLimit

/-- A tick on an operation: the strobe in progress ends, and its byte transfer with it, unless SWAIT is held, which
stretches it (R153). After the last transfer of phases 2 to 4 the busy wait begins; the last of the operation ends with
STORAGE_OPERATION_END, which brings what was read, and until then its strobe counts as stretched (log entry 22). -/
def Op.transferOne (o : Op) (now : Nat) (held : Bool) : Op :=
  if o.moving && (held || o.overdue now) then o.stretched now
  else
    match o.stage with
    | .sending =>
      if o.script.length ≤ o.moved.length + 1 then o.transferred now
      else { o with moved := o.script.take (o.moved.length + 1), stretch := none }
    | .final =>
      if o.moved.length + 1 < o.transfers.length then
        { o with moved := o.transfers.take (o.moved.length + 1), stretch := none }
      else o.stretched now
    | .readyWait | .busyWait => o

/-- A wait phase that finds SRDY ready ends at once (R155); in the other phases STO does not look at SRDY. The flash is
taken to leave ready as the operation's bytes begin to reach it (log entry 3). -/
def Sto.onReady (t : Sto) : Sto :=
  match t.op with
  | some o =>
    match o.stage with
    | .readyWait => if t.srdy then { t with op := some { o with stage := .sending }, srdy := false } else t
    | .busyWait => if t.srdy then { t with op := some { o with stage := .final } } else t
    | .sending | .final => t
  | none => t

/-- One byte of the operation in progress is moved, or its strobe is stretched. -/
def Sto.moveByte (t : Sto) (now : Nat) (held : Bool) : Sto :=
  Sto.onReady { t with op := t.op.map fun o => o.transferOne now held }

/-- The byte transfer in progress; none in the wait phases and between operations (R153). -/
def Op.onBus (o : Op) : Option BusByte :=
  match o.stage with
  | .sending | .final => o.transfers[o.moved.length]?
  | .readyWait | .busyWait => none

/-- What is on the bus: the byte STO drives on SD0–SD7 with SWR, or reads with SRD, or none where SD0–SD7 are not
driven and the strobes are idle (R153). -/
def State.bus (s : State) : Option BusByte := if s.live then s.sto.op.bind Op.onBus else none

/-- SPH: high while a command or an address byte is on the bus (R153). -/
def State.sph (s : State) : Bool := (s.bus.map BusByte.sph).getD false

/-- One tick of the 4 MHz clock on an empty queue: time passes, and an operation that moves bytes moves one, unless SWAIT,
whose level at the tick is a free value, stretches it (log entries 1, 3 and 22). Without supply and under RESET nothing
counts. -/
def State.tick (s : State) : State :=
  if s.supply = .on then
    { s with
      clock := s.clock + 1
      freeUsed := s.freeUsed + 1
      sto := s.sto.moveByte (s.clock + 1) (Config.swaitHeld s.freeUsed) }
  else s

/-! ### Requests and the arbiter (R159, R160) -/

/-- The requesters in the order the arbiter looks at them, beginning after the one its pointer names
(R160). -/
def Requester.roundFrom : Requester → List Requester
  | .link => [.spooler, .loader, .link]
  | .spooler => [.loader, .link, .spooler]
  | .loader => [.link, .spooler, .loader]

/-- The first requester of the round with a pending request. -/
def Sto.choice (t : Sto) : Option (Requester × StoRequest) :=
  t.pointer.roundFrom.findSome? fun r => (t.pending.get r).map fun q => (r, q)

/-- The arbiter may start an operation: STO is free, and neither DEEP, a waiting DEEP entry (R164), the cutoff
sequence (R165) nor the drain of a soft reset (R166) holds it back. -/
def State.stoMayStart (s : State) : Bool :=
  s.live && s.sto.op = none && !s.inDeep && s.pwr.deepWait = none && !s.pwr.cutoff && !s.draining

/-- The data a program takes into the page buffer when it starts (R158). -/
def State.programData (s : State) (r : Requester) (q : StoRequest) : List Byte :=
  match q.kind, r with
  | .program, .spooler =>
    match s.spl.find q.download with
    | some d => s.composePage d (q.page - d.start)
    | none => []
  | .program, _ => q.data
  | _, _ => []

/-- The operation that a request starts, in its ready wait (R155, R158). -/
def State.operation (s : State) (r : Requester) (q : StoRequest) : Op :=
  { requester := r
    kind := q.kind
    page := q.page
    download := q.download
    stage := .readyWait
    deadline := s.after readyLimit
    buffer := toWords (s.programData r q)
    moved := [] }

/-- The arbiter acts (R160); where SRDY reads ready, the ready wait ends in the same event (R155). -/
def State.stoArbitrate (s : State) : State :=
  if s.stoMayStart then
    match s.sto.choice with
    | some (r, q) =>
      s.onSto fun t =>
        Sto.onReady { t with op := some (s.operation r q), pending := t.pending.set r none, pointer := r }
    | none => s
  else s

/-- A requester places a request (R159); in the cutoff sequence none is taken (R165). -/
def State.stoPlace (s : State) (r : Requester) (q : StoRequest) : State :=
  if s.pwr.cutoff then s else s.onSto fun t => { t with pending := t.pending.set r (some q) }

/-- A pending request is withdrawn (R159). -/
def Sto.withdraw (t : Sto) (r : Requester) : Sto := { t with pending := t.pending.set r none }

/-- Every pending request is withdrawn (R164, R165). -/
def Sto.withdrawAll (t : Sto) : Sto := { t with pending := ⟨none, none, none⟩ }

/-- The requester has a request with STO, pending or in progress (R159). -/
def Sto.has (t : Sto) (r : Requester) : Bool :=
  (t.pending.get r).isSome ||
    match t.op with
    | some o => o.requester = r
    | none => false

/-- An operation's end is recorded as its requester's latest, with its count, and STO holds no operation
(R158 steps 1 and 3). -/
def Sto.finish (t : Sto) (o : Op) (outcome : OpOutcome) : Sto :=
  { t with
    op := none
    latest := t.latest.set o.requester (some ⟨o.kind, o.page, outcome⟩)
    faults :=
      if outcome = .fault then t.faults.set o.requester (wrap16 (t.faults.get o.requester + 1))
      else t.faults
    timeouts :=
      if outcome = .timeout then t.timeouts.set o.requester (wrap16 (t.timeouts.get o.requester + 1))
      else t.timeouts }

/-- The status of a storage reply (R162). -/
def OpOutcome.status : OpOutcome → Status
  | .ok => .ok
  | .timeout => .storageTimeout
  | .fault => .storageFault

/-- The storage message's kind byte for an operation (11.3). -/
def OpKind.message : OpKind → Byte
  | .read => 0x80#8
  | .program => 0x81#8
  | .erase => 0x82#8

end Sys2Proof.Machine
end

