-- ==== Sys2Proof/Machine/Spooler.lean ====
section
/-! DEFINITION. What SPL and RAD do together with MEM and STO (chapter 7): placing the next request,
acceptance, suspension, failure and removal of a record, and the end of a spooler operation. -/
namespace Sys2Proof.Machine
open Sys2Proof

/-- SPL places its next request where it holds none and some record has a next operation (R145); in the drain of
a soft reset it places none (R151). A record counts as served when its request is placed, whether or not that is
withdrawn before it starts (DESIGN CHOICE, log entry 19). -/
def State.splNext (s : State) : State :=
  if s.sto.has .spooler || s.draining || s.pwr.cutoff then s
  else
    match s.spl.nextRequest with
    | some (k, q) => (s.onSpl fun p => { p with round := k + 1 }).stoPlace .spooler q
    | none => s

/-- A spooler operation for the record is in progress. -/
def State.opFor (s : State) (id : Byte) : Bool :=
  match s.sto.op with
  | some o => o.requester = .spooler && o.download = id
  | none => false

/-- A program for the record is in progress. -/
def State.programFor (s : State) (id : Byte) : Bool :=
  match s.sto.op with
  | some o => o.requester = .spooler && o.download = id && o.kind = .program
  | none => false

/-- A storage request for the record that is pending with STO is withdrawn (R159). -/
def State.withdrawFor (s : State) (id : Byte) : State :=
  match s.sto.pending.spooler with
  | some q => if q.download = id then s.onSto fun t => t.withdraw .spooler else s
  | none => s

/-! ### Acceptance (R140 to R142) -/

/-- What the tests of R140 decide of a segment. -/
inductive Verdict where
  | result (r : SegResult)
  | waits
  | stores (d : Download) (block : Nat)
deriving DecidableEq, Repr

/-- Staging has room for a segment (R141). -/
def Spl.hasRoom (p : Spl) (d : Download) (i : Nat) : Bool :=
  if i ∈ d.pageSegments d.lowestPage then 0 < p.freeBlocks else p.reserve < p.freeBlocks

/-- The tests of R140, in order. Test 2 decides only for a WAITING segment: a fresh one that RADIO's gate does
not allow has been dropped by R130. -/
def State.judge (s : State) (g : Segment) : Verdict :=
  match s.spl.find g.id with
  | none => .result .refused
  | some d =>
    if d.state ≠ .receiving || d.removal then .result .refused
    else if s.gateApplies ∧ s.pwr.gate.holder ≠ .radio then .result .held
    else if d.segments ≤ g.index || g.payload.length ≠ d.payloadLength g.index then .result .badRange
    else if inRuns d.runs g.index then .result .duplicate
    else if d.lowest + 64 ≤ g.index then .result .outOfWindow
    else if !touchesRun d.runs g.index && 8 ≤ d.runs.length then .result .gapLimit
    else if !s.spl.hasRoom d g.index then .waits
    else
      match s.spl.freeBlock with
      | some b => .stores d b
      | none => .waits

/-- The record after one of its segments is accepted: the index joins the runs, the stall timer restarts, and
with the last missing segment the record becomes DRAINING (R140 test 8, R147). -/
def Download.accept (d : Download) (i stallAt : Nat) : Download :=
  let d := { d with runs := addRun i d.runs, stall := some stallAt }
  if d.lowest = d.segments then { d with state := .draining, stall := none } else d

/-- A segment is stored in a free staging block (R140 test 8). -/
def State.store (s : State) (g : Segment) (block : Nat) : State :=
  let s := s.onMem fun m => m.putBytes (Memory.run (block * Config.blockBytes) g.payload)
  let s :=
    s.onSpl fun p =>
      { p.update g.id fun d => d.accept g.index (s.after (p.stallTime * Config.perS)) with
        staged := p.staged ++ [⟨g.id, g.index, block⟩] }
  s.status g.id g.index .accepted

/-- A segment is dropped HELD or OVERRUN: the record's discard count rises (R130, R142). -/
def State.dropSegment (s : State) (g : Segment) (r : SegResult) : State :=
  (s.countDiscard g.id).status g.id g.index r

/-- A segment is given an outcome; HELD counts as a discard (R140). -/
def State.outcome (s : State) (g : Segment) (r : SegResult) : State :=
  if r = .held then s.dropSegment g r else s.status g.id g.index r

/-- SPL examines a WAITING segment again (R142); in the drain of a soft reset it examines none (R151). -/
def State.examineWaiting (s : State) : State :=
  if s.draining then s
  else
    match s.rad.waitingSegment with
    | none => s
    | some g =>
      match s.judge g with
      | .waits => s
      | .result r => (s.onRad Rad.clearWaiting).outcome g r
      | .stores _ b => (s.onRad Rad.clearWaiting).store g b

/-- What follows a change of the spooler's records or staging, in the event of the change: staging returns once
none needs it, the next request is placed, a WAITING segment is examined again where `examine` says that the change is
an event of R142, and the arbiter acts. -/
def State.spooler (s : State) (examine : Bool) : State :=
  let s := s.returnStaging.splNext
  ((if examine then s.examineWaiting else s).splNext).stoArbitrate

/-- A fresh DATA segment that has been received whole is judged (R130, R140, R142). -/
def State.takeSegment (s : State) (g : Segment) : State :=
  if s.gateApplies ∧ s.pwr.gate.holder ≠ .radio then
    (s.onRad fun r => r.settleAssembling .empty).dropSegment g .held
  else
    match s.judge g with
    | .result r => (s.onRad fun r => r.settleAssembling .empty).outcome g r
    | .stores _ b => (s.onRad fun r => r.settleAssembling .empty).store g b
    | .waits =>
      if s.rad.waitingSegment.isSome then
        (s.onRad fun r => r.settleAssembling .empty).dropSegment g .overrun
      else s.onRad fun r => r.settleAssembling (.waiting g)

/-! ### Records that leave RECEIVING (R137, R143, R146, R149) -/

/-- A record leaves acceptance: its stall timer stops, its staged segments are discarded, and its pending storage
request is withdrawn. -/
def State.releaseRecord (s : State) (id : Byte) (f : Download → Download) : State :=
  (s.onSpl fun p => (p.update id fun d => { f d with stall := none }).discardStaged id).withdrawFor id

/-- The pages whose segments stay in the runs at suspension: the committed ones and the one in program
(R149). -/
def State.keptPages (s : State) (d : Download) : Nat :=
  d.committedPages + (if s.programFor d.id then 1 else 0)

/-- A record is suspended (R149). -/
def State.suspend (s : State) (id : Byte) (why : DlFault) : State :=
  s.releaseRecord id fun d =>
    { d with state := .suspended, fault := some why, runs := d.runsOfPages (s.keptPages d) }

/-- A record fails by an ABORT frame: its runs are trimmed as at suspension (R143). -/
def State.abort (s : State) (id : Byte) : State :=
  (s.releaseRecord id fun d =>
    { d with state := .failed, fault := some .radioAbort, runs := d.runsOfPages (s.keptPages d) }).raise
    .downloadFault

/-- A record fails by a storage fault: its runs are trimmed to its committed bytes (R146). -/
def State.failStorage (s : State) (id : Byte) (why : DlFault) : State :=
  (s.releaseRecord id fun d =>
    { d with state := .failed, fault := some why, runs := d.runsOfPages d.committedPages }).raise
    .downloadFault

/-- A record is removed, its pending storage request with it. -/
def State.removeRecord (s : State) (id : Byte) : State :=
  (s.withdrawFor id).onSpl fun p => p.remove id

/-! ### The end of a spooler operation (R146, R147) -/

/-- A page program ends without fault: committed bytes rise and the page's staging blocks become free. -/
def Spl.programmed (p : Spl) (id : Byte) (page : Nat) : Spl :=
  let segs := match p.find id with
    | some d => d.pageSegments page
    | none => []
  { p.update id fun d => { d with committed := d.committed + d.pageBytes page } with
    staged := p.staged.filter fun g => !(g.id = id && segs.contains g.index) }

/-- A DRAINING record whose committed bytes reach the total becomes COMPLETE, and DOWNLOAD_DONE is raised
(R147). -/
def State.completeRecord (s : State) (id : Byte) : State :=
  match s.spl.find id with
  | some d =>
    if d.state = .draining ∧ d.total ≤ d.committed then
      (s.onSpl fun p => p.update id fun d => { d with state := .complete }).raise .downloadDone
    else s
  | none => s

/-- A record whose removal waited is removed, and the reply to the Cancel or Clear is placed (R137, R138). -/
def State.finishRemoval (s : State) (id : Byte) : State :=
  let s := s.removeRecord id
  match s.lnk.processing with
  | some p => if p.work = .removal then s.answer p.kind p.tag .ok else s
  | none => s

/-- STO hands a spooler operation's outcome to SPL (R146). -/
def State.spoolerDone (s : State) (o : Op) (outcome : OpOutcome) : State :=
  match s.spl.find o.download with
  | none => s
  | some d =>
    if d.removal then s.finishRemoval d.id
    else
      match outcome with
      | .ok =>
        match o.kind with
        | .erase => s.onSpl fun p => p.update d.id fun d => { d with erased := d.erased + 1 }
        | .program => (s.onSpl fun p => p.programmed d.id (o.page - d.start)).completeRecord d.id
        | .read => s
      | .fault =>
        if d.locked || d.state = .suspended then s.failStorage d.id .storageFault else s
      | .timeout =>
        if d.locked || d.state = .suspended then s.failStorage d.id .storageTimeout else s

end Sys2Proof.Machine
end

