-- ==== Sys2Proof/Machine/Pictures.lean ====
section
/-! DEFINITION. MEM's two loaders (sections 1.3 and 1.4): pixel bytes into the link load's slot, and flash pages
into the storage load's slot. -/
namespace Sys2Proof.Machine
open Sys2Proof

/-- The pixels of a slot's picture. -/
def Slot.pixels (x : Slot) : Nat := x.width * x.height

/-- The level a P8 byte is reduced to (R41). -/
def reduceP8 (v : Byte) : Level := BitVec.ofNat 4 ((v.toNat * 15 + 128) / 256)

/-- The levels a body byte carries, in the order they are applied (R10). -/
def Format.levels (f : Format) (v : Byte) : List Level :=
  match f with
  | .p4 => [v.extractLsb' 4 4, v.extractLsb' 0 4]
  | .p8 => [reduceP8 v]

/-- Write one level at the cursor of the link load and advance it (R10). -/
def Mem.putAtCursor (m : Mem) (l : LinkLoad) (level : Level) : Mem :=
  { m.putSlotLevel l.slot l.cursor level with
    linkLoad :=
      some { l with cursor := l.cursor + 1, written := max l.written (l.cursor + 1) } }

/-- One level is applied to the open link load (R10): at the end of the picture STOP discards it and sets the
overflow flag, and WRAP returns the cursor to 0 first. -/
def Mem.applyLevel (m : Mem) (level : Level) : Mem :=
  match m.linkLoad with
  | none => m
  | some l =>
    let size := m.slots[l.slot].pixels
    if l.cursor < size then m.putAtCursor l level
    else
      match l.endBehaviour with
      | .stop => { m with linkLoad := some { l with overflow := true } }
      | .wrap => m.putAtCursor { l with cursor := 0, written := size } level

/-- The held byte becomes absent (R10, R11). -/
def Mem.dropHeld (m : Mem) : Mem :=
  { m with linkLoad := m.linkLoad.map fun l => { l with held := none } }

/-- A complete body byte is applied to the open link load (R10). -/
def Mem.applyByte (m : Mem) (v : Byte) : Mem :=
  match m.linkLoad with
  | none => m
  | some l => ((l.format.levels v).foldl Mem.applyLevel m).dropHeld

/-- The load result is cleared where it names the slot (R17). -/
def Mem.clearResult (m : Mem) (i : Fin 16) : Mem :=
  match m.loadResult with
  | some r => if r.slot = i then { m with loadResult := none } else m
  | none => m

/-- Blocks leave the pool for a slot, which takes its dimensions and its new state (R8, R15). -/
def Mem.allocate (m : Mem) (i : Fin 16) (state : SlotState) (w h : Nat) : Mem :=
  let n := blocksFor w h
  ({ m with pool := m.pool.drop n }).setSlot i
    { state := state, width := w, height := h, blocks := m.pool.take n }

/-- The refusal of a slot that is not FREE, for Open Image and Load Slot From Storage (R8 test 2). -/
def Slot.notFree (x : Slot) : Option Status :=
  match x.state with
  | .free => none
  | .loadingLink | .loadingStorage | .releasing => some .slotBusy
  | .ready => if 0 < x.pins then some .slotPinned else some .slotState

/-! ### The storage loader (R16 to R18) -/

/-- The byte of slot block `k` at offset `j` after page data `v` is written: a pixel beyond the picture keeps what
was there (R16). -/
def pageByte (pixels k j : Nat) (old v : Byte) : Byte :=
  let p := Config.blockPixels * k + 2 * j
  (if p < pixels then v.extractLsb' 4 4 else old.extractLsb' 4 4) ++
    (if p + 1 < pixels then v.extractLsb' 0 4 else old.extractLsb' 0 4)

/-- The writes of page `k`'s bytes into a slot's block `k` (R16). -/
def Mem.pageWrites (m : Mem) (x : Slot) (k : Nat) (data : List Byte) : List Cell :=
  match x.blocks[k]? with
  | some b =>
    data.mapIdx fun j v =>
      let a := b * Config.blockBytes + j
      (a, pageByte x.pixels k j (m.byteAt a) v)
  | none => []

/-- The loader places the request for its next unread page, where it has none with STO, the part is not in DEEP
(R18) and no soft reset drains (R21). -/
def State.loaderNext (s : State) : State :=
  match s.mem.storageLoad with
  | some l =>
    if l.written < l.pageCount ∧ s.sto.has .loader = false ∧ s.inDeep = false ∧ s.draining = false then
      s.stoPlace .loader { kind := .read, page := l.startPage + l.written }
    else s
  | none => s

/-- A page of the storage load has been read (R16). -/
def State.pageRead (s : State) (l : StorageLoad) (data : List Byte) : State :=
  let m := s.mem.putBytes (s.mem.pageWrites s.mem.slots[l.slot] l.written data)
  if l.written + 1 < l.pageCount then
    ({ s with mem := { m with storageLoad := some { l with written := l.written + 1 } } }).loaderNext
  else
    State.raise
      { s with
        mem :=
          { m.setSlot l.slot { m.slots[l.slot] with state := .ready, incomplete := false } with
            storageLoad := none
            loadResult := some ⟨l.slot, false, l.pageCount, l.written + 1⟩ } }
      .slotReady

/-- A page read of the storage load ended with a fault (R17). -/
def State.loadFault (s : State) (l : StorageLoad) : State :=
  State.raise
    { s with
      mem :=
        { s.mem.free l.slot with
          storageLoad := none
          loadResult := some ⟨l.slot, true, l.pageCount, l.written⟩ } }
    .slotReady

/-- STO hands a loader operation's outcome to MEM (R16, R17). -/
def State.loaderDone (s : State) (outcome : OpOutcome) (data : List Byte) : State :=
  match s.mem.storageLoad with
  | some l =>
    match outcome with
    | .ok => s.pageRead l data
    | _ => s.loadFault l
  | none => s

/-- STO hands a host-link operation's outcome to LNK: the deferred reply is placed (R162). -/
def State.linkDone (s : State) (o : Op) (outcome : OpOutcome) (data : List Byte) : State :=
  match s.lnk.processing with
  | some p =>
    s.answer p.kind p.tag outcome.status (u32 o.page ++ if outcome = .ok then data else [])
  | none => s

/-- An operation ends (R158): its outcome is recorded and handed to its requester. What follows in the same event
is `State.settle`'s. A read that ended OK delivers the page buffer's 2048 bytes. -/
def State.stoEnd (s : State) (o : Op) (outcome : OpOutcome) (data : List Byte) : State :=
  let s := s.onSto fun t => t.finish o outcome
  match o.requester with
  | .link => s.linkDone o outcome data
  | .spooler => s.spoolerDone o outcome
  | .loader => s.loaderDone outcome data

end Sys2Proof.Machine
end

