-- ==== Sys2Proof/Machine/Light.lean ====
section
/-! DEFINITION. LGT's operations (chapter 6), each on LGT's own state: brightness and mix, the ceiling, the
ramp, the period boundary, the ambient opportunity and the ambient filter. -/
namespace Sys2Proof.Machine
open Sys2Proof

/-- The sum of a pair of duties. -/
def Duty.sum (d : Duty) : Nat := d.warm + d.cool

/-- The greater of a pair of duties. -/
def Duty.max (d : Duty) : Nat := Max.max d.warm d.cool

/-- The target duties of a brightness and a warm mix (R111). -/
def splitDuty (b m : Nat) : Duty := ⟨(b * m + 50) / 100, b - (b * m + 50) / 100⟩

/-- A pair of duties scaled to a ceiling where its sum exceeds it (R112). -/
def Duty.clampTo (d : Duty) (c : Nat) : Duty :=
  if c < d.sum then ⟨d.warm * c / d.sum, d.cool * c / d.sum⟩ else d

/-- The brightness in use (R111). -/
def Lgt.inUse (l : Lgt) : Nat :=
  match l.mode with
  | .off => 0
  | .manual => l.manual
  | .auto => l.auto

/-- The targets and the clamped targets are recomputed (R111, R112). -/
def Lgt.retarget (l : Lgt) : Lgt :=
  { l with
    target := splitDuty l.inUse l.mix
    clamped := (splitDuty l.inUse l.mix).clampTo l.ceiling }

/-- A ceiling announcement (R113). -/
def Lgt.announce (l : Lgt) (c : Nat) : Lgt :=
  let l : Lgt := { l with ceiling := c }.retarget
  { l with pending := l.pending.clampTo c }

/-- One ramp step of one duty toward its clamped target (R114). -/
def rampToward (duty target step : Nat) : Nat :=
  if duty < target then duty + min step (target - duty) else duty - min step (duty - target)

/-- A ramp tick (R114). -/
def Lgt.ramp (l : Lgt) : Lgt :=
  { l with
    pending :=
      ⟨rampToward l.pending.warm l.clamped.warm l.step, rampToward l.pending.cool l.clamped.cool l.step⟩ }

/-- The consecutive-skip count rises, stops at 255, and makes the reading stale at 8 (R120). -/
def Lgt.missed (l : Lgt) : Lgt :=
  { l with
    skipRun := min 255 (l.skipRun + 1)
    stale := l.stale || 8 ≤ min 255 (l.skipRun + 1) }

/-- A skipped opportunity (R119, R120). -/
def Lgt.skip (l : Lgt) : Lgt := { l.missed with skipped := wrap16 (l.skipped + 1) }

/-- A decided placement not yet made is cancelled and counted as skipped (R119). -/
def Lgt.cancelDecided (l : Lgt) : Lgt :=
  match l.decided with
  | some _ => { l.skip with decided := none }
  | none => l

/-- The ambient opportunity of the period that begins at `start` (R119). -/
def Lgt.opportunity (l : Lgt) (scanning : Bool) (start : Nat) : Lgt :=
  if scanning then l.skip
  else if 0 < l.holdoff then { l.skip with holdoff := l.holdoff - 1 }
  else if 908 < l.latched.max then l.skip
  else { l with decided := some ⟨start + (l.latched.max + 20), start + 928⟩ }

/-- The ramp step that belongs to the boundary at which the period index becomes `index`, unless RAMP_TICK
has taken it (R110 step 1). -/
def Lgt.rampAt (l : Lgt) (index : Nat) : Lgt :=
  if index % 8 = 0 ∧ l.rampTaken = false then l.ramp else l

/-- The period boundary that falls at `at_`: ramp, latch, opportunity (R110). -/
def Lgt.boundary (l : Lgt) (scanning : Bool) (at_ : Nat) : Lgt :=
  let index := (l.index + 1) % 64
  let l := l.rampAt index
  let l : Lgt :=
    { l with
      rampTaken := false
      latched := l.pending
      index := index
      nextBoundary := some (at_ + Config.pwmPeriod) }
  if index = 0 ∧ l.mode ≠ .off then l.opportunity scanning at_ else l

/-- The auto brightness of a filtered lux (R122); the floor is toward minus infinity. -/
def Curve.at_ (c : Curve) (lux : Nat) : Nat :=
  let seg (p q : Point) : Nat :=
    ((p.b : Int) + ((lux : Int) - p.lux) * ((q.b : Int) - p.b) / ((q.lux : Int) - p.lux)).toNat
  if lux < c.p0.lux then c.p0.b
  else if c.p3.lux ≤ lux then c.p3.b
  else if lux < c.p1.lux then seg c.p0 c.p1
  else if lux < c.p2.lux then seg c.p1 c.p2
  else seg c.p2 c.p3

/-- The auto brightness is recomputed from the filtered ambient, and in AUTO the targets follow (R122). -/
def Lgt.reauto (l : Lgt) : Lgt :=
  match l.filtered with
  | some a =>
    let l := { l with auto := l.curve.at_ (2 * a) }
    if l.mode = .auto then l.retarget else l
  | none => l

/-- The filter takes a sample (R121): the division truncates toward zero. -/
def Lgt.filter (l : Lgt) (raw : Nat) : Lgt :=
  { l with
    filtered :=
      match l.filtered with
      | some a =>
        if l.firstSample then some raw
        else some ((a : Int) + ((raw : Int) - a).tdiv 4).toNat
      | none => some raw
    firstSample := false }

/-- An AMBIENT result is taken (R120). -/
def Lgt.sample (l : Lgt) (raw : Nat) : Lgt :=
  { l.filter raw with taken := wrap16 (l.taken + 1), skipRun := 0, stale := false }.reauto

/-- Light Set's effect (R115): B and M are stored, and the mode carried is taken. -/
def Lgt.set (l : Lgt) (mode : LightMode) (b m : Nat) : Lgt :=
  let l : Lgt := { l with manual := b, mix := m }
  let l : Lgt :=
    match mode with
    | .off => { l with mode := .off }
    | md => { l with mode := md, lastMode := md, firstSample := l.firstSample || decide (l.mode = .off) }
  l.retarget

/-- A LIGHT toggle (R116). -/
def Lgt.toggle (l : Lgt) : Lgt :=
  let l : Lgt :=
    match l.mode with
    | .off => { l with mode := l.lastMode, firstSample := true }
    | md => { l with lastMode := md, mode := .off }
  l.retarget

/-- The light goes off at once: what DEEP entry and the cutoff sequence's force-off do to the mode, the
duties and the lines (R123, R124). -/
def Lgt.forceOff (l : Lgt) : Lgt :=
  { l.cancelDecided with
    mode := .off
    lastMode := if l.mode = .off then l.lastMode else l.mode
    target := {}
    clamped := {}
    pending := {}
    latched := {} }

/-- DEEP entry: the light off and the counter stopped (R123). -/
def Lgt.enterDeep (l : Lgt) : Lgt :=
  { l.forceOff with nextBoundary := none, index := 0, rampTaken := false, holdoff := 0 }

/-- Leaving DEEP: the counter starts with a period boundary, at period index 0 (R123). -/
def Lgt.leaveDeep (l : Lgt) (now : Nat) : Lgt :=
  { l with nextBoundary := some (now + Config.pwmPeriod), index := 0 }

/-- UPD's scan has left SCANNING: the holdoff count becomes 2 (R119). -/
def Lgt.scanEnded (l : Lgt) : Lgt := { l with holdoff := 2 }

/-- A curve that Light Curve accepts (R117). -/
def Curve.valid (c : Curve) : Bool :=
  [c.p0, c.p1, c.p2, c.p3].all (fun p => p.lux ≤ 8190 && p.b ≤ 1000) &&
    c.p0.lux < c.p1.lux && c.p1.lux < c.p2.lux && c.p2.lux < c.p3.lux

/-- Light Curve's effect (R117). -/
def Lgt.setCurve (l : Lgt) (c : Curve) : Lgt :=
  if l.filtered.isSome ∧ l.stale = false then { l with curve := c }.reauto else { l with curve := c }

/-- The PWM counter's value, 0..999 (R109): the counts since a period boundary, wrapping every 1000; none while it is
stopped. -/
def State.pwmCount (s : State) : Option Nat :=
  s.lgt.nextBoundary.map fun b => (s.clock + (Config.pwmPeriod - b % Config.pwmPeriod)) % Config.pwmPeriod

/-- A string's line is driven on: from count 0 to its latched duty (R109). -/
def State.lineOn (s : State) (duty : Nat) : Bool :=
  s.live &&
    match s.pwmCount with
    | some c => c < duty
    | none => false

/-- LEDW. -/
def State.ledw (s : State) : Bool := s.lineOn s.lgt.latched.warm
/-- LEDC. -/
def State.ledc (s : State) : Bool := s.lineOn s.lgt.latched.cool

end Sys2Proof.Machine
end

