-- ==== Sys2Proof/Machine/Wave.lean ====
section
/-! DEFINITION. WAV's operations (chapter 2): the waveform table image, validation, adoption, the
temperature band, and the update plan with its arithmetic. -/
namespace Sys2Proof.Machine
open Sys2Proof

/-! ### The table image (R23, 11.8) -/

/-- A byte of a table image. -/
def tableByte (t : List Cell) (a : Nat) : Nat := (Memory.read Config.tableDefault t a).toNat

/-- F of entry e = mode × 8 + band (11.8). -/
def tableF (t : List Cell) (e : Nat) : Nat := tableByte t (4 + e)

/-- P of a band, little-endian (11.8). -/
def tableP (t : List Cell) (band : Nat) : Nat :=
  tableByte t (28 + 2 * band) + 256 * tableByte t (29 + 2 * band)

/-- The sum of F over entries 0 to e − 1 (11.8). -/
def framesBefore (t : List Cell) (e : Nat) : Nat := ((List.range e).map (tableF t)).sum

/-- ΣF: the sum of the 24 frame counts (R23). -/
def framesAll (t : List Cell) : Nat := framesBefore t 24

/-- The symbol code in the two bits of a byte that hold symbol q, bits 7–6 first (11.8). -/
def symbolIn (byte q : Nat) : Nat := byte / 4 ^ (3 - q % 4) % 4

/-- The symbol code of pair p in frame k of entry e (11.8). -/
def tableSymbol (t : List Cell) (e k p : Nat) : Nat :=
  symbolIn (tableByte t (44 + 64 * framesBefore t e + 64 * k + p / 4)) p

/-! ### Commit and adoption (R25 to R28) -/

/-- The entry that holds frame `j` of the table's frames taken one after another, and the frame within it. -/
def locateFrame (t : List Cell) : Nat → Nat → Nat → Nat × Nat
  | 0, e, j => (e, j)
  | fuel + 1, e, j => if j < tableF t e then (e, j) else locateFrame t fuel (e + 1) (j - tableF t e)

/-- The first symbol position that holds code 3, in table order: its byte's offset after the header and the
symbol within that byte (R27 test 5). -/
def badSymbol (t : List Cell) : Option (Nat × Nat) :=
  ((List.range (64 * framesAll t)).find? fun j =>
      (List.range 4).any fun q => symbolIn (tableByte t (44 + j)) q = 3).map fun j =>
    (j, ((List.range 4).find? fun q => symbolIn (tableByte t (44 + j)) q = 3).getD 0)

/-- The validation of R27: none when all five tests pass, else the first that fails. -/
def validate (t : List Cell) (len : Nat) : Option CommitFault :=
  if len < 44 then some { reason := .length }
  else
    match (List.range 24).find? fun e => tableF t e < 1 ∨ 60 < tableF t e with
    | some e => some { reason := .frameCount, mode := some (e / 8), band := some (e % 8) }
    | none =>
      match (List.range 8).find? fun b => tableP t b < 100 ∨ 2500 < tableP t b with
      | some b => some { reason := .period, band := some b }
      | none =>
        if len ≠ 44 + 64 * framesAll t then some { reason := .length }
        else
          match badSymbol t with
          | some (j, q) =>
            let at_ := locateFrame t 24 0 (j / 64)
            some
              { reason := .symbol
                mode := some (at_.1 / 8)
                band := some (at_.1 % 8)
                pair := some (j % 64 * 4 + q)
                frame := some at_.2 }
          | none => none

/-- The incoming table is emptied (R25). -/
def Wav.emptied (w : Wav) : Wav := { w with incoming := [], incomingLen := 0 }

/-- The incoming table becomes the active table, and is emptied (R28). -/
def Wav.adopt (w : Wav) : Wav :=
  { w with
    active := some w.incoming
    incoming := []
    incomingLen := 0
    adoptionWaiting := false
    lastCommit := .adopted }

/-- Adoption, with its notice (R28). -/
def State.adopt (s : State) : State := (s.onWav Wav.adopt).raise .waveformAdopted

/-! ### Temperature and band (R33 to R36) -/

/-- The temperature of a raw count in tenths of a degree (R33). -/
def tempOf (count : Nat) : Int := (count * 1000 / 4096 : Nat) - 250

/-- The band edges (R33). -/
def bandEdges : List Int := [50, 100, 150, 200, 250, 300, 400]

/-- raw(T): the number of band edges at or below T (R33). -/
def rawBand (t : Int) : Nat := (bandEdges.filter fun e => e ≤ t).length

/-- The current band after a valid reading (R34). -/
def Wav.bandAfter (w : Wav) (t : Int) : Nat :=
  if t < 0 then 0
  else if 500 ≤ t then 7
  else if w.firstTaken = false then rawBand t
  else if w.band ≤ rawBand t then rawBand t
  else rawBand (t + 10)

/-- The range state of a temperature (R35). -/
def rangeOf (t : Int) : RangeState :=
  if t < 0 then .below else if 500 ≤ t then .above else .inside

/-- A valid reading is taken by WAV (R33, R34, R35). -/
def Wav.takeReading (w : Wav) (t : Int) : Wav :=
  { w with latest := some t, band := w.bandAfter t, firstTaken := true, range := rangeOf t }

/-- A valid reading raises TEMP_RANGE where it moves the range state to BELOW or ABOVE (R35). -/
def Wav.rangeRaises (w : Wav) (t : Int) : Bool := rangeOf t ≠ .inside && rangeOf t ≠ w.range

/-! ### The plan (R37 to R42) -/

/-- The target of a level under a mode (R38). -/
def targetLevel (mode : Mode) (forced : Option Nat) (level : Level) : Level :=
  let l := match forced with
    | some f => BitVec.ofNat 4 f
    | none => level
  match mode with
  | .quick => if 8 ≤ l.toNat then 15#4 else 0#4
  | .full | .gray => l

/-- The panel pixel (x, y) lies inside a rectangle. -/
def Rect.has (r : Rect) (x y : Nat) : Bool :=
  r.x ≤ x && x < r.x + r.w && r.y ≤ y && y < r.y + r.h

/-- The target of panel pixel (x, y) of a request's rectangle (R38): slot pixel (sx + i, sy + j) gives
it. -/
def Mem.targetAt (m : Mem) (r : Request) (mode : Mode) (x y : Nat) : Level :=
  targetLevel mode r.forced
    (m.slotLevel r.slot ((r.sy + (y - r.rect.y)) * m.slots[r.slot].width + (r.sx + (x - r.rect.x))))

/-- The number of a panel pixel in the shown image (R1). -/
def panelPixel (x y : Nat) : Nat := y * Config.panelW + x

/-- The pixels of a rectangle whose target differs from the level shown (R40). -/
def Mem.differing (m : Mem) (r : Request) (mode : Mode) : Nat :=
  ((List.range r.rect.h).map fun j =>
    ((List.range r.rect.w).filter fun i =>
      m.targetAt r mode (r.rect.x + i) (r.rect.y + j) ≠
        m.shownLevel (panelPixel (r.rect.x + i) (r.rect.y + j))).length).sum

/-- The mode that a plan applies, with the promoted and the demoted flag (R39). -/
def appliedMode (requested : Mode) (known lowBattery receiving : Bool) (fullF period hold : Nat) :
    Mode × Bool × Bool :=
  if known = false then (.full, requested ≠ .full, false)
  else if requested = .full ∧ lowBattery ∧ receiving ∧ hold < ceilDiv (fullF * period) 100 then
    (.gray, false, true)
  else (requested, false, false)

/-- Some download record is RECEIVING. -/
def Spl.receiving (p : Spl) : Bool := p.table.any fun d => d.state = .receiving

/-- The plan WAV makes of a request from the inputs it reads now (R37 to R42). -/
def State.planFor (s : State) (r : Request) : Plan :=
  let t := s.wav.active.getD []
  let b := s.wav.band
  let applied :=
    appliedMode r.mode s.upd.known (s.pwr.level ≠ .normal) s.spl.receiving (tableF t b) (tableP t b)
      s.spl.holdLimit
  let f := tableF t (applied.1.code * 8 + b)
  let active :=
    match applied.1 with
    | .full => r.rect.w * r.rect.h
    | m => s.mem.differing r m
  { mode := applied.1
    band := b
    frames := f
    period := tableP t b
    duration := ceilDiv (f * tableP t b) 100
    active := active
    promoted := applied.2.1
    demoted := applied.2.2
    empty := applied.1 ≠ .full && active = 0 }

/-- The bytes of the shown image that a rectangle's rows lie in. -/
def Rect.shownBytes (r : Rect) : List Nat :=
  (List.range r.h).flatMap fun j =>
    let first := panelPixel r.x (r.y + j) / 2
    let last := panelPixel (r.x + r.w - 1) (r.y + j) / 2
    List.range' first (last + 1 - first)

/-- The level of panel pixel `n` after a context's completion: its target inside the rectangle, what is shown
outside it (R62). -/
def Mem.completedLevel (m : Mem) (r : Request) (mode : Mode) (n : Nat) : Level :=
  if r.rect.has (n % Config.panelW) (n / Config.panelW) then
    m.targetAt r mode (n % Config.panelW) (n / Config.panelW)
  else m.shownLevel n

/-- The shown image takes the target of every pixel of a request's rectangle (R62). -/
def Mem.complete (m : Mem) (r : Request) (mode : Mode) : Mem :=
  m.putBytes
    (r.rect.shownBytes.map fun a =>
      (a, m.completedLevel r mode (2 * a) ++ m.completedLevel r mode (2 * a + 1)))

/-- The drive symbol WAV gives pixel (x, y) of a context in frame k: HOLD for a pixel already at its target
under GRAY and QUICK, else symbol k of the pair's sequence (R24). -/
def State.driveSymbol (s : State) (r : Request) (p : Plan) (k x y : Nat) : Nat :=
  let old := s.mem.shownLevel (panelPixel x y)
  let new := s.mem.targetAt r p.mode x y
  if p.mode ≠ .full ∧ new = old then 0
  else tableSymbol (s.wav.active.getD []) (p.mode.code * 8 + p.band) k (old.toNat * 16 + new.toNat)

end Sys2Proof.Machine
end

