-- ==== Sys2Proof/Machine/Sensors.lean ====
section
/-! DEFINITION. SNS's operations (chapter 5), each on SNS's own state: requests and merging, the arbiter, the
result records, and what DEEP does to the converter. -/
namespace Sys2Proof.Machine
open Sys2Proof

/-- The channel the arbiter serves: AMBIENT, then PANEL_TEMP, then BATTERY (R98). -/
def Sns.choice (n : Sns) : Option Channel :=
  if n.requests.ambient then some .ambient
  else if n.requests.panelTemp then some .panelTemp
  else if n.requests.battery then some .battery
  else none

/-- A conversion takes 14 µs, and 18 µs where its channel differs from the last (R93). -/
def Sns.conversionTime (n : Sns) (c : Channel) : Nat :=
  if n.lastChannel = some c then 14 * Config.perUs else 18 * Config.perUs

/-- The arbiter acts: where the powered converter is free and a request waits, a conversion starts (R98). -/
def Sns.arbitrate (n : Sns) (now : Nat) : Sns :=
  if n.powered ∧ n.converting = none then
    match n.choice with
    | some c =>
      { n with converting := some (c, now + n.conversionTime c), lastChannel := some c }
    | none => n
  else n

/-- A request joins the set, or merges into the one its channel has there; then the arbiter acts (R97,
R98). -/
def Sns.request (n : Sns) (c : Channel) (now : Nat) : Sns :=
  { n with requests := n.requests.set c true }.arbitrate now

/-- An AMBIENT request joins with its latest-start time; merging into one that waits keeps the later of the
two times (R97, R99). -/
def Sns.requestAmbient (n : Sns) (latest now : Nat) : Sns :=
  let converting := match n.converting with
    | some (.ambient, _) => true
    | _ => false
  let l := if converting then n.ambientLatest
    else match n.ambientLatest with
      | some old => some (max old latest)
      | none => some latest
  { n with ambientLatest := l }.request .ambient now

/-- The AMBIENT request waits: it is in the set and not in conversion. -/
def Sns.ambientWaits (n : Sns) : Bool :=
  n.requests.ambient &&
    match n.converting with
    | some (c, _) => c ≠ .ambient
    | none => true

/-- A PANEL_TEMP count of 0 or 4095 is a fault; the other channels have no fault test (R94, R96). -/
def faultedCount (c : Channel) (count : Nat) : Bool :=
  c = .panelTemp && (count = 0 || count = 4095)

/-- The derived value of a count (R93). -/
def derivedOf (c : Channel) (count : Nat) : Int :=
  match c with
  | .ambient => (2 * count : Nat)
  | .panelTemp => tempOf count
  | .battery => (count * 5000 / 4096 : Nat)

/-- The result record after a conversion (R95 steps 1 and 2, R96). -/
def Result.after (r : Result) (c : Channel) (count now : Nat) : Result :=
  if faultedCount c count then { r with raw := count, fault := true }
  else { raw := count, derived := derivedOf c count, sampleTime := now, valid := true, fault := false }

/-- The conversion of a channel ends in the converter: its record is written, its request leaves the set,
and the converter is free (R95 steps 1 to 3). -/
def Sns.finish (n : Sns) (c : Channel) (count nowMs : Nat) : Sns :=
  { n with
    records := n.records.set c ((n.records.get c).after c count nowMs)
    requests := n.requests.set c false
    ambientLatest := if c = .ambient then none else n.ambientLatest
    converting := none }

/-- The latest valid PANEL_TEMP result is absent or more than 60,000 ms old (R51). -/
def Sns.stale (n : Sns) (nowMs : Nat) : Bool :=
  !n.records.panelTemp.valid ||
    60000 < (nowMs + 4294967296 - n.records.panelTemp.sampleTime) % 4294967296

/-- DEEP entry: a conversion is aborted, every request leaves, the converter is powered down (R106). -/
def Sns.enterDeep (n : Sns) (now : Nat) : Sns :=
  { n with
    powered := false
    converting := none
    lastChannel := none
    requests := ⟨false, false, false⟩
    ambientLatest := none
    panelTimer := none
    batteryTimer := some (now + Config.batteryDeepTime)
    abortCount := if n.converting.isSome then wrap16 (n.abortCount + 1) else n.abortCount
    missCount := if n.requests.ambient then wrap16 (n.missCount + 1) else n.missCount }

/-- Leaving DEEP: the converter is powered with no last channel, and the timers start again; a battery wake's
conversion runs on (R103, R106). Where one runs, R93 would have BATTERY as the last channel; the model follows R106
(DEDUCED, log entry 21). -/
def Sns.leaveDeep (n : Sns) (now : Nat) : Sns :=
  { n with
    powered := true
    lastChannel := none
    panelTimer := some (now + n.period * Config.perS)
    batteryTimer := some (now + Config.batteryTime) }

/-- SNS at the end of a full reset, and at the end of the drain of a soft reset: everything at its reset
value, the PANEL_TEMP and the BATTERY request placed and both timers started (R100, R103, R107, R108). -/
def Sns.fresh (now : Nat) : Sns :=
  Sns.arbitrate
    { requests := ⟨false, true, true⟩
      panelTimer := some (now + 10 * Config.perS)
      batteryTimer := some (now + Config.batteryTime) } now

/-- UPD and the host ask for a PANEL_TEMP conversion (R102, R104). -/
def State.askPanelTemp (s : State) : State := s.onSns fun n => n.request .panelTemp s.clock

end Sys2Proof.Machine
end

