-- ==== Sys2Proof/Machine/Engine.lean ====
section
/-! DEFINITION. UPD's operations (chapter 3) and the load gate it shares with the radio (section 9.2):
admission, the pending queue and its examination, contexts, rails and scan, completion. -/
namespace Sys2Proof.Machine
open Sys2Proof

/-! ### Contexts and work (R53, R56) -/

/-- The request a context holds. -/
def Ctx.request : Ctx → Option Request
  | .free => none
  | .reserved r .. => some r
  | .waiting r _ => some r
  | .running r .. => some r

/-- The context is in use. -/
def Ctx.inUse (c : Ctx) : Bool := c.request.isSome

/-- The context is WAITING. -/
def Ctx.isWaiting : Ctx → Bool
  | .waiting .. => true
  | _ => false

/-- The context is RUNNING. -/
def Ctx.isRunning : Ctx → Bool
  | .running .. => true
  | _ => false

/-- The band a context that is RESERVED or WAITING was prepared in (R50 condition 3). -/
def Ctx.preparedBand : Ctx → Option Nat
  | .reserved _ b _ _ => some b
  | .waiting _ p => some p.band
  | _ => none

/-- Some context is RESERVED, WAITING or RUNNING. -/
def Upd.contextInUse (u : Upd) : Bool := u.contexts.toList.any Ctx.inUse

/-- Some context is WAITING. -/
def Upd.anyWaiting (u : Upd) : Bool := u.contexts.toList.any Ctx.isWaiting

/-- Some context is RUNNING. -/
def Upd.anyRunning (u : Upd) : Bool := u.contexts.toList.any Ctx.isRunning

/-- The engine holds work (R56). -/
def Upd.work (u : Upd) : Bool := u.contextInUse || u.freshWait

/-- The scan is SCANNING. -/
def Upd.scanning (u : Upd) : Bool :=
  match u.rails with
  | .scanning .. => true
  | _ => false

/-- The state is RAILS_ON_IDLE. -/
def Upd.onIdle (u : Upd) : Bool := u.rails = .onIdle

/-- The scan is RAILS_OFF. -/
def Upd.railsOff (u : Upd) : Bool := u.rails = .off

/-- RAILEN (R56). -/
def State.railen (s : State) : Bool :=
  s.live &&
    match s.upd.rails with
    | .rising _ | .onIdle | .scanning .. => true
    | .off | .falling _ => false

/-- The engine is idle (R51). -/
def Upd.idle (u : Upd) : Bool := !u.scanning && !u.contextInUse

/-- Replace one context. -/
def Upd.setCtx (u : Upd) (i : Fin 8) (c : Ctx) : Upd := { u with contexts := u.contexts.set i c }

/-- The FREE context that a preparation takes (R53): the lowest (DESIGN CHOICE, log entry 19). -/
def Upd.freeCtx (u : Upd) : Option (Fin 8) :=
  (List.finRange 8).find? fun i => u.contexts[i] = .free

/-! ### Retirement (R63) -/

/-- The completion log with an entry appended; at most the latest eight stay (R63). -/
def appendLog (log : List (Nat × Retired)) (e : Nat × Retired) : List (Nat × Retired) :=
  (log ++ [e]).drop (log.length + 1 - 8)

/-- The outcomes that raise UPDATE_DONE where the notify flag is set (R63). -/
def Retired.notifies : Retired → Bool
  | .cancelled => false
  | _ => true

/-- A request is retired (R63): a log entry, its pin released, and its notice. -/
def State.retire (s : State) (r : Request) (o : Retired) : State :=
  let s := s.onUpd fun u => { u with log := appendLog u.log (r.number, o) }
  let s := s.onMem fun m => m.unpin r.slot
  if r.notify && o.notifies then s.raise .updateDone else s

/-- Several requests are retired, in the order given. -/
def State.retireAll (s : State) (rs : List Request) (o : Retired) : State :=
  rs.foldl (fun s r => s.retire r o) s

/-- Every pending request is retired CANCELLED (R68, R70), in queue order (DESIGN CHOICE, log entry 19). -/
def State.cancelPending (s : State) : State :=
  (s.onUpd fun u => { u with queue := [] }).retireAll s.upd.queue .cancelled

/-! ### Eligibility (R50) -/

/-- Two rectangles share a pixel. -/
def Rect.meets (a b : Rect) : Bool :=
  a.x < b.x + b.w && b.x < a.x + a.w && a.y < b.y + b.h && b.y < a.y + a.h

/-- A rectangle lies wholly inside another (R47). -/
def Rect.inside (a b : Rect) : Bool :=
  b.x ≤ a.x && a.x + a.w ≤ b.x + b.w && b.y ≤ a.y && a.y + a.h ≤ b.y + b.h

/-- Condition 1: no context in use and no request ahead shares a pixel with the request. -/
def Upd.clear (u : Upd) (ahead : List Request) (r : Request) : Bool :=
  (u.contexts.toList.all fun c =>
    match c.request with
    | some q => !q.rect.meets r.rect
    | none => true) &&
    ahead.all fun q => !q.rect.meets r.rect

/-- Condition 3: the current band is the scan's, or that of the contexts prepared outside a scan. -/
def State.bandAllows (s : State) : Bool :=
  match s.upd.rails with
  | .scanning band .. => s.wav.band = band
  | _ => s.upd.contexts.toList.all fun c =>
      match c.preparedBand with
      | some b => s.wav.band = b
      | none => true

/-- Condition 5: where the gate applies, PANEL or no one holds it. -/
def State.gateAllows (s : State) : Bool := !s.gateApplies || s.pwr.gate.holder ≠ .radio

/-- Conditions 2, 3, 4, 6 and 7, which are the same for every request. -/
def State.mayPrepare (s : State) : Bool :=
  s.upd.freeCtx.isSome && s.bandAllows && !s.wav.adoptionWaiting && !s.upd.freshWait &&
    !s.inDeep && s.pwr.deepWait = none

/-- The first request of the queue that meets condition 1. -/
def Upd.firstClear (u : Upd) : List Request → List Request → Option Request
  | _, [] => none
  | ahead, r :: rest => if u.clear ahead r then some r else u.firstClear (ahead ++ [r]) rest

/-- The first eligible request of the queue (R49, R50). -/
def State.firstEligible (s : State) : Option Request :=
  if s.mayPrepare && s.gateAllows then s.upd.firstClear [] s.upd.queue else none

/-- Some request fails eligibility on condition 5 alone (R61). -/
def State.gateBlocks (s : State) : Bool :=
  s.mayPrepare && !s.gateAllows && (s.upd.firstClear [] s.upd.queue).isSome

/-! ### The load gate (R61, R144, R170, R171) -/

/-- The engine asks for the gate: it scans, a context is WAITING in RAILS_ON_IDLE, a request fails on condition 5 alone,
or, after the release at a scan's end, work remains or has followed (R61). -/
def State.panelAsks (s : State) : Bool :=
  s.upd.scanning || (s.upd.onIdle && s.upd.anyWaiting) || s.gateBlocks || (s.pwr.gate.renewed && s.upd.work)

/-- The holder once each block has released what it releases: the spooler whose ask has lapsed (R144), and, where
`release` holds, the engine that has no work while not SCANNING (R61). -/
def State.heldAfterRelease (s : State) (release : Bool) : Holder :=
  match s.pwr.gate.holder with
  | .radio => if s.spl.wantsGate then .radio else .none
  | .panel => if release && !s.upd.scanning && !s.upd.work then .none else .panel
  | .none => .none

/-- The release at a scan's end still lets the engine ask again: until PANEL is granted, while the engine holds work, and
until the end of the event (`release`) that work may follow in (R61). -/
def State.stillRenewed (s : State) (release : Bool) : Bool := s.pwr.gate.renewed && (s.upd.work || !release)

/-- The gate after asks, releases and grants are taken: a NONE gate goes to PANEL if it asks, else to RADIO if it asks
(R170; where both asks arrive together, DESIGN CHOICE, log entry 19); a panel ask that finds RADIO holding passes the gate
once no segment is in assembly (R171). The holder's own ask goes on standing while it holds the gate (DEDUCED, log
entry 21). -/
def State.gateAfter (s : State) (release : Bool) : Gate :=
  if s.gateApplies then
    let p := s.panelAsks
    let r := s.spl.wantsGate
    let again := s.stillRenewed release
    match s.heldAfterRelease release with
    | .none =>
      if p then { holder := .panel, panelAsk := true, radioAsk := r }
      else if r then { holder := .radio, radioAsk := true, renewed := again }
      else { renewed := again }
    | .panel => { holder := .panel, panelAsk := true, radioAsk := r }
    | .radio =>
      if p then
        if s.rad.inFrame then
          { holder := .radio, panelAsk := true, radioAsk := r, passing := true, renewed := again }
        else { holder := .panel, panelAsk := true, radioAsk := r }
      else { holder := .radio, radioAsk := r, renewed := again }
  else {}

/-- The gate is changed; where it changes holder, SPL examines a WAITING segment (R142, R170). -/
def State.withGate (s : State) (g : Gate) : State :=
  let t := s.onPwr fun p => { p with gate := g }
  if g.holder = s.pwr.gate.holder then t else t.spooler true

/-- Asks, releases and grants are taken; a WAITING segment that the new holder lets in may end the radio's
ask, so they are taken once more. -/
def State.gateCycle (s : State) (release : Bool) : State :=
  let s := s.withGate (s.gateAfter release)
  s.withGate (s.gateAfter release)

/-- The scan has left SCANNING: the engine releases the gate, and a standing radio ask is granted before the
engine asks again, which it does with the work that remains or follows (R59 step 4, R61). -/
def State.releaseGate (s : State) : State :=
  if s.pwr.gate.holder = .panel then
    s.withGate
      (if s.spl.wantsGate then { holder := .radio, radioAsk := true, renewed := true } else { renewed := true })
  else s

/-! ### Preparation (R49 to R55) -/

/-- The time of a preparation: ceil(A / 512) µs (R54). -/
def prepTime (r : Rect) : Nat := ceilDiv (r.w * r.h) 512 * Config.perUs

/-- A preparation begins: the request leaves the queue and takes a FREE context, and WAV reads its inputs
(R37, R53). -/
def State.beginPreparation (s : State) (r : Request) : State :=
  match s.upd.freeCtx with
  | some i =>
    s.onUpd fun u =>
      { u.setCtx i (.reserved r s.wav.band (s.planFor r) (s.after (prepTime r.rect))) with
        queue := u.queue.filter fun q => q.serial ≠ r.serial }
  | none => s

/-- A freshness wait begins: the engine asks SNS for a PANEL_TEMP conversion (R51). -/
def State.beginFreshWait (s : State) : State :=
  (s.onUpd fun u => { u with freshWait := true }).askPanelTemp

/-- One step of an examination: the first eligible request begins its preparation, or, where `check` holds and
the engine is idle with a stale temperature, a freshness wait begins instead (R49, R51). None when no
request is eligible. -/
def State.examineOnce (s : State) (check : Bool) : Option State :=
  match s.firstEligible with
  | none => none
  | some r =>
    if check && s.upd.idle && s.sns.stale s.nowMs then some s.beginFreshWait
    else some (s.beginPreparation r)

/-- An examination of the queue (R49): it walks again after each preparation; eight contexts bound it. -/
def State.examineFor (check : Bool) : Nat → State → State
  | 0, s => s
  | n + 1, s =>
    match s.examineOnce check with
    | none => s
    | some t => State.examineFor check n t

/-- An examination of the queue (R49, R51). -/
def State.examine (s : State) (check : Bool) : State := State.examineFor check 9 s

/-! ### Rails and scan (R56 to R59) -/

/-- PWR permits the rails to rise in ACTIVE and DOZE (R56). -/
def State.permitsRise (s : State) : Bool :=
  s.supply = .on && (s.pwr.power = .active || s.pwr.power = .doze)

/-- The hold time is taken as 0: a DEEP entry waits, or the cutoff sequence runs (R57). -/
def State.holdForced (s : State) : Bool := s.pwr.deepWait ≠ none || s.pwr.cutoff

/-- RAILEN is asserted and the rails rise (R56). -/
def State.rise (s : State) : State :=
  s.onUpd fun u => { u with rails := .rising (s.after Config.railRiseTime), holdTimer := none }

/-- RAILEN is deasserted and the rails fall (R57). -/
def State.fall (s : State) : State :=
  s.onUpd fun u => { u with rails := .falling (s.after Config.railFallTime), holdTimer := none }

/-- A WAITING context joins the scan at its boundary number `n` (R59 step 3). -/
def Ctx.join (n : Nat) : Ctx → Ctx
  | .waiting r p => .running r p 0 n
  | c => c

/-- The plan of a WAITING context. -/
def Upd.waitingPlan (u : Upd) : Option Plan :=
  u.contexts.toList.findSome? fun c =>
    match c with
    | .waiting _ p => some p
    | _ => none

/-- The scan period of P units of 10 µs, in counts (R59). -/
def periodCounts (p : Nat) : Nat := p * (10 * Config.perUs)

/-- The scan starts (R58): it latches the band of the WAITING contexts' plans and that band's P, and its start is
its first frame boundary, where every WAITING context joins. A decided ambient placement is cancelled
(R119). -/
def State.startScan (s : State) : State :=
  match s.upd.waitingPlan with
  | some p =>
    let period := tableP (s.wav.active.getD []) p.band
    (s.onUpd fun u =>
        { u with
          rails := .scanning p.band period (s.after (periodCounts period)) 0
          contexts := u.contexts.map (Ctx.join 0)
          holdTimer := none }).onLgt
      Lgt.cancelDecided
  | none => s

/-- The scan may start: RAILS_ON_IDLE with a WAITING context and, where the gate applies, PANEL holding it
(R58). -/
def State.mayScan (s : State) : Bool :=
  s.upd.onIdle && s.upd.anyWaiting && (!s.gateApplies || s.pwr.gate.holder = .panel)

/-- The rails follow the engine's work (R56 to R58): they rise from RAILS_OFF, the scan starts in RAILS_ON_IDLE,
and without work the hold timer runs there, or the rails fall at once where the hold time is 0. -/
def State.railsFollow (s : State) : State :=
  match s.upd.rails with
  | .off => if s.upd.work && s.permitsRise then s.rise else s
  | .onIdle =>
    if s.mayScan then s.startScan
    else if s.upd.work then s.onUpd fun u => { u with holdTimer := none }
    else if s.holdForced then s.fall
    else if s.upd.holdTimer.isSome then s
    else if s.upd.holdTime = 0 then s.fall
    else s.onUpd fun u => { u with holdTimer := some (s.after (u.holdTime * Config.perMs)) }
  | _ => s

/-- What follows a change of anything the engine acts on, in the event of the change: the gate's asks and
grants, the examination of the queue, the gate again, and the rails. -/
def State.engine (s : State) (check : Bool) : State :=
  (((s.gateCycle false).examine check).gateCycle true).railsFollow

/-! ### Completion and the frame boundary (R59, R62) -/

/-- A waiting adoption takes place once no context is in use (R28). -/
def State.adoptIfStill (s : State) : State :=
  if s.wav.adoptionWaiting && !s.upd.contextInUse then s.adopt else s

/-- The request covers the whole panel. -/
def Rect.wholePanel (r : Rect) : Bool := r = ⟨0, 0, Config.panelW, Config.panelH⟩

/-- A context completes (R62): the shown image takes the targets, a full-panel FULL update makes it known, the
context becomes FREE and the request retires DONE. -/
def State.completeCtx (s : State) (i : Fin 8) : State :=
  match s.upd.contexts[i] with
  | .running r p _ _ =>
    let s := s.onMem fun m => m.complete r p.mode
    let s :=
      s.onUpd fun u =>
        { u.setCtx i .free with
          known := u.known || (decide (p.mode = .full) && r.rect.wholePanel) }
    s.retire r .done
  | _ => s

/-- The context's last frame has ended: it is RUNNING with frame index F − 1 (R59 step 1). -/
def Ctx.ended : Ctx → Bool
  | .running _ p frame _ => p.frames ≤ frame + 1
  | _ => false

/-- A RUNNING context's place in the order of completion: when it joined, then when its request was admitted (R62). -/
def Ctx.place : Ctx → Nat × Nat
  | .running r _ _ joined => (joined, r.serial)
  | _ => (0, 0)

/-- The order of completion at one boundary (R62). -/
def Ctx.before (a b : Ctx) : Bool :=
  a.place.1 < b.place.1 || (a.place.1 = b.place.1 && a.place.2 ≤ b.place.2)

/-- A context takes its place among contexts that are in the order of completion. -/
def Upd.insertCompleting (u : Upd) (i : Fin 8) : List (Fin 8) → List (Fin 8)
  | [] => [i]
  | j :: rest =>
    if u.contexts[i].before u.contexts[j] then i :: j :: rest else j :: u.insertCompleting i rest

/-- The contexts that complete at this boundary, in the order in which they complete (R62). -/
def Upd.completing (u : Upd) : List (Fin 8) :=
  ((List.finRange 8).filter fun i => u.contexts[i].ended).foldr u.insertCompleting []

/-- A RUNNING context advances its frame index (R59 step 2). -/
def Ctx.advance : Ctx → Ctx
  | .running r p frame j => .running r p (frame + 1) j
  | c => c

/-- The scan leaves SCANNING for RAILS_ON_IDLE: the gate is released and LGT's holdoff count set (R59 step 4,
R61, R119). -/
def State.leaveScan (s : State) : State :=
  ((s.onUpd fun u => { u with rails := .onIdle }).onLgt Lgt.scanEnded).releaseGate

/-- A frame boundary of the scan (R59): completions, the waiting adoption, advances, joins, and then the scan
goes on or leaves SCANNING. -/
def State.boundary (s : State) (band period at_ count : Nat) : State :=
  let s := s.upd.completing.foldl State.completeCtx s
  let s := s.adoptIfStill
  let s :=
    s.onUpd fun u =>
      { u with contexts := (u.contexts.map Ctx.advance).map (Ctx.join (count + 1)) }
  if s.upd.anyRunning then
    s.onUpd fun u => { u with rails := .scanning band period (at_ + periodCounts period) (count + 1) }
  else s.leaveScan

/-- The symbol the panel port sends pixel (x, y) in the frame in progress (R60): HOLD outside every RUNNING
context. -/
def State.panelSymbol (s : State) (x y : Nat) : Nat :=
  (s.upd.contexts.toList.findSome? fun c =>
      match c with
      | .running r p k _ => if r.rect.has x y then some (s.driveSymbol r p k x y) else none
      | _ => none).getD 0

/-- Byte `k` of row `y` on PD0–PD7, clocked by PCLK: four pixels, the leftmost in PD7–PD6 (R60). -/
def State.rowByte (s : State) (y k : Nat) : Byte :=
  BitVec.ofNat 8
    (64 * s.panelSymbol (4 * k) y + 16 * s.panelSymbol (4 * k + 1) y + 4 * s.panelSymbol (4 * k + 2) y +
      s.panelSymbol (4 * k + 3) y)

/-- What the panel port sends (R60). -/
inductive PortEvent where
  | pfs
  | byte (value : Byte)
  | ple
deriving DecidableEq, Repr

/-- Row `y` of a frame: 320 bytes on PCLK, and the pulse on PLE that closes it (R60). -/
def State.portRow (s : State) (y : Nat) : List PortEvent :=
  ((List.range 320).map fun k => .byte (s.rowByte y k)) ++ [.ple]

/-- What the panel port sends during the frame in progress (R60): the pulse on PFS that opens it and rows 0 to 1599;
outside SCANNING the port is quiet. -/
def State.portFrame (s : State) : List PortEvent :=
  if s.live && s.upd.scanning then .pfs :: (List.range Config.panelH).flatMap s.portRow else []

/-! ### Admission (R44 to R47) -/

/-- A submission: what Update Region, TRN and PWR hand to admission (R44). -/
structure Submission where
  origin : Origin
  slot : Option (Fin 16)
  mode : Option Mode
  /-- An optional forced level; none where its code is unknown. -/
  forced : Option (Option Nat)
  notify : Option Bool
  x : Int
  y : Int
  w : Nat
  h : Nat
  sx : Nat
  sy : Nat
  cadence : Bool
deriving DecidableEq, Repr

/-- One side of the clipping of R45: the clipped start and length. -/
def clipSide (start : Int) (len limit : Nat) : Nat × Nat :=
  let left := max start 0
  let right := min (start + len) limit
  (left.toNat, (right - left).toNat)

/-- The rectangle clipped to the panel; none when nothing is left (R45). -/
def clipRect (x y : Int) (w h : Nat) : Option Rect :=
  let cx := clipSide x w Config.panelW
  let cy := clipSide y h Config.panelH
  if cx.2 = 0 ∨ cy.2 = 0 then none else some ⟨cx.1, cy.1, cx.2, cy.2⟩

/-- The source window lies inside the slot (R45). -/
def Slot.holdsWindow (x : Slot) (sx sy : Nat) (r : Rect) : Bool :=
  sx + r.w ≤ x.width && sy + r.h ≤ x.height

/-- The request a submission becomes, before supersede (R43, R46). -/
def State.requestOf (s : State) (b : Submission) (slot : Fin 16) (mode : Mode) (forced : Option Nat)
    (notify : Bool) (rect : Rect) : Request :=
  { number := s.upd.nextNumber
    serial := s.upd.nextSerial
    origin := b.origin
    slot := slot
    sx := b.sx
    sy := b.sy
    rect := rect
    mode := mode
    forced := forced
    notify := notify
    cadence := b.cadence }

/-- The tests of admission, in order (R44). -/
def State.judgeSubmission (s : State) (b : Submission) : Except Status Request :=
  if s.wav.active.isNone then .error .noWaveform
  else if s.pwr.cutoff ∧ b.origin ≠ .power then .error .powerDown
  else
    match b.slot, b.mode, b.forced, b.notify with
    | some slot, some mode, some forced, some notify =>
      match clipRect b.x b.y b.w b.h with
      | none => .error .badRect
      | some rect =>
        if s.mem.slots[slot].state = .releasing then .error .slotBusy
        else if s.mem.slots[slot].state ≠ .ready ∨ ¬ s.mem.slots[slot].holdsWindow b.sx b.sy rect then
          .error .badSource
        else if 16 ≤ s.upd.queue.length then .error .queueFull
        else .ok (s.requestOf b slot mode forced notify rect)
    | _, _, _, _ => .error .badParam

/-- The next update number: from 65535 the counter advances to 1 (R46). -/
def nextNumber (n : Nat) : Nat := if 65535 ≤ n then 1 else n + 1

/-- The pending request is superseded by a new one: same origin, wholly inside it (R47). -/
def Request.supersededBy (q r : Request) : Bool := q.origin = r.origin && q.rect.inside r.rect

/-- The requests of the queue that a new request supersedes. -/
def Upd.supersededBy (u : Upd) (r : Request) : List Request := u.queue.filter fun q => q.supersededBy r

/-- The request with the cadence obligation it inherits (R47). -/
def Request.inherit (r : Request) (gone : List Request) : Request :=
  if gone.any Request.cadence then { r with mode := .full, cadence := true } else r

/-- Admission as one event (R44): number, pin, supersede, queue. The requests it supersedes retire in queue order
(DESIGN CHOICE, log entry 19). The examination follows in `State.engine`. -/
def State.enterQueue (s : State) (r : Request) : State :=
  let gone := s.upd.supersededBy r
  let s := s.onMem fun m => m.pin r.slot
  let s :=
    s.onUpd fun u =>
      { u with
        nextNumber := nextNumber u.nextNumber
        nextSerial := u.nextSerial + 1
        queue := u.queue.filter fun q => !q.supersededBy r }
  let s := s.retireAll gone .superseded
  s.onUpd fun u => { u with queue := u.queue ++ [r.inherit gone] }

/-- The full-panel submission of TRN and PWR (R43). -/
def fullPanel (origin : Origin) (slot : Fin 16) (mode : Mode) (cadence : Bool) : Submission :=
  { origin := origin
    slot := some slot
    mode := some mode
    forced := some none
    notify := some false
    x := 0
    y := 0
    w := Config.panelW
    h := Config.panelH
    sx := 0
    sy := 0
    cadence := cadence }

end Sys2Proof.Machine
end

