-- ==== Sys2Proof/Machine/Supervisor.lean ====
section
/-! DEFINITION. PWR's operations (chapter 9) and the whole-part events: the battery level, the deep-idle timer,
DEEP and its exits, the cutoff sequence, the drain of a soft reset, the full reset, and the taking of a host
message (R189 case 6, R192). -/
namespace Sys2Proof.Machine
open Sys2Proof

/-! ### The deep-idle timer (R174) -/

/-- The conditions under which the deep-idle timer runs (R174). -/
def State.mayIdle (s : State) : Bool :=
  s.pwr.power = .doze && s.pwr.deepWait = none && s.pwr.deepIdle ≠ 0 && !s.spl.busy && s.upd.railsOff &&
    s.lgt.mode = .off && s.pwr.level ≠ .critical && !s.pwr.cutoff

/-- The deep-idle timer's next expiry after a change: it starts when the last condition comes to hold, runs on
while all hold, and stops when one ceases to hold (R174). -/
def State.idleAfter (s : State) : Option Nat :=
  if s.mayIdle then
    match s.pwr.idleTimer with
    | some d => some d
    | none => some (s.after (s.pwr.deepIdle * Config.perS))
  else none

/-- The deep-idle timer follows its conditions (R174). -/
def State.idleFollow (s : State) : State := s.onPwr fun p => { p with idleTimer := s.idleAfter }

/-- A key press starts a running deep-idle timer again from the full time (R174). -/
def State.idleRestart (s : State) : State :=
  s.onPwr fun p =>
    { p with
      idleTimer :=
        match p.idleTimer with
        | some _ => some (s.after (p.deepIdle * Config.perS))
        | none => none }

/-! ### Battery level (R167 to R169, R181) -/

/-- The filtered battery voltage: the mean of the window, rounded by floor (R167); 0 while it is empty. -/
def Pwr.filtered (p : Pwr) : Nat := p.window.sum / p.window.length

/-- A value joins the window; a fifth pushes the oldest out (R167). -/
def Pwr.join (p : Pwr) (mv : Nat) : Pwr :=
  { p with window := (p.window ++ [mv]).drop (p.window.length + 1 - 4) }

/-- The level after a result, from the filtered voltage `v` (R168). -/
def Pwr.judged (p : Pwr) (v : Nat) : BatteryLevel :=
  match p.level with
  | .normal => if v < p.critMv then .critical else if v < p.lowMv then .low else .normal
  | .low => if v < p.critMv then .critical else if p.lowMv + 80 ≤ v then .normal else .low
  | .critical => if p.critMv + 80 ≤ v then .low else .critical

/-- The notice that a change of level raises (R168). -/
def levelNotice (before after : BatteryLevel) : Option Notice :=
  match before, after with
  | .normal, .critical | .low, .critical => some .batteryCritical
  | .normal, .low | .critical, .low => some .batteryLow
  | _, _ => none

/-- The ceiling that a change of level announces (R169). -/
def Pwr.ceilingFor (p : Pwr) (before after : BatteryLevel) : Option Nat :=
  match before, after with
  | .normal, .low | .normal, .critical => some p.lowCeiling
  | .low, .normal => some 1000
  | _, _ => none

/-- The grace timer after a change of level (R169, R181). -/
def State.graceFor (s : State) (before after : BatteryLevel) : Option Nat :=
  if after = .critical then
    if before = .critical ∨ s.pwr.charger then s.pwr.graceTimer else some (s.after Config.graceTime)
  else none

/-- A ceiling is announced to LGT (R113, R169). -/
def State.announce (s : State) : Option Nat → State
  | some c => s.onLgt fun l => l.announce c
  | none => s

/-- A kind is raised, if there is one. -/
def State.raiseOpt (s : State) : Option Notice → State
  | some k => s.raise k
  | none => s

/-- PWR acts on the level judged at a result: notice, ceiling, grace (R168, R169). -/
def State.levelChange (s : State) (after : BatteryLevel) : State :=
  let before := s.pwr.level
  let s := s.raiseOpt (levelNotice before after)
  let s := s.announce (s.pwr.ceilingFor before after)
  s.onPwr fun p => { p with level := after, graceTimer := s.graceFor before after }

/-- SNS hands PWR a BATTERY result (R167 to R169). -/
def State.batteryResult (s : State) (mv : Nat) : State :=
  let s := s.onPwr fun p => p.join mv
  s.levelChange (s.pwr.judged s.pwr.filtered)

/-! ### Entry to DEEP and exit from it (R173 to R176) -/

/-- A frame in assembly is discarded as by a receive fault, and its record's discard count rises if its id had
been received; which id that was is open (log entry 12). -/
def State.cutFrame (s : State) : State :=
  if s.rad.inFrame then
    let id := Config.idOfCutFrame s.freeUsed
    let s : State := { s with freeUsed := s.freeUsed + 1 }
    let s := s.onRad fun r => r.settleAssembling .empty
    match id with
    | some i => s.countDiscard i
    | none => s
  else s

/-- RAD at entry to DEEP: the frame in assembly discarded, both buffers EMPTY, no STATUS frame queued or being
sent (R150). -/
def State.radDeep (s : State) : State :=
  s.cutFrame.onRad fun r => { r with bufA := .empty, bufB := .empty, queue := [], sending := none }

/-- LGT at entry to DEEP; an AMBIENT request still with SNS is reported missed (R106, R120, R123). -/
def State.lightDeep (s : State) : State :=
  s.onLgt fun l => if s.sns.requests.ambient then l.enterDeep.missed else l.enterDeep

/-- A transaction in progress at the entry to DEEP, at a reset or at a loss of the state is abandoned: the receiver waits
for CS to rise (R188, R195). -/
def Receiver.abandoned : Receiver → Receiver
  | .idle => .idle
  | _ => .unheard

/-- The part enters DEEP (R175). -/
def State.enterDeep (s : State) : State :=
  let s := s.lightDeep
  let s := s.onSns fun n => n.enterDeep s.clock
  let s := s.radDeep
  let s := s.onSto Sto.withdrawAll
  let s := s.onLnk fun l => { l with receiver := l.receiver.abandoned }
  s.onPwr fun p =>
    { p with
      power := .deep
      deepWait := none
      pendingWake := none
      wakeCause := none
      idleTimer := none
      gate := {} }

/-- The part leaves DEEP by a wake source (R176): each block resumes. -/
def State.leaveDeep (s : State) (target : Power) (cause : WakeCause) : State :=
  let s := s.onPwr fun p => { p with power := target, wakeCause := some cause }
  let s := s.onLgt fun l => l.leaveDeep s.clock
  let s := s.onSns fun n => n.leaveDeep s.clock
  ((s.loaderNext.stoArbitrate).engine true).idleFollow

/-- A DEEP entry that waits can complete (R173). -/
def State.deepReady (s : State) : Bool :=
  s.pwr.deepWait.isSome && s.upd.railsOff && !s.upd.work && s.sto.op.isNone &&
    s.pwr.level ≠ .critical

/-- A DEEP entry that waits completes once its conditions hold; a pending wake takes the part out again in the
same event (R173, R176). -/
def State.deepProgress (s : State) : State :=
  if s.deepReady then
    match s.pwr.pendingWake with
    | some c => s.enterDeep.leaveDeep .doze c
    | none => s.enterDeep
  else s

/-- A wake source while a DEEP entry waits: the first is kept (R173). -/
def State.noteWake (s : State) (c : WakeCause) : State :=
  s.onPwr fun p =>
    { p with
      pendingWake := if p.deepWait.isSome then p.pendingWake.or (some c) else p.pendingWake }

/-- A wake source: in DEEP the part leaves for DOZE; while an entry waits it is noted (R173, R176). -/
def State.wakeBy (s : State) (c : WakeCause) : State :=
  if s.inDeep then s.leaveDeep .doze c else s.noteWake c

/-! ### Cutoff (R183 to R185) -/

/-- Every RECEIVING and DRAINING record is suspended (R149, R183). -/
def State.suspendAll (s : State) (why : DlFault) : State :=
  ((s.spl.table.filter Download.locked).map Download.id).foldl (fun s id => s.suspend id why) s

/-- Every pending storage request is withdrawn; one of the host link is answered POWER_DOWN (R162, R165). -/
def State.withdrawStorage (s : State) : State :=
  let t := s.onSto Sto.withdrawAll
  match s.sto.pending.link, s.lnk.processing with
  | some q, some p => t.answer p.kind p.tag .powerDown (u32 q.page)
  | _, _ => t

/-- A Soft Reset in processing is abandoned (R186, R192). -/
def State.abandonSoftReset (s : State) : State :=
  if s.draining then s.onLnk fun l => { l with processing := none } else s

/-- The state of every block is lost at CUTOFF and without supply (R185); the input pins keep their levels. In
CUTOFF the part watches the CHARGER input alone, and one that reads present starts the filter. -/
def State.lost (s : State) (supply : Supply) (power : Power) : State :=
  { clock := s.clock
    freeUsed := s.freeUsed
    supply := supply
    sns := { powered := false }
    lgt := { nextBoundary := none }
    trn := { keys := s.trn.keys.map fun k => { input := k.input } }
    sto := { srdy := s.sto.srdy }
    lnk := { receiver := s.lnk.receiver.abandoned }
    pwr :=
      { power := power
        chargerInput := s.pwr.chargerInput
        chargerFilter :=
          if power = .cutoff ∧ s.pwr.chargerInput then some (s.after Config.settleTime) else none }
    pending := s.pending }

/-- The part enters CUTOFF (R185). -/
def State.enterCutoff (s : State) : State := s.lost .on .cutoff

/-- The sleep-screen request, if a slot is designated and admission takes it (R70, R184). -/
def State.sleepRequest (s : State) : Option Request :=
  match s.pwr.designation with
  | none => none
  | some i => (s.judgeSubmission (fullPanel .power i .full false)).toOption

/-- The sleep-screen request is submitted in the event of the report, before the engine goes on (R70, R184). -/
def State.submitSleep (s : State) : State :=
  let s := s.onPwr fun p => { p with sleepAsked := true }
  match s.sleepRequest with
  | none => s
  | some r => s.enterQueue r

/-- The sleep-screen request is submitted, and the engine goes on with it (R184). -/
def State.sleepScreen (s : State) : State :=
  let s := s.onPwr fun p => { p with sleepAsked := true }
  match s.sleepRequest with
  | none => s
  | some r => (s.enterQueue r).engine true

/-- The drain of a soft reset is over: no context is in use and STO has no operation (R201). The engine's own part of it
(R68: its state, and the fall of the rails) waits for STO with the rest (DESIGN CHOICE, log entry 20). -/
def State.drained (s : State) : Bool := s.draining && !s.upd.contextInUse && s.sto.op.isNone

/-- UPD has reported that no context is in use, and PWR has not yet acted on it (R184). Where the drain of a Soft Reset
that was taken in the cutoff sequence is over with the same report, the reset comes first (log entry 10). -/
def State.sleepDue (s : State) : Bool :=
  s.pwr.cutoff && !s.pwr.sleepAsked && !s.upd.contextInUse && !s.drained

/-- All reports of the cutoff sequence have been made (R184). -/
def State.cutoffDue (s : State) : Bool :=
  s.pwr.cutoff && s.pwr.sleepAsked && s.upd.railsOff && !s.upd.work && s.upd.queue.isEmpty &&
    s.sto.op.isNone && !s.drained

/-- The cutoff sequence goes on as its reports come (R184). -/
def State.cutoffProgress (s : State) : State :=
  let s := if s.sleepDue then s.sleepScreen else s
  if s.cutoffDue then s.enterCutoff else s

/-! ### Resets (R185, R186, R201, R202) -/

/-- TRN after a reset: each key's debounce state is that of its input, and nothing else is kept (R76). -/
def Trn.fresh (t : Trn) : Trn :=
  { keys := t.keys.map fun k =>
      { input := k.input, debounce := if k.input then .pressed else .released } }

/-- The rails after the drain: not cut, but falling if they are on (R68). -/
def State.railsAfterDrain (s : State) : Rails :=
  match s.upd.rails with
  | .off => .off
  | .falling e => .falling e
  | _ => .falling (s.after Config.railFallTime)

/-- The end of the drain: every block takes the state of a soft reset, and the reply OK is placed (R202). -/
def State.drainEnd (s : State) (tag : Byte) : State :=
  { clock := s.clock
    freeUsed := s.freeUsed
    supply := s.supply
    mem := { cells := s.mem.cells.filter fun c => c.1 < Config.shownBytes }
    wav := { active := s.wav.active, incoming := s.wav.incoming, incomingLen := s.wav.incomingLen }
    upd := { rails := s.railsAfterDrain, known := s.upd.known }
    trn := s.trn.fresh
    sns := Sns.fresh s.clock
    lgt := { nextBoundary := some (s.after Config.pwmPeriod) }
    pwr :=
      { chargerInput := s.pwr.chargerInput
        charger := s.pwr.chargerInput
        resetCause := .soft }
    sto := { srdy := s.sto.srdy }
    lnk :=
      { receiver := s.lnk.receiver.abandoned
        reply :=
          some
            { kind := 0x04#8
              tag := tag
              status := .ok
              overwrote := s.lnk.reply.isSome
              discarded := s.lnk.discarded
              stray := s.lnk.stray } }
    pending := s.pending }

/-- The drain ends once its two conditions hold (R201, R202). -/
def State.drainProgress (s : State) : State :=
  match s.lnk.processing with
  | some p => if s.drained then s.drainEnd p.tag else s
  | none => s

/-- A full reset (R185): the state of `State.reset`, with the keys, the charger state and the reset cause as the
pins and the cause give them. -/
def State.fullReset (s : State) (cause : ResetCause) : State :=
  { freeUsed := s.freeUsed
    trn := s.trn.fresh
    sns := Sns.fresh 0
    sto := { srdy := s.sto.srdy }
    lnk := { receiver := s.lnk.receiver.abandoned }
    pwr :=
      { chargerInput := s.pwr.chargerInput
        charger := s.pwr.chargerInput
        resetCause := cause }
    pending := s.pending }

/-! ### What follows an event -/

/-- The sequences of PWR and LNK that wait for reports go on: the cutoff sequence, the drain of a soft reset, the
DEEP entry; and the deep-idle timer follows. A drain that is over ends first, also in the cutoff sequence. -/
def State.progress (s : State) : State :=
  if s.drained then s.drainProgress
  else if s.pwr.cutoff then s.cutoffProgress
  else if s.draining then s
  else s.deepProgress.idleFollow

/-- What follows a change of what the engine or the supervisor acts on, in the event of the change: a sleep screen
that is due is submitted before the rails are looked at (R184), the engine goes on, and the sequences after it. -/
def State.settle (s : State) (check : Bool) : State :=
  ((if s.sleepDue then s.submitSleep else s).engine check).progress

/-- A DEEP entry begins to wait (R173); a freshness wait ends (R52). -/
def State.beginDeepWait (s : State) (kind : DeepKind) : State :=
  let s := s.onUpd fun u => { u with freshWait := false }
  let s := s.onPwr fun p =>
    { p with power := .doze, deepWait := some kind, pendingWake := none, idleTimer := none }
  s.settle true

/-- A DEEP entry that waits is abandoned (R173): the wait, its pending wake and the deep-idle timer go, and where one
waited, UPD examines its queue as on leaving DEEP and the arbiter acts on the pending requests at once (R164). -/
def State.abandonDeep (s : State) : State :=
  let t := s.onPwr fun p => { p with deepWait := none, pendingWake := none, idleTimer := none }
  if s.pwr.deepWait.isSome then (t.engine true).stoArbitrate else t

/-- The cutoff sequence begins (R183): a DEEP entry that waits is abandoned first, and a hold timer that runs expires in
that event (R57). A Soft Reset in processing is abandoned after the suspension of the records, so that a WAITING segment
is not examined for that suspension's sake (R151), but for a change of the gate's holder it is (DESIGN CHOICE, log
entry 20). -/
def State.startCutoff (s : State) : State :=
  let s := s.abandonDeep.onPwr fun p => { p with cutoff := true, sleepAsked := false, graceTimer := none }
  let s := s.onLgt Lgt.forceOff
  let t := s.suspendAll .power
  let s := t.spooler (s.spl.wakesWaiting t.spl)
  let s := (s.onUpd fun u => { u with freshWait := false }).cancelPending
  let s := s.withdrawStorage.abandonSoftReset
  let s := if s.upd.onIdle && s.upd.holdTimer.isSome then s.fall else s
  s.settle true

/-! ### The taking of a host message (R172, R189, R192, R195) -/

/-- The port takes transactions: the part is supplied and out of reset, in ACTIVE or DOZE, and no wake holdoff
runs (R195). -/
def State.linkOn (s : State) : Bool :=
  s.supply = .on && (s.pwr.power = .active || s.pwr.power = .doze) && s.lnk.holdoff.isNone

/-- A complete write frame returns the part from DOZE to ACTIVE (R172), which abandons a DEEP entry that waits
(R173). -/
def State.returnToActive (s : State) : State :=
  if s.pwr.power = .doze then (s.onPwr fun p => { p with power := .active }).abandonDeep else s

/-- A new transaction begins: the receiver holds nothing of an earlier one. -/
def State.newTransaction (s : State) : State := s.onLnk fun l => { l with receiver := .idle }

/-- A frame is discarded by R189 case 1, and the DISCARDED marker set. -/
def State.discardFrame (s : State) : State := s.onLnk fun l => { l with discarded := true }

/-- The port hears the transaction in progress: it takes transactions, and this one began where it did so (R188,
R195). -/
def State.hears (s : State) : Bool := s.linkOn && s.lnk.receiver ≠ .unheard

/-- A whole transaction stands at the rise of CS (log entries 6 and 7). Where the transaction in progress is not heard,
this is its end, and nothing of it is taken (R188, R195); elsewhere `heard` is what the port makes of it. -/
def State.atRise (s : State) (heard : State → State) : State :=
  if s.lnk.receiver = .unheard then s.newTransaction
  else if s.linkOn then heard s.newTransaction
  else s

/-- A host message arrives as a complete frame of a known kind and an allowed length: R189 case 1 or case 6. `f`
carries the request out. -/
def State.take (s : State) (f : State → State) : State :=
  s.atRise fun s => if s.lnk.processing.isSome then s.discardFrame else f s.returnToActive

end Sys2Proof.Machine
end

