-- ==== Sys2Proof/Machine/Records.lean ====
section
/-! DEFINITION. The bodies of the status replies (R203, 11.5, 11.6): one function per record. A body that chapter
11 does not lay out carries its fields in the order its rule lists them (R203); the places where that order
leaves a choice are in log entry 9. -/
namespace Sys2Proof.Machine
open Sys2Proof

/-! ### Chapter 10 -/

/-- The Identify record, 26 bytes (R200, 11.6). -/
def identifyRecord : List Byte :=
  u16 0x0A37 ++ u16 740 ++ u8 1 ++ u16 Config.maxBody ++ u16 Config.totalBlocks ++ u16 Config.shownBlocks ++
    u8 16 ++ u8 16 ++ u8 8 ++ u8 8 ++ u8 4 ++ u8 2 ++ u8 4 ++ u32 Config.tableBytes ++ u32 Config.flashPages

/-! ### Chapter 1 -/

/-- The open link load, where it is this slot's (R19). -/
def Mem.linkLoadOf (m : Mem) (i : Fin 16) : Option LinkLoad := m.linkLoad.filter fun l => l.slot = i

/-- The running storage load, where it is this slot's (R19). -/
def Mem.storageLoadOf (m : Mem) (i : Fin 16) : Option StorageLoad := m.storageLoad.filter fun l => l.slot = i

/-- The load result, where it names this slot (R17, R19). -/
def Mem.resultOf (m : Mem) (i : Fin 16) : Option LoadResult := m.loadResult.filter fun r => r.slot = i

/-- The slot status record, 37 bytes (R19, 11.6). -/
def Mem.slotRecord (m : Mem) (i : Fin 16) : List Byte :=
  let x := m.slots[i]
  let link := m.linkLoadOf i
  let load := m.storageLoadOf i
  let result := m.resultOf i
  [slotByte i] ++ u8 x.state.code ++ u16 x.width ++ u16 x.height ++ u16 x.blocks.length ++ u8 x.owner.code ++
    u8 x.pins ++
    [flagsByte [x.incomplete, x.tag.isSome, link.isSome, load.isSome, result.isSome,
      (link.map LinkLoad.overflow).getD false]] ++
    le32 (x.tag.getD 0#32) ++
    (match link with
      | some l => u8 l.format.code ++ u8 l.endBehaviour.code ++ u32 l.cursor ++ u32 l.written
      | none => List.replicate 10 0#8) ++
    (match load with
      | some l => u32 l.startPage ++ u16 l.pageCount ++ u16 l.written
      | none => List.replicate 8 0#8) ++
    (match result with
      | some r => flag r.faulted ++ u16 r.written ++ flag r.faulted
      | none => List.replicate 4 0#8)

/-- The slots in a state. -/
def Mem.slotsIn (m : Mem) (x : SlotState) : Nat := m.slots.toList.countP fun s => s.state = x

/-- The pool status record (R20). Without a storage load its slot is 0xFF, and the pages written and the page count are
0 with no presence flag of their own (DESIGN CHOICE, log entry 9). -/
def State.poolRecord (s : State) : List Byte :=
  u16 s.mem.pool.length ++ u16 s.mem.slotBlocks ++ u16 s.spl.staging.length ++ u16 Config.shownBlocks ++
    [optSlotByte (s.mem.linkLoad.map LinkLoad.slot), optSlotByte (s.mem.storageLoad.map StorageLoad.slot)] ++
    (match s.mem.storageLoad with
      | some l => u16 l.written ++ u16 l.pageCount
      | none => List.replicate 4 0#8) ++
    u8 (s.mem.slotsIn .free) ++ u8 (s.mem.slotsIn .loadingLink) ++ u8 (s.mem.slotsIn .loadingStorage) ++
    u8 (s.mem.slotsIn .ready) ++ u8 (s.mem.slotsIn .releasing)

/-! ### Chapter 2 -/

/-- An optional number in one byte, 0xFF when absent (11.3). -/
def absentFF : Option Nat → List Byte
  | some n => u8 n
  | none => [0xFF#8]

/-- The 5 bytes of a refused commit: reason, mode, band, pair, frame (11.3). -/
def CommitFault.bytes (f : CommitFault) : List Byte :=
  u8 f.reason.code ++ absentFF f.mode ++ absentFF f.band ++ absentFF f.pair ++ absentFF f.frame

/-- The outcome of the latest commit in R30's order, with a refused one's reason and location. -/
def CommitOutcome.bytes : CommitOutcome → List Byte
  | .none => u8 0 ++ List.replicate 6 0#8
  | .adopted => u8 1 ++ List.replicate 6 0#8
  | .waiting => u8 2 ++ List.replicate 6 0#8
  | .bad f => u8 3 ++ flag true ++ f.bytes

/-- The version, the 24 frame counts and the 8 periods of a table (R30). -/
def tableHeader (t : List Cell) : List Byte :=
  (List.range 44).map (Memory.read Config.tableDefault t)

/-- The waveform status record (R30). -/
def Wav.record (w : Wav) : List Byte :=
  optional 44 tableHeader w.active ++ u32 w.incomingLen ++ flag w.adoptionWaiting ++ w.lastCommit.bytes ++
    u8 w.band ++ u8 w.range.code ++ optional 2 i16 w.latest

/-! ### Chapter 3 -/

/-- A request as a 16-byte body, its rectangle clipped (11.5). -/
def Request.bytes (r : Request) : List Byte :=
  [slotByte r.slot] ++ u8 r.mode.code ++ [forcedByte r.forced] ++ flag r.notify ++ u16 r.rect.x ++ u16 r.rect.y ++
    u16 r.rect.w ++ u16 r.rect.h ++ u16 r.sx ++ u16 r.sy

/-- The 12-byte plan record (11.5). -/
def Plan.bytes (p : Plan) : List Byte :=
  u8 p.mode.code ++ u8 p.band ++ u8 p.frames ++ u16 p.period ++ u16 p.duration ++ u32 p.active ++
    [flagsByte [p.promoted, p.demoted, p.empty]]

/-- Parts 1 to 4 of an Update Status body of an unretired request (11.5). -/
def updateBody (whereCode place frame : Nat) (r : Request) (p : Option Plan) : List Byte :=
  u8 whereCode ++ u8 place ++ u8 frame ++ u8 0 ++ u8 r.origin.code ++ flag r.cadence ++ r.bytes ++
    match p with
    | some p => p.bytes
    | none => List.replicate 12 0#8

/-- What Update Status finds for a number: the body and the plan reported (R65). -/
structure Found where
  body : List Byte
  plan : Option Plan := none

/-- What a context reports for a number (R65). -/
def Ctx.found (number : Nat) : Ctx → Option Found
  | .free => none
  | .reserved r .. => if r.number = number then some { body := updateBody 1 0 0 r none } else none
  | .waiting r p =>
    if r.number = number then some { body := updateBody 2 0 0 r (some p), plan := some p } else none
  | .running r p k _ =>
    if r.number = number then some { body := updateBody 3 0 k r (some p), plan := some p } else none

/-- The body for a request that has retired: the outcome, the rest zero (11.5). -/
def retiredBody (o : Retired) : List Byte := u8 4 ++ u8 0 ++ u8 0 ++ u8 o.code ++ List.replicate 30 0#8

/-- The request of a number: in the queue, in a context, else the newest entry of the log (R65). -/
def Upd.found (u : Upd) (number : Nat) : Option Found :=
  match u.queue.findIdx? fun r => r.number = number with
  | some k => u.queue[k]?.map fun r => { body := updateBody 0 (k + 1) 0 r none }
  | none =>
    match u.contexts.toList.findSome? (Ctx.found number) with
    | some f => some f
    | none => (u.log.reverse.find? fun e => e.1 = number).map fun e => { body := retiredBody e.2 }

/-- The scan band and period while SCANNING (R66). -/
def Rails.latched : Rails → Option (Nat × Nat)
  | .scanning band period .. => some (band, period)
  | _ => none

/-- The panel status record (R66). -/
def State.panelRecord (s : State) : List Byte :=
  let u := s.upd
  u8 u.rails.code ++ optional 1 u8 (u.rails.latched.map Prod.fst) ++
    optional 2 u16 (u.rails.latched.map Prod.snd) ++ counted (fun r => u16 r.number) u.queue ++
    (u.contexts.toList.flatMap fun c => u8 c.code ++ u16 ((c.request.map Request.number).getD 0)) ++
    flag u.freshWait ++ flag (s.pwr.gate.panelAsk || s.pwr.gate.holder = .panel) ++ flag u.known ++
    u16 u.nextNumber ++ u16 u.holdTime ++ counted (fun e => u16 e.1 ++ u8 e.2.code) u.log

/-! ### Chapter 4 -/

/-- A capture record (R72, R73). -/
def KeyRec.bytes (k : KeyRec) : List Byte :=
  optional 4 u32 k.pressTime ++ flag k.unread ++ flag k.overwritten

/-- The key status record (R73). -/
def Trn.keyRecord (t : Trn) : List Byte :=
  t.keys.forward.bytes ++ t.keys.backward.bytes ++ t.keys.power.bytes ++ t.keys.light.bytes ++
    u8 t.keys.forward.debounce.code ++ u8 t.keys.backward.debounce.code ++ u8 t.keys.power.debounce.code ++
    u8 t.keys.light.debounce.code ++ u8 t.powerDetail.code

/-- A slot with its page tag. -/
def Entry.bytes (e : Entry) : List Byte := slotByte e.slot :: le32 e.tag

/-- The turn status record (R91). -/
def Trn.record (t : Trn) : List Byte :=
  (match t.current with
    | some e => e.bytes
    | none => 0xFF#8 :: List.replicate 4 0#8) ++
    counted Entry.bytes t.forward ++ counted Entry.bytes t.backward ++ i16 t.position ++
    u16 t.served ++ u16 t.unserved ++ u8 t.cadence ++ u8 t.cadenceCounter ++ u8 t.lowMark ++
    u8 t.forwardRouting.code ++ u8 t.backwardRouting.code ++
    optional 6 (fun (r : UnservedRec) => u8 (keyCode r.key) ++ u8 r.reason.code ++ u32 r.time) t.lastUnserved ++
    optional 2 u16 t.lastUpdate

/-! ### Chapter 5 -/

/-- A result record with all its fields (R94, R104). -/
def Result.bytes (r : Result) : List Byte :=
  u16 r.raw ++ i16 r.derived ++ u32 r.sampleTime ++ flag r.valid ++ flag r.fault

/-- The sensors record (R104). -/
def State.sensorRecord (s : State) : List Byte :=
  let n := s.sns
  n.records.ambient.bytes ++ n.records.panelTemp.bytes ++ n.records.battery.bytes ++ u32 s.nowMs ++
    (match n.converting with
      | some (c, _) => u8 (c.code + 1)
      | none => u8 0) ++
    flag n.requests.ambient ++ flag n.requests.panelTemp ++ flag n.requests.battery ++
    optional 2 (fun _ => u16 928) (n.ambientLatest.filter fun _ => n.ambientWaits) ++ u8 n.period ++
    u16 n.missCount ++ u16 n.abortCount

/-! ### Chapter 6 -/

/-- A pair of duties, WARM first. -/
def Duty.bytes (d : Duty) : List Byte := u16 d.warm ++ u16 d.cool

/-- A point of the curve. -/
def Point.bytes (p : Point) : List Byte := u16 p.lux ++ u16 p.b

/-- The light status record (R118). The eight duties go by kind, WARM and then COOL of each (DESIGN CHOICE, log entry
9). -/
def Lgt.record (l : Lgt) : List Byte :=
  u8 l.mode.code ++ u8 l.lastMode.code ++ u16 l.manual ++ u16 l.auto ++ u8 l.mix ++ l.target.bytes ++
    l.clamped.bytes ++ l.pending.bytes ++ l.latched.bytes ++ u16 l.ceiling ++ u8 l.step ++ l.curve.p0.bytes ++
    l.curve.p1.bytes ++ l.curve.p2.bytes ++ l.curve.p3.bytes ++ optional 2 u16 l.filtered ++
    optional 2 (fun a => u16 (2 * a)) l.filtered ++ flag l.firstSample ++ flag l.stale ++ u8 l.skipRun ++
    u8 l.holdoff ++ u16 l.taken ++ u16 l.skipped

/-! ### Chapter 7 -/

/-- Eight runs, the unused ones 0 (11.6). -/
def runBytes (runs : List (Nat × Nat)) : List Byte :=
  (runs.flatMap fun r => u32 r.1 ++ u32 r.2) ++ List.replicate (8 * (8 - runs.length)) 0#8

/-- The download status record, 103 bytes (R138, 11.6). -/
def State.downloadRecord (s : State) (d : Download) : List Byte :=
  [d.id] ++ u8 d.state.code ++ u32 d.total ++ u16 d.size ++ u32 d.segments ++ u32 d.start ++ u32 d.pages ++
    u32 d.committed ++ u16 d.erased ++ u8 (dlFaultCode d.fault) ++ u16 d.discards ++
    [flagsByte [d.stall.isSome, d.removal, d.locked]] ++ u32 (s.remainingMs d.stall) ++ u32 d.lowest ++
    u8 d.runs.length ++ runBytes d.runs

/-- An assembly buffer: its state, and the id and index of a WAITING segment (R138). -/
def Buffer.bytes (b : Buffer) : List Byte :=
  match b with
  | .waiting g => u8 2 ++ [g.id] ++ u32 g.index
  | b => u8 b.code ++ List.replicate 5 0#8

/-- The spooler summary, 28 bytes (R138, 11.6). -/
def State.spoolerSummary (s : State) : List Byte :=
  u16 s.spl.budget ++ flag (!s.spl.staging.isEmpty) ++ u16 s.spl.freeBlocks ++ u16 s.spl.reserve ++
    s.rad.bufA.bytes ++ s.rad.bufB.bytes ++ u8 s.rad.queue.length ++ s.rad.queue.map StatusEntry.id ++
    List.replicate (4 - s.rad.queue.length) 0#8 ++ u8 s.rad.rate ++ u8 s.spl.stallTime ++ u16 s.spl.holdLimit

/-- The whole download status: a record count, the records in table order, the summary (R138, 11.6). -/
def State.allDownloads (s : State) : List Byte := counted s.downloadRecord s.spl.table ++ s.spoolerSummary

/-! ### Chapter 8 -/

/-- A requester's latest finished operation and its counts (R163). -/
def Sto.latestBytes (t : Sto) (r : Requester) : List Byte :=
  optional 6 (fun (f : Finished) => u8 f.kind.code ++ u32 f.page ++ u8 f.outcome.code) (t.latest.get r) ++
    u16 (t.faults.get r) ++ u16 (t.timeouts.get r)

/-- A requester's pending request (R163). -/
def Sto.pendingBytes (t : Sto) (r : Requester) : List Byte :=
  optional 5 (fun (q : StoRequest) => u8 q.kind.code ++ u32 q.page) (t.pending.get r)

/-- The storage status record (R163). -/
def State.storageRecord (s : State) : List Byte :=
  let t := s.sto
  optional 7 (fun (o : Op) => u8 o.requester.code ++ u8 o.kind.code ++ u32 o.page ++ u8 o.phase) t.op ++
    t.pendingBytes .link ++ t.pendingBytes .spooler ++ t.pendingBytes .loader ++ u8 t.pointer.code ++
    t.latestBytes .link ++ t.latestBytes .spooler ++ t.latestBytes .loader ++
    counted (fun (d : Download) => u32 d.start ++ u32 d.pages ++ [d.id]) (s.spl.table.filter Download.locked)

/-! ### Chapter 9 -/

/-- The gate byte (11.6). -/
def State.gateByte (s : State) : Byte :=
  BitVec.ofNat 8 s.pwr.gate.holder.code |||
    (flagsByte [s.gateApplies, s.pwr.gate.panelAsk, s.pwr.gate.radioAsk, s.pwr.gate.passing] <<< 2)

/-- The window's four values, the unused ones 0 (11.6). -/
def windowBytes (w : List Nat) : List Byte := w.flatMap u16 ++ List.replicate (2 * (4 - w.length)) 0#8

/-- The power status record, 42 bytes (R187, 11.6). -/
def State.powerRecord (s : State) : List Byte :=
  let p := s.pwr
  u8 p.power.code ++ flag p.cutoff ++ u8 (deepKindCode p.deepWait) ++ u8 (wakeCauseCode p.pendingWake) ++
    u8 p.level.code ++ u16 p.filtered ++ u8 p.window.length ++ windowBytes p.window ++ u16 p.lowMv ++
    u16 p.critMv ++ u16 p.lowCeiling ++ u16 p.deepIdle ++ [s.gateByte] ++
    [flagsByte [p.idleTimer.isSome, p.wakeTimer.isSome, p.graceTimer.isSome]] ++
    u32 (s.remainingMs p.idleTimer) ++ u32 (s.remainingMs p.wakeTimer) ++ u32 (s.remainingMs p.graceTimer) ++
    [optSlotByte p.designation] ++ flag p.charger ++ u8 (wakeCauseCode p.wakeCause) ++ u8 p.resetCause.code

end Sys2Proof.Machine
end

