-- ==== Sys2Proof/Machine/ImageCommands.lean ====
section
/-! DEFINITION. The commands of the picture memory and the slots (chapter 1), the steps of an Image Data frame
among them (R190). -/
namespace Sys2Proof.Machine
open Sys2Proof

/-- The dimensions of a picture that Open Image and Load Slot From Storage accept (R8, R15). -/
def goodSize (width height : U16) : Bool :=
  1 ≤ width.toNat && width.toNat ≤ Config.panelW && 1 ≤ height.toNat && height.toNat ≤ Config.panelH

/-- The parameters of an Open Image that passes R8 test 1. -/
structure OpenParams where
  slot : Fin 16
  width : Nat
  height : Nat
  format : Format
  endBehaviour : EndBehaviour
deriving DecidableEq, Repr

/-- Open Image's test 1 (R8). -/
def openParams (slot : Byte) (width height : U16) (format endBehaviour : Byte) : Option OpenParams :=
  match slotOf slot, formatOf format, endBehaviourOf endBehaviour with
  | some i, some f, some e => if goodSize width height then some ⟨i, width.toNat, height.toNat, f, e⟩ else none
  | _, _, _ => none

/-- Open Image's tests 2 to 4 (R8). -/
def Mem.judgeOpen (m : Mem) (p : OpenParams) : Option Status :=
  (m.slots[p.slot].notFree).or
    (if m.linkLoad.isSome then some .loadBusy
    else if m.pool.length < blocksFor p.width p.height then some .noMemory
    else none)

/-- Open Image's effect on MEM (R8, R9): blocks from the pool, every pixel at level 15, the link load open. -/
def Mem.openLink (m : Mem) (p : OpenParams) : Mem :=
  let m := m.clearResult p.slot
  let m := m.allocate p.slot .loadingLink p.width p.height
  { m.putBytes (whitened m.slots[p.slot].blocks) with
    linkLoad := some { slot := p.slot, format := p.format, endBehaviour := p.endBehaviour } }

/-- Open Image (R8). -/
def doOpenImage (tag slot : Byte) (width height : U16) (format endBehaviour : Byte) (s : State) : State :=
  match openParams slot width height format endBehaviour with
  | none => s.answer 0x10#8 tag .badParam
  | some p =>
    match s.mem.judgeOpen p with
    | some e => s.answer 0x10#8 tag e
    | none => (s.onMem fun m => m.openLink p).answer 0x10#8 tag .ok

/-- Close Image's effect on MEM (R13). -/
def Mem.closeLink (m : Mem) (l : LinkLoad) : Mem :=
  { m.setSlot l.slot
      { m.slots[l.slot] with state := .ready, incomplete := decide (l.written < m.slots[l.slot].pixels) } with
    linkLoad := none }

/-- Close Image (R13). -/
def doCloseImage (tag slot : Byte) (s : State) : State :=
  match slotOf slot with
  | none => s.answer 0x12#8 tag .badParam
  | some i =>
    if s.mem.slots[i].state = .releasing then s.answer 0x12#8 tag .slotBusy
    else
      match s.mem.linkLoadOf i with
      | none => s.answer 0x12#8 tag .slotState
      | some l =>
        (s.onMem fun m => m.closeLink l).answer 0x12#8 tag .ok
          (u32 l.written ++ flag (l.written < s.mem.slots[l.slot].pixels) ++ flag l.overflow)

/-- The parameters of a Load Slot From Storage that passes R15 test 1. -/
structure LoadParams where
  slot : Fin 16
  width : Nat
  height : Nat
  start : Nat
deriving DecidableEq, Repr

/-- Load Slot From Storage's test 1 (R15). -/
def loadParams (slot : Byte) (width height : U16) (start : U32) : Option LoadParams :=
  match slotOf slot with
  | some i =>
    if goodSize width height && start.toNat < Config.flashPages then
      some ⟨i, width.toNat, height.toNat, start.toNat⟩
    else none
  | none => none

/-- Load Slot From Storage's tests 2 to 5 (R15); a picture has as many pages as blocks. -/
def Mem.judgeLoad (m : Mem) (p : LoadParams) : Option Status :=
  if Config.flashPages < p.start + blocksFor p.width p.height then some .storageRange
  else
    (m.slots[p.slot].notFree).or
      (if m.storageLoad.isSome then some .loadBusy
      else if m.pool.length < blocksFor p.width p.height then some .noMemory
      else none)

/-- Load Slot From Storage's effect on MEM (R15). -/
def Mem.openLoad (m : Mem) (p : LoadParams) : Mem :=
  { (m.clearResult p.slot).allocate p.slot .loadingStorage p.width p.height with
    storageLoad := some { slot := p.slot, startPage := p.start, pageCount := blocksFor p.width p.height } }

/-- Load Slot From Storage (R15): the reply is placed at once, and the loader places its first request (R16). -/
def doLoadSlot (tag slot : Byte) (width height : U16) (start : U32) (s : State) : State :=
  match loadParams slot width height start with
  | none => s.answer 0x13#8 tag .badParam
  | some p =>
    match s.mem.judgeLoad p with
    | some e => s.answer 0x13#8 tag e
    | none => (((s.onMem fun m => m.openLoad p).answer 0x13#8 tag .ok).loaderNext).stoArbitrate

/-- Free Slot's outcome by the slot's state and owner (R14): a refusal, or none where the slot is freed. -/
def Slot.judgeFree (x : Slot) : Option Status :=
  match x.state with
  | .free => some .slotState
  | .loadingLink => none
  | .loadingStorage | .releasing => some .slotBusy
  | .ready =>
    match x.owner with
    | .turn => some .slotListed
    | .sleep => some .slotDesignated
    | .host => if 0 < x.pins then some .slotPinned else none

/-- Free Slot's effect on MEM: a link load of the slot is aborted, and the slot becomes FREE (R14). -/
def Mem.freeSlot (m : Mem) (i : Fin 16) : Mem :=
  { m.free i with linkLoad := m.linkLoad.filter fun l => l.slot ≠ i }

/-- Free Slot (R14). -/
def doFreeSlot (tag slot : Byte) (s : State) : State :=
  match slotOf slot with
  | none => s.answer 0x14#8 tag .badParam
  | some i =>
    match s.mem.slots[i].judgeFree with
    | some e => s.answer 0x14#8 tag e
    | none => (s.onMem fun m => m.freeSlot i).answer 0x14#8 tag .ok

/-- Slot Status (R19). -/
def doSlotStatus (tag slot : Byte) (s : State) : State :=
  match slotOf slot with
  | none => s.answer 0x15#8 tag .badParam
  | some i => s.answer 0x15#8 tag .ok (s.mem.slotRecord i)

/-- Pool Status (R20). -/
def doPoolStatus (tag : Byte) (s : State) : State := s.answer 0x16#8 tag .ok s.poolRecord

def execOpenImage (tag slot : Byte) (width height : U16) (format endBehaviour : Byte) (s : State) :
    Host.Outcome State Fault Refusal :=
  .next (s.take (doOpenImage tag slot width height format endBehaviour))

def execCloseImage (tag slot : Byte) (s : State) : Host.Outcome State Fault Refusal :=
  .next (s.take (doCloseImage tag slot))

def execLoadSlotFromStorage (tag slot : Byte) (width height : U16) (start : U32) (s : State) :
    Host.Outcome State Fault Refusal :=
  .next (s.take (doLoadSlot tag slot width height start))

def execFreeSlot (tag slot : Byte) (s : State) : Host.Outcome State Fault Refusal :=
  .next (s.take (doFreeSlot tag slot))

def execSlotStatus (tag slot : Byte) (s : State) : Host.Outcome State Fault Refusal :=
  .next (s.take (doSlotStatus tag slot))

def execPoolStatus (tag : Byte) (s : State) : Host.Outcome State Fault Refusal := .next (s.take (doPoolStatus tag))

/-! ### The steps of an Image Data frame (R10 to R12, R190) -/

/-- The frame's header is complete: an overlong frame is discarded whole, and one that finds no link load open is
stray. -/
def State.imageHeader (s : State) (declared : Nat) : State :=
  s.onLnk fun l =>
    if Config.maxBody < declared then { l with receiver := .discarding }
    else if s.mem.linkLoad.isSome then { l with receiver := .imageData declared false }
    else { l with receiver := .imageData declared true, stray := true }

/-- A body byte is complete: it is applied to the open load, unless the frame is stray; bytes after the declared
body are ignored. -/
def State.imageByte (s : State) (value : Byte) : State :=
  match s.lnk.receiver with
  | .imageData (n + 1) stray =>
    (if stray then s else s.onMem fun m => m.applyByte value).onLnk fun l =>
      { l with receiver := .imageData n stray }
  | _ => s

/-- CS rises inside the body: a partly received byte is dropped, and the load stays as it is (R11); a transaction that is
discarded ends. -/
def State.imageCut (s : State) : State :=
  match s.lnk.receiver with
  | .imageData (_ + 1) _ => (s.onMem Mem.dropHeld).newTransaction
  | .discarding | .unheard => s.newTransaction
  | _ => s

/-- CS rises after the whole body: the frame is a complete write frame, which returns the part from DOZE; the end
of an overlong frame, or of a transaction that is not heard, does not (R190, R195). -/
def State.imageEnd (s : State) : State :=
  match s.lnk.receiver with
  | .imageData 0 _ => s.newTransaction.returnToActive
  | .discarding | .unheard => s.newTransaction
  | _ => s

/-- IMAGE_DATA_HEADER (R12, R190); the header of a transaction that is not heard begins nothing (R188, R195). -/
def execImageDataHeader (declared : U16) (s : State) : Host.Outcome State Fault Refusal :=
  .next (if s.hears then s.newTransaction.imageHeader declared.toNat else s)

/-- IMAGE_DATA_BYTE (R10). -/
def execImageDataByte (value : Byte) (s : State) : Host.Outcome State Fault Refusal := .next (s.imageByte value)

/-- IMAGE_DATA_CUT (R11). -/
def execImageDataCut (s : State) : Host.Outcome State Fault Refusal := .next s.imageCut

/-- IMAGE_DATA_END (R190). -/
def execImageDataEnd (s : State) : Host.Outcome State Fault Refusal := .next s.imageEnd

end Sys2Proof.Machine
end

