-- ==== Sys2Proof/Machine/LightCommands.lean ====
section
/-! DEFINITION. The commands of the front light (chapter 6). -/
namespace Sys2Proof.Machine
open Sys2Proof

/-- The next period boundary falls, at its time (R110). -/
def State.periodBoundary (s : State) : State :=
  match s.lgt.nextBoundary with
  | some b => (s.reach b).onLgt fun l => l.boundary s.upd.scanning b
  | none => s

/-- PERIOD_BOUNDARY (R110). -/
def execPeriodBoundary (s : State) : Host.Outcome State Fault Refusal := .next s.periodBoundary

/-- The coming boundary is a ramp tick whose step is not yet taken (R109, R110 step 1). -/
def Lgt.rampDue (l : Lgt) : Bool := (l.index + 1) % 8 = 0 && !l.rampTaken

/-- RAMP_TICK (R114): step 1 of the coming period boundary; that boundary takes the rest. -/
def execRampTick (s : State) : Host.Outcome State Fault Refusal :=
  .next
    (match s.lgt.nextBoundary with
      | some b => if s.lgt.rampDue then (s.reach b).onLgt fun l => { l.ramp with rampTaken := true } else s
      | none => s)

/-- The coming boundary is an ambient opportunity (R109, R119). -/
def Lgt.opportunityDue (l : Lgt) : Bool := (l.index + 1) % 64 = 0 && l.mode ≠ .off

/-- AMBIENT_OPPORTUNITY (R119): the coming boundary, where it is an opportunity; R119 is judged on the duties that
boundary latches. -/
def execAmbientOpportunity (s : State) : Host.Outcome State Fault Refusal :=
  .next (if s.lgt.opportunityDue then s.periodBoundary else s)

/-- AMBIENT_REQUEST (R119): the decided placement's count is reached, and the request joins SNS's set. -/
def execAmbientRequest (s : State) : Host.Outcome State Fault Refusal :=
  .next
    (match s.lgt.decided with
      | some p =>
        let s := s.reach p.placeAt
        (s.onLgt fun l => { l with decided := none }).onSns fun n => n.requestAmbient p.latest s.clock
      | none => s)

/-- The body of the reply to Light Set: the mode, the targets and the clamped targets (R115). -/
def Lgt.setBody (l : Lgt) : List Byte := u8 l.mode.code ++ l.target.bytes ++ l.clamped.bytes

/-- Light Set (R115). -/
def doLightSet (tag mode : Byte) (brightness : U16) (mix : Byte) (s : State) : State :=
  match lightModeOf mode with
  | none => s.answer 0x60#8 tag .badParam
  | some md =>
    if 1000 < brightness.toNat ∨ 100 < mix.toNat then s.answer 0x60#8 tag .badParam
    else if s.pwr.cutoff then s.answer 0x60#8 tag .powerDown
    else
      let s := s.onLgt fun l => l.set md brightness.toNat mix.toNat
      s.answer 0x60#8 tag .ok s.lgt.setBody

/-- Light Curve (R117). -/
def doLightCurve (tag : Byte) (lux0 b0 lux1 b1 lux2 b2 lux3 b3 : U16) (s : State) : State :=
  let c : Curve :=
    ⟨⟨lux0.toNat, b0.toNat⟩, ⟨lux1.toNat, b1.toNat⟩, ⟨lux2.toNat, b2.toNat⟩, ⟨lux3.toNat, b3.toNat⟩⟩
  if c.valid then (s.onLgt fun l => l.setCurve c).answer 0x61#8 tag .ok else s.answer 0x61#8 tag .badParam

/-- Light Ramp (R117). -/
def doLightRamp (tag step : Byte) (s : State) : State :=
  if step = 0#8 ∨ 100 < step.toNat then s.answer 0x62#8 tag .badParam
  else (s.onLgt fun l => { l with step := step.toNat }).answer 0x62#8 tag .ok

/-- Light Status (R118). -/
def doLightStatus (tag : Byte) (s : State) : State := s.answer 0x63#8 tag .ok s.lgt.record

def execLightSet (tag mode : Byte) (brightness : U16) (mix : Byte) (s : State) :
    Host.Outcome State Fault Refusal :=
  .next (s.take (doLightSet tag mode brightness mix))

def execLightCurve (tag : Byte) (lux0 b0 lux1 b1 lux2 b2 lux3 b3 : U16) (s : State) :
    Host.Outcome State Fault Refusal :=
  .next (s.take (doLightCurve tag lux0 b0 lux1 b1 lux2 b2 lux3 b3))

def execLightRamp (tag step : Byte) (s : State) : Host.Outcome State Fault Refusal :=
  .next (s.take (doLightRamp tag step))

def execLightStatus (tag : Byte) (s : State) : Host.Outcome State Fault Refusal :=
  .next (s.take (doLightStatus tag))

end Sys2Proof.Machine
end

