-- ==== Sys2Proof/Machine/LinkCommands.lean ====
section
/-! DEFINITION. The commands of the host link (chapter 10): Identify, Fetch Notices, Set Notice Masks, Soft Reset
and the end of its drain, the read frame, the wake from DEEP by CS, and the resets and the supply (R185, R202).
For a message, `do…` carries the request out once it is taken (R189 case 6); `exec…` is the command. -/
namespace Sys2Proof.Machine
open Sys2Proof

/-- Identify (R200). -/
def doIdentify (tag : Byte) (s : State) : State := s.answer 0x01#8 tag .ok identifyRecord

/-- Fetch Notices (R198): the kinds both pending and selected leave the set and are returned. -/
def doFetchNotices (tag : Byte) (selection : U16) (s : State) : State :=
  let fetched := s.lnk.notices &&& selection
  (s.onLnk fun l => { l with notices := l.notices &&& ~~~selection }).answer 0x02#8 tag .ok (le16 fetched)

/-- Set Notice Masks (R199): BATTERY_CRITICAL is always in the wake mask. -/
def doSetNoticeMasks (tag : Byte) (enable wake : U16) (s : State) : State :=
  let wake := wake ||| Notice.batteryCritical.set
  (s.onLnk fun l => { l with enable := enable, wake := wake }).answer 0x03#8 tag .ok (le16 enable ++ le16 wake)

/-- Soft Reset is taken and its drain begins (R201): the pending queue is retired CANCELLED (R68), the POWER
long-press timer stops (R76), SPL withdraws its storage request and every stall timer stops (R151). -/
def doSoftReset (tag : Byte) (s : State) : State :=
  let s := s.onLnk fun l => { l with processing := some ⟨0x04#8, tag, .softReset⟩ }
  let s := s.onTrn fun t => { t with longPress := none }
  let s := s.onSto fun t => t.withdraw .spooler
  let s := s.onSpl fun p => { p with table := p.table.map fun d => { d with stall := none } }
  s.cancelPending.settle true

/-- READ_REPLY (R194): the header of a read frame is complete, and the slot's content at that moment, or an EMPTY
reply, is what MISO shifts out. -/
def State.beginRead (s : State) : State :=
  s.onLnk fun l =>
    { l with receiver := .reading (l.reply.getD emptyReply).bytes l.reply.isSome }

/-- The read frame ends with every byte shifted out (R194): the reply is collected if the slot still holds it. A
transaction that is discarded ends and collects nothing (R195). -/
def State.collect (s : State) : State :=
  match s.lnk.receiver with
  | .reading _ true => s.onLnk fun l => { l with reply := none, receiver := .idle }
  | .reading _ false | .unheard => s.newTransaction
  | _ => s

/-- Byte `k` on MISO of the transaction in progress, or of the next: 0x00 in a write transaction, in the 4 header bytes
and after the last byte of a reply, and the reply's bytes between them (R188, R194); none where MISO is not driven
(R185, R195). In DEEP, and in a transaction that is abandoned or not heard, where the manual says nothing of MISO, it is
0x00 (DESIGN CHOICE, log entry 20). -/
def State.misoByte (s : State) (k : Nat) : Option Byte :=
  if s.live then
    some
      (match s.lnk.receiver with
        | .reading miso _ => if k < 4 then 0x00#8 else miso.getD (k - 4) 0x00#8
        | _ => 0x00#8)
  else none

def execIdentify (tag : Byte) (s : State) : Host.Outcome State Fault Refusal := .next (s.take (doIdentify tag))

def execFetchNotices (tag : Byte) (selection : U16) (s : State) : Host.Outcome State Fault Refusal :=
  .next (s.take (doFetchNotices tag selection))

def execSetNoticeMasks (tag : Byte) (enable wake : U16) (s : State) : Host.Outcome State Fault Refusal :=
  .next (s.take (doSetNoticeMasks tag enable wake))

def execSoftReset (tag : Byte) (s : State) : Host.Outcome State Fault Refusal := .next (s.take (doSoftReset tag))

/-- SOFT_RESET_DRAIN_END (R202): the drain ends once no context is in use and STO has no operation. -/
def execSoftResetDrainEnd (s : State) : Host.Outcome State Fault Refusal := .next s.drainProgress

/-- READ_REPLY (R194); the header of a transaction that is not heard begins nothing (R188, R195). -/
def execReadReply (s : State) : Host.Outcome State Fault Refusal :=
  .next (if s.hears then s.newTransaction.beginRead else s)

/-- REPLY_COLLECTED (R194). -/
def execReplyCollected (s : State) : Host.Outcome State Fault Refusal := .next s.collect

/-- CS falls where it wakes nothing: a transaction begins, which is heard where the port takes transactions (R188,
R195). -/
def State.csFalls (s : State) : State :=
  s.onLnk fun l => { l with receiver := if s.linkOn then .begun else .unheard }

/-- CS_FALL_WAKE (R176, R195): CS falls. In DEEP the part goes to ACTIVE, the 1 ms holdoff starts, and the transaction
is discarded; elsewhere it begins a transaction as at any other time (R176). -/
def execCsFallWake (s : State) : Host.Outcome State Fault Refusal :=
  .next
    (if s.live && s.inDeep then
      (s.onLnk fun l => { l with holdoff := some (s.after Config.holdoffTime), receiver := .unheard }).leaveDeep
        .active .host
    else s.csFalls)

/-- WAKE_HOLDOFF_END (R195): transactions that begin from now on are received. -/
def execWakeHoldoffEnd (s : State) : Host.Outcome State Fault Refusal :=
  .next
    (match s.lnk.holdoff with
      | some d => (s.reach d).onLnk fun l => { l with holdoff := none }
      | none => s)

/-- POWER_ON (R185): supply is first applied; a full reset. -/
def execPowerOn (s : State) : Host.Outcome State Fault Refusal := .next (s.fullReset .powerOn)

/-- RESET_LINE_ASSERT (R185): the part is held with its outputs deasserted; in CUTOFF the line is not watched. -/
def execResetLineAssert (s : State) : Host.Outcome State Fault Refusal :=
  .next (if s.live then s.lost .resetHeld .active else s)

/-- RESET_LINE (R185): the RESET input is released after being asserted; a full reset. In CUTOFF the line is not
watched, and without supply there is nothing to reset. -/
def execResetLine (s : State) : Host.Outcome State Fault Refusal :=
  .next (if s.supply = .off || (s.supply = .on && s.pwr.power = .cutoff) then s else s.fullReset .resetLine)

/-- POWER_FAIL (R166): the supply is lost, and every block's state with it. -/
def execPowerFail (s : State) : Host.Outcome State Fault Refusal := .next (s.lost .off .active)

end Sys2Proof.Machine
end

