-- ==== Sys2Proof/Machine/PowerCommands.lean ====
section
/-! DEFINITION. The commands of the power supervisor (chapter 9). -/
namespace Sys2Proof.Machine
open Sys2Proof

/-- Enter Doze (R172); the deep-idle timer may start in this event (R174). -/
def doEnterDoze (tag : Byte) (s : State) : State :=
  if s.pwr.cutoff then s.answer 0x90#8 tag .powerDown
  else ((s.onPwr fun p => { p with power := .doze }).answer 0x90#8 tag .ok).idleFollow

/-- Enter Deep (R173). -/
def doEnterDeep (tag : Byte) (s : State) : State :=
  if s.pwr.cutoff then s.answer 0x91#8 tag .powerDown
  else if s.spl.busy then s.answer 0x91#8 tag .downloadActive
  else (s.answer 0x91#8 tag .ok).beginDeepWait .commanded

/-- Shutdown Now (R182). -/
def doShutdownNow (tag : Byte) (s : State) : State :=
  if s.pwr.cutoff then s.answer 0x92#8 tag .powerDown
  else if s.pwr.graceTimer.isNone then s.answer 0x92#8 tag .noGrace
  else (s.answer 0x92#8 tag .ok).startCutoff

/-- The designation that a Power Settings message carries: a slot, none (0xFF), or no valid code (R179, R203). -/
def designationOf (b : Byte) : Option (Option (Fin 16)) :=
  if b = 0xFF#8 then some none else (slotOf b).map some

/-- Power Settings' test 1 for the four values (R179). -/
def goodPower (low crit ceiling idle : Nat) : Bool :=
  3000 ≤ low && low ≤ 4200 && 2800 ≤ crit && crit ≤ 4100 && crit < low && 100 ≤ ceiling && ceiling ≤ 1000 &&
    idle ≤ 3600

/-- The tests of a slot named as the sleep screen (R180). -/
def State.judgeDesignation (s : State) (d : Option (Fin 16)) : Option Status :=
  match d with
  | none => none
  | some i =>
    if s.pwr.designation = some i then none
    else if s.mem.slots[i].state = .releasing then some .slotBusy
    else if s.mem.slots[i].state ≠ .ready ∨ s.mem.slots[i].owner ≠ .host then some .slotState
    else if s.mem.slots[i].width ≠ Config.panelW ∨ s.mem.slots[i].height ≠ Config.panelH then some .notFullPanel
    else none

/-- The owner field of a slot named or no longer named as the sleep screen (R5, R180). -/
def State.ownSlot (s : State) (o : Owner) : Option (Fin 16) → State
  | some i => s.onMem fun m => m.setOwner i o none
  | none => s

/-- The designation in force becomes `d` (R180). -/
def State.designate (s : State) (d : Option (Fin 16)) : State :=
  let s := (s.ownSlot .host s.pwr.designation).ownSlot .sleep d
  s.onPwr fun p => { p with designation := d }

/-- A new LOW ceiling is announced while the level is LOW or CRITICAL (R169). -/
def State.newCeiling (s : State) (c : Nat) : State :=
  if s.pwr.level ≠ .normal ∧ c ≠ s.pwr.lowCeiling then s.onLgt fun l => l.announce c else s

/-- Power Settings is accepted (R179). -/
def State.storePower (s : State) (low crit ceiling idle : Nat) (d : Option (Fin 16)) : State :=
  ((s.newCeiling ceiling).designate d).onPwr fun p =>
    { p with lowMv := low, critMv := crit, lowCeiling := ceiling, deepIdle := idle }

/-- Power Settings (R179). -/
def doPowerSettings (tag : Byte) (low crit ceiling idle : U16) (slot : Byte) (s : State) : State :=
  match designationOf slot with
  | none => s.answer 0x93#8 tag .badParam
  | some d =>
    if goodPower low.toNat crit.toNat ceiling.toNat idle.toNat = false then s.answer 0x93#8 tag .badParam
    else if s.pwr.cutoff then s.answer 0x93#8 tag .powerDown
    else
      match s.judgeDesignation d with
      | some e => s.answer 0x93#8 tag e
      | none =>
        (s.storePower low.toNat crit.toNat ceiling.toNat idle.toNat d).answer 0x93#8 tag .ok [optSlotByte d]

/-- Wake Timer Set (R177). -/
def doWakeTimerSet (tag : Byte) (time : U32) (s : State) : State :=
  if 86400 < time.toNat then s.answer 0x94#8 tag .badParam
  else
    (s.onPwr fun p =>
        { p with
          wakeTimer := if time.toNat = 0 then none else some (s.after (time.toNat * Config.perS)) }).answer 0x94#8 tag .ok

/-- Power Status (R187). -/
def doPowerStatus (tag : Byte) (s : State) : State := s.answer 0x95#8 tag .ok s.powerRecord

def execEnterDoze (tag : Byte) (s : State) : Host.Outcome State Fault Refusal := .next (s.take (doEnterDoze tag))

def execEnterDeep (tag : Byte) (s : State) : Host.Outcome State Fault Refusal := .next (s.take (doEnterDeep tag))

def execShutdownNow (tag : Byte) (s : State) : Host.Outcome State Fault Refusal :=
  .next (s.take (doShutdownNow tag))

def execPowerSettings (tag : Byte) (low crit ceiling idle : U16) (slot : Byte) (s : State) :
    Host.Outcome State Fault Refusal :=
  .next (s.take (doPowerSettings tag low crit ceiling idle slot))

def execWakeTimerSet (tag : Byte) (time : U32) (s : State) : Host.Outcome State Fault Refusal :=
  .next (s.take (doWakeTimerSet tag time))

def execPowerStatus (tag : Byte) (s : State) : Host.Outcome State Fault Refusal :=
  .next (s.take (doPowerStatus tag))

/-! ### Timers and pins -/

/-- DEEP_IDLE_TIMER_EXPIRY (R174): an AUTOMATIC DEEP entry begins to wait. -/
def execDeepIdleTimerExpiry (s : State) : Host.Outcome State Fault Refusal :=
  .next
    (match s.pwr.idleTimer with
      | some d => (s.reach d).beginDeepWait .automatic
      | none => s)

/-- DEEP_ENTRY (R173, R175): the last condition of a waiting entry holds. -/
def execDeepEntry (s : State) : Host.Outcome State Fault Refusal :=
  .next (if s.live && !s.pwr.cutoff then s.deepProgress else s)

/-- WAKE_TIMER_EXPIRY (R177): the notice is raised, and the expiry is a wake source. -/
def execWakeTimerExpiry (s : State) : Host.Outcome State Fault Refusal :=
  .next
    (match s.pwr.wakeTimer with
      | some d =>
        (((s.reach d).onPwr fun p => { p with wakeTimer := none }).raise .wakeTimer).wakeBy .wakeTimer
      | none => s)

/-- CHARGER_INPUT_CHANGE (R178): the filter runs while the input differs from the charger state. -/
def execChargerInputChange (present : Bool) (s : State) : Host.Outcome State Fault Refusal :=
  .next
    (if s.pwr.chargerInput = present then s
    else
      s.onPwr fun p =>
        { p with
          chargerInput := present
          chargerFilter :=
            if s.supply = .on ∧ present ≠ p.charger then some (s.after Config.settleTime) else none })

/-- The grace timer after an accepted charger change (R178, R181); in the cutoff sequence the change is a notice
only. -/
def State.graceAfterCharger (s : State) (present : Bool) : Option Nat :=
  if s.pwr.cutoff then s.pwr.graceTimer
  else if s.pwr.level = .critical then
    if present then none else some (s.after Config.graceTime)
  else s.pwr.graceTimer

/-- A charger change is accepted outside CUTOFF (R178). -/
def State.chargerAccepted (s : State) : State :=
  let present := s.pwr.chargerInput
  let g := s.graceAfterCharger present
  let s := s.onPwr fun p => { p with charger := present, graceTimer := g }
  (s.raise .charger).wakeBy .charger

/-- CHARGER_CHANGE (R178, R185): the filter accepts the input's level; in CUTOFF a charger that is present takes the
part out by a full reset. -/
def execChargerChange (s : State) : Host.Outcome State Fault Refusal :=
  .next
    (match s.pwr.chargerFilter with
      | some d =>
        let s := (s.reach d).onPwr fun p => { p with chargerFilter := none }
        if s.pwr.power = .cutoff then
          if s.pwr.chargerInput then s.fullReset .cutoffExit else s
        else s.chargerAccepted
      | none => s)

/-- GRACE_TIMER_EXPIRY (R181): the cutoff sequence begins, unless it runs already. -/
def execGraceTimerExpiry (s : State) : Host.Outcome State Fault Refusal :=
  .next
    (match s.pwr.graceTimer with
      | some d =>
        let s := s.reach d
        if s.pwr.cutoff then s.onPwr fun p => { p with graceTimer := none } else s.startCutoff
      | none => s)

/-- SLEEP_SCREEN_REQUEST (R184): no context is in use in the cutoff sequence, and PWR submits the sleep screen. -/
def execSleepScreenRequest (s : State) : Host.Outcome State Fault Refusal :=
  .next (if s.live && s.sleepDue then s.cutoffProgress else s)

/-- CUTOFF_ENTRY (R184, R185): the reports of rails off and of bus idle have been made. -/
def execCutoffEntry (s : State) : Host.Outcome State Fault Refusal :=
  .next (if s.live && s.cutoffDue then s.enterCutoff else s)

end Sys2Proof.Machine
end

