-- ==== Sys2Proof/Machine/RadioCommands.lean ====
section
/-! DEFINITION. The commands of the radio link and the download spooler (chapter 7). -/
namespace Sys2Proof.Machine
open Sys2Proof

/-! ### Frames of the radio link (R128 to R132, R143) -/

/-- A frame in assembly is discarded by a receive fault (R129): its buffer is EMPTY, and the discard count of the
record whose id had been received rises. -/
def State.receiveFault (s : State) (id : Option Byte) : State :=
  let s := s.onRad fun r => r.settleAssembling .empty
  match id with
  | some i => s.countDiscard i
  | none => s

/-- What follows an event of the radio link, with SPL's state before it: SPL's records and staging, a WAITING segment
where the event is one of R142's, then the gate, the engine and PWR. So where one event is an event of R142 and also ends a
passing (R144, R171), the WAITING segment is examined first, with RADIO still holding the gate (DESIGN CHOICE, log
entry 20). -/
def State.afterRadio (before : Spl) (s : State) : State := (s.spooler (before.wakesWaiting s.spl)).settle true

/-- A frame can be received: RADIO_EN is asserted and the receiver is IN_FRAME (R126, R128). -/
def State.receiving (s : State) : Bool := s.radioEn && s.rad.inFrame

/-- FRAME_START (R128): a marker in HUNT claims an EMPTY buffer. -/
def execFrameStart (s : State) : Host.Outcome State Fault Refusal :=
  .next (if s.radioEn && !s.rad.inFrame then s.onRad Rad.claim else s)

/-- RECEIVE_FAULT (R129). -/
def execReceiveFault (_fault : RxFault) (id : Option Byte) (s : State) : Host.Outcome State Fault Refusal :=
  .next (if s.receiving then (s.receiveFault id).afterRadio s.spl else s)

/-- GAP (R129): 5 ms pass without the next byte. The clock stays: the state does not hold when the last byte came (DESIGN
CHOICE, log entry 2). -/
def execGap (id : Option Byte) (s : State) : Host.Outcome State Fault Refusal :=
  .next (if s.receiving then (s.receiveFault id).afterRadio s.spl else s)

/-- The frame's CRC matches and its length field is in range (R127, R129). -/
def goodFrame (kind id : Byte) (index : U32) (payload : List Byte) (check : U16) : Bool :=
  payload.length ≤ 2048 && check = crc (radioFrameBytes kind id index payload)

/-- DATA_FRAME (R130): a complete DATA frame; in the drain of a soft reset it is discarded without a STATUS (R151), and
its record's discard count does not rise (DESIGN CHOICE, log entry 20); one that R129 faults is discarded as a receive
fault. -/
def execDataFrame (id : Byte) (index : U32) (payload : List Byte) (check : U16) (s : State) :
    Host.Outcome State Fault Refusal :=
  .next
    (if s.receiving then
      if goodFrame 0x01#8 id index payload check then
        if s.draining then (s.onRad fun r => r.settleAssembling .empty).afterRadio s.spl
        else (s.takeSegment ⟨id, index.toNat, payload⟩).afterRadio s.spl
      else (s.receiveFault (some id)).afterRadio s.spl
    else s)

/-- A record that an ABORT frame fails (R143). -/
def Download.abortable (d : Download) : Bool :=
  (d.state = .receiving || d.state = .draining || d.state = .suspended) && !d.removal

/-- SPL takes an ABORT frame (R143). -/
def State.takeAbort (s : State) (id : Byte) (index : Nat) : State :=
  match s.spl.find id with
  | some d =>
    if d.abortable then (s.abort id).status id index .aborted else s.status id index .refused
  | none => s.status id index .refused

/-- ABORT_FRAME (R130, R143); in the drain of a soft reset it is discarded as a DATA frame is (R151; DESIGN CHOICE, log
entry 20). -/
def execAbortFrame (id : Byte) (index : U32) (payload : List Byte) (check : U16) (s : State) :
    Host.Outcome State Fault Refusal :=
  .next
    (if s.receiving then
      if goodFrame 0x02#8 id index payload check then
        let t := s.onRad fun r => r.settleAssembling .empty
        if s.draining then t.afterRadio s.spl else (t.takeAbort id index.toNat).afterRadio s.spl
      else (s.receiveFault (some id)).afterRadio s.spl
    else s)

/-- STATUS_TRANSMIT (R132): the idle transmitter takes the head entry. -/
def execStatusTransmit (s : State) : Host.Outcome State Fault Refusal := .next s.transmit

/-- STATUS_FRAME_SENT (R132): the transmitter is idle, and takes the next entry if there is one. -/
def execStatusFrameSent (s : State) : Host.Outcome State Fault Refusal :=
  .next (if s.rad.sending.isSome then (s.onRad fun r => { r with sending := none }).transmit else s)

/-- STALL_TIMER_EXPIRY (R148): the record is suspended, and DOWNLOAD_FAULT raised. -/
def execStallTimerExpiry (id : Byte) (s : State) : Host.Outcome State Fault Refusal :=
  .next
    (match s.spl.find id with
      | some d =>
        match d.stall with
        | some e => (((s.reach e).suspend id .stall).raise .downloadFault).afterRadio s.spl
        | none => s
      | none => s)

/-! ### Download messages (R134 to R139) -/

/-- The record a Download Arm makes (R134). -/
def newDownload (id : Byte) (total size start : Nat) : Download :=
  { id := id, total := total, size := size, start := start }

/-- Download Arm's test 1 (R134). -/
def goodArm (id : Byte) (total size start : Nat) : Bool :=
  id ≠ 0#8 && 1 ≤ total && total ≤ 1073741824 && segmentSizes.contains size && start % 64 = 0 &&
    start < Config.flashPages

/-- Two destination ranges meet. -/
def Download.overlaps (d e : Download) : Bool := d.start < e.start + e.pages && e.start < d.start + d.pages

/-- Download Arm's tests 2 to 7 (R134). -/
def State.judgeArm (s : State) (d : Download) : Option Status :=
  if (s.spl.find d.id).isSome then some .dlExists
  else if 4 ≤ s.spl.table.length then some .dlTableFull
  else if Config.flashPages < d.start + d.pages then some .storageRange
  else if s.spl.table.any fun e => d.overlaps e then some .dlOverlap
  else if s.pwr.cutoff then some .powerDown
  else if s.canCarry d = false then some .noMemory
  else none

/-- A stall timer started now (R148). -/
def State.stallAt (s : State) : Nat := s.after (s.spl.stallTime * Config.perS)

/-- Download Arm (R134). -/
def doDownloadArm (tag id : Byte) (total : U32) (size : U16) (start : U32) (s : State) : State :=
  let d := newDownload id total.toNat size.toNat start.toNat
  if goodArm id total.toNat size.toNat start.toNat then
    match s.judgeArm d with
    | some e => s.answer 0x70#8 tag e
    | none =>
      ((s.takeStaging.onSpl fun p => { p with table := p.table ++ [{ d with stall := some s.stallAt }] }).answer 0x70#8
        tag .ok (u32 d.segments ++ u32 d.pages)).settle true
  else s.answer 0x70#8 tag .badParam

/-- Download Resume's tests (R136). -/
def State.judgeResume (s : State) (d : Download) : Option Status :=
  if d.state ≠ .suspended || d.removal then some .dlState
  else if s.pwr.cutoff then some .powerDown
  else if s.canCarry d = false then some .noMemory
  else none

/-- Download Resume (R136). -/
def doDownloadResume (tag id : Byte) (s : State) : State :=
  match s.spl.find id with
  | none => s.answer 0x71#8 tag .unknownDownload
  | some d =>
    match s.judgeResume d with
    | some e => s.answer 0x71#8 tag e
    | none =>
      ((s.takeStaging.onSpl fun p =>
          p.update id fun d => { d with state := .receiving, fault := none, stall := some s.stallAt }).answer 0x71#8 tag
        .ok (u32 d.lowest)).settle true

/-- A record's removal: at once, or, where a storage operation for it is in progress, when that ends, the reply
waiting with it (R137, R138). -/
def State.removeOrWait (s : State) (kind tag id : Byte) : State :=
  if s.opFor id then
    (s.onSpl fun p => p.update id fun d => { d with removal := true }).onLnk fun l =>
      { l with processing := some ⟨kind, tag, .removal⟩ }
  else (s.removeRecord id).answer kind tag .ok

/-- Download Cancel (R137). -/
def doDownloadCancel (tag id : Byte) (s : State) : State :=
  match s.spl.find id with
  | none => s.answer 0x72#8 tag .unknownDownload
  | some _ => ((s.releaseRecord id fun d => d).removeOrWait 0x72#8 tag id).afterRadio s.spl

/-- Download Clear (R138). -/
def doDownloadClear (tag id : Byte) (s : State) : State :=
  match s.spl.find id with
  | none => s.answer 0x73#8 tag .unknownDownload
  | some d =>
    if d.state = .complete ∨ d.state = .failed then (s.removeOrWait 0x73#8 tag id).afterRadio s.spl
    else s.answer 0x73#8 tag .dlState

/-- Download Status (R138). -/
def doDownloadStatus (tag id : Byte) (s : State) : State :=
  if id = 0#8 then s.answer 0x74#8 tag .ok s.allDownloads
  else
    match s.spl.find id with
    | none => s.answer 0x74#8 tag .unknownDownload
    | some d => s.answer 0x74#8 tag .ok (s.downloadRecord d)

/-- The values of Spool Settings are in range (R139). -/
def goodSpool (budget : Nat) (stall : Byte) (hold : Nat) : Bool :=
  4 ≤ budget && budget ≤ 256 && stall ≠ 0#8 && hold ≤ 10000

/-- The four values of Spool Settings are stored; a new bit rate discards a frame in assembly (R139). -/
def State.storeSpool (s : State) (budget stall hold rate : Nat) : State :=
  let t := s.onSpl fun p => { p with budget := budget, stallTime := stall, holdLimit := hold }
  if rate = s.rad.rate then t else t.cutFrame.onRad fun r => { r with rate := rate }

/-- Spool Settings (R139). -/
def doSpoolSettings (tag : Byte) (budget : U16) (stall : Byte) (hold : U16) (rateCode : Byte) (s : State) : State :=
  match rateOf rateCode with
  | none => s.answer 0x75#8 tag .badParam
  | some rate =>
    if goodSpool budget.toNat stall hold.toNat then
      if rate ≠ s.rad.rate ∧ s.spl.receiving then s.answer 0x75#8 tag .downloadActive
      else ((s.storeSpool budget.toNat stall.toNat hold.toNat rate).answer 0x75#8 tag .ok).settle true
    else s.answer 0x75#8 tag .badParam

def execDownloadArm (tag id : Byte) (total : U32) (size : U16) (start : U32) (s : State) :
    Host.Outcome State Fault Refusal :=
  .next (s.take (doDownloadArm tag id total size start))

def execDownloadResume (tag id : Byte) (s : State) : Host.Outcome State Fault Refusal :=
  .next (s.take (doDownloadResume tag id))

def execDownloadCancel (tag id : Byte) (s : State) : Host.Outcome State Fault Refusal :=
  .next (s.take (doDownloadCancel tag id))

def execDownloadClear (tag id : Byte) (s : State) : Host.Outcome State Fault Refusal :=
  .next (s.take (doDownloadClear tag id))

def execDownloadStatus (tag id : Byte) (s : State) : Host.Outcome State Fault Refusal :=
  .next (s.take (doDownloadStatus tag id))

def execSpoolSettings (tag : Byte) (budget : U16) (stall : Byte) (hold : U16) (rateCode : Byte) (s : State) :
    Host.Outcome State Fault Refusal :=
  .next (s.take (doSpoolSettings tag budget stall hold rateCode))

end Sys2Proof.Machine
end

