-- ==== Sys2Proof/Machine/SensorCommands.lean ====
section
/-! DEFINITION. The commands of the sensor converter (chapter 5). -/
namespace Sys2Proof.Machine
open Sys2Proof

/-- WAV takes a PANEL_TEMP result (R33 to R36): a faulted one changes nothing. -/
def State.takeTemperature (s : State) : State :=
  let r := s.sns.records.panelTemp
  if r.fault then s
  else
    let t := s.onWav fun w => w.takeReading r.derived
    if s.wav.rangeRaises r.derived then t.raise .tempRange else t

/-- A PANEL_TEMP result is handed to WAV and, where UPD waits for one, to UPD (R52, R95): the examination at the end
of the wait makes no freshness check. -/
def State.handTemperature (s : State) : State :=
  let t := s.takeTemperature
  if s.upd.freshWait then (t.onUpd fun u => { u with freshWait := false }).settle false else t.settle true

/-- After a battery wake's conversion in DEEP (R103 steps 3 and 4): the timer starts again and the converter is
powered down. -/
def Sns.endBatteryWake (n : Sns) (now : Nat) : Sns :=
  { n with powered := false, lastChannel := none, batteryTimer := some (now + Config.batteryDeepTime) }

/-- A BATTERY result is handed to PWR (R95, R103, R168, R176): one that makes the level CRITICAL in DEEP takes the
part out of it. -/
def State.handBattery (s : State) : State :=
  let t := s.batteryResult s.sns.records.battery.derived.toNat
  let t :=
    if s.inDeep then
      if t.pwr.level = .critical then t.leaveDeep .doze .critical
      else t.onSns fun n => n.endBatteryWake s.clock
    else t
  t.settle true

/-- A result is handed to its channel's users (R95 step 4). -/
def State.handOver (s : State) (c : Channel) : State :=
  match c with
  | .ambient => s.onLgt fun l => l.sample s.sns.records.ambient.raw
  | .panelTemp => s.handTemperature
  | .battery => s.handBattery

/-- A conversion ends with a count (R95). -/
def State.endConversion (s : State) (c : Channel) (count : Nat) : State :=
  let was := (s.sns.records.get c).fault
  let s := s.onSns fun n => n.finish c count s.nowMs
  let s := if (s.sns.records.get c).fault && !was then s.raise .sensorFault else s
  let s := s.handOver c
  s.onSns fun n => n.arbitrate s.clock

/-- CONVERSION_START (R98): the arbiter serves a waiting request while the converter is free. -/
def execConversionStart (s : State) : Host.Outcome State Fault Refusal :=
  .next (if s.live then s.onSns fun n => n.arbitrate s.clock else s)

/-- CONVERSION_END (R95): the count comes from the analog input. -/
def execConversionEnd (count : Count) (s : State) : Host.Outcome State Fault Refusal :=
  .next
    (match s.sns.converting with
      | some (c, e) => (s.reach e).endConversion c count.toNat
      | none => s)

/-- The AMBIENT request leaves the set unserved, and the miss count rises (R99). -/
def Sns.miss (n : Sns) : Sns :=
  { n with
    requests := n.requests.set .ambient false
    ambientLatest := none
    missCount := wrap16 (n.missCount + 1) }

/-- AMBIENT_MISS (R99, R120): the latest-start time is reached before the conversion has started. -/
def execAmbientMiss (s : State) : Host.Outcome State Fault Refusal :=
  .next
    (match s.sns.ambientLatest with
      | some d => if s.sns.ambientWaits then ((s.reach d).onSns Sns.miss).onLgt Lgt.missed else s
      | none => s)

/-- PANEL_TEMP_TIMER_EXPIRY (R100). -/
def execPanelTempTimerExpiry (s : State) : Host.Outcome State Fault Refusal :=
  .next
    (match s.sns.panelTimer with
      | some d =>
        let s := s.reach d
        (s.onSns fun n => { n with panelTimer := some (s.after (n.period * Config.perS)) }).askPanelTemp
      | none => s)

/-- BATTERY_TIMER_EXPIRY (R103): in DEEP it is a battery wake, which powers the converter. -/
def execBatteryTimerExpiry (s : State) : Host.Outcome State Fault Refusal :=
  .next
    (match s.sns.batteryTimer with
      | some d =>
        let s := s.reach d
        s.onSns fun n =>
          { n with
            powered := true
            batteryTimer := if s.inDeep then none else some (s.after Config.batteryTime) }.request
            .battery s.clock
      | none => s)

/-- Read Sensors (R104). -/
def doReadSensors (tag fresh : Byte) (s : State) : State :=
  match boolOf fresh with
  | none => s.answer 0x50#8 tag .badParam
  | some f =>
    let s := if f then s.askPanelTemp else s
    s.answer 0x50#8 tag .ok s.sensorRecord

/-- Sensor Settings (R101). -/
def doSensorSettings (tag period : Byte) (s : State) : State :=
  if period = 0#8 then s.answer 0x51#8 tag .badParam
  else
    (s.onSns fun n =>
        { n with
          period := period.toNat
          panelTimer := some (s.after (period.toNat * Config.perS)) }).answer 0x51#8 tag .ok

def execReadSensors (tag fresh : Byte) (s : State) : Host.Outcome State Fault Refusal :=
  .next (s.take (doReadSensors tag fresh))

def execSensorSettings (tag period : Byte) (s : State) : Host.Outcome State Fault Refusal :=
  .next (s.take (doSensorSettings tag period))

end Sys2Proof.Machine
end

