-- ==== Sys2Proof/Machine/StorageCommands.lean ====
section
/-! DEFINITION. The commands of the storage port (chapter 8). -/
namespace Sys2Proof.Machine
open Sys2Proof

/-- The operation in progress ends with an outcome (R158): what its requester does with it, SPL's next request and, where
the operation was SPL's or the end is an event of R142, a WAITING segment (R146), the arbiter (R160), and the reports to
PWR and LNK. The segment is examined before a gate whose holder changes in the event (DESIGN CHOICE, log entry 20). -/
def State.endOp (s : State) (o : Op) (outcome : OpOutcome) (data : List Byte) : State :=
  let t := s.stoEnd o outcome data
  (t.spooler (o.requester = .spooler || s.spl.wakesWaiting t.spl)).settle true

/-- STORAGE_OPERATION_START (R160): the arbiter starts a pending request while STO is free. -/
def execStorageOperationStart (s : State) : Host.Outcome State Fault Refusal := .next s.stoArbitrate

/-- SRDY_READY (R155, R156): SRDY reads ready, which ends a wait phase; in another phase STO does not look at it until
the next wait phase begins. -/
def execSrdyReady (s : State) : Host.Outcome State Fault Refusal :=
  .next (s.onSto fun t => Sto.onReady { t with srdy := true })

/-- The wait phase whose limit can be reached, with the operation as that phase finds it: in the midst of the
transfers, the busy wait that follows them, unless SRDY reads ready there (log entry 3). -/
def Op.waiting (o : Op) (ready : Bool) (now : Nat) : Option Op :=
  match o.stage with
  | .readyWait | .busyWait => some o
  | .sending => if ready then none else some (o.transferred now)
  | .final => none

/-- WAIT_TIMEOUT (R156): a wait phase reaches its limit. -/
def execWaitTimeout (s : State) : Host.Outcome State Fault Refusal :=
  .next
    (match s.sto.op.bind fun o => o.waiting s.sto.srdy s.clock with
      | some o => (s.reach o.deadline).endOp o .timeout []
      | none => s)

/-- SWAIT_TIMEOUT (R153): the stretch of the strobe in progress reaches 10 µs, and no further byte is moved. -/
def execSwaitTimeout (s : State) : Host.Outcome State Fault Refusal :=
  .next
    (match s.sto.op with
      | some o => if o.moving then (s.reach (o.swaitDeadline s.clock)).endOp o .timeout [] else s
      | none => s)

/-- The outcome of an operation whose last phase ends (R155, R157); none where the bytes named cannot end it. -/
def Op.outcome (o : Op) (status : Byte) (data : List Byte) : Option OpOutcome :=
  if o.stage = .final then
    match o.kind with
    | .read => if data.length = Config.blockBytes then some .ok else none
    | _ => if status.getLsbD 0 then some .fault else some .ok
  else none

/-- The operation as its last phase finds it: the transfers end, and the busy wait after them where SRDY reads ready
(log entry 3). -/
def Op.lastPhase (o : Op) (ready : Bool) : Op :=
  if o.stage = .sending ∧ ready then { o with stage := .final, moved := o.script, stretch := none } else o

/-- STORAGE_OPERATION_END (R155, R157, R158): the last phase ends, with the status byte of a program or an erase, or
the 2048 bytes of a read, which the page buffer holds as words. -/
def execStorageOperationEnd (status : Byte) (data : List Byte) (s : State) : Host.Outcome State Fault Refusal :=
  .next
    (match s.sto.op.map fun o => o.lastPhase s.sto.srdy with
      | some o =>
        match o.outcome status data with
        | some out => s.endOp o out (if o.kind = .read then ofWords (toWords data) else [])
        | none => s
      | none => s)

/-- A message that passes is placed as the LINK request, and its reply waits (R159, R162). -/
def State.placeLink (s : State) (tag : Byte) (q : StoRequest) : State :=
  ((s.onLnk fun l => { l with processing := some ⟨q.kind.message, tag, .storage⟩ }).stoPlace .link q).stoArbitrate

/-- The tests of a storage message (R162): `bad` is test 1, `locked` test 3. -/
def State.judgeStorage (s : State) (bad locked : Bool) : Option Status :=
  if bad then some .badParam
  else if s.pwr.cutoff then some .powerDown
  else if locked then some .storageLocked
  else none

/-- A storage message is refused or placed (R162). -/
def State.storageMessage (s : State) (tag : Byte) (q : StoRequest) (bad locked : Bool) : State :=
  match s.judgeStorage bad locked with
  | some e => s.answer q.kind.message tag e
  | none => s.placeLink tag q

/-- Storage Read (R162). -/
def doStorageRead (tag : Byte) (page : U32) (s : State) : State :=
  s.storageMessage tag { kind := .read, page := page.toNat } (Config.flashPages ≤ page.toNat) false

/-- Storage Program (R161, R162). -/
def doStorageProgram (tag : Byte) (page : U32) (data : List Byte) (s : State) : State :=
  s.storageMessage tag { kind := .program, page := page.toNat, data := data } (Config.flashPages ≤ page.toNat)
    (s.spl.lockedPage page.toNat)

/-- Storage Erase (R161, R162): the block's 64 pages are judged against the locked ranges. -/
def doStorageErase (tag : Byte) (page : U32) (s : State) : State :=
  s.storageMessage tag { kind := .erase, page := page.toNat }
    (Config.flashPages ≤ page.toNat || page.toNat % 64 ≠ 0)
    ((List.range' page.toNat 64).any s.spl.lockedPage)

/-- Storage Status (R163). -/
def doStorageStatus (tag : Byte) (s : State) : State := s.answer 0x83#8 tag .ok s.storageRecord

def execStorageRead (tag : Byte) (page : U32) (s : State) : Host.Outcome State Fault Refusal :=
  .next (s.take (doStorageRead tag page))

def execStorageProgram (tag : Byte) (page : U32) (data : List Byte) (s : State) : Host.Outcome State Fault Refusal :=
  .next (s.take (doStorageProgram tag page data))

def execStorageErase (tag : Byte) (page : U32) (s : State) : Host.Outcome State Fault Refusal :=
  .next (s.take (doStorageErase tag page))

def execStorageStatus (tag : Byte) (s : State) : Host.Outcome State Fault Refusal :=
  .next (s.take (doStorageStatus tag))

end Sys2Proof.Machine
end

