-- ==== Sys2Proof/Machine/TurnCommands.lean ====
section
/-! DEFINITION. The commands of page turning (chapter 4): the keys' debounce and captures, the local turns, and the
turn messages. -/
namespace Sys2Proof.Machine
open Sys2Proof

/-! ### Keys (R71 to R76) -/

/-- Change one key's record. -/
def Trn.onKey (t : Trn) (k : Key) (f : KeyRec → KeyRec) : Trn := { t with keys := t.keys.set k (f (t.keys.get k)) }

/-- The debounce at a change of the input's level (R71); `settleAt` is when a settle timer started now expires. -/
def KeyRec.inputMoves (k : KeyRec) (pressed : Bool) (settleAt : Nat) : KeyRec :=
  match k.debounce, pressed with
  | .released, true => { k with input := pressed, debounce := .pressSettling, settle := some settleAt }
  | .pressSettling, false => { k with input := pressed, debounce := .released, settle := none }
  | .pressed, false => { k with input := pressed, debounce := .releaseSettling, settle := some settleAt }
  | .releaseSettling, true => { k with input := pressed, debounce := .pressed, settle := none }
  | _, _ => { k with input := pressed }

/-- A press in the capture record (R72). -/
def KeyRec.capture (k : KeyRec) (now : Nat) : KeyRec :=
  { k with pressTime := some now, unread := true, overwritten := k.overwritten || k.unread }

/-! ### Turns (R83 to R89) -/

/-- The served turn's mode, with its cadence obligation (R83). -/
def Trn.turnMode (t : Trn) : Mode × Bool :=
  if t.cadence ≠ 0 ∧ t.cadence ≤ t.cadenceCounter then (.full, true) else (.gray, false)

/-- The cadence counter after a served turn (R83). -/
def Trn.nextCounter (t : Trn) : Nat :=
  if t.cadence ≠ 0 ∧ t.cadence ≤ t.cadenceCounter then 0 else min 32 (t.cadenceCounter + 1)

/-- The reason for which a refused submission leaves a turn unserved (R84, R88); the tests that are not named pass,
since a listed slot is READY and full-panel (R79). -/
def unservedReason : Status → Unserved
  | .noWaveform => .noWaveform
  | .powerDown => .powerDown
  | _ => .queueFull

/-- A turn that is not served (R88). -/
def State.turnUnserved (s : State) (key : Key) (reason : Unserved) : State :=
  (s.onTrn fun t =>
    { t with unserved := wrap16 (t.unserved + 1), lastUnserved := some ⟨key, reason, s.nowMs⟩ }).raise .keyUnserved

/-- The current entry goes to the front of a list that holds at most `limit` entries (R85, R86 step 1). -/
def pushCurrent (current : Option Entry) (list : List Entry) (limit : Nat) : List Entry :=
  match current with
  | some c => (c :: list).take limit
  | none => list

/-- The slot that step 1 drops: the tail of a full list (R85, R86). -/
def pushDrops (current : Option Entry) (list : List Entry) (limit : Nat) : Option (Fin 16) :=
  match current with
  | some _ => if limit ≤ list.length then list.getLast?.map Entry.slot else none
  | none => none

/-- A dropped slot is handed to MEM (R7). -/
def State.dropSlot (s : State) : Option (Fin 16) → State
  | some i => s.onMem fun m => m.drop i
  | none => s

/-- The places after a served forward turn, but for the drop (R85). -/
def Trn.moveForward (t : Trn) (front : Entry) (rest : List Entry) (number : Nat) : Trn :=
  { t with
    backward := pushCurrent t.current t.backward 2
    forward := rest
    current := some front
    position := min 32767 (t.position + 1)
    served := wrap16 (t.served + 1)
    lastUpdate := some number
    cadenceCounter := t.nextCounter }

/-- The places after a served backward turn, but for the drop (R86). -/
def Trn.moveBackward (t : Trn) (front : Entry) (rest : List Entry) (number : Nat) : Trn :=
  { t with
    forward := pushCurrent t.current t.forward 4
    backward := rest
    current := some front
    position := max (-32768) (t.position - 1)
    served := wrap16 (t.served + 1)
    lastUpdate := some number
    cadenceCounter := t.nextCounter }

/-- RING_LOW after a served forward turn (R85 step 4, R89). -/
def State.ringLow (s : State) : State :=
  if s.trn.lowMark ≠ 0 ∧ s.trn.forward.length < s.trn.lowMark then s.raise .ringLow else s

/-- The submission of a turn from a slot (R84). -/
def State.judgeTurn (s : State) (i : Fin 16) : Except Status Request :=
  s.judgeSubmission (fullPanel .turn i s.trn.turnMode.1 s.trn.turnMode.2)

/-- A forward turn (R84, R85). -/
def State.forwardTurn (s : State) : State :=
  match s.trn.forward with
  | [] => s.turnUnserved .forward .empty
  | front :: rest =>
    match s.judgeTurn front.slot with
    | .error e => s.turnUnserved .forward (unservedReason e)
    | .ok r =>
      let dropped := pushDrops s.trn.current s.trn.backward 2
      let s := (s.enterQueue r).onTrn fun t => t.moveForward front rest r.number
      ((s.dropSlot dropped).ringLow).settle true

/-- A backward turn (R86). -/
def State.backwardTurn (s : State) : State :=
  match s.trn.backward with
  | [] => s.turnUnserved .backward .empty
  | front :: rest =>
    match s.judgeTurn front.slot with
    | .error e => s.turnUnserved .backward (unservedReason e)
    | .ok r =>
      let dropped := pushDrops s.trn.current s.trn.forward 4
      let s := (s.enterQueue r).onTrn fun t => t.moveBackward front rest r.number
      (s.dropSlot dropped).settle true

/-! ### What an accepted press does (R74 to R77) -/

/-- The LIGHT key (R75, R116, R124): the toggle leaves the mode OFF in the cutoff sequence. -/
def State.lightKey (s : State) : State :=
  ((if s.pwr.cutoff then s else s.onLgt Lgt.toggle).raise .lightKey).idleFollow

/-- The action of a key's press. -/
def State.keyAction (s : State) (k : Key) : State :=
  match k with
  | .forward => if s.trn.forwardRouting = .turns then s.forwardTurn else s.raise .keyReport
  | .backward => if s.trn.backwardRouting = .turns then s.backwardTurn else s.raise .keyReport
  | .power => s.onTrn fun t => { t with longPress := some (s.after Config.longPressTime) }
  | .light => s.lightKey

/-- A press is accepted (R72, R76): captured, reported to PWR, and acted on; in the drain of a soft reset it only
moves the debounce. -/
def State.pressAccepted (s : State) (k : Key) : State :=
  let s := s.onTrn fun t => t.onKey k fun r => { r with debounce := .pressed, settle := none }
  if s.draining then s
  else
    let s := s.onTrn fun t => t.onKey k fun r => r.capture s.nowMs
    (s.idleRestart.wakeBy .key).keyAction k

/-- POWER_KEY is raised with its detail (R74). -/
def State.powerKey (s : State) (d : PowerDetail) : State :=
  (s.onTrn fun t => { t with longPress := none, powerDetail := d }).raise .powerKey

/-- A release is accepted (R71, R74). -/
def State.releaseAccepted (s : State) (k : Key) : State :=
  let s := s.onTrn fun t => t.onKey k fun r => { r with debounce := .released, settle := none }
  if k = .power ∧ s.trn.longPress.isSome then s.powerKey .short else s

/-- KEY_INPUT_CHANGE (R71): the pin takes a level; the debounce runs except in CUTOFF, under RESET and without
supply. -/
def execKeyInputChange (k : Key) (pressed : Bool) (s : State) : Host.Outcome State Fault Refusal :=
  .next
    (if (s.trn.keys.get k).input = pressed then s
    else
      s.onTrn fun t =>
        t.onKey k fun r =>
          if s.live then r.inputMoves pressed (s.after Config.settleTime) else { r with input := pressed })

/-- KEY_PRESS (R71): the settle timer expires in PRESS_SETTLING. -/
def execKeyPress (k : Key) (s : State) : Host.Outcome State Fault Refusal :=
  .next
    (match (s.trn.keys.get k).debounce, (s.trn.keys.get k).settle with
      | .pressSettling, some d => if s.live then (s.reach d).pressAccepted k else s
      | _, _ => s)

/-- KEY_RELEASE (R71): the settle timer expires in RELEASE_SETTLING. -/
def execKeyRelease (k : Key) (s : State) : Host.Outcome State Fault Refusal :=
  .next
    (match (s.trn.keys.get k).debounce, (s.trn.keys.get k).settle with
      | .releaseSettling, some d => if s.live then (s.reach d).releaseAccepted k else s
      | _, _ => s)

/-- POWER_LONG_PRESS (R74): the 3000 ms timer expires. -/
def execPowerLongPress (s : State) : Host.Outcome State Fault Refusal :=
  .next
    (match s.trn.longPress with
      | some d => if s.live then (s.reach d).powerKey .long else s
      | none => s)

/-! ### Turn messages (R79 to R82, R91, R73) -/

/-- The slot's picture covers the whole panel. -/
def Slot.fullPanel (x : Slot) : Bool := x.width = Config.panelW && x.height = Config.panelH

/-- The entries of a list of the turn state. -/
def Trn.list (t : Trn) : TurnList → List Entry
  | .forward => t.forward
  | .backward => t.backward

/-- The turn state with one list replaced. -/
def Trn.setList (t : Trn) (l : TurnList) (es : List Entry) : Trn :=
  match l with
  | .forward => { t with forward := es }
  | .backward => { t with backward := es }

/-- The most entries a list holds (R78). -/
def TurnList.limit : TurnList → Nat
  | .forward => 4
  | .backward => 2

/-- The tests that Turn Push and Turn Sync make of a slot they are to take (R79 tests 2 to 4, R81). -/
def Slot.judgeTake (x : Slot) : Option Status :=
  if x.state = .releasing then some .slotBusy
  else if x.state ≠ .ready ∨ x.owner ≠ .host then some .slotState
  else if x.fullPanel = false then some .notFullPanel
  else none

/-- Turn Push (R79). -/
def doTurnPush (tag slot list : Byte) (pageTag : U32) (s : State) : State :=
  match slotOf slot, turnListOf list with
  | some i, some l =>
    match s.mem.slots[i].judgeTake with
    | some e => s.answer 0x40#8 tag e
    | none =>
      if l.limit ≤ (s.trn.list l).length then s.answer 0x40#8 tag .listFull
      else
        ((s.onMem fun m => m.setOwner i .turn (some pageTag)).onTrn fun t =>
            t.setList l (t.list l ++ [⟨i, pageTag⟩])).answer 0x40#8 tag .ok (u8 ((s.trn.list l).length + 1))
  | _, _ => s.answer 0x40#8 tag .badParam

/-- The entry of a slot in one of the two lists. -/
def Trn.listed (t : Trn) (i : Fin 16) : Option (TurnList × Entry) :=
  match t.forward.find? fun e => e.slot = i with
  | some e => some (.forward, e)
  | none => (t.backward.find? fun e => e.slot = i).map fun e => (.backward, e)

/-- Turn Withdraw (R80). -/
def doTurnWithdraw (tag slot : Byte) (s : State) : State :=
  match slotOf slot with
  | none => s.answer 0x41#8 tag .badParam
  | some i =>
    if s.mem.slots[i].state = .releasing then s.answer 0x41#8 tag .slotBusy
    else
      match s.trn.listed i with
      | none => s.answer 0x41#8 tag .slotState
      | some (l, e) =>
        ((s.onMem fun m => m.setOwner i .host none).onTrn fun t =>
            t.setList l ((t.list l).filter fun e => e.slot ≠ i)).answer 0x41#8 tag .ok (u8 l.code ++ le32 e.tag)

/-- The slot that was current becomes HOST-owned (R81). -/
def State.releaseCurrent (s : State) : State :=
  match s.trn.current with
  | some e => s.onMem fun m => m.setOwner e.slot .host none
  | none => s

/-- Turn Sync is accepted: a new current entry or none, and position 0 (R81). -/
def State.syncTo (s : State) (tag : Byte) (e : Option Entry) : State :=
  (s.onTrn fun t => { t with current := e, position := 0 }).answer 0x42#8 tag .ok

/-- Turn Sync naming a slot (R81). -/
def State.syncSlot (s : State) (tag : Byte) (i : Fin 16) (pageTag : U32) : State :=
  if s.mem.slots[i].state = .releasing then s.answer 0x42#8 tag .slotBusy
  else if s.trn.current.map Entry.slot = some i then
    (s.onMem fun m => m.setOwner i .turn (some pageTag)).syncTo tag (some ⟨i, pageTag⟩)
  else
    match s.mem.slots[i].judgeTake with
    | some e => s.answer 0x42#8 tag e
    | none =>
      (s.releaseCurrent.onMem fun m => m.setOwner i .turn (some pageTag)).syncTo tag (some ⟨i, pageTag⟩)

/-- Turn Sync (R81). -/
def doTurnSync (tag slot : Byte) (pageTag : U32) (s : State) : State :=
  if slot = 0xFF#8 then s.releaseCurrent.syncTo tag none
  else
    match slotOf slot with
    | none => s.answer 0x42#8 tag .badParam
    | some i => s.syncSlot tag i pageTag

/-- Turn Settings (R82). -/
def doTurnSettings (tag cadence lowMark forwardRouting backwardRouting : Byte) (s : State) : State :=
  match routingOf forwardRouting, routingOf backwardRouting with
  | some f, some b =>
    if 32 < cadence.toNat ∨ 4 < lowMark.toNat then s.answer 0x43#8 tag .badParam
    else
      (s.onTrn fun t =>
          { t with
            cadence := cadence.toNat
            lowMark := lowMark.toNat
            forwardRouting := f
            backwardRouting := b }).answer 0x43#8 tag .ok
  | _, _ => s.answer 0x43#8 tag .badParam

/-- Turn Status (R91). -/
def doTurnStatus (tag : Byte) (s : State) : State := s.answer 0x44#8 tag .ok s.trn.record

/-- A capture's flags are cleared (R73). -/
def KeyRec.readOut (k : KeyRec) : KeyRec := { k with unread := false, overwritten := false }

/-- Key Status (R73): the flags of all four captures are cleared in the same event. -/
def doKeyStatus (tag : Byte) (s : State) : State :=
  (s.onTrn fun t => { t with keys := t.keys.map KeyRec.readOut }).answer 0x45#8 tag .ok s.trn.keyRecord

def execTurnPush (tag slot list : Byte) (pageTag : U32) (s : State) : Host.Outcome State Fault Refusal :=
  .next (s.take (doTurnPush tag slot list pageTag))

def execTurnWithdraw (tag slot : Byte) (s : State) : Host.Outcome State Fault Refusal :=
  .next (s.take (doTurnWithdraw tag slot))

def execTurnSync (tag slot : Byte) (pageTag : U32) (s : State) : Host.Outcome State Fault Refusal :=
  .next (s.take (doTurnSync tag slot pageTag))

def execTurnSettings (tag cadence lowMark forwardRouting backwardRouting : Byte) (s : State) :
    Host.Outcome State Fault Refusal :=
  .next (s.take (doTurnSettings tag cadence lowMark forwardRouting backwardRouting))

def execTurnStatus (tag : Byte) (s : State) : Host.Outcome State Fault Refusal := .next (s.take (doTurnStatus tag))

def execKeyStatus (tag : Byte) (s : State) : Host.Outcome State Fault Refusal := .next (s.take (doKeyStatus tag))

end Sys2Proof.Machine
end

