-- ==== Sys2Proof/Machine/UpdateCommands.lean ====
section
/-! DEFINITION. The commands of the update engine and the panel scan (chapter 3). -/
namespace Sys2Proof.Machine
open Sys2Proof

/-- The submission that an Update Region message makes (R44, R203). -/
def linkSubmission (slot mode forced notify : Byte) (x y w h sx sy : U16) : Submission :=
  { origin := .link
    slot := slotOf slot
    mode := modeOf mode
    forced := forcedOf forced
    notify := boolOf notify
    x := x.toInt
    y := y.toInt
    w := w.toNat
    h := h.toNat
    sx := sx.toNat
    sy := sy.toNat
    cadence := false }

/-- A submission of the host is admitted or refused (R44); an admission is an examining event (R49). -/
def State.submitRegion (s : State) (tag : Byte) (b : Submission) : State :=
  match s.judgeSubmission b with
  | .error e => s.answer 0x30#8 tag e
  | .ok r =>
    ((s.enterQueue r).answer 0x30#8 tag .ok (u16 r.number ++ u8 (s.upd.supersededBy r).length)).settle true

/-- Update Region (R44). -/
def doUpdateRegion (tag slot mode forced notify : Byte) (x y w h sx sy : U16) (s : State) : State :=
  s.submitRegion tag (linkSubmission slot mode forced notify x y w h sx sy)

/-- Some context holds the request of a number. -/
def Upd.holdsNumber (u : Upd) (number : Nat) : Bool :=
  u.contexts.toList.any fun c => (c.request.map Request.number) = some number

/-- A request leaves the pending queue, retired CANCELLED (R48). -/
def State.cancelRequest (s : State) (r : Request) : State :=
  (s.onUpd fun u => { u with queue := u.queue.filter fun q => q.number ≠ r.number }).retire r .cancelled

/-- Cancel Update (R48): a cancel is an examining event (R49). -/
def doCancelUpdate (tag : Byte) (number : U16) (s : State) : State :=
  if number = 0#16 then s.answer 0x31#8 tag .badParam
  else
    match s.upd.queue.find? fun q => q.number = number.toNat with
    | some r => ((s.cancelRequest r).answer 0x31#8 tag .ok).settle true
    | none =>
      if s.upd.holdsNumber number.toNat then s.answer 0x31#8 tag .updateStarted
      else s.answer 0x31#8 tag .unknownUpdate

/-- The reply of Update Status, with the plan's PROMOTED and DEMOTED flags (R65). -/
def Found.reply (f : Found) (tag : Byte) : Reply :=
  { kind := 0x32#8
    tag := tag
    status := .ok
    promoted := (f.plan.map Plan.promoted).getD false
    demoted := (f.plan.map Plan.demoted).getD false
    body := f.body }

/-- Update Status (R65). -/
def doUpdateStatus (tag : Byte) (number : U16) (s : State) : State :=
  if number = 0#16 then s.answer 0x32#8 tag .badParam
  else
    match s.upd.found number.toNat with
    | some f => s.place (f.reply tag)
    | none => s.answer 0x32#8 tag .unknownUpdate

/-- Panel Settings (R66): the hold time applies from the next start of the timer (R57). -/
def doPanelSettings (tag : Byte) (holdTime : U16) (s : State) : State :=
  if 5000 < holdTime.toNat then s.answer 0x33#8 tag .badParam
  else (s.onUpd fun u => { u with holdTime := holdTime.toNat }).answer 0x33#8 tag .ok

/-- Panel Status (R66). -/
def doPanelStatus (tag : Byte) (s : State) : State := s.answer 0x34#8 tag .ok s.panelRecord

def execUpdateRegion (tag slot mode forced notify : Byte) (x y w h sx sy : U16) (s : State) :
    Host.Outcome State Fault Refusal :=
  .next (s.take (doUpdateRegion tag slot mode forced notify x y w h sx sy))

def execCancelUpdate (tag : Byte) (number : U16) (s : State) : Host.Outcome State Fault Refusal :=
  .next (s.take (doCancelUpdate tag number))

def execUpdateStatus (tag : Byte) (number : U16) (s : State) : Host.Outcome State Fault Refusal :=
  .next (s.take (doUpdateStatus tag number))

def execPanelSettings (tag : Byte) (holdTime : U16) (s : State) : Host.Outcome State Fault Refusal :=
  .next (s.take (doPanelSettings tag holdTime))

def execPanelStatus (tag : Byte) (s : State) : Host.Outcome State Fault Refusal :=
  .next (s.take (doPanelStatus tag))

/-! ### Preparations (R53 to R55) -/

/-- The first eligible request begins its preparation, and the rails rise if they are off; where the freshness check
is due, none begins (R51, R53, R56). -/
def State.prepareNext (s : State) : State :=
  match s.firstEligible with
  | some r =>
    if s.upd.idle && s.sns.stale s.nowMs then s else (s.beginPreparation r).railsFollow
  | none => s

/-- A preparation ends (R55): an empty plan retires its request DONE_EMPTY and frees the context, another makes the
context WAITING. -/
def State.endPreparation (s : State) (i : Fin 8) (r : Request) (p : Plan) : State :=
  if p.empty then ((s.onUpd fun u => u.setCtx i .free).retire r .doneEmpty).adoptIfStill
  else s.onUpd fun u => u.setCtx i (.waiting r p)

/-- PREPARATION_BEGIN (R53). -/
def execPreparationBegin (s : State) : Host.Outcome State Fault Refusal := .next s.prepareNext

/-- PREPARATION_END (R55). -/
def execPreparationEnd (i : Fin 8) (s : State) : Host.Outcome State Fault Refusal :=
  .next
    (match s.upd.contexts[i] with
      | .reserved r _ p endsAt => ((s.reach endsAt).endPreparation i r p).settle true
      | _ => s)

/-! ### Rails (R56, R57) -/

/-- RAIL_RISE (R56): the engine holds work in RAILS_OFF and PWR permits. -/
def execRailRise (s : State) : Host.Outcome State Fault Refusal :=
  .next (if s.upd.railsOff && s.upd.work && s.permitsRise then s.rise.idleFollow else s)

/-- RAILS_UP (R56): the 3 ms of RAILS_RISING end, and R58 and R57 apply at once. -/
def execRailsUp (s : State) : Host.Outcome State Fault Refusal :=
  .next
    (match s.upd.rails with
      | .rising e => ((s.reach e).onUpd fun u => { u with rails := .onIdle }).settle true
      | _ => s)

/-- RAIL_HOLD_EXPIRY (R57). -/
def execRailHoldExpiry (s : State) : Host.Outcome State Fault Refusal :=
  .next
    (match s.upd.rails, s.upd.holdTimer with
      | .onIdle, some d => (s.reach d).fall
      | _, _ => s)

/-- RAILS_OFF (R56): the 2 ms of RAILS_FALLING end; the rails rise again at once if work is held. -/
def execRailsOff (s : State) : Host.Outcome State Fault Refusal :=
  .next
    (match s.upd.rails with
      | .falling e => ((s.reach e).onUpd fun u => { u with rails := .off }).settle true
      | _ => s)

/-! ### The scan (R58, R59, R62) -/

/-- SCAN_START (R58). -/
def execScanStart (s : State) : Host.Outcome State Fault Refusal :=
  .next (if s.live && s.mayScan then s.startScan else s)

/-- FRAME_BOUNDARY (R59); what follows is the examination of the queue and the reports to PWR and LNK. -/
def execFrameBoundary (s : State) : Host.Outcome State Fault Refusal :=
  .next
    (match s.upd.rails with
      | .scanning band period next count => ((s.reach next).boundary band period next count).settle true
      | _ => s)

/-- CONTEXT_COMPLETE (R62): a context whose last frame ends at the coming boundary completes, and a waiting adoption
takes place if none is left in use; the boundary itself does the rest (R59). -/
def execContextComplete (i : Fin 8) (s : State) : Host.Outcome State Fault Refusal :=
  .next
    (match s.upd.rails with
      | .scanning _ _ next _ =>
        if s.upd.contexts[i].ended then ((s.reach next).completeCtx i).adoptIfStill else s
      | _ => s)

end Sys2Proof.Machine
end

