-- ==== Sys2Proof/Machine/WaveformCommands.lean ====
section
/-! DEFINITION. The commands of the waveforms (chapter 2). -/
namespace Sys2Proof.Machine
open Sys2Proof

/-- Waveform Data's effect on WAV (R25, R26). -/
def Wav.writeData (w : Wav) (offset : Nat) (data : List Byte) : Wav :=
  { w with
    incoming := Memory.writeMany Config.tableDefault w.incoming (Memory.run offset data)
    incomingLen := max w.incomingLen (offset + data.length) }

/-- Waveform Data (R26). -/
def doWaveformData (tag : Byte) (offset : U32) (data : List Byte) (s : State) : State :=
  if s.wav.adoptionWaiting then s.answer 0x20#8 tag .adoptionPending
  else if data = [] ∨ Config.tableBytes < offset.toNat + data.length then s.answer 0x20#8 tag .badParam
  else
    let s := s.onWav fun w => w.writeData offset.toNat data
    s.answer 0x20#8 tag .ok (u32 s.wav.incomingLen)

/-- A commit that fails validation (R27): the incoming table is emptied. -/
def Wav.refuse (w : Wav) (f : CommitFault) : Wav := { w.emptied with lastCommit := .bad f }

/-- Waveform Commit (R27, R28): what follows an adoption, or the start of a wait for one, is the examination of the queue
(R49) and the gate's asks (R61, R171). The outcome is coded in R28's order, ADOPTED 0 and WAITING 1 (R203; log entry
9). -/
def doWaveformCommit (tag : Byte) (s : State) : State :=
  if s.wav.adoptionWaiting then s.answer 0x21#8 tag .adoptionPending
  else
    match validate s.wav.incoming s.wav.incomingLen with
    | some f => (s.onWav fun w => w.refuse f).answer 0x21#8 tag .waveformBad f.bytes
    | none =>
      if s.upd.contextInUse then
        ((s.onWav fun w => { w with adoptionWaiting := true, lastCommit := .waiting }).answer 0x21#8 tag .ok
          (u8 1)).settle true
      else (s.adopt.answer 0x21#8 tag .ok (u8 0)).settle true

/-- Waveform Status (R30). -/
def doWaveformStatus (tag : Byte) (s : State) : State := s.answer 0x22#8 tag .ok s.wav.record

def execWaveformData (tag : Byte) (offset : U32) (data : List Byte) (s : State) :
    Host.Outcome State Fault Refusal :=
  .next (s.take (doWaveformData tag offset data))

def execWaveformCommit (tag : Byte) (s : State) : Host.Outcome State Fault Refusal :=
  .next (s.take (doWaveformCommit tag))

def execWaveformStatus (tag : Byte) (s : State) : Host.Outcome State Fault Refusal :=
  .next (s.take (doWaveformStatus tag))

/-- WAVEFORM_ADOPTION (R28): a waiting adoption takes place once no context is in use. -/
def execWaveformAdoption (s : State) : Host.Outcome State Fault Refusal :=
  .next (if s.live && s.wav.adoptionWaiting && !s.upd.contextInUse then s.adopt.settle true else s)

end Sys2Proof.Machine
end

