-- ==== Sys2Proof/Machine/FrameCommands.lean ====
section
/-! DEFINITION. WRITE_FRAME: a write frame as its bytes arrive on MOSI between a fall and a rise of CS (R188 to
R190), judged by R189's six cases and, in the sixth, carried out as the message it is. -/
namespace Sys2Proof.Machine
open Sys2Proof

/-- A decoded message is carried out (R191); a command that is no message carries nothing out. -/
def carryOut (i : Instr) : State → State :=
  match i with
  | .identify tag => doIdentify tag
  | .fetchNotices tag selection => doFetchNotices tag selection
  | .setNoticeMasks tag enable wake => doSetNoticeMasks tag enable wake
  | .softReset tag => doSoftReset tag
  | .openImage tag slot width height format endBehaviour => doOpenImage tag slot width height format endBehaviour
  | .closeImage tag slot => doCloseImage tag slot
  | .loadSlotFromStorage tag slot width height startPage => doLoadSlot tag slot width height startPage
  | .freeSlot tag slot => doFreeSlot tag slot
  | .slotStatus tag slot => doSlotStatus tag slot
  | .poolStatus tag => doPoolStatus tag
  | .waveformData tag offset data => doWaveformData tag offset data
  | .waveformCommit tag => doWaveformCommit tag
  | .waveformStatus tag => doWaveformStatus tag
  | .updateRegion tag slot mode forced notify x y w h sx sy => doUpdateRegion tag slot mode forced notify x y w h sx sy
  | .cancelUpdate tag number => doCancelUpdate tag number
  | .updateStatus tag number => doUpdateStatus tag number
  | .panelSettings tag holdTime => doPanelSettings tag holdTime
  | .panelStatus tag => doPanelStatus tag
  | .turnPush tag slot list pageTag => doTurnPush tag slot list pageTag
  | .turnWithdraw tag slot => doTurnWithdraw tag slot
  | .turnSync tag slot pageTag => doTurnSync tag slot pageTag
  | .turnSettings tag cadence lowMark forwardRouting backwardRouting => doTurnSettings tag cadence lowMark forwardRouting backwardRouting
  | .turnStatus tag => doTurnStatus tag
  | .keyStatus tag => doKeyStatus tag
  | .readSensors tag fresh => doReadSensors tag fresh
  | .sensorSettings tag period => doSensorSettings tag period
  | .lightSet tag mode brightness mix => doLightSet tag mode brightness mix
  | .lightCurve tag lux0 b0 lux1 b1 lux2 b2 lux3 b3 => doLightCurve tag lux0 b0 lux1 b1 lux2 b2 lux3 b3
  | .lightRamp tag step => doLightRamp tag step
  | .lightStatus tag => doLightStatus tag
  | .downloadArm tag id total segmentSize startPage => doDownloadArm tag id total segmentSize startPage
  | .downloadResume tag id => doDownloadResume tag id
  | .downloadCancel tag id => doDownloadCancel tag id
  | .downloadClear tag id => doDownloadClear tag id
  | .downloadStatus tag id => doDownloadStatus tag id
  | .spoolSettings tag budget stallTime holdLimit rateCode => doSpoolSettings tag budget stallTime holdLimit rateCode
  | .storageRead tag page => doStorageRead tag page
  | .storageProgram tag page data => doStorageProgram tag page data
  | .storageErase tag page => doStorageErase tag page
  | .storageStatus tag => doStorageStatus tag
  | .enterDoze tag => doEnterDoze tag
  | .enterDeep tag => doEnterDeep tag
  | .wakeTimerSet tag time => doWakeTimerSet tag time
  | .powerSettings tag lowMv critMv lowCeiling deepIdle slot => doPowerSettings tag lowMv critMv lowCeiling deepIdle slot
  | .shutdownNow tag => doShutdownNow tag
  | .powerStatus tag => doPowerStatus tag
  | _ => id

/-- What R189 makes of a write frame that no request in processing discards: cases 2 to 6. -/
inductive FrameCase where
  | tooLong | cut | unknownKind | badLength
  | request (i : Instr)
deriving DecidableEq, Repr

/-- The body length is one the kind allows (R189 case 5). -/
def allowedLength (kind : Byte) (n : Nat) : Bool :=
  match bodyLengths kind with
  | some (lo, hi) => lo ≤ n && n ≤ hi
  | none => false

/-- Cases 2 to 6 of R189, in order, from the header and the bytes that followed it before CS rose; bytes after the
declared body are ignored. -/
def judgeFrame (kind tag : Byte) (declared : Nat) (rest : List Byte) : FrameCase :=
  if Config.maxBody < declared then .tooLong
  else if rest.length < declared then .cut
  else if (bodyLengths kind).isNone then .unknownKind
  else if allowedLength kind declared = false then .badLength
  else
    match decodeMessage kind tag (rest.take declared) with
    | some i => .request i
    | none => .badLength

/-- A frame of case 2, 4, 5 or 6 returns the part from DOZE; a cut one does not (R189). -/
def State.afterFrame (s : State) (kind tag : Byte) : FrameCase → State
  | .tooLong => s.returnToActive.answer kind tag .tooLong
  | .cut => s.answer kind tag .cut
  | .unknownKind => s.returnToActive.answer kind tag .unknownKind
  | .badLength => s.returnToActive.answer kind tag .badLength
  | .request i => carryOut i s.returnToActive

/-- A whole Image Data frame (R190): its header, its complete body bytes, and its end or its cut. -/
def State.imageFrame (s : State) (declared : Nat) (rest : List Byte) : State :=
  let s := (rest.take declared).foldl State.imageByte (s.imageHeader declared)
  if rest.length < declared then s.imageCut.newTransaction else s.imageEnd

/-- A whole read frame (R194): `clocked` bytes are shifted out after its header. -/
def State.readFrame (s : State) (clocked : Nat) : State :=
  let s := s.beginRead
  match s.lnk.receiver with
  | .reading miso _ => if miso.length ≤ clocked then s.collect else s.newTransaction
  | _ => s

/-- A transaction whose header has arrived whole (R188 to R190, R194). -/
def State.frame (s : State) (kind tag : Byte) (declared : Nat) (rest : List Byte) : State :=
  if kind = kindReadReply then s.readFrame rest.length
  else if kind = kindImageData then s.imageFrame declared rest
  else if s.lnk.processing.isSome then s.discardFrame
  else s.afterFrame kind tag (judgeFrame kind tag declared rest)

/-- A transaction's complete MOSI bytes that the port takes (R189); one with fewer than 4 is discarded whole. -/
def State.heardFrame (s : State) (mosi : List Byte) : State :=
  match mosi with
  | kind :: tag :: lo :: hi :: rest => s.frame kind tag (un16 lo hi).toNat rest
  | _ => s

/-- WRITE_FRAME (R189): a transaction's complete MOSI bytes, at the rise of CS (log entry 7). -/
def execWriteFrame (mosi : List Byte) (s : State) : Host.Outcome State Fault Refusal :=
  .next (s.atRise fun s => s.heardFrame mosi)

end Sys2Proof.Machine
end

