-- ==== Sys2Proof/Machine/Dispatch.lean ====
section
/-! DEFINITION. What every command does: one arm per constructor, each one direct call of its meaning. -/
namespace Sys2Proof.Machine
open Sys2Proof

def exec (i : Instr) (s : State) : Host.Outcome State Fault Refusal :=
  match i with
  | .identify tag => Sys2Proof.Machine.execIdentify tag s
  | .fetchNotices tag selection => Sys2Proof.Machine.execFetchNotices tag selection s
  | .setNoticeMasks tag enable wake => Sys2Proof.Machine.execSetNoticeMasks tag enable wake s
  | .softReset tag => Sys2Proof.Machine.execSoftReset tag s
  | .softResetDrainEnd => Sys2Proof.Machine.execSoftResetDrainEnd s
  | .openImage tag slot width height format endBehaviour => Sys2Proof.Machine.execOpenImage tag slot width height format endBehaviour s
  | .imageDataHeader declared => Sys2Proof.Machine.execImageDataHeader declared s
  | .imageDataByte value => Sys2Proof.Machine.execImageDataByte value s
  | .imageDataCut => Sys2Proof.Machine.execImageDataCut s
  | .closeImage tag slot => Sys2Proof.Machine.execCloseImage tag slot s
  | .loadSlotFromStorage tag slot width height startPage => Sys2Proof.Machine.execLoadSlotFromStorage tag slot width height startPage s
  | .freeSlot tag slot => Sys2Proof.Machine.execFreeSlot tag slot s
  | .slotStatus tag slot => Sys2Proof.Machine.execSlotStatus tag slot s
  | .poolStatus tag => Sys2Proof.Machine.execPoolStatus tag s
  | .waveformData tag offset data => Sys2Proof.Machine.execWaveformData tag offset data s
  | .waveformCommit tag => Sys2Proof.Machine.execWaveformCommit tag s
  | .waveformAdoption => Sys2Proof.Machine.execWaveformAdoption s
  | .waveformStatus tag => Sys2Proof.Machine.execWaveformStatus tag s
  | .updateRegion tag slot mode forced notify x y w h sx sy => Sys2Proof.Machine.execUpdateRegion tag slot mode forced notify x y w h sx sy s
  | .cancelUpdate tag number => Sys2Proof.Machine.execCancelUpdate tag number s
  | .updateStatus tag number => Sys2Proof.Machine.execUpdateStatus tag number s
  | .panelSettings tag holdTime => Sys2Proof.Machine.execPanelSettings tag holdTime s
  | .panelStatus tag => Sys2Proof.Machine.execPanelStatus tag s
  | .preparationBegin => Sys2Proof.Machine.execPreparationBegin s
  | .preparationEnd context => Sys2Proof.Machine.execPreparationEnd context s
  | .railRise => Sys2Proof.Machine.execRailRise s
  | .railsUp => Sys2Proof.Machine.execRailsUp s
  | .railHoldExpiry => Sys2Proof.Machine.execRailHoldExpiry s
  | .railsOff => Sys2Proof.Machine.execRailsOff s
  | .scanStart => Sys2Proof.Machine.execScanStart s
  | .frameBoundary => Sys2Proof.Machine.execFrameBoundary s
  | .contextComplete context => Sys2Proof.Machine.execContextComplete context s
  | .keyInputChange key pressed => Sys2Proof.Machine.execKeyInputChange key pressed s
  | .keyPress key => Sys2Proof.Machine.execKeyPress key s
  | .keyRelease key => Sys2Proof.Machine.execKeyRelease key s
  | .powerLongPress => Sys2Proof.Machine.execPowerLongPress s
  | .turnPush tag slot list pageTag => Sys2Proof.Machine.execTurnPush tag slot list pageTag s
  | .turnWithdraw tag slot => Sys2Proof.Machine.execTurnWithdraw tag slot s
  | .turnSync tag slot pageTag => Sys2Proof.Machine.execTurnSync tag slot pageTag s
  | .turnSettings tag cadence lowMark forwardRouting backwardRouting => Sys2Proof.Machine.execTurnSettings tag cadence lowMark forwardRouting backwardRouting s
  | .turnStatus tag => Sys2Proof.Machine.execTurnStatus tag s
  | .keyStatus tag => Sys2Proof.Machine.execKeyStatus tag s
  | .conversionStart => Sys2Proof.Machine.execConversionStart s
  | .conversionEnd count => Sys2Proof.Machine.execConversionEnd count s
  | .ambientMiss => Sys2Proof.Machine.execAmbientMiss s
  | .panelTempTimerExpiry => Sys2Proof.Machine.execPanelTempTimerExpiry s
  | .batteryTimerExpiry => Sys2Proof.Machine.execBatteryTimerExpiry s
  | .readSensors tag fresh => Sys2Proof.Machine.execReadSensors tag fresh s
  | .sensorSettings tag period => Sys2Proof.Machine.execSensorSettings tag period s
  | .periodBoundary => Sys2Proof.Machine.execPeriodBoundary s
  | .rampTick => Sys2Proof.Machine.execRampTick s
  | .ambientOpportunity => Sys2Proof.Machine.execAmbientOpportunity s
  | .ambientRequest => Sys2Proof.Machine.execAmbientRequest s
  | .lightSet tag mode brightness mix => Sys2Proof.Machine.execLightSet tag mode brightness mix s
  | .lightCurve tag lux0 b0 lux1 b1 lux2 b2 lux3 b3 => Sys2Proof.Machine.execLightCurve tag lux0 b0 lux1 b1 lux2 b2 lux3 b3 s
  | .lightRamp tag step => Sys2Proof.Machine.execLightRamp tag step s
  | .lightStatus tag => Sys2Proof.Machine.execLightStatus tag s
  | .frameStart => Sys2Proof.Machine.execFrameStart s
  | .receiveFault fault idReceived => Sys2Proof.Machine.execReceiveFault fault idReceived s
  | .gap idReceived => Sys2Proof.Machine.execGap idReceived s
  | .dataFrame id index payload crc => Sys2Proof.Machine.execDataFrame id index payload crc s
  | .abortFrame id index payload crc => Sys2Proof.Machine.execAbortFrame id index payload crc s
  | .statusTransmit => Sys2Proof.Machine.execStatusTransmit s
  | .stallTimerExpiry id => Sys2Proof.Machine.execStallTimerExpiry id s
  | .downloadArm tag id total segmentSize startPage => Sys2Proof.Machine.execDownloadArm tag id total segmentSize startPage s
  | .downloadResume tag id => Sys2Proof.Machine.execDownloadResume tag id s
  | .downloadCancel tag id => Sys2Proof.Machine.execDownloadCancel tag id s
  | .downloadClear tag id => Sys2Proof.Machine.execDownloadClear tag id s
  | .downloadStatus tag id => Sys2Proof.Machine.execDownloadStatus tag id s
  | .spoolSettings tag budget stallTime holdLimit rateCode => Sys2Proof.Machine.execSpoolSettings tag budget stallTime holdLimit rateCode s
  | .storageOperationStart => Sys2Proof.Machine.execStorageOperationStart s
  | .srdyReady => Sys2Proof.Machine.execSrdyReady s
  | .waitTimeout => Sys2Proof.Machine.execWaitTimeout s
  | .swaitTimeout => Sys2Proof.Machine.execSwaitTimeout s
  | .storageOperationEnd status data => Sys2Proof.Machine.execStorageOperationEnd status data s
  | .storageRead tag page => Sys2Proof.Machine.execStorageRead tag page s
  | .storageProgram tag page data => Sys2Proof.Machine.execStorageProgram tag page data s
  | .storageErase tag page => Sys2Proof.Machine.execStorageErase tag page s
  | .storageStatus tag => Sys2Proof.Machine.execStorageStatus tag s
  | .enterDoze tag => Sys2Proof.Machine.execEnterDoze tag s
  | .enterDeep tag => Sys2Proof.Machine.execEnterDeep tag s
  | .deepIdleTimerExpiry => Sys2Proof.Machine.execDeepIdleTimerExpiry s
  | .deepEntry => Sys2Proof.Machine.execDeepEntry s
  | .csFallWake => Sys2Proof.Machine.execCsFallWake s
  | .wakeHoldoffEnd => Sys2Proof.Machine.execWakeHoldoffEnd s
  | .wakeTimerSet tag time => Sys2Proof.Machine.execWakeTimerSet tag time s
  | .wakeTimerExpiry => Sys2Proof.Machine.execWakeTimerExpiry s
  | .chargerInputChange present => Sys2Proof.Machine.execChargerInputChange present s
  | .chargerChange => Sys2Proof.Machine.execChargerChange s
  | .powerSettings tag lowMv critMv lowCeiling deepIdle slot => Sys2Proof.Machine.execPowerSettings tag lowMv critMv lowCeiling deepIdle slot s
  | .graceTimerExpiry => Sys2Proof.Machine.execGraceTimerExpiry s
  | .shutdownNow tag => Sys2Proof.Machine.execShutdownNow tag s
  | .sleepScreenRequest => Sys2Proof.Machine.execSleepScreenRequest s
  | .cutoffEntry => Sys2Proof.Machine.execCutoffEntry s
  | .powerStatus tag => Sys2Proof.Machine.execPowerStatus tag s
  | .writeFrame mosi => Sys2Proof.Machine.execWriteFrame mosi s
  | .readReply => Sys2Proof.Machine.execReadReply s
  | .replyCollected => Sys2Proof.Machine.execReplyCollected s
  | .powerOn => Sys2Proof.Machine.execPowerOn s
  | .resetLineAssert => Sys2Proof.Machine.execResetLineAssert s
  | .resetLine => Sys2Proof.Machine.execResetLine s
  | .imageDataEnd => Sys2Proof.Machine.execImageDataEnd s
  | .statusFrameSent => Sys2Proof.Machine.execStatusFrameSent s
  | .powerFail => Sys2Proof.Machine.execPowerFail s

end Sys2Proof.Machine
end

