-- ==== Sys2Proof/Machine/Step.lean ====
section
/-! DEFINITION. One step: the command at the front of the queue, or, on an empty queue, one tick. -/
namespace Sys2Proof.Machine
open Sys2Proof

/-- One step (log entries 1 and 3): take the command at the front of the queue and run it on the state with the
queue's rest; on an empty queue the part takes one tick. -/
def step (s : State) : Host.Outcome State Fault Refusal :=
  match s.pending with
  | [] => .next s.tick
  | i :: rest => exec i { s with pending := rest }

/-- The command that a word spells goes to the front of the queue; no row of this block's table has bits, so the
state is unchanged (`decodeTableWord`). -/
def State.withFetchWord (s : State) (nbits w : Nat) : State :=
  match decodeTableWord nbits w with
  | some i => { s with pending := i :: s.pending }
  | none => s

end Sys2Proof.Machine
end

