-- ==== Sys2Proof/Safety.lean ====
section
/-! DEFINITION. What counts as a safe state, and the terms the statements use: the link open for a message, the
LNK state that a reply leaves, the light's ceiling law, the pool's accounts, the memories' canonical form, and the
capacities of the lists. -/
namespace Sys2Proof.Machine
open Sys2Proof

/-- The link takes a message in ACTIVE: no request is in processing, no holdoff runs, and the transaction in progress is
one that the port hears (R188, R189, R192, R195). -/
abbrev State.linkOpen (s : State) : Prop :=
  s.linkOn = true ∧ s.pwr.power = .active ∧ s.lnk.processing = none ∧ s.lnk.receiver ≠ .unheard

/-- LNK after a reply to a message is placed (R192, R193): the slot holds it with OVERWROTE, DISCARDED and STRAY as
they stood, the markers are clear, no request is in processing, and the receiver waits for the next frame. -/
def State.replied (s : State) (kind tag : Byte) (status : Status) (body : List Byte) : Lnk :=
  { s.lnk with
    receiver := .idle
    processing := none
    reply :=
      some
        { kind := kind
          tag := tag
          status := status
          overwrote := s.lnk.reply.isSome
          discarded := s.lnk.discarded
          stray := s.lnk.stray
          promoted := false
          demoted := false
          body := body }
    discarded := false
    stray := false }

/-- A refused message changes LNK alone (R8, R44, R79 and the other chapters' "a refused … changes nothing"). -/
def State.refusedBy (s : State) (kind tag : Byte) (status : Status) : State :=
  { s with lnk := s.replied kind tag status [] }

/-- The light's ceiling law (R110): the pending and the clamped pair lie within the ceiling, which is at most
1000. -/
abbrev Lgt.safe (l : Lgt) : Prop := l.ceiling ≤ 1000 ∧ l.pending.sum ≤ l.ceiling ∧ l.clamped.sum ≤ l.ceiling

/-- The light's ceiling law with the LOW ceiling that PWR may announce (R110, R113, R179). -/
def State.lightSafe (s : State) : Prop := s.lgt.safe ∧ s.pwr.lowCeiling ≤ 1000

/-- The blocks that slots hold, slot by slot. -/
def Mem.heldBlocks (m : Mem) : List Nat := m.slots.toList.flatMap Slot.blocks

/-- The pool's accounts (R2): every block but the shown image's 500 has exactly one holder, the pool, a slot or the
staging; and a FREE slot holds no block (R3). -/
def State.accounts (s : State) : Prop :=
  (s.mem.pool ++ s.mem.heldBlocks ++ s.spl.staging).Perm (List.range' Config.shownBlocks Config.poolBlocks) ∧
    ∀ i : Fin 16, s.mem.slots[i].state = .free → s.mem.slots[i].blocks = []

/-- The sparse memories are in canonical form. -/
def State.canonical (s : State) : Prop :=
  Memory.wf Config.pictureDefault s.mem.cells = true ∧
    Memory.wf Config.tableDefault s.wav.incoming = true ∧
      ∀ t, s.wav.active = some t → Memory.wf Config.tableDefault t = true

/-- Received runs as R133 keeps them: at most 8, each from its first index to its last, ascending, and no two that
touch. -/
abbrev goodRuns (runs : List (Nat × Nat)) : Prop :=
  runs.length ≤ 8 ∧ (∀ r ∈ runs, r.1 ≤ r.2) ∧ runs.Pairwise fun r q => r.2 + 1 < q.1

/-- SPL's capacities: 4 records, of distinct ids, each with at most 8 received runs (R133, R134); a budget of at most 256
blocks, staging of at most that many, and no more staged segments than staging has blocks (R135). -/
abbrev Spl.bounded (p : Spl) : Prop :=
  p.table.length ≤ 4 ∧ (p.table.map Download.id).Nodup ∧ (∀ d ∈ p.table, goodRuns d.runs) ∧
    p.budget ≤ 256 ∧ p.staging.length ≤ 256 ∧ p.staged.length ≤ p.staging.length

/-- The capacities of the part's lists: pending queue 16 (R44), completion log 8 (R63), forward list 4 and backward
list 2 (R78), STATUS queue 4 (R132), SPL's table, runs and staging (R133, R135), battery window 4 (R167). -/
abbrev State.bounded (s : State) : Prop :=
  s.upd.queue.length ≤ 16 ∧ s.upd.log.length ≤ 8 ∧ s.trn.forward.length ≤ 4 ∧ s.trn.backward.length ≤ 2 ∧
    s.rad.queue.length ≤ 4 ∧ s.spl.bounded ∧ s.pwr.window.length ≤ 4

/-- No output of the part is driven: READY, ATTN, RAILEN, RADIO_EN, HOLD, LEDW and LEDC are deasserted (R185). -/
abbrev State.outputsOff (s : State) : Prop :=
  s.ready = false ∧ s.attn = false ∧ s.railen = false ∧ s.radioEn = false ∧ s.hold = false ∧ s.ledw = false ∧
    s.ledc = false

/-- A command is a host message. -/
def isMessage (i : Instr) : Bool := (messageKind i).isSome

end Sys2Proof.Machine
end

