-- ==== Sys2Proof/Certificates/Slice0/Obligations.lean ====
section
/-! DEFINITION. The statements for the provers, chapter by chapter. A statement about a host message takes the link
as open for it (`State.linkOpen`); the state it answers is written out, so that every field not named in it is
unchanged. Where a rule lets more follow in the same event (the examination of the queue, the rails, the gate, the
arbiter), the written state is followed by the model's own operation for that: `State.settle`, `State.spooler`,
`State.afterRadio`, `State.stoArbitrate`. -/
open Sys2Proof Sys2Proof.Machine

/-! ### The step and the frames (chapters 10 and 11) -/

/-- One step runs the command at the front of the queue on the state with the queue's rest (log entry 1: the queue is
the model's choice). -/
def Obligations.StepRunsTheFrontCommand : Prop :=
  ∀ (i : Instr) (s : State), step { s with pending := i :: s.pending } = exec i s

/-- On an empty queue a step is one tick (log entries 1 and 3, the model's choice): 250 ns pass, and an operation that
moves bytes moves one, unless the flash holds SWAIT at the tick, which is a free value (log entry 22). Without supply,
and under RESET, nothing counts. -/
def Obligations.EmptyQueueIsOneTick : Prop :=
  ∀ s : State, s.pending = [] →
    (s.supply = .on →
      step s = .next
        { s with
          clock := s.clock + 1
          freeUsed := s.freeUsed + 1
          sto := s.sto.moveByte (s.clock + 1) (Config.swaitHeld s.freeUsed) }) ∧
    (s.supply ≠ .on → step s = .next s)

/-- Every message's body, laid out by 11.3 and 11.5, has a length its kind allows and reads back as the message: no bit
of a field is dropped, and no two messages share a frame. -/
def Obligations.MessagesDecodeAsEncoded : Prop :=
  ∀ (i : Instr) (k : Byte), WellFormed i = true → messageKind i = some k →
    allowedLength k (messageBody i).length = true ∧ decodeMessage k (messageTag i) (messageBody i) = some i

/-- A write frame that carries a message's bytes does what the message's own row does, in every state; bytes after the
declared body are ignored (R189). That a message is a row of its own beside WRITE_FRAME is log entry 7's division of the
frame (DESIGN CHOICE). -/
def Obligations.WriteFrameRunsItsMessage : Prop :=
  ∀ (i : Instr) (bytes extra : List Byte) (s : State), WellFormed i = true → encodeMessage i = some bytes →
    exec (.writeFrame (bytes ++ extra)) s = exec i s

/-- R189's cases 2 to 5, in order, for a frame that is no read frame and no Image Data; its case 6, in which the request
that the body spells is carried out, shown in full on the bytes of Fetch Notices (R198); and a transaction of fewer than
4 bytes, which is discarded whole. A frame stands at the rise of CS (log entries 6 and 7). -/
def Obligations.WriteFrameChecks : Prop :=
  ∀ (kind tag lo hi : Byte) (rest : List Byte) (s : State), s.linkOpen →
    kind ≠ 0xFF#8 → kind ≠ 0x11#8 →
    let n := lo.toNat + 256 * hi.toNat
    let frame := exec (.writeFrame (kind :: tag :: lo :: hi :: rest)) s
    let free := { s with lnk := { s.lnk with receiver := .idle } }
    (4096 < n → frame = .next (s.refusedBy kind tag .tooLong)) ∧
    (n ≤ 4096 → rest.length < n → frame = .next (s.refusedBy kind tag .cut)) ∧
    (n ≤ 4096 → n ≤ rest.length → bodyLengths kind = none → frame = .next (s.refusedBy kind tag .unknownKind)) ∧
    (n ≤ 4096 → n ≤ rest.length → ∀ a b, bodyLengths kind = some (a, b) → (n < a ∨ b < n) →
      frame = .next (s.refusedBy kind tag .badLength)) ∧
    (n ≤ 4096 → n ≤ rest.length → ∀ a b i, bodyLengths kind = some (a, b) → a ≤ n → n ≤ b →
      decodeMessage kind tag (rest.take n) = some i → frame = .next (carryOut i free)) ∧
    (∀ (selection : U16) (extra : List Byte),
      exec (.writeFrame ([0x02#8, tag, 0x02#8, 0x00#8] ++ le16 selection ++ extra)) s = .next
        { s with
          lnk :=
            { s.replied 0x02#8 tag .ok (le16 (s.lnk.notices &&& selection)) with
              notices := s.lnk.notices &&& ~~~selection } }) ∧
    ∀ short : List Byte, short.length < 4 → exec (.writeFrame short) s = .next free

/-- R189 case 1 and R192: while a request is in processing, every message is discarded, and only the DISCARDED marker
tells.

R195: with the port off (DEEP, the wake holdoff, CUTOFF, RESET, no supply), no message, no Image Data header and no read
frame has any effect. R188 and R195: of a transaction that is not heard, a message or a whole frame is only its end (log
entries 6 and 7), and the header of a read frame or of Image Data is nothing at all.

R172 and R189: a complete write frame in DOZE returns the part to ACTIVE before its request is processed; a cut one
leaves it in DOZE. R173: with it a DEEP entry that waits is abandoned, upon which the queue is examined and the arbiter
acts. -/
def Obligations.MessagesByLinkAndPowerState : Prop :=
  (∀ (i : Instr) (s : State), isMessage i = true → s.linkOn = true → s.lnk.receiver ≠ .unheard →
     s.lnk.processing ≠ none →
     exec i s = .next { s with lnk := { s.lnk with receiver := .idle, discarded := true } }) ∧
  (∀ (i : Instr) (s : State), s.linkOn = false →
     (((isMessage i = true ∨ ∃ m, i = .writeFrame m) ∧ s.lnk.receiver ≠ .unheard) ∨ (∃ n, i = .imageDataHeader n) ∨
       i = .readReply) →
     exec i s = .next s) ∧
  (∀ (i : Instr) (s : State), s.lnk.receiver = .unheard →
     ((isMessage i = true ∨ ∃ m, i = .writeFrame m) →
       exec i s = .next { s with lnk := { s.lnk with receiver := .idle } }) ∧
     (((∃ n, i = .imageDataHeader n) ∨ i = .readReply) → exec i s = .next s)) ∧
  ∀ s : State, s.linkOn = true → s.pwr.power = .doze →
    let active :=
      { s with pwr := { s.pwr with power := .active, deepWait := none, pendingWake := none, idleTimer := none } }
    let free := { active with lnk := { s.lnk with receiver := .idle } }
    let resumed := (free.engine true).stoArbitrate
    (∀ i, isMessage i = true → s.lnk.receiver ≠ .unheard → s.lnk.processing = none →
      (s.pwr.deepWait = none → exec i s = exec i active) ∧
      (s.pwr.deepWait ≠ none → exec i s = .next (carryOut i resumed))) ∧
    (∀ (kind tag lo hi : Byte) (rest : List Byte), kind ≠ 0xFF#8 → kind ≠ 0x11#8 → s.lnk.receiver ≠ .unheard →
      s.lnk.processing = none →
      let n := lo.toNat + 256 * hi.toNat
      let frame := exec (.writeFrame (kind :: tag :: lo :: hi :: rest)) s
      (4096 < n → s.pwr.deepWait = none → frame = .next (active.refusedBy kind tag .tooLong)) ∧
      (4096 < n → s.pwr.deepWait ≠ none → frame = .next (resumed.answer kind tag .tooLong)) ∧
      (n ≤ 4096 → rest.length < n → frame = .next (s.refusedBy kind tag .cut))) ∧
    ∀ stray, s.lnk.receiver = .imageData 0 stray →
      (s.pwr.deepWait = none → exec .imageDataEnd s = .next free) ∧
      (s.pwr.deepWait ≠ none → exec .imageDataEnd s = .next resumed)

/-- R200: Identify changes no state but LNK's reply, and answers the fixed record of 11.6.

R198: exactly the kinds both pending and selected leave the set and are returned.

R199: both masks are stored, BATTERY_CRITICAL (bit 9) always in the wake mask, and returned.

R197: when ATTN is asserted. -/
def Obligations.IdentifyNoticesAndAttn : Prop :=
  (∀ (tag : Byte) (s : State), s.linkOpen →
     exec (.identify tag) s = .next
       { s with
         lnk := s.replied 0x01#8 tag .ok
           [0x37#8, 0x0A#8, 0xE4#8, 0x02#8, 0x01#8, 0x00#8, 0x10#8, 0x00#8, 0x10#8, 0xF4#8, 0x01#8, 16#8, 16#8, 8#8,
             8#8, 4#8, 2#8, 4#8, 0x2C#8, 0x68#8, 0x01#8, 0x00#8, 0x00#8, 0x00#8, 0x08#8, 0x00#8] }) ∧
  (∀ (tag : Byte) (selection : U16) (s : State), s.linkOpen →
     exec (.fetchNotices tag selection) s = .next
       { s with
         lnk :=
           { s.replied 0x02#8 tag .ok (le16 (s.lnk.notices &&& selection)) with
             notices := s.lnk.notices &&& ~~~selection } }) ∧
  (∀ (tag : Byte) (enable wake : U16) (s : State), s.linkOpen →
     exec (.setNoticeMasks tag enable wake) s = .next
       { s with
         lnk :=
           { s.replied 0x03#8 tag .ok (le16 enable ++ le16 (wake ||| 0x0200#16)) with
             enable := enable
             wake := wake ||| 0x0200#16 } }) ∧
  (∀ s : State, s.supply = .on →
     (s.attn = true ↔
       (s.pwr.power = .active ∧ ∃ k : Notice, s.lnk.notices.getLsbD k.bit = true ∧ s.lnk.enable.getLsbD k.bit = true) ∨
       ((s.pwr.power = .doze ∨ s.pwr.power = .deep) ∧
         ∃ k : Notice, s.lnk.notices.getLsbD k.bit = true ∧ s.lnk.wake.getLsbD k.bit = true)))

/-- R194: the header of a read frame makes MISO shift out the slot's reply, or an EMPTY one; when every byte has been
shifted out, the reply is collected if the slot still holds it, and only then. R195: a transaction that is not heard
begins and collects nothing.

R188 and R194: MISO carries 0x00 in a write transaction and during the 4 header bytes, then the reply's bytes, and 0x00
after the last of them. That it carries 0x00 in DEEP and in a transaction that is not heard is log entry 20's choice
(DESIGN CHOICE).

R193: READY is asserted exactly while the reply slot holds a reply; without supply, under RESET and in CUTOFF, where
nothing is driven (R195), it is not. -/
def Obligations.ReadFrameCollectsTheReply : Prop :=
  ∀ s : State,
    (s.linkOn = true → s.lnk.receiver ≠ .unheard →
      (∀ r, s.lnk.reply = some r →
        exec .readReply s = .next
          { s with
            lnk :=
              { s.lnk with
                receiver :=
                  .reading
                    ([r.kind, r.tag, r.status.code, r.flags] ++ le16 (BitVec.ofNat 16 r.body.length) ++ r.body)
                    true } }) ∧
      (s.lnk.reply = none →
        exec .readReply s = .next
          { s with lnk := { s.lnk with receiver := .reading [0#8, 0#8, 1#8, 0#8, 0#8, 0#8] false } })) ∧
    (∀ miso, s.lnk.receiver = .reading miso true →
      exec .replyCollected s = .next { s with lnk := { s.lnk with reply := none, receiver := .idle } }) ∧
    (∀ miso, s.lnk.receiver = .reading miso false →
      exec .replyCollected s = .next { s with lnk := { s.lnk with receiver := .idle } }) ∧
    (s.lnk.receiver = .unheard →
      exec .readReply s = .next s ∧
        exec .replyCollected s = .next { s with lnk := { s.lnk with receiver := .idle } }) ∧
    (s.live = true →
      (∀ miso held, s.lnk.receiver = .reading miso held →
        (∀ k < 4, s.misoByte k = some 0x00#8) ∧
        (∀ k b, miso[k]? = some b → s.misoByte (k + 4) = some b) ∧
        ∀ k, miso.length ≤ k → s.misoByte (k + 4) = some 0x00#8) ∧
      ((∀ miso held, s.lnk.receiver ≠ .reading miso held) → ∀ k, s.misoByte k = some 0x00#8)) ∧
    (s.live = false → ∀ k, s.misoByte k = none) ∧
    (s.ready = true ↔ s.supply = .on ∧ s.pwr.power ≠ .cutoff ∧ ∃ r, s.lnk.reply = some r)

/-! ### Resets, supply and the soft reset (R185, R201, R202) -/

/-- A full reset at power-on leaves the state of `State.reset`, whatever went before (its values that the spec does not
give are log entry 16): only the pins' levels (log entry 8: the keys, CHARGER, SRDY, and CS, by which a transaction in
progress is not taken), the debounce states and the charger state taken from them, and the model's own queue and counter
of free values (log entry 12), are not overwritten.

R185: while RESET is asserted every output is deasserted; its release is a full reset with cause RESET_LINE. In CUTOFF
the line is not watched. A RESET_LINE without an assertion before it is log entry 8's reading.

R166 and R185: a failing supply loses every block's state; what is left drives no output and takes no message (one that
was in progress only ends), no accepted press or release of a key, no release of RESET and no tick. -/
def Obligations.FullResetsAndLostSupply : Prop :=
  (∀ s : State,
     exec .powerOn s = .next
       { State.reset with
         freeUsed := s.freeUsed
         trn := s.trn.fresh
         sto := { srdy := s.sto.srdy }
         lnk := { receiver := s.lnk.receiver.abandoned }
         pwr :=
           { State.reset.pwr with
             chargerInput := s.pwr.chargerInput
             charger := s.pwr.chargerInput
             resetCause := .powerOn }
         pending := s.pending } ∧
     (s.lnk.receiver.abandoned = if s.lnk.receiver = .idle then .idle else .unheard) ∧
     ∀ k : Key,
       (s.trn.fresh.keys.get k) =
         { input := (s.trn.keys.get k).input
           debounce := if (s.trn.keys.get k).input then .pressed else .released }) ∧
  (∀ s : State, s.supply = .on →
     (s.pwr.power ≠ .cutoff →
       (∃ t, exec .resetLineAssert s = .next t ∧ t.supply = .resetHeld ∧ t.outputsOff ∧ t.clock = s.clock ∧
         exec .resetLine t = .next (t.fullReset .resetLine)) ∧
       exec .resetLine s = .next (s.fullReset .resetLine)) ∧
     (s.pwr.power = .cutoff → exec .resetLineAssert s = .next s ∧ exec .resetLine s = .next s)) ∧
  (∀ s : State,
     exec .powerFail s = .next
       { clock := s.clock
         freeUsed := s.freeUsed
         supply := .off
         sns := { powered := false }
         lgt := { nextBoundary := none }
         trn := { keys := s.trn.keys.map fun k => { input := k.input } }
         sto := { srdy := s.sto.srdy }
         lnk := { receiver := s.lnk.receiver.abandoned }
         pwr := { chargerInput := s.pwr.chargerInput }
         pending := s.pending } ∧
     ∀ t, exec .powerFail s = .next t →
       t.outputsOff ∧ t.linkOn = false ∧ exec .resetLine t = .next t ∧
         (∀ i, isMessage i = true → exec i t = .next { t with lnk := { t.lnk with receiver := .idle } }) ∧
         (∀ k, exec (.keyPress k) t = .next t ∧ exec (.keyRelease k) t = .next t) ∧
         (s.pending = [] → step t = .next t))

/-- R201: Soft Reset is taken while the engine or STO is busy: the drain begins, with the queue cancelled, the
long-press timer, the stall timers and the spooler's pending request gone, and no reply placed. What follows in the
event is `State.settle`'s.

R202: the drain of a soft reset ends once no context is in use and STO has no operation. Kept: the active and the
incoming table with its length, the shown image and its known flag, and the time; everything else takes its reset value,
the rails fall if they are on, and the reply OK takes the flags.

Log entry 10 (DEDUCED): rails that still rise count as on; a drain that ends in the cutoff sequence ends that too, as
PWR takes its reset values; and where an event ends the drain, the reset is what follows it. The pins' levels are log
entry 8's. That the engine's part of the end waits for STO with the rest, and that the shown image's bytes are those
below 1,024,000, are log entry 20's choices (DESIGN CHOICE). -/
def Obligations.SoftResetDrainsAndResets : Prop :=
  (∀ (tag : Byte) (s : State), s.linkOpen →
     exec (.softReset tag) s = .next
       ((State.cancelPending
         { s with
           lnk := { s.lnk with receiver := .idle, processing := some ⟨0x04#8, tag, .softReset⟩ }
           trn := { s.trn with longPress := none }
           sto := { s.sto with pending := { s.sto.pending with spooler := none } }
           spl := { s.spl with table := s.spl.table.map fun d => { d with stall := none } } }).settle true)) ∧
  (∀ (tag : Byte) (s : State), s.lnk.processing = some ⟨0x04#8, tag, .softReset⟩ →
     s.upd.contextInUse = false → s.sto.op = none →
     let ended : State :=
       { clock := s.clock
         freeUsed := s.freeUsed
         supply := s.supply
         mem := { cells := s.mem.cells.filter fun c => c.1 < 1024000 }
         wav := { active := s.wav.active, incoming := s.wav.incoming, incomingLen := s.wav.incomingLen }
         upd :=
           { rails :=
               match s.upd.rails with
               | .off => .off
               | .falling e => .falling e
               | _ => .falling (s.clock + 8000)
             known := s.upd.known }
         trn := s.trn.fresh
         sns :=
           { converting := some (.panelTemp, s.clock + 72)
             lastChannel := some .panelTemp
             requests := ⟨false, true, true⟩
             panelTimer := some (s.clock + 40000000)
             batteryTimer := some (s.clock + 4000000) }
         lgt := { nextBoundary := some (s.clock + 1000) }
         pwr := { chargerInput := s.pwr.chargerInput, charger := s.pwr.chargerInput, resetCause := .soft }
         sto := { srdy := s.sto.srdy }
         lnk :=
           { receiver := s.lnk.receiver.abandoned
             reply :=
               some
                 { kind := 0x04#8
                   tag := tag
                   status := .ok
                   overwrote := s.lnk.reply.isSome
                   discarded := s.lnk.discarded
                   stray := s.lnk.stray } }
         pending := s.pending }
     exec .softResetDrainEnd s = .next ended ∧ s.progress = ended) ∧
  ∀ s : State, s.lnk.processing = none ∨ s.upd.contextInUse = true ∨ s.sto.op ≠ none →
    exec .softResetDrainEnd s = .next s

/-! ### The invariants -/

/-- R2 and R3: every block of the picture memory but the shown image's has one holder, after every step. That the shown
image's blocks are 0 to 499 is log entry 20's choice (DESIGN CHOICE). -/
def Obligations.StepKeepsTheBlockAccounts : Prop :=
  ∀ s t : State, s.accounts → step s = .next t → t.accounts

/-- R110, R112 to R114: the light stays within the ceiling in force, after every step. -/
def Obligations.StepKeepsTheLightWithinItsCeiling : Prop :=
  ∀ s t : State, s.lightSafe → step s = .next t → t.lightSafe

/-- The sparse memories stay in their one canonical form, after every step. -/
def Obligations.StepKeepsMemoriesCanonical : Prop :=
  ∀ s t : State, s.canonical → step s = .next t → t.canonical

/-- The capacities that every step keeps: 16 pending requests (R44), 8 completion log entries (R63), 4 and 2 slots in
the turn lists (R78), 4 STATUS entries (R132), 4 download records of distinct ids, each with at most 8 received runs,
which stay ascending and apart (R133), a budget of at most 256 blocks, staging of at most that many, and no more staged
segments than staging has blocks (R135), and 4 values in the battery window (R167). -/
def Obligations.StepKeepsListsWithinCapacity : Prop :=
  ∀ s t : State, s.bounded → step s = .next t → t.bounded

/-- The four invariants hold right after a full reset. -/
def Obligations.ResetMeetsTheInvariants : Prop :=
  State.reset.accounts ∧ State.reset.lightSafe ∧ State.reset.canonical ∧ State.reset.bounded

/-! ### Picture memory and slots (chapter 1) -/

/-- R8 and R9: an Open Image that passes every test takes its blocks from the pool, records the picture, whitens every
block it took, and opens the link load; a load result that names the slot is cleared (R17). That the blocks are those at
the pool's front is log entry 4's choice (DESIGN CHOICE).

R8: the refusals of Open Image, in the order of its tests; a refused one changes no slot, no load and no block. -/
def Obligations.OpenImageOpensOrRefuses : Prop :=
  (∀ (tag format endBehaviour : Byte) (i : Fin 16) (width height : U16) (f : Format) (e : EndBehaviour) (s : State),
     s.linkOpen → 1 ≤ width.toNat → width.toNat ≤ 1280 → 1 ≤ height.toNat → height.toNat ≤ 1600 →
     formatOf format = some f → endBehaviourOf endBehaviour = some e →
     s.mem.slots[i].state = .free → s.mem.linkLoad = none →
     (width.toNat * height.toNat + 4095) / 4096 ≤ s.mem.pool.length →
     let n := (width.toNat * height.toNat + 4095) / 4096
     exec (.openImage tag (slotByte i) width height format endBehaviour) s = .next
       { s with
         mem :=
           { s.mem with
             cells := Memory.writeMany 0xFF#8 s.mem.cells (whitened (s.mem.pool.take n))
             pool := s.mem.pool.drop n
             slots :=
               s.mem.slots.set i
                 { state := .loadingLink
                   width := width.toNat
                   height := height.toNat
                   blocks := s.mem.pool.take n }
             linkLoad := some { slot := i, format := f, endBehaviour := e }
             loadResult := s.mem.loadResult.filter fun r => r.slot ≠ i }
         lnk := s.replied 0x10#8 tag .ok [] }) ∧
  (∀ (tag slot format endBehaviour : Byte) (width height : U16) (s : State), s.linkOpen →
     let answer := exec (.openImage tag slot width height format endBehaviour) s
     let bad :=
       15 < slot.toNat ∨ width.toNat = 0 ∨ 1280 < width.toNat ∨ height.toNat = 0 ∨ 1600 < height.toNat ∨
         1 < format.toNat ∨ 1 < endBehaviour.toNat
     (bad → answer = .next (s.refusedBy 0x10#8 tag .badParam)) ∧
     ∀ i : Fin 16, slot = slotByte i → ¬bad →
       let x := s.mem.slots[i]
       ((x.state = .loadingLink ∨ x.state = .loadingStorage ∨ x.state = .releasing) →
         answer = .next (s.refusedBy 0x10#8 tag .slotBusy)) ∧
       (x.state = .ready → 0 < x.pins → answer = .next (s.refusedBy 0x10#8 tag .slotPinned)) ∧
       (x.state = .ready → x.pins = 0 → answer = .next (s.refusedBy 0x10#8 tag .slotState)) ∧
       (x.state = .free → s.mem.linkLoad ≠ none → answer = .next (s.refusedBy 0x10#8 tag .loadBusy)) ∧
       (x.state = .free → s.mem.linkLoad = none → s.mem.pool.length < blocksFor width.toNat height.toNat →
         answer = .next (s.refusedBy 0x10#8 tag .noMemory)))

/-- R10 to R12 and R190: the steps of an Image Data frame. The header is judged as it completes; a byte of a stray frame
is discarded; a cut leaves the load as it is; a whole frame ends with the receiver free. R188 and R195: a transaction
that is not heard brings no header, and only ends. A WRITE_FRAME of kind 0x11 is its header, the complete bytes of its
declared body and its end, or its cut, one after another (log entry 7: the division of the frame into rows is the
model's choice). -/
def Obligations.ImageDataFrameSteps : Prop :=
  ∀ s : State,
    (∀ n : U16, s.linkOn = true → s.lnk.receiver ≠ .unheard →
      let answer := exec (.imageDataHeader n) s
      (4096 < n.toNat → answer = .next { s with lnk := { s.lnk with receiver := .discarding } }) ∧
      (n.toNat ≤ 4096 → s.mem.linkLoad ≠ none →
        answer = .next { s with lnk := { s.lnk with receiver := .imageData n.toNat false } }) ∧
      (n.toNat ≤ 4096 → s.mem.linkLoad = none →
        answer = .next { s with lnk := { s.lnk with receiver := .imageData n.toNat true, stray := true } })) ∧
    (∀ n v, s.lnk.receiver = .imageData (n + 1) true →
      exec (.imageDataByte v) s = .next { s with lnk := { s.lnk with receiver := .imageData n true } }) ∧
    (∀ n stray l, s.lnk.receiver = .imageData (n + 1) stray → s.mem.linkLoad = some l →
      exec .imageDataCut s = .next
        { s with
          mem := { s.mem with linkLoad := some { l with held := none } }
          lnk := { s.lnk with receiver := .idle } }) ∧
    (∀ stray, s.lnk.receiver = .imageData 0 stray → s.pwr.power = .active →
      exec .imageDataEnd s = .next { s with lnk := { s.lnk with receiver := .idle } }) ∧
    (s.lnk.receiver = .unheard → ∀ n : U16, exec (.imageDataHeader n) s = .next s) ∧
    ((s.lnk.receiver = .discarding ∨ s.lnk.receiver = .unheard) →
      exec .imageDataEnd s = .next { s with lnk := { s.lnk with receiver := .idle } } ∧
        exec .imageDataCut s = .next { s with lnk := { s.lnk with receiver := .idle } } ∧
        ∀ v, exec (.imageDataByte v) s = .next s) ∧
    (s.linkOn = true → s.lnk.receiver ≠ .unheard → ∀ (tag lo hi : Byte) (rest : List Byte),
      let n := lo.toNat + 256 * hi.toNat
      exec (.writeFrame (0x11#8 :: tag :: lo :: hi :: rest)) s =
        ([Instr.imageDataHeader (BitVec.ofNat 16 n)] ++ (rest.take n).map Instr.imageDataByte ++
          [if rest.length < n then Instr.imageDataCut else Instr.imageDataEnd]).foldl
          (fun (o : Host.Outcome State Fault Refusal) i =>
            match o with
            | .next t => exec i t
            | o => o)
          (.next s))

/-- R10 and R41: one byte of a P8 load writes the reduced level to the slot pixel at the cursor, and nothing else of the
picture memory; one byte of a P4 load writes its high nibble there and its low nibble to the next pixel, which at an odd
cursor lies in another byte. At the end of the picture STOP discards the level and sets the overflow flag, and WRAP goes
on at pixel 0, for either nibble of a P4 byte. -/
def Obligations.ImageByteWritesItsLevels : Prop :=
  ∀ (v : Byte) (n a : Nat) (l : LinkLoad) (s : State), s.lnk.receiver = .imageData (n + 1) false →
    s.mem.linkLoad = some l → l.held = none →
    let size := s.mem.slots[l.slot].width * s.mem.slots[l.slot].height
    let next (m : Mem) := { s with mem := m, lnk := { s.lnk with receiver := .imageData n false } }
    (l.format = .p8 → l.cursor < size → pixelAddr s.mem.slots[l.slot].blocks l.cursor = some a →
      exec (.imageDataByte v) s = .next
        (next
          { s.mem with
            cells :=
              Memory.write 0xFF#8 s.mem.cells a
                (putNibble (Memory.read 0xFF#8 s.mem.cells a) l.cursor
                  (BitVec.ofNat 4 ((v.toNat * 15 + 128) / 256)))
            linkLoad := some { l with cursor := l.cursor + 1, written := max l.written (l.cursor + 1) } })) ∧
    (l.format = .p4 → l.cursor % 2 = 0 → l.cursor + 1 < size →
      pixelAddr s.mem.slots[l.slot].blocks l.cursor = some a → Memory.wf 0xFF#8 s.mem.cells = true →
      exec (.imageDataByte v) s = .next
        (next
          { s.mem with
            cells := Memory.write 0xFF#8 s.mem.cells a v
            linkLoad := some { l with cursor := l.cursor + 2, written := max l.written (l.cursor + 2) } })) ∧
    (∀ b, l.format = .p4 → l.cursor % 2 = 1 → l.cursor + 1 < size →
      pixelAddr s.mem.slots[l.slot].blocks l.cursor = some a →
      pixelAddr s.mem.slots[l.slot].blocks (l.cursor + 1) = some b →
      let first :=
        Memory.write 0xFF#8 s.mem.cells a
          ((Memory.read 0xFF#8 s.mem.cells a).extractLsb' 4 4 ++ v.extractLsb' 4 4)
      exec (.imageDataByte v) s = .next
        (next
          { s.mem with
            cells := Memory.write 0xFF#8 first b (v.extractLsb' 0 4 ++ (Memory.read 0xFF#8 first b).extractLsb' 0 4)
            linkLoad := some { l with cursor := l.cursor + 2, written := max l.written (l.cursor + 2) } })) ∧
    (∀ b, l.format = .p4 → l.endBehaviour = .wrap → l.cursor + 1 = size →
      pixelAddr s.mem.slots[l.slot].blocks l.cursor = some a → pixelAddr s.mem.slots[l.slot].blocks 0 = some b →
      let first :=
        Memory.write 0xFF#8 s.mem.cells a
          (putNibble (Memory.read 0xFF#8 s.mem.cells a) l.cursor (v.extractLsb' 4 4))
      exec (.imageDataByte v) s = .next
        (next
          { s.mem with
            cells := Memory.write 0xFF#8 first b (v.extractLsb' 0 4 ++ (Memory.read 0xFF#8 first b).extractLsb' 0 4)
            linkLoad := some { l with cursor := 1, written := size } })) ∧
    (l.format = .p4 → l.endBehaviour = .wrap → l.cursor = size → pixelAddr s.mem.slots[l.slot].blocks 0 = some a →
      Memory.wf 0xFF#8 s.mem.cells = true →
      (2 ≤ size →
        exec (.imageDataByte v) s = .next
          (next
            { s.mem with
              cells := Memory.write 0xFF#8 s.mem.cells a v
              linkLoad := some { l with cursor := 2, written := size } })) ∧
      (size = 1 →
        exec (.imageDataByte v) s = .next
          (next
            { s.mem with
              cells :=
                Memory.write 0xFF#8 s.mem.cells a
                  (v.extractLsb' 0 4 ++ (Memory.read 0xFF#8 s.mem.cells a).extractLsb' 0 4)
              linkLoad := some { l with cursor := 1, written := 1 } }))) ∧
    (l.format = .p4 → l.endBehaviour = .stop → l.cursor + 1 = size →
      pixelAddr s.mem.slots[l.slot].blocks l.cursor = some a →
      exec (.imageDataByte v) s = .next
        (next
          { s.mem with
            cells :=
              Memory.write 0xFF#8 s.mem.cells a
                (putNibble (Memory.read 0xFF#8 s.mem.cells a) l.cursor (v.extractLsb' 4 4))
            linkLoad := some { l with cursor := size, written := max l.written size, overflow := true } })) ∧
    (l.format = .p8 → l.endBehaviour = .wrap → l.cursor = size → pixelAddr s.mem.slots[l.slot].blocks 0 = some a →
      exec (.imageDataByte v) s = .next
        (next
          { s.mem with
            cells :=
              Memory.write 0xFF#8 s.mem.cells a
                (putNibble (Memory.read 0xFF#8 s.mem.cells a) 0 (BitVec.ofNat 4 ((v.toNat * 15 + 128) / 256)))
            linkLoad := some { l with cursor := 1, written := max size 1 } })) ∧
    (l.endBehaviour = .stop → l.cursor = size →
      exec (.imageDataByte v) s = .next (next { s.mem with linkLoad := some { l with overflow := true } }))

/-- R15 and R16: a Load Slot From Storage that passes every test takes its blocks (those at the pool's front: log entry
4's choice), opens the storage load and is answered at once; the loader then asks STO for its first page, and the
arbiter acts.

R15: the refusals of Load Slot From Storage, in the order of its tests; a refused one changes LNK alone. -/
def Obligations.LoadSlotOpensTheStorageLoad : Prop :=
  (∀ (tag : Byte) (i : Fin 16) (width height : U16) (start : U32) (s : State), s.linkOpen →
     1 ≤ width.toNat → width.toNat ≤ 1280 → 1 ≤ height.toNat → height.toNat ≤ 1600 →
     start.toNat + blocksFor width.toNat height.toNat ≤ 524288 →
     s.mem.slots[i].state = .free → s.mem.storageLoad = none →
     blocksFor width.toNat height.toNat ≤ s.mem.pool.length → s.sto.has .loader = false → s.pwr.cutoff = false →
     let n := blocksFor width.toNat height.toNat
     exec (.loadSlotFromStorage tag (slotByte i) width height start) s = .next
       (State.stoArbitrate
         { s with
           mem :=
             { s.mem with
               pool := s.mem.pool.drop n
               slots :=
                 s.mem.slots.set i
                   { state := .loadingStorage
                     width := width.toNat
                     height := height.toNat
                     blocks := s.mem.pool.take n }
               storageLoad := some { slot := i, startPage := start.toNat, pageCount := n }
               loadResult := s.mem.loadResult.filter fun r => r.slot ≠ i }
           sto :=
             { s.sto with pending := { s.sto.pending with loader := some { kind := .read, page := start.toNat } } }
           lnk := s.replied 0x13#8 tag .ok [] })) ∧
  (∀ (tag slot : Byte) (width height : U16) (start : U32) (s : State), s.linkOpen →
     let answer := exec (.loadSlotFromStorage tag slot width height start) s
     let bad :=
       15 < slot.toNat ∨ width.toNat = 0 ∨ 1280 < width.toNat ∨ height.toNat = 0 ∨ 1600 < height.toNat ∨
         524287 < start.toNat
     (bad → answer = .next (s.refusedBy 0x13#8 tag .badParam)) ∧
     ∀ i : Fin 16, slot = slotByte i → ¬bad →
       let x := s.mem.slots[i]
       let n := (width.toNat * height.toNat + 4095) / 4096
       (524288 < start.toNat + n → answer = .next (s.refusedBy 0x13#8 tag .storageRange)) ∧
       (start.toNat + n ≤ 524288 →
         ((x.state = .loadingLink ∨ x.state = .loadingStorage ∨ x.state = .releasing) →
           answer = .next (s.refusedBy 0x13#8 tag .slotBusy)) ∧
         (x.state = .ready → 0 < x.pins → answer = .next (s.refusedBy 0x13#8 tag .slotPinned)) ∧
         (x.state = .ready → x.pins = 0 → answer = .next (s.refusedBy 0x13#8 tag .slotState)) ∧
         (x.state = .free → s.mem.storageLoad ≠ none → answer = .next (s.refusedBy 0x13#8 tag .loadBusy)) ∧
         (x.state = .free → s.mem.storageLoad = none → s.mem.pool.length < n →
           answer = .next (s.refusedBy 0x13#8 tag .noMemory))))

/-- R41: a P8 value v is reduced to the level floor((v × 15 + 128) / 256), which covers the values of R41's table; the
link loader applies it to the byte it writes, and the slot keeps only the level. Under QUICK a level so reduced is shown
black where v is below 128, and white otherwise. -/
def Obligations.P8ValuesAreReducedToLevels : Prop :=
  (∀ v : Byte,
    (reduceP8 v).toNat = (v.toNat * 15 + 128) / 256 ∧
    (∀ r : Nat × Nat × Nat,
      r ∈ [(0, 0, 8), (1, 9, 25), (2, 26, 42), (3, 43, 59), (4, 60, 76), (5, 77, 93), (6, 94, 110), (7, 111, 127),
          (8, 128, 145), (9, 146, 162), (10, 163, 179), (11, 180, 196), (12, 197, 213), (13, 214, 230),
          (14, 231, 247), (15, 248, 255)] →
        ((reduceP8 v).toNat = r.1 ↔ r.2.1 ≤ v.toNat ∧ v.toNat ≤ r.2.2)) ∧
    targetLevel .quick none (reduceP8 v) = if v.toNat < 128 then 0#4 else 15#4) ∧
  ∀ (v : Byte) (n a : Nat) (l : LinkLoad) (s : State), s.lnk.receiver = .imageData (n + 1) false →
    s.mem.linkLoad = some l → l.format = .p8 → l.held = none →
    l.cursor < s.mem.slots[l.slot].width * s.mem.slots[l.slot].height →
    pixelAddr s.mem.slots[l.slot].blocks l.cursor = some a → Memory.wf 0xFF#8 s.mem.cells = true →
    ∃ t, exec (.imageDataByte v) s = .next t ∧ t.mem.slotLevel l.slot l.cursor = reduceP8 v

/-- R13: Close Image makes the slot of the open load READY, marks it incomplete where fewer pixels than the picture has
were written, and answers the written count and the two flags.

R13: the refusals of Close Image, in order; a refused one changes LNK alone.

R14: Free Slot by the slot's state, owner and pins; the owner tests come before the pin test, and an id outside 0..15 is
refused. That freed blocks join the pool's end is log entry 4's choice (DESIGN CHOICE). -/
def Obligations.CloseImageAndFreeSlot : Prop :=
  (∀ (tag : Byte) (l : LinkLoad) (s : State), s.linkOpen → s.mem.linkLoad = some l →
     s.mem.slots[l.slot].state ≠ .releasing →
     let x := s.mem.slots[l.slot]
     let short := decide (l.written < x.width * x.height)
     exec (.closeImage tag (slotByte l.slot)) s = .next
       { s with
         mem :=
           { s.mem with
             slots := s.mem.slots.set l.slot { x with state := .ready, incomplete := short }
             linkLoad := none }
         lnk :=
           s.replied 0x12#8 tag .ok (le32 (BitVec.ofNat 32 l.written) ++ [boolByte short] ++ [boolByte l.overflow]) }) ∧
  (∀ (tag slot : Byte) (s : State), s.linkOpen → 15 < slot.toNat →
     exec (.closeImage tag slot) s = .next (s.refusedBy 0x12#8 tag .badParam) ∧
       exec (.freeSlot tag slot) s = .next (s.refusedBy 0x14#8 tag .badParam)) ∧
  (∀ (tag : Byte) (i : Fin 16) (s : State), s.linkOpen →
     let answer := exec (.closeImage tag (slotByte i)) s
     (s.mem.slots[i].state = .releasing → answer = .next (s.refusedBy 0x12#8 tag .slotBusy)) ∧
     (s.mem.slots[i].state ≠ .releasing → (∀ l, s.mem.linkLoad = some l → l.slot ≠ i) →
       answer = .next (s.refusedBy 0x12#8 tag .slotState))) ∧
  (∀ (tag : Byte) (i : Fin 16) (s : State), s.linkOpen →
     let x := s.mem.slots[i]
     let answer := exec (.freeSlot tag (slotByte i)) s
     let freed :=
       { s with
         mem :=
           { s.mem with
             pool := s.mem.pool ++ x.blocks
             slots := s.mem.slots.set i {}
             linkLoad := s.mem.linkLoad.filter fun l => l.slot ≠ i }
         lnk := s.replied 0x14#8 tag .ok [] }
     (x.state = .loadingLink → answer = .next freed) ∧
     (x.state = .ready → x.owner = .host → x.pins = 0 → answer = .next freed) ∧
     (x.state = .free → answer = .next (s.refusedBy 0x14#8 tag .slotState)) ∧
     ((x.state = .loadingStorage ∨ x.state = .releasing) → answer = .next (s.refusedBy 0x14#8 tag .slotBusy)) ∧
     (x.state = .ready → x.owner = .turn → answer = .next (s.refusedBy 0x14#8 tag .slotListed)) ∧
     (x.state = .ready → x.owner = .sleep → answer = .next (s.refusedBy 0x14#8 tag .slotDesignated)) ∧
     (x.state = .ready → x.owner = .host → 0 < x.pins → answer = .next (s.refusedBy 0x14#8 tag .slotPinned)))

/-- R20 and R2: Pool Status changes no state but LNK's reply; and where every block is accounted for, the four counts it
reports first add up to 4096.

R19, R30, R66, R91, R118, R138, R163, R187: the other status messages change no state but LNK's reply, which carries
their record; Slot Status refuses an id outside 0..15. Where R203's order leaves a record's bytes open, they are log
entry 9's choice.

R203 (11.6): the bytes of the slot, download and power status records, and of the summary, field by field at their
offsets. That a remaining time is rounded upward is log entry 9's choice. -/
def Obligations.StatusMessagesReportAndChangeNothing : Prop :=
  (∀ (tag : Byte) (s : State), s.linkOpen →
     exec (.poolStatus tag) s = .next { s with lnk := s.replied 0x16#8 tag .ok s.poolRecord } ∧
     s.poolRecord.take 8 =
       le16 (BitVec.ofNat 16 s.mem.pool.length) ++ le16 (BitVec.ofNat 16 s.mem.slotBlocks) ++
         le16 (BitVec.ofNat 16 s.spl.staging.length) ++ le16 500#16 ∧
     (s.accounts → s.mem.pool.length + s.mem.slotBlocks + s.spl.staging.length + 500 = 4096)) ∧
  (∀ (tag : Byte) (s : State), s.linkOpen →
     let reported (kind : Byte) (body : List Byte) : Host.Outcome State Fault Refusal :=
       .next { s with lnk := s.replied kind tag .ok body }
     (∀ i : Fin 16, exec (.slotStatus tag (slotByte i)) s = reported 0x15#8 (s.mem.slotRecord i)) ∧
     exec (.waveformStatus tag) s = reported 0x22#8 s.wav.record ∧
     exec (.panelStatus tag) s = reported 0x34#8 s.panelRecord ∧
     exec (.turnStatus tag) s = reported 0x44#8 s.trn.record ∧
     exec (.lightStatus tag) s = reported 0x63#8 s.lgt.record ∧
     exec (.downloadStatus tag 0#8) s = reported 0x74#8 s.allDownloads ∧
     (∀ id d, id ≠ 0#8 → s.spl.find id = some d → exec (.downloadStatus tag id) s = reported 0x74#8 (s.downloadRecord d)) ∧
     (∀ id, id ≠ 0#8 → s.spl.find id = none →
       exec (.downloadStatus tag id) s = .next (s.refusedBy 0x74#8 tag .unknownDownload)) ∧
     exec (.storageStatus tag) s = reported 0x83#8 s.storageRecord ∧
     exec (.powerStatus tag) s = reported 0x95#8 s.powerRecord ∧
     ∀ slot : Byte, 15 < slot.toNat → exec (.slotStatus tag slot) s = .next (s.refusedBy 0x15#8 tag .badParam)) ∧
  (∀ (s : State) (i : Fin 16),
     let x := s.mem.slots[i]
     let bytes (o n : Nat) : List Byte := ((s.mem.slotRecord i).drop o).take n
     let link := s.mem.linkLoad.filter fun l => l.slot = i
     let load := s.mem.storageLoad.filter fun l => l.slot = i
     let result := s.mem.loadResult.filter fun r => r.slot = i
     (s.mem.slotRecord i).length = 37 ∧
     bytes 0 11 =
       u8 i ++ u8 x.state.code ++ u16 x.width ++ u16 x.height ++ u16 x.blocks.length ++ u8 x.owner.code ++ u8 x.pins ++
         [flagsByte [x.incomplete, x.tag.isSome, link.isSome, load.isSome, result.isSome,
           (link.map LinkLoad.overflow).getD false]] ∧
     bytes 11 4 = le32 (x.tag.getD 0#32) ∧
     (∀ l, link = some l →
       bytes 15 10 = u8 l.format.code ++ u8 l.endBehaviour.code ++ u32 l.cursor ++ u32 l.written) ∧
     (link = none → bytes 15 10 = List.replicate 10 0#8) ∧
     (∀ l, load = some l → bytes 25 8 = u32 l.startPage ++ u16 l.pageCount ++ u16 l.written) ∧
     (load = none → bytes 25 8 = List.replicate 8 0#8) ∧
     (∀ r, result = some r →
       bytes 33 4 = flag r.faulted ++ u16 r.written ++ if r.faulted then [1#8] else [0#8]) ∧
     (result = none → bytes 33 4 = List.replicate 4 0#8)) ∧
  (∀ (s : State) (d : Download), d.runs.length ≤ 8 →
     let bytes (o n : Nat) : List Byte := ((s.downloadRecord d).drop o).take n
     (s.downloadRecord d).length = 103 ∧
     bytes 0 20 = d.id :: u8 d.state.code ++ u32 d.total ++ u16 d.size ++ u32 d.segments ++ u32 d.start ++ u32 d.pages ∧
     bytes 20 6 = u32 d.committed ++ u16 d.erased ∧
     bytes 26 1 =
       (match d.fault with
         | none => [0#8]
         | some .stall => [1#8]
         | some .power => [2#8]
         | some .storageFault => [3#8]
         | some .storageTimeout => [4#8]
         | some .radioAbort => [5#8]) ∧
     bytes 27 3 = u16 d.discards ++ [flagsByte [d.stall.isSome, d.removal, d.locked]] ∧
     (∀ e, d.stall = some e → bytes 30 4 = u32 ((e - s.clock + 3999) / 4000)) ∧
     (d.stall = none → bytes 30 4 = u32 0) ∧
     bytes 34 5 = u32 d.lowest ++ u8 d.runs.length ∧
     (∀ k a b, d.runs[k]? = some (a, b) → bytes (39 + 8 * k) 8 = u32 a ++ u32 b) ∧
     ∀ k, d.runs.length ≤ k → k < 8 → bytes (39 + 8 * k) 8 = List.replicate 8 0#8) ∧
  (∀ s : State, s.rad.queue.length ≤ 4 →
     let bytes (o n : Nat) : List Byte := (s.spoolerSummary.drop o).take n
     let buffer : Buffer → List Byte
       | .empty => u8 0 ++ [0#8] ++ u32 0
       | .assembling => u8 1 ++ [0#8] ++ u32 0
       | .waiting g => u8 2 ++ [g.id] ++ u32 g.index
     s.spoolerSummary.length = 28 ∧
     bytes 0 7 = u16 s.spl.budget ++ flag (!s.spl.staging.isEmpty) ++ u16 s.spl.freeBlocks ++ u16 s.spl.reserve ∧
     bytes 7 6 = buffer s.rad.bufA ∧ bytes 13 6 = buffer s.rad.bufB ∧
     bytes 19 1 = u8 s.rad.queue.length ∧
     (∀ k e, s.rad.queue[k]? = some e → bytes (20 + k) 1 = [e.id]) ∧
     (∀ k, s.rad.queue.length ≤ k → k < 4 → bytes (20 + k) 1 = [0#8]) ∧
     bytes 24 4 = u8 s.rad.rate ++ u8 s.spl.stallTime ++ u16 s.spl.holdLimit) ∧
  ∀ s : State, s.pwr.window.length ≤ 4 →
     let p := s.pwr
     let bytes (o n : Nat) : List Byte := (s.powerRecord.drop o).take n
     let remaining (t : Option Nat) : Nat := ((t.map fun d => (d - s.clock + 3999) / 4000).getD 0)
     s.powerRecord.length = 42 ∧
     bytes 0 8 =
       u8 p.power.code ++ flag p.cutoff ++ u8 (deepKindCode p.deepWait) ++ u8 (wakeCauseCode p.pendingWake) ++
         u8 p.level.code ++ u16 p.filtered ++ u8 p.window.length ∧
     (∀ k v, p.window[k]? = some v → bytes (8 + 2 * k) 2 = u16 v) ∧
     (∀ k, p.window.length ≤ k → k < 4 → bytes (8 + 2 * k) 2 = u16 0) ∧
     bytes 16 8 = u16 p.lowMv ++ u16 p.critMv ++ u16 p.lowCeiling ++ u16 p.deepIdle ∧
     bytes 24 1 =
       u8 (p.gate.holder.code + (if s.gateApplies then 4 else 0) + (if p.gate.panelAsk then 8 else 0) +
         (if p.gate.radioAsk then 16 else 0) + if p.gate.passing then 32 else 0) ∧
     bytes 25 1 = [flagsByte [p.idleTimer.isSome, p.wakeTimer.isSome, p.graceTimer.isSome]] ∧
     bytes 26 12 = u32 (remaining p.idleTimer) ++ u32 (remaining p.wakeTimer) ++ u32 (remaining p.graceTimer) ∧
     bytes 38 4 =
       [((p.designation.map slotByte).getD 0xFF#8)] ++ flag p.charger ++ u8 (wakeCauseCode p.wakeCause) ++
         u8 p.resetCause.code

/-! ### Waveforms (chapter 2) -/

/-- R25 and R26: Waveform Data writes its bytes from the offset onward and raises the incoming length to their end; it
is refused while an adoption waits, without a byte, and beyond the store.

R25: after a write of consecutive bytes, each position written reads its byte and every other position reads as before.
-/
def Obligations.WaveformDataWritesTheIncomingTable : Prop :=
  (∀ (tag : Byte) (offset : U32) (data : List Byte) (s : State), s.linkOpen →
     let answer := exec (.waveformData tag offset data) s
     let len := max s.wav.incomingLen (offset.toNat + data.length)
     (s.wav.adoptionWaiting = true → answer = .next (s.refusedBy 0x20#8 tag .adoptionPending)) ∧
     (s.wav.adoptionWaiting = false → (data = [] ∨ 92204 < offset.toNat + data.length) →
       answer = .next (s.refusedBy 0x20#8 tag .badParam)) ∧
     (s.wav.adoptionWaiting = false → data ≠ [] → offset.toNat + data.length ≤ 92204 →
       answer = .next
         { s with
           wav :=
             { s.wav with
               incoming := Memory.writeMany 0#8 s.wav.incoming (Memory.run offset.toNat data)
               incomingLen := len }
           lnk := s.replied 0x20#8 tag .ok (le32 (BitVec.ofNat 32 len)) })) ∧
  (∀ (w : Wav) (offset : Nat) (data : List Byte), Memory.wf 0#8 w.incoming = true →
     (∀ k v, data[k]? = some v → Memory.read 0#8 (w.writeData offset data).incoming (offset + k) = v) ∧
     ∀ a, (a < offset ∨ offset + data.length ≤ a) →
       Memory.read 0#8 (w.writeData offset data).incoming a = Memory.read 0#8 w.incoming a)

/-- R27: exactly a table that passes all five tests validates: at least 44 bytes, frame counts 1 to 60, periods 100 to
2500, the exact length, and no symbol of code 3.

R27: a table that fails is reported by the first test it fails, with that test's reason and location: no location for
the two length tests, the first failing entry's mode and band, the first failing band, and the mode, band, pair and
frame of the first symbol of code 3 in table order (entries, then frames, then pairs). -/
def Obligations.ValidTablesPassTheFiveTests : Prop :=
  (∀ (t : List Cell) (len : Nat),
    validate t len = none ↔
      44 ≤ len ∧ (∀ e < 24, 1 ≤ tableF t e ∧ tableF t e ≤ 60) ∧
        (∀ b < 8, 100 ≤ tableP t b ∧ tableP t b ≤ 2500) ∧ len = 44 + 64 * framesAll t ∧
        ∀ j q, j < 64 * framesAll t → q < 4 → symbolIn (tableByte t (44 + j)) q ≠ 3) ∧
  ∀ (t : List Cell) (len : Nat),
    let goodCount (e : Nat) := 1 ≤ tableF t e ∧ tableF t e ≤ 60
    let goodPeriod (b : Nat) := 100 ≤ tableP t b ∧ tableP t b ≤ 2500
    let fails (f : CommitFault) := validate t len = some f
    (len < 44 → fails { reason := .length }) ∧
    (44 ≤ len →
      (∀ e < 24, ¬goodCount e → (∀ d < e, goodCount d) →
        fails { reason := .frameCount, mode := some (e / 8), band := some (e % 8) }) ∧
      ((∀ e < 24, goodCount e) →
        (∀ b < 8, ¬goodPeriod b → (∀ d < b, goodPeriod d) → fails { reason := .period, band := some b }) ∧
        ((∀ b < 8, goodPeriod b) →
          (len ≠ 44 + 64 * framesAll t → fails { reason := .length }) ∧
          (len = 44 + 64 * framesAll t → ∀ e k p, e < 24 → k < tableF t e → p < 256 → tableSymbol t e k p = 3 →
            (∀ d j q, d < 24 → j < tableF t d → q < 256 → (d < e ∨ (d = e ∧ (j < k ∨ (j = k ∧ q < p)))) →
              tableSymbol t d j q ≠ 3) →
            fails
              { reason := .symbol
                mode := some (e / 8)
                band := some (e % 8)
                pair := some p
                frame := some k }))))

/-- R27 and R28: a commit that fails validation empties the incoming table and leaves the active one; a valid one is
adopted at once where no context is in use, and waits where one is; the examination and the gate follow (R49, R171). The
reply's outcome is coded in R28's order, ADOPTED 0 and WAITING 1 (R203; log entry 9).

R28: a waiting adoption takes place once no context is in use; `State.adoptIfStill`, in which other statements pass, is
that alone. -/
def Obligations.WaveformCommitAndWaitingAdoption : Prop :=
  (∀ (tag : Byte) (s : State), s.linkOpen →
     let answer := exec (.waveformCommit tag) s
     (s.wav.adoptionWaiting = true → answer = .next (s.refusedBy 0x21#8 tag .adoptionPending)) ∧
     (s.wav.adoptionWaiting = false → ∀ f, validate s.wav.incoming s.wav.incomingLen = some f →
       answer = .next
         { s with
           wav := { s.wav with incoming := [], incomingLen := 0, lastCommit := .bad f }
           lnk := s.replied 0x21#8 tag .waveformBad f.bytes }) ∧
     (s.wav.adoptionWaiting = false → validate s.wav.incoming s.wav.incomingLen = none → s.upd.contextInUse = true →
       answer = .next
         (State.settle
           { s with
             wav := { s.wav with adoptionWaiting := true, lastCommit := .waiting }
             lnk := s.replied 0x21#8 tag .ok [1#8] }
           true)) ∧
     (s.wav.adoptionWaiting = false → validate s.wav.incoming s.wav.incomingLen = none → s.upd.contextInUse = false →
       answer = .next
         (State.settle
           { s with
             wav :=
               { s.wav with
                 active := some s.wav.incoming
                 incoming := []
                 incomingLen := 0
                 adoptionWaiting := false
                 lastCommit := .adopted }
             lnk := { s.replied 0x21#8 tag .ok [0#8] with notices := s.lnk.notices ||| 0x0020#16 } }
           true))) ∧
  (∀ s : State, (s.wav.adoptionWaiting = false ∨ s.upd.contextInUse = true) → s.adoptIfStill = s) ∧
  ∀ s : State, s.wav.adoptionWaiting = true → s.upd.contextInUse = false →
     let adopted :=
       { s with
         wav :=
           { s.wav with
             active := some s.wav.incoming
             incoming := []
             incomingLen := 0
             adoptionWaiting := false
             lastCommit := .adopted }
         lnk := { s.lnk with notices := s.lnk.notices ||| 0x0020#16 } }
     s.adoptIfStill = adopted ∧
     (s.live = true → exec .waveformAdoption s = .next (State.settle adopted true))

/-- R33 and R34: the band after a valid reading, with its hysteresis of a whole degree on the way down; and the band
edges as counts of the converter.

R33, R35, R36 and R52: a PANEL_TEMP result that is handed on. A faulted one leaves WAV as it is; a valid one becomes the
latest temperature and sets the range state, and raises TEMP_RANGE (bit 11) exactly where it moves that to BELOW or to
ABOVE; either ends a freshness wait, upon which the queue is examined without a freshness check.

R51: an examination that finds the engine idle and the temperature stale begins a freshness wait and asks SNS for a
conversion, in place of the preparation that it otherwise begins. -/
def Obligations.BandFollowsTheReading : Prop :=
  (∀ (w : Wav) (t : Int),
    (t < 0 → (w.takeReading t).band = 0) ∧
    (500 ≤ t → (w.takeReading t).band = 7) ∧
    (0 ≤ t → t < 500 → w.firstTaken = false → (w.takeReading t).band = rawBand t) ∧
    (0 ≤ t → t < 500 → w.firstTaken = true → w.band ≤ rawBand t → (w.takeReading t).band = rawBand t) ∧
    (0 ≤ t → t < 500 → w.firstTaken = true → rawBand t < w.band → (w.takeReading t).band = rawBand (t + 10)) ∧
    w.takeReading t =
      { w with
        latest := some t
        firstTaken := true
        band := (w.takeReading t).band
        range := if t < 0 then .below else if 500 ≤ t then .above else .inside }) ∧
  (∀ count, 1 ≤ count → count ≤ 4094 →
    rawBand (tempOf count) =
      if count ≤ 1228 then 0 else if count ≤ 1433 then 1 else if count ≤ 1638 then 2 else if count ≤ 1843 then 3
      else if count ≤ 2047 then 4 else if count ≤ 2252 then 5 else if count ≤ 2662 then 6 else 7) ∧
  (∀ s : State,
    let r := s.sns.records.panelTemp
    let raised := (r.derived < 0 ∧ s.wav.range ≠ .below) ∨ (500 ≤ r.derived ∧ s.wav.range ≠ .above)
    let taken :=
      if r.fault = true then s
      else
        { s with
          wav := s.wav.takeReading r.derived
          lnk := { s.lnk with notices := if raised then s.lnk.notices ||| 0x0800#16 else s.lnk.notices } }
    (s.upd.freshWait = false → s.handTemperature = taken.settle true) ∧
    (s.upd.freshWait = true →
      s.handTemperature = State.settle { taken with upd := { s.upd with freshWait := false } } false)) ∧
  ∀ (r : Request) (check : Bool) (s : State), s.firstEligible = some r →
    let stale :=
      s.sns.records.panelTemp.valid = false ∨
        60000 < (s.nowMs + 4294967296 - s.sns.records.panelTemp.sampleTime) % 4294967296
    ((check = true ∧ s.upd.scanning = false ∧ s.upd.contextInUse = false ∧ stale) →
      s.examineOnce check = some
        { s with
          upd := { s.upd with freshWait := true }
          sns := Sns.arbitrate { s.sns with requests := { s.sns.requests with panelTemp := true } } s.clock }) ∧
    (¬(check = true ∧ s.upd.scanning = false ∧ s.upd.contextInUse = false ∧ stale) →
      s.examineOnce check = some (s.beginPreparation r))

/-! ### Update engine and panel scan (chapter 3) -/

/-- R45: clipping keeps exactly the panel pixels of the submitted rectangle, and nothing is left exactly where it has no
pixel on the panel. -/
def Obligations.ClippingKeepsThePanelPixels : Prop :=
  ∀ (x y : Int) (w h : Nat),
    (∀ r, clipRect x y w h = some r → ∀ px py : Nat,
      r.has px py = true ↔
        px < 1280 ∧ py < 1600 ∧ x ≤ px ∧ (px : Int) < x + w ∧ y ≤ py ∧ (py : Int) < y + h) ∧
    (clipRect x y w h = none ↔
      ∀ px py : Nat, px < 1280 → py < 1600 → ¬(x ≤ px ∧ (px : Int) < x + w ∧ y ≤ py ∧ (py : Int) < y + h))

/-- R44: the tests of admission, in order, and the request that passes them all. That the notify flag's code is judged
with test 3 is log entry 14's choice (DESIGN CHOICE). -/
def Obligations.AdmissionTestsInOrder : Prop :=
  ∀ (b : Submission) (s : State),
    let answer := s.judgeSubmission b
    (s.wav.active = none → answer = .error .noWaveform) ∧
    (s.wav.active ≠ none → s.pwr.cutoff = true → b.origin ≠ .power → answer = .error .powerDown) ∧
    (s.wav.active ≠ none → (s.pwr.cutoff = false ∨ b.origin = .power) →
      ((b.slot = none ∨ b.mode = none ∨ b.forced = none ∨ b.notify = none) → answer = .error .badParam) ∧
      ∀ i mode forced notify, b.slot = some i → b.mode = some mode → b.forced = some forced → b.notify = some notify →
        (clipRect b.x b.y b.w b.h = none → answer = .error .badRect) ∧
        ∀ r, clipRect b.x b.y b.w b.h = some r →
          let x := s.mem.slots[i]
          let fits := b.sx + r.w ≤ x.width ∧ b.sy + r.h ≤ x.height
          (x.state = .releasing → answer = .error .slotBusy) ∧
          (x.state ≠ .releasing → (x.state ≠ .ready ∨ ¬fits) → answer = .error .badSource) ∧
          (x.state = .ready → fits → 16 ≤ s.upd.queue.length → answer = .error .queueFull) ∧
          (x.state = .ready → fits → s.upd.queue.length < 16 →
            answer = .ok
              { number := s.upd.nextNumber
                serial := s.upd.nextSerial
                origin := b.origin
                slot := i
                sx := b.sx
                sy := b.sy
                rect := r
                mode := mode
                forced := forced
                notify := notify
                cadence := b.cadence }))

/-- R44, R46, R47, R6, R63: what an admission leaves. The pending requests of the same origin that lie wholly inside the
new one leave the queue and retire SUPERSEDED, one after another in queue order (log entry 19, DESIGN CHOICE), on the
state in which the new request's source is pinned and the counters have advanced; then the new request joins the queue's
tail, with their cadence obligation. Each retirement is R63's: an entry of the completion log, which keeps the latest
eight, a pin released, and UPDATE_DONE where the notify flag is set. The number counter never reaches 0. With nothing
superseded, only the queue, the counters and one pin change. -/
def Obligations.AdmissionQueuesPinsAndSupersedes : Prop :=
  ∀ (r : Request) (s : State),
    let gone := s.upd.queue.filter fun q => q.origin = r.origin && q.rect.inside r.rect
    let kept := s.upd.queue.filter fun q => !(q.origin = r.origin && q.rect.inside r.rect)
    let new := if gone.any Request.cadence then { r with mode := .full, cadence := true } else r
    let pinned : State :=
      { s with
        mem :=
          { s.mem with
            slots := s.mem.slots.set r.slot { s.mem.slots[r.slot] with pins := s.mem.slots[r.slot].pins + 1 } }
        upd :=
          { s.upd with
            queue := kept
            nextNumber := if 65535 ≤ s.upd.nextNumber then 1 else s.upd.nextNumber + 1
            nextSerial := s.upd.nextSerial + 1 } }
    let retired := gone.foldl (fun t q => State.retire t q .superseded) pinned
    let t := s.enterQueue r
    t = { retired with upd := { retired.upd with queue := kept ++ [new] } } ∧
      t.upd.queue = kept ++ [new] ∧
      t.upd.nextNumber = (if 65535 ≤ s.upd.nextNumber then 1 else s.upd.nextNumber + 1) ∧
      (s.upd.log.length ≤ 8 →
        t.upd.log =
          (s.upd.log ++ gone.map fun q => (q.number, Retired.superseded)).drop (s.upd.log.length + gone.length - 8)) ∧
      ((∃ q ∈ gone, q.notify = true) → t.lnk = { s.lnk with notices := s.lnk.notices ||| 0x0001#16 }) ∧
      ((∀ q ∈ gone, q.notify = false) → t.lnk = s.lnk) ∧
      (∀ i : Fin 16, (∀ q ∈ gone, q.slot ≠ i) →
        t.mem.slots[i] =
          if i = r.slot then { s.mem.slots[i] with pins := s.mem.slots[i].pins + 1 } else s.mem.slots[i]) ∧
      (gone = [] → t = { pinned with upd := { pinned.upd with queue := s.upd.queue ++ [r] } })

/-- R63, R6, R7: a retirement appends to the completion log, of which at most the latest eight entries stay, releases
one pin, freeing a RELEASING slot with the last, and raises UPDATE_DONE where the notify flag is set and the outcome is
not CANCELLED. That the freed blocks join the pool's end is log entry 4's choice (DESIGN CHOICE). -/
def Obligations.RetirementLogsUnpinsAndNotifies : Prop :=
  ∀ (r : Request) (o : Retired) (s : State), s.upd.log.length ≤ 8 →
    let t := s.retire r o
    let x := s.mem.slots[r.slot]
    (s.upd.log.length < 8 → t.upd.log = s.upd.log ++ [(r.number, o)]) ∧
    (s.upd.log.length = 8 → t.upd.log = s.upd.log.tail ++ [(r.number, o)]) ∧
    ((x.state = .releasing ∧ x.pins ≤ 1) →
      t.mem = { s.mem with pool := s.mem.pool ++ x.blocks, slots := s.mem.slots.set r.slot {} }) ∧
    (¬(x.state = .releasing ∧ x.pins ≤ 1) →
      t.mem = { s.mem with slots := s.mem.slots.set r.slot { x with pins := x.pins - 1 } }) ∧
    ((r.notify = true ∧ o ≠ .cancelled) → t.lnk.notices = s.lnk.notices ||| 0x0001#16) ∧
    ((r.notify = false ∨ o = .cancelled) → t.lnk.notices = s.lnk.notices)

/-- R44 and R49: Update Region is refused with admission's code, or admitted, answered with its number and the count of
the requests it superseded, and the queue is examined.

R48: Cancel Update by where its number is found.

R65: Update Status changes no state but LNK's reply; a reported plan gives the reply's PROMOTED and DEMOTED flags.

R66: Panel Settings stores a hold time of 0 to 5000 ms and changes nothing else. -/
def Obligations.UpdateMessages : Prop :=
  (∀ (tag slot mode forced notify : Byte) (x y w h sx sy : U16) (s : State), s.linkOpen →
     let b := linkSubmission slot mode forced notify x y w h sx sy
     let answer := exec (.updateRegion tag slot mode forced notify x y w h sx sy) s
     let free := { s with lnk := { s.lnk with receiver := .idle } }
     (∀ e, s.judgeSubmission b = .error e → answer = .next (s.refusedBy 0x30#8 tag e)) ∧
     (∀ r, s.judgeSubmission b = .ok r →
       answer = .next
         (State.settle
           ((free.enterQueue r).answer 0x30#8 tag .ok
             (le16 (BitVec.ofNat 16 r.number) ++ [BitVec.ofNat 8 (s.upd.supersededBy r).length]))
           true))) ∧
  (∀ (tag : Byte) (number : U16) (s : State), s.linkOpen →
     let answer := exec (.cancelUpdate tag number) s
     let found := s.upd.queue.find? fun q => q.number = number.toNat
     let free := { s with lnk := { s.lnk with receiver := .idle } }
     (number = 0#16 → answer = .next (s.refusedBy 0x31#8 tag .badParam)) ∧
     (number ≠ 0#16 → ∀ r, found = some r →
       answer = .next
         (State.settle
           ((State.retire
             { free with
               upd := { s.upd with queue := s.upd.queue.filter fun q => q.number ≠ r.number } } r .cancelled).answer
             0x31#8 tag .ok)
           true)) ∧
     (number ≠ 0#16 → found = none →
       ((∃ (i : Fin 8) (r : Request), s.upd.contexts[i].request = some r ∧ r.number = number.toNat) →
         answer = .next (s.refusedBy 0x31#8 tag .updateStarted)) ∧
       ((∀ (i : Fin 8) (r : Request), s.upd.contexts[i].request = some r → r.number ≠ number.toNat) →
         answer = .next (s.refusedBy 0x31#8 tag .unknownUpdate)))) ∧
  (∀ (tag : Byte) (number : U16) (s : State), s.linkOpen →
     let answer := exec (.updateStatus tag number) s
     (number = 0#16 → answer = .next (s.refusedBy 0x32#8 tag .badParam)) ∧
     (number ≠ 0#16 → s.upd.found number.toNat = none →
       answer = .next (s.refusedBy 0x32#8 tag .unknownUpdate)) ∧
     (number ≠ 0#16 → ∀ f, s.upd.found number.toNat = some f →
       let told := s.replied 0x32#8 tag .ok f.body
       answer = .next
         { s with
           lnk :=
             { told with
               reply :=
                 told.reply.map fun r =>
                   { r with
                     promoted := (f.plan.map Plan.promoted).getD false
                     demoted := (f.plan.map Plan.demoted).getD false } } })) ∧
  (∀ (tag : Byte) (hold : U16) (s : State), s.linkOpen →
     (hold.toNat ≤ 5000 →
       exec (.panelSettings tag hold) s = .next
         { s with upd := { s.upd with holdTime := hold.toNat }, lnk := s.replied 0x33#8 tag .ok [] }) ∧
     (5000 < hold.toNat → exec (.panelSettings tag hold) s = .next (s.refusedBy 0x33#8 tag .badParam)))

/-- R50: a request that an examination takes into preparation meets every condition of eligibility, and no request ahead
of it that meets them is passed over. -/
def Obligations.PreparedRequestsAreEligible : Prop :=
  ∀ (r : Request) (s : State), s.firstEligible = some r →
    (∃ ahead behind, s.upd.queue = ahead ++ r :: behind ∧ (∀ q ∈ ahead, q.rect.meets r.rect = false) ∧
      ∀ pre q post, ahead = pre ++ q :: post → s.upd.clear pre q = false) ∧
    (∀ (i : Fin 8) (q : Request), s.upd.contexts[i].request = some q → q.rect.meets r.rect = false) ∧
    (∃ i : Fin 8, s.upd.contexts[i] = .free) ∧
    (∀ band period next count, s.upd.rails = .scanning band period next count → s.wav.band = band) ∧
    (s.upd.scanning = false → ∀ (i : Fin 8) b, s.upd.contexts[i].preparedBand = some b → s.wav.band = b) ∧
    s.wav.adoptionWaiting = false ∧ (s.pwr.level = .normal ∨ s.pwr.gate.holder ≠ .radio) ∧ s.upd.freshWait = false ∧
    s.pwr.power ≠ .deep ∧ s.pwr.deepWait = none

/-- R53, R54, R37: a preparation begins. The first eligible request leaves the queue and takes a FREE context, which
reads the band and the plan's inputs now and ends ceil(A / 512) µs later; then the rails follow. Where the engine is
idle and the temperature stale, none begins (R51). R49: an examination walks the queue again after each preparation that
it begins, until no request is eligible.

R55: a preparation ends at its time. A plan that is not empty makes its context WAITING; an empty one retires the
request DONE_EMPTY and frees the context.

The model's choices (DESIGN CHOICE): the context is the lowest FREE one (log entry 19), PREPARATION_BEGIN is a row of
its own (log entry 5), and an expiry that is taken late finds the clock past its deadline (log entry 2). -/
def Obligations.PreparationBeginsAndEnds : Prop :=
  (∀ s : State,
     (∀ r i, s.firstEligible = some r → s.upd.freeCtx = some i → (s.upd.idle && s.sns.stale s.nowMs) = false →
       exec .preparationBegin s = .next
         (State.railsFollow
           { s with
             upd :=
               { s.upd with
                 contexts :=
                   s.upd.contexts.set i
                     (.reserved r s.wav.band (s.planFor r) (s.clock + (r.rect.w * r.rect.h + 511) / 512 * 4))
                 queue := s.upd.queue.filter fun q => q.serial ≠ r.serial } })) ∧
     (∀ r, s.firstEligible = some r → s.upd.idle = true → s.sns.stale s.nowMs = true →
       exec .preparationBegin s = .next s) ∧
     (s.firstEligible = none → exec .preparationBegin s = .next s)) ∧
  (∀ (r : Request) (i : Fin 8) (s : State), s.upd.freeCtx = some i →
     s.beginPreparation r =
       { s with
         upd :=
           { s.upd with
             contexts :=
               s.upd.contexts.set i
                 (.reserved r s.wav.band (s.planFor r) (s.clock + (r.rect.w * r.rect.h + 511) / 512 * 4))
             queue := s.upd.queue.filter fun q => q.serial ≠ r.serial } }) ∧
  (∀ (check : Bool) (s : State),
     (s.firstEligible = none → s.examineOnce check = none) ∧
     (s.examineOnce check = none → s.examine check = s) ∧
     ∀ t, s.examineOnce check = some t → s.examine check = t.examine check) ∧
  (∀ (i : Fin 8) (r : Request) (band endsAt : Nat) (p : Plan) (s : State),
     s.upd.contexts[i] = .reserved r band p endsAt →
     let at_ (u : Upd) : State := { s with clock := max s.clock endsAt, upd := u }
     (p.empty = false →
       exec (.preparationEnd i) s = .next
         (State.settle (at_ { s.upd with contexts := s.upd.contexts.set i (.waiting r p) }) true)) ∧
     (p.empty = true →
       exec (.preparationEnd i) s = .next
         (State.settle
           (State.adoptIfStill
             ((at_ { s.upd with contexts := s.upd.contexts.set i .free }).retire r .doneEmpty))
           true)))

/-- R39 and R40: while the shown image is unknown every plan is FULL; otherwise a FULL request is demoted to GRAY
exactly where the battery is LOW or CRITICAL, a record is RECEIVING and the FULL duration exceeds the hold limit. R40: a
FULL plan's active count is its rectangle's area, and it is never empty; a GRAY or QUICK plan's is the number of pixels
whose target differs from what is shown, and it is empty exactly where none does. R42: the plan's band is the current
one, its frame count and period are the active table's, and its duration is ceil(F × P / 100). -/
def Obligations.PlansPromoteAndDemote : Prop :=
  ∀ (r : Request) (s : State),
    let p := s.planFor r
    let t := s.wav.active.getD []
    let long := s.spl.holdLimit < (tableF t s.wav.band * tableP t s.wav.band + 99) / 100
    let demotes := r.mode = .full ∧ s.pwr.level ≠ .normal ∧ (∃ d ∈ s.spl.table, d.state = .receiving) ∧ long
    (s.upd.known = false → p.mode = .full ∧ p.demoted = false ∧ (p.promoted = true ↔ r.mode ≠ .full)) ∧
    (s.upd.known = true → demotes → p.mode = .gray ∧ p.promoted = false ∧ p.demoted = true) ∧
    (s.upd.known = true → ¬demotes → p.mode = r.mode ∧ p.promoted = false ∧ p.demoted = false) ∧
    (p.mode = .full → p.active = r.rect.w * r.rect.h ∧ p.empty = false) ∧
    (p.mode ≠ .full →
      let differs (x y : Nat) : Prop :=
        targetLevel p.mode r.forced
            (s.mem.slotLevel r.slot
              ((r.sy + (y - r.rect.y)) * s.mem.slots[r.slot].width + (r.sx + (x - r.rect.x)))) ≠
          s.mem.shownLevel (y * 1280 + x)
      p.active =
          ((List.range r.rect.h).map fun j =>
            (List.range r.rect.w).countP fun i => decide (differs (r.rect.x + i) (r.rect.y + j))).sum ∧
        (p.empty = true ↔
          ∀ x y, r.rect.x ≤ x → x < r.rect.x + r.rect.w → r.rect.y ≤ y → y < r.rect.y + r.rect.h → ¬differs x y)) ∧
    p.band = s.wav.band ∧
    p.frames = tableF t ((match p.mode with | .full => 0 | .gray => 8 | .quick => 16) + s.wav.band) ∧
    p.period = tableP t s.wav.band ∧ p.duration = (p.frames * p.period + 99) / 100

/-- R56 and R57: the rails rise when the engine holds work and PWR permits, are up after 3 ms, fall when the hold timer
expires, and are off after 2 ms. RAILEN is asserted while they rise, in RAILS_ON_IDLE and in SCANNING, and deasserted in
RAILS_OFF and while they fall (R56), and wherever nothing is driven.

What follows an event (`State.railsFollow`) lets the rails rise from RAILS_OFF, starts a scan, and leaves the rails
alone while they rise or fall and in SCANNING. R57: in RAILS_ON_IDLE, where no scan starts, the hold timer stops while
the engine holds work; without work it runs on, or starts at the hold time where it does not run; where the hold time is
0, or taken as 0 because a DEEP entry waits or the cutoff sequence runs, the rails fall at once. It is looked at last in
what follows every event (`State.engine`).

R58 and R59: a scan starts with a WAITING context, latching its plan's band and that band's period from the active
table; every WAITING context joins with frame index 0, and a decided ambient placement is cancelled (R119).

The model's choices (DESIGN CHOICE): RAIL_RISE and SCAN_START are rows of their own (log entry 5), and an expiry that is
taken late finds the clock past its deadline (log entry 2). -/
def Obligations.RailsAndScanStart : Prop :=
  (∀ s : State,
     (s.upd.rails = .off → s.upd.work = true → s.supply = .on → (s.pwr.power = .active ∨ s.pwr.power = .doze) →
       exec .railRise s = .next
         (State.idleFollow { s with upd := { s.upd with rails := .rising (s.clock + 12000), holdTimer := none } })) ∧
     (∀ e, s.upd.rails = .rising e →
       exec .railsUp s = .next
         (State.settle { s with clock := max s.clock e, upd := { s.upd with rails := .onIdle } } true)) ∧
     (∀ d, s.upd.rails = .onIdle → s.upd.holdTimer = some d →
       exec .railHoldExpiry s = .next
         { s with
           clock := max s.clock d
           upd := { s.upd with rails := .falling (max s.clock d + 8000), holdTimer := none } }) ∧
     (∀ e, s.upd.rails = .falling e →
       exec .railsOff s = .next
         (State.settle { s with clock := max s.clock e, upd := { s.upd with rails := .off } } true)) ∧
     (s.railen = true ↔
       s.supply = .on ∧ s.pwr.power ≠ .cutoff ∧
         ((∃ e, s.upd.rails = .rising e) ∨ s.upd.rails = .onIdle ∨
           ∃ band period next n, s.upd.rails = .scanning band period next n))) ∧
  (∀ s : State, s.upd.rails = .onIdle →
     (s.upd.work = true → (s.upd.anyWaiting = false ∨ (s.pwr.level ≠ .normal ∧ s.pwr.gate.holder ≠ .panel)) →
       s.railsFollow = { s with upd := { s.upd with holdTimer := none } }) ∧
     (s.upd.work = false →
       ((s.pwr.deepWait ≠ none ∨ s.pwr.cutoff = true ∨ (s.upd.holdTimer = none ∧ s.upd.holdTime = 0)) →
         s.railsFollow = { s with upd := { s.upd with rails := .falling (s.clock + 8000), holdTimer := none } }) ∧
       (s.pwr.deepWait = none → s.pwr.cutoff = false →
         (s.upd.holdTimer ≠ none → s.railsFollow = s) ∧
         (s.upd.holdTimer = none → s.upd.holdTime ≠ 0 →
           s.railsFollow = { s with upd := { s.upd with holdTimer := some (s.clock + s.upd.holdTime * 4000) } })))) ∧
  (∀ (check : Bool) (s : State),
     s.engine check = State.railsFollow (((s.gateCycle false).examine check).gateCycle true)) ∧
  (∀ (p : Plan) (s : State), s.live = true → s.upd.rails = .onIdle → s.upd.waitingPlan = some p →
     (s.pwr.level = .normal ∨ s.pwr.gate.holder = .panel) →
     let period := tableP (s.wav.active.getD []) p.band
     let started :=
       { s with
         upd :=
           { s.upd with
             rails := .scanning p.band period (s.clock + period * 40) 0
             contexts := s.upd.contexts.map (Ctx.join 0)
             holdTimer := none }
         lgt := s.lgt.cancelDecided }
     exec .scanStart s = .next started ∧ s.railsFollow = started) ∧
  ∀ s : State,
    let permitted := s.upd.work = true ∧ s.supply = .on ∧ (s.pwr.power = .active ∨ s.pwr.power = .doze)
    (s.upd.rails = .off → permitted →
      s.railsFollow = { s with upd := { s.upd with rails := .rising (s.clock + 12000), holdTimer := none } }) ∧
    (s.upd.rails = .off → ¬permitted → s.railsFollow = s) ∧
    (s.upd.rails ≠ .off → s.upd.rails ≠ .onIdle → s.railsFollow = s)

/-- R59 at a boundary where no context completes: each RUNNING context advances, each WAITING one joins, and the scan
goes on by one period; with neither, it leaves SCANNING, sets LGT's holdoff count and releases the gate.

R62: a context whose last frame ends completes: the shown image takes its targets, a full-panel FULL update makes it
known, the context becomes FREE and the request retires DONE.

R59 and R62 at a boundary where contexts complete: they complete first, in the order of joining and, among those that
joined together, of admission; then a waiting adoption takes place if no context is left in use (R28); then the others
advance and join.

The model's choices (DESIGN CHOICE): CONTEXT_COMPLETE is a part of its boundary as a row of its own (log entry 5), and a
boundary that is taken late finds the clock past its time (log entry 2). -/
def Obligations.FrameBoundaryAndContextCompletion : Prop :=
  (∀ (band period next count : Nat) (s : State), s.upd.rails = .scanning band period next count →
     (∀ i : Fin 8, s.upd.contexts[i].ended = false) → s.wav.adoptionWaiting = false →
     let moved := (s.upd.contexts.map Ctx.advance).map (Ctx.join (count + 1))
     ((∃ i : Fin 8, s.upd.contexts[i].isRunning = true ∨ s.upd.contexts[i].isWaiting = true) →
       exec .frameBoundary s = .next
         (State.settle
           { s with
             clock := max s.clock next
             upd := { s.upd with rails := .scanning band period (next + period * 40) (count + 1), contexts := moved } }
           true)) ∧
     ((∀ i : Fin 8, s.upd.contexts[i].isRunning = false ∧ s.upd.contexts[i].isWaiting = false) →
       exec .frameBoundary s = .next
         (State.settle
           (State.releaseGate
             { s with
               clock := max s.clock next
               upd := { s.upd with rails := .onIdle, contexts := moved }
               lgt := { s.lgt with holdoff := 2 } })
           true))) ∧
  (∀ (i : Fin 8) (r : Request) (p : Plan) (frame joined band period next count : Nat) (s : State),
     s.upd.rails = .scanning band period next count → s.upd.contexts[i] = .running r p frame joined →
     p.frames ≤ frame + 1 → s.wav.adoptionWaiting = false →
     exec (.contextComplete i) s = .next
       (State.retire
         { s with
           clock := max s.clock next
           mem := s.mem.complete r p.mode
           upd :=
             { s.upd with
               contexts := s.upd.contexts.set i .free
               known := s.upd.known || decide (p.mode = .full ∧ r.rect = ⟨0, 0, 1280, 1600⟩) } }
         r .done)) ∧
  ∀ (order : List (Fin 8)) (band period next count : Nat) (s : State), s.upd.rails = .scanning band period next count →
     order.Nodup → (∀ i : Fin 8, i ∈ order ↔ s.upd.contexts[i].ended = true) →
     order.Pairwise (fun i k =>
       ∀ r p f j r' p' f' j', s.upd.contexts[i] = .running r p f j → s.upd.contexts[k] = .running r' p' f' j' →
         j < j' ∨ (j = j' ∧ r.serial < r'.serial)) →
     let completed (t : State) (i : Fin 8) : State :=
       match t.upd.contexts[i] with
       | .running r p _ _ =>
         State.retire
           { t with
             mem := t.mem.complete r p.mode
             upd :=
               { t.upd with
                 contexts := t.upd.contexts.set i .free
                 known := t.upd.known || decide (p.mode = .full ∧ r.rect = ⟨0, 0, 1280, 1600⟩) } }
           r .done
       | _ => t
     let done := order.foldl completed { s with clock := max s.clock next }
     let ready :=
       if s.wav.adoptionWaiting = true ∧ done.upd.contextInUse = false then
         { done with
           wav :=
             { s.wav with
               active := some s.wav.incoming
               incoming := []
               incomingLen := 0
               adoptionWaiting := false
               lastCommit := .adopted }
           lnk := { done.lnk with notices := done.lnk.notices ||| 0x0020#16 } }
       else done
     let moved := (ready.upd.contexts.map Ctx.advance).map (Ctx.join (count + 1))
     (moved.toList.any Ctx.isRunning = true →
       exec .frameBoundary s = .next
         (State.settle
           { ready with
             upd := { ready.upd with rails := .scanning band period (next + period * 40) (count + 1), contexts := moved } }
           true)) ∧
     (moved.toList.any Ctx.isRunning = false →
       exec .frameBoundary s = .next
         (State.settle
           (State.releaseGate
             { ready with
               upd := { ready.upd with rails := .onIdle, contexts := moved }
               lgt := { ready.lgt with holdoff := 2 } })
           true))

/-- R62 step 1 and R38: after a completion the shown level of every pixel of the rectangle is its target, and of every
other panel pixel what it was. -/
def Obligations.CompletionShowsTheTargets : Prop :=
  ∀ (m : Mem) (r : Request) (mode : Mode) (x y : Nat), Memory.wf 0xFF#8 m.cells = true → x < 1280 → y < 1600 →
    0 < r.rect.w → r.rect.x + r.rect.w ≤ 1280 → r.rect.y + r.rect.h ≤ 1600 →
    (m.complete r mode).shownLevel (y * 1280 + x) =
      if r.rect.x ≤ x ∧ x < r.rect.x + r.rect.w ∧ r.rect.y ≤ y ∧ y < r.rect.y + r.rect.h then
        targetLevel mode r.forced
          (m.slotLevel r.slot
            ((r.sy + (y - r.rect.y)) * m.slots[r.slot].width + (r.sx + (x - r.rect.x))))
      else m.shownLevel (y * 1280 + x)

/-- R60 and R24: a pixel of no RUNNING context receives HOLD (code 0); a pixel of a RUNNING context receives, in frame
k, symbol k of the active table's sequence for its mode, band and pair, but HOLD where GRAY or QUICK finds its target
shown.

R60: the frame in progress: a pulse on PFS, and for each row 320 bytes of four pixels, the leftmost in the upper two
bits, and a pulse on PLE; outside SCANNING the port is quiet. -/
def Obligations.PanelPortHoldsWhatDoesNotRun : Prop :=
  (∀ (s : State) (x y : Nat),
    (∀ (i : Fin 8) (r : Request) (p : Plan) (k j : Nat), s.upd.contexts[i] = .running r p k j →
      r.rect.has x y = false) →
    s.panelSymbol x y = 0) ∧
  (∀ (s : State) (i : Fin 8) (r : Request) (p : Plan) (k j x y : Nat) (t : List Cell),
    s.upd.contexts[i] = .running r p k j → r.rect.has x y = true → s.wav.active = some t →
    (∀ (i' : Fin 8) (r' : Request) (p' : Plan) (k' j' : Nat), i' ≠ i → s.upd.contexts[i'] = .running r' p' k' j' →
      r'.rect.has x y = false) →
    let shown := s.mem.shownLevel (y * 1280 + x)
    let target :=
      targetLevel p.mode r.forced
        (s.mem.slotLevel r.slot
          ((r.sy + (y - r.rect.y)) * s.mem.slots[r.slot].width + (r.sx + (x - r.rect.x))))
    let pair := 16 * shown.toNat + target.toNat
    let entry := (match p.mode with | .full => 0 | .gray => 8 | .quick => 16) + p.band
    ((p.mode ≠ .full ∧ target = shown) → s.panelSymbol x y = 0) ∧
    (¬(p.mode ≠ .full ∧ target = shown) →
      s.panelSymbol x y =
        tableByte t (44 + 64 * framesBefore t entry + 64 * k + pair / 4) / 4 ^ (3 - pair % 4) % 4)) ∧
  ∀ s : State,
    (s.upd.scanning = false → s.portFrame = []) ∧
    (s.live = true → s.upd.scanning = true →
      s.portFrame.length = 1 + 1600 * 321 ∧ s.portFrame[0]? = some .pfs ∧
      ∀ y < 1600,
        s.portFrame[1 + 321 * y + 320]? = some .ple ∧
        ∀ k < 320, ∃ b : Byte, s.portFrame[1 + 321 * y + k]? = some (.byte b) ∧
          ∀ q < 4, b.toNat / 4 ^ (3 - q) % 4 = s.panelSymbol (4 * k + q) y)

/-! ### Page turning (chapter 4) -/

/-- R72, R74 to R77: a press accepted in ACTIVE, outside a soft reset's drain and the cutoff sequence. Its capture is
updated first; POWER starts the long-press timer, LIGHT toggles the light and raises LIGHT_KEY, a turn key routed to
REPORT raises KEY_REPORT, and one routed LOCAL turns.

R76, R173, R174, R176: a press in any power state but CUTOFF, a waiting DEEP entry and the cutoff sequence included, is
reported to PWR before the key's action. A running deep-idle timer starts again from the full time; in DEEP the part
leaves for DOZE with the cause KEY; a waiting DEEP entry keeps the first wake. In the cutoff sequence the LIGHT key
leaves LGT alone (R124).

R116: the toggle leaves a mode that is not OFF for OFF and remembers it, and brings it back from OFF with the filter's
first-sample flag set; the targets follow.

A press that is taken late finds the clock past its settle time (log entry 2, DESIGN CHOICE). -/
def Obligations.AcceptedPressActsByItsKey : Prop :=
  (∀ (k : Key) (d : Nat) (s : State), s.live = true → s.draining = false →
    (s.trn.keys.get k).debounce = .pressSettling → (s.trn.keys.get k).settle = some d →
    let now := max s.clock d
    let r := s.trn.keys.get k
    let captured :=
      { s with
        clock := now
        trn :=
          { s.trn with
            keys :=
              s.trn.keys.set k
                { r with
                  debounce := .pressed
                  settle := none
                  pressTime := some (now / 4000 % 4294967296)
                  unread := true
                  overwritten := r.overwritten || r.unread } } }
    let answer := exec (.keyPress k) s
    (s.pwr.power = .active → s.pwr.cutoff = false → s.pwr.deepWait = none → s.pwr.idleTimer = none →
      (k = .power →
        answer = .next { captured with trn := { captured.trn with longPress := some (now + 12000000) } }) ∧
      (k = .light →
        answer = .next
          { captured with
            lgt := s.lgt.toggle
            lnk := { s.lnk with notices := s.lnk.notices ||| 0x8000#16 } }) ∧
      (((k = .forward ∧ s.trn.forwardRouting = .report) ∨ (k = .backward ∧ s.trn.backwardRouting = .report)) →
        answer = .next { captured with lnk := { s.lnk with notices := s.lnk.notices ||| 0x0004#16 } }) ∧
      (k = .forward → s.trn.forwardRouting = .turns → answer = .next captured.forwardTurn) ∧
      (k = .backward → s.trn.backwardRouting = .turns → answer = .next captured.backwardTurn)) ∧
    let restarted :=
      { captured with
        pwr := { s.pwr with idleTimer := s.pwr.idleTimer.map fun _ => now + s.pwr.deepIdle * 4000000 } }
    let reported :=
      if s.pwr.power = .deep then restarted.leaveDeep .doze .key
      else
        { restarted with
          pwr :=
            { restarted.pwr with
              pendingWake :=
                if s.pwr.deepWait = none then s.pwr.pendingWake else s.pwr.pendingWake.or (some .key) } }
    (k = .power →
      answer = .next { reported with trn := { reported.trn with longPress := some (reported.clock + 12000000) } }) ∧
    (k = .light →
      answer = .next
        (State.idleFollow
          { reported with
            lgt := if reported.pwr.cutoff = true then reported.lgt else reported.lgt.toggle
            lnk := { reported.lnk with notices := reported.lnk.notices ||| 0x8000#16 } })) ∧
    (k = .forward →
      (reported.trn.forwardRouting = .report →
        answer = .next { reported with lnk := { reported.lnk with notices := reported.lnk.notices ||| 0x0004#16 } }) ∧
      (reported.trn.forwardRouting = .turns → answer = .next reported.forwardTurn)) ∧
    (k = .backward →
      (reported.trn.backwardRouting = .report →
        answer = .next { reported with lnk := { reported.lnk with notices := reported.lnk.notices ||| 0x0004#16 } }) ∧
      (reported.trn.backwardRouting = .turns → answer = .next reported.backwardTurn))) ∧
  ∀ l : Lgt,
    (l.mode ≠ .off →
      l.toggle = { l with lastMode := l.mode, mode := .off, target := ⟨0, 0⟩, clamped := ⟨0, 0⟩ }) ∧
    (l.mode = .off →
      let inUse := match l.lastMode with
        | .off => 0
        | .manual => l.manual
        | .auto => l.auto
      let target := splitDuty inUse l.mix
      l.toggle =
        { l with mode := l.lastMode, firstSample := true, target := target, clamped := target.clampTo l.ceiling })

/-- R71: the debounce of a key at a change of its input.

R76: in the drain of a soft reset an accepted press moves the debounce and nothing else.

R71 and R74: an accepted release; of POWER with the long-press timer running it is a SHORT press. A long press raises
POWER_KEY at the timer's expiry. An expiry that is taken late finds the clock past its deadline (log entry 2, DESIGN
CHOICE). -/
def Obligations.KeyDebounceAndReleases : Prop :=
  (∀ (k : Key) (pressed : Bool) (s : State), s.live = true → (s.trn.keys.get k).input ≠ pressed →
     let r := s.trn.keys.get k
     let becomes (q : KeyRec) : Host.Outcome State Fault Refusal :=
       .next { s with trn := { s.trn with keys := s.trn.keys.set k q } }
     let answer := exec (.keyInputChange k pressed) s
     (r.debounce = .released → pressed = true →
       answer = becomes { r with input := true, debounce := .pressSettling, settle := some (s.clock + 80000) }) ∧
     (r.debounce = .pressSettling → pressed = false →
       answer = becomes { r with input := false, debounce := .released, settle := none }) ∧
     (r.debounce = .pressed → pressed = false →
       answer = becomes { r with input := false, debounce := .releaseSettling, settle := some (s.clock + 80000) }) ∧
     (r.debounce = .releaseSettling → pressed = true →
       answer = becomes { r with input := true, debounce := .pressed, settle := none })) ∧
  (∀ (k : Key) (d : Nat) (s : State), s.live = true → s.draining = true →
     (s.trn.keys.get k).debounce = .pressSettling → (s.trn.keys.get k).settle = some d →
     exec (.keyPress k) s = .next
       { s with
         clock := max s.clock d
         trn :=
           { s.trn with
             keys := s.trn.keys.set k { s.trn.keys.get k with debounce := .pressed, settle := none } } }) ∧
  (∀ (k : Key) (d : Nat) (s : State), s.live = true →
     let released (t : Trn) :=
       { t with keys := t.keys.set k { t.keys.get k with debounce := .released, settle := none } }
     ((s.trn.keys.get k).debounce = .releaseSettling → (s.trn.keys.get k).settle = some d →
       ((k ≠ .power ∨ s.trn.longPress = none) →
         exec (.keyRelease k) s = .next { s with clock := max s.clock d, trn := released s.trn }) ∧
       (k = .power → s.trn.longPress ≠ none →
         exec (.keyRelease k) s = .next
           { s with
             clock := max s.clock d
             trn := { released s.trn with longPress := none, powerDetail := .short }
             lnk := { s.lnk with notices := s.lnk.notices ||| 0x4000#16 } })) ∧
     (s.trn.longPress = some d →
       exec .powerLongPress s = .next
         { s with
           clock := max s.clock d
           trn := { s.trn with longPress := none, powerDetail := .long }
           lnk := { s.lnk with notices := s.lnk.notices ||| 0x4000#16 } }))

/-- R83 to R86: a served turn moves the places after its request's admission, and steps the cadence counter; a slot
pushed off a full list is dropped, a forward turn tests for RING_LOW (R89), and then the queue is examined.

R84, R86, R88: a turn from an empty list, or one whose submission is refused, leaves the places and only counts.

R83 and R84: what a turn submits: a full-panel request of origin TURN from the slot, FULL with the cadence obligation
where the cadence is not 0 and the counter has reached it, GRAY without it elsewhere. R89: RING_LOW is raised where the
forward list has become shorter than the low mark. R7: a dropped slot is FREE at once without a pin (its blocks join the
pool's end: log entry 4, DESIGN CHOICE), and RELEASING with one. -/
def Obligations.TurnsMoveThePlacesOrCount : Prop :=
  (∀ (front : Entry) (rest : List Entry) (r : Request) (s : State), s.judgeTurn front.slot = .ok r →
     let counter :=
       if s.trn.cadence ≠ 0 ∧ s.trn.cadence ≤ s.trn.cadenceCounter then 0 else min 32 (s.trn.cadenceCounter + 1)
     (s.trn.forward = front :: rest →
       s.forwardTurn =
         State.settle
           (State.ringLow
             (State.dropSlot
               { s.enterQueue r with
                 trn :=
                   { s.trn with
                     backward :=
                       match s.trn.current with
                       | some c => (c :: s.trn.backward).take 2
                       | none => s.trn.backward
                     forward := rest
                     current := some front
                     position := min 32767 (s.trn.position + 1)
                     served := (s.trn.served + 1) % 65536
                     lastUpdate := some r.number
                     cadenceCounter := counter } }
               (if s.trn.current.isSome ∧ 2 ≤ s.trn.backward.length then s.trn.backward.getLast?.map Entry.slot
               else none)))
           true) ∧
     (s.trn.backward = front :: rest →
       s.backwardTurn =
         State.settle
           (State.dropSlot
             { s.enterQueue r with
               trn :=
                 { s.trn with
                   forward :=
                     match s.trn.current with
                     | some c => (c :: s.trn.forward).take 4
                     | none => s.trn.forward
                   backward := rest
                   current := some front
                   position := max (-32768) (s.trn.position - 1)
                   served := (s.trn.served + 1) % 65536
                   lastUpdate := some r.number
                   cadenceCounter := counter } }
             (if s.trn.current.isSome ∧ 4 ≤ s.trn.forward.length then s.trn.forward.getLast?.map Entry.slot
             else none))
           true)) ∧
  (∀ s : State,
     let unserved (k : Key) (why : Unserved) : State :=
       { s with
         trn :=
           { s.trn with
             unserved := (s.trn.unserved + 1) % 65536
             lastUnserved := some ⟨k, why, s.clock / 4000 % 4294967296⟩ }
         lnk := { s.lnk with notices := s.lnk.notices ||| 0x0002#16 } }
     (s.trn.forward = [] → s.forwardTurn = unserved .forward .empty) ∧
     (s.trn.backward = [] → s.backwardTurn = unserved .backward .empty) ∧
     ∀ front rest e why, s.judgeTurn front.slot = .error e →
       ((e = .noWaveform ∧ why = .noWaveform) ∨ (e = .powerDown ∧ why = .powerDown) ∨
         (e = .queueFull ∧ why = .queueFull)) →
       (s.trn.forward = front :: rest → s.forwardTurn = unserved .forward why) ∧
       (s.trn.backward = front :: rest → s.backwardTurn = unserved .backward why)) ∧
  ∀ (i : Fin 16) (s : State),
     let due := s.trn.cadence ≠ 0 ∧ s.trn.cadence ≤ s.trn.cadenceCounter
     s.judgeTurn i =
         s.judgeSubmission
           { origin := .turn
             slot := some i
             mode := some (if due then .full else .gray)
             forced := some none
             notify := some false
             x := 0
             y := 0
             w := 1280
             h := 1600
             sx := 0
             sy := 0
             cadence := decide due } ∧
       (∀ r, s.judgeTurn i = .ok r →
         r =
           { number := s.upd.nextNumber
             serial := s.upd.nextSerial
             origin := .turn
             slot := i
             sx := 0
             sy := 0
             rect := ⟨0, 0, 1280, 1600⟩
             mode := if due then .full else .gray
             forced := none
             notify := false
             cadence := decide due }) ∧
       s.ringLow =
         (if s.trn.forward.length < s.trn.lowMark then
           { s with lnk := { s.lnk with notices := s.lnk.notices ||| 0x0008#16 } }
         else s) ∧
       s.dropSlot none = s ∧
       s.dropSlot (some i) =
         { s with
           mem :=
             if s.mem.slots[i].pins = 0 then
               { s.mem with pool := s.mem.pool ++ s.mem.slots[i].blocks, slots := s.mem.slots.set i {} }
             else { s.mem with slots := s.mem.slots.set i { s.mem.slots[i] with state := .releasing } } }

/-- R79 to R81: test 1 of the three messages, a slot id outside 0..15 or an unknown list.

R79: Turn Push's tests 2 to 5 in order; a slot that passes becomes TURN-owned with its tag and joins the list's tail.

R80: Turn Withdraw takes the slot's entry out of its list and makes the slot HOST-owned.

R81: Turn Sync with none named, with the current slot named again, and with another slot that passes its tests: what
becomes current, and what was current becomes HOST-owned without its page tag; the position becomes 0. Its refusals, in
order. -/
def Obligations.TurnPushWithdrawAndSync : Prop :=
  (∀ (tag slot list : Byte) (pageTag : U32) (s : State), s.linkOpen →
     ((15 < slot.toNat ∨ 1 < list.toNat) →
       exec (.turnPush tag slot list pageTag) s = .next (s.refusedBy 0x40#8 tag .badParam)) ∧
     (15 < slot.toNat →
       exec (.turnWithdraw tag slot) s = .next (s.refusedBy 0x41#8 tag .badParam) ∧
       (slot ≠ 0xFF#8 → exec (.turnSync tag slot pageTag) s = .next (s.refusedBy 0x42#8 tag .badParam)))) ∧
  (∀ (tag list : Byte) (i : Fin 16) (l : TurnList) (pageTag : U32) (s : State), s.linkOpen → turnListOf list = some l →
     let x := s.mem.slots[i]
     let es := s.trn.list l
     let limit := if l = .forward then 4 else 2
     let answer := exec (.turnPush tag (slotByte i) list pageTag) s
     (x.state = .releasing → answer = .next (s.refusedBy 0x40#8 tag .slotBusy)) ∧
     (x.state ≠ .releasing → (x.state ≠ .ready ∨ x.owner ≠ .host) →
       answer = .next (s.refusedBy 0x40#8 tag .slotState)) ∧
     (x.state = .ready → x.owner = .host → (x.width ≠ 1280 ∨ x.height ≠ 1600) →
       answer = .next (s.refusedBy 0x40#8 tag .notFullPanel)) ∧
     (x.state = .ready → x.owner = .host → x.width = 1280 → x.height = 1600 → limit ≤ es.length →
       answer = .next (s.refusedBy 0x40#8 tag .listFull)) ∧
     (x.state = .ready → x.owner = .host → x.width = 1280 → x.height = 1600 → es.length < limit →
       answer = .next
         { s with
           mem := { s.mem with slots := s.mem.slots.set i { x with owner := .turn, tag := some pageTag } }
           trn := s.trn.setList l (es ++ [⟨i, pageTag⟩])
           lnk := s.replied 0x40#8 tag .ok [BitVec.ofNat 8 (es.length + 1)] })) ∧
  (∀ (tag : Byte) (i : Fin 16) (s : State), s.linkOpen →
     let answer := exec (.turnWithdraw tag (slotByte i)) s
     (s.mem.slots[i].state = .releasing → answer = .next (s.refusedBy 0x41#8 tag .slotBusy)) ∧
     (s.mem.slots[i].state ≠ .releasing → s.trn.listed i = none →
       answer = .next (s.refusedBy 0x41#8 tag .slotState)) ∧
     (s.mem.slots[i].state ≠ .releasing → ∀ l e, s.trn.listed i = some (l, e) →
       answer = .next
         { s with
           mem := { s.mem with slots := s.mem.slots.set i { s.mem.slots[i] with owner := .host, tag := none } }
           trn := s.trn.setList l ((s.trn.list l).filter fun e => e.slot ≠ i)
           lnk := s.replied 0x41#8 tag .ok ([if l = .forward then 0#8 else 1#8] ++ le32 e.tag) })) ∧
  ∀ (tag : Byte) (pageTag : U32) (s : State), s.linkOpen →
     let given (slots : Vector Slot 16) : Vector Slot 16 :=
       match s.trn.current with
       | some e => slots.set e.slot { slots[e.slot] with owner := .host, tag := none }
       | none => slots
     let synced (slots : Vector Slot 16) (c : Option Entry) : Host.Outcome State Fault Refusal :=
       .next
         { s with
           mem := { s.mem with slots := slots }
           trn := { s.trn with current := c, position := 0 }
           lnk := s.replied 0x42#8 tag .ok [] }
     exec (.turnSync tag 0xFF#8 pageTag) s = synced (given s.mem.slots) none ∧
     ∀ i : Fin 16,
       let x := s.mem.slots[i]
       let answer := exec (.turnSync tag (slotByte i) pageTag) s
       (x.state = .releasing → answer = .next (s.refusedBy 0x42#8 tag .slotBusy)) ∧
       (x.state ≠ .releasing → (∃ e, s.trn.current = some e ∧ e.slot = i) →
         answer = synced (s.mem.slots.set i { x with owner := .turn, tag := some pageTag }) (some ⟨i, pageTag⟩)) ∧
       ((∀ e, s.trn.current = some e → e.slot ≠ i) →
         (x.state ≠ .releasing → (x.state ≠ .ready ∨ x.owner ≠ .host) →
           answer = .next (s.refusedBy 0x42#8 tag .slotState)) ∧
         (x.state = .ready → x.owner = .host → (x.width ≠ 1280 ∨ x.height ≠ 1600) →
           answer = .next (s.refusedBy 0x42#8 tag .notFullPanel)) ∧
         (x.state = .ready → x.owner = .host → x.width = 1280 → x.height = 1600 →
           answer =
             synced ((given s.mem.slots).set i { x with owner := .turn, tag := some pageTag })
               (some ⟨i, pageTag⟩)))

/-- R82 and R73: Turn Settings stores its four values or none; Key Status answers the captures and clears their flags.
-/
def Obligations.TurnSettingsAndKeyStatus : Prop :=
  ∀ (tag k low f b : Byte) (s : State), s.linkOpen →
    (∀ rf rb, routingOf f = some rf → routingOf b = some rb → k.toNat ≤ 32 → low.toNat ≤ 4 →
      exec (.turnSettings tag k low f b) s = .next
        { s with
          trn :=
            { s.trn with
              cadence := k.toNat
              lowMark := low.toNat
              forwardRouting := rf
              backwardRouting := rb }
          lnk := s.replied 0x43#8 tag .ok [] }) ∧
    ((32 < k.toNat ∨ 4 < low.toNat ∨ 1 < f.toNat ∨ 1 < b.toNat) →
      exec (.turnSettings tag k low f b) s = .next (s.refusedBy 0x43#8 tag .badParam)) ∧
    exec (.keyStatus tag) s = .next
      { s with
        trn := { s.trn with keys := s.trn.keys.map fun r => { r with unread := false, overwritten := false } }
        lnk := s.replied 0x45#8 tag .ok s.trn.keyRecord }

/-! ### Sensor converter (chapter 5) -/

/-- R93, R98: where the converter is powered and free, the arbiter starts AMBIENT first, then PANEL_TEMP, then BATTERY;
a conversion takes 14 µs, and 18 µs where its channel differs from the last. R95, R96: a conversion that ends writes its
channel's record, takes its request out of the set and frees the converter; the result is handed to its users
(`Lgt.sample`, `State.handTemperature`, `State.handBattery`) and the arbiter acts. R120 to R122: an AMBIENT result that
LGT takes counts, ends the run of skips and the stale flag, moves the filter by a quarter of the difference, truncated
toward zero, or to the sample where it is the first, and gives the auto brightness of the filtered lux, which in AUTO
the targets follow. A PANEL_TEMP count of 0 or 4095 keeps the derived value, the sample time and the valid flag, and
raises SENSOR_FAULT when the fault flag becomes set.

The model's choices (DESIGN CHOICE): CONVERSION_START is a row of its own (log entry 5), and an end that is taken late
finds the clock past its time (log entry 2). -/
def Obligations.ConversionsStartAndEnd : Prop :=
  (∀ s : State, s.live = true → s.sns.powered = true → s.sns.converting = none →
    let starts (c : Channel) : Host.Outcome State Fault Refusal :=
      .next
        { s with
          sns :=
            { s.sns with
              converting := some (c, s.clock + if s.sns.lastChannel = some c then 56 else 72)
              lastChannel := some c } }
    let q := s.sns.requests
    (q.ambient = true → exec .conversionStart s = starts .ambient) ∧
    (q.ambient = false → q.panelTemp = true → exec .conversionStart s = starts .panelTemp) ∧
    (q.ambient = false → q.panelTemp = false → q.battery = true → exec .conversionStart s = starts .battery) ∧
    (q.ambient = false → q.panelTemp = false → q.battery = false → exec .conversionStart s = .next s)) ∧
  ∀ (count : Count) (e : Nat) (s : State),
    let now := max s.clock e
    let ms := now / 4000 % 4294967296
    let good (derived : Int) : Result :=
      { raw := count.toNat, derived := derived, sampleTime := ms, valid := true, fault := false }
    let arbitrated (t : State) : Host.Outcome State Fault Refusal :=
      .next { t with sns := t.sns.arbitrate t.clock }
    let old := s.sns.records.panelTemp
    let bad := { s.sns.records with panelTemp := { old with raw := count.toNat, fault := true } }
    let faulted :=
      { s with
        clock := now
        sns :=
          { s.sns with
            records := bad
            requests := { s.sns.requests with panelTemp := false }
            converting := none } }
    (s.sns.converting = some (.ambient, e) →
      exec (.conversionEnd count) s =
        arbitrated
          { s with
            clock := now
            sns :=
              { s.sns with
                records := { s.sns.records with ambient := good (2 * count.toNat : Nat) }
                requests := { s.sns.requests with ambient := false }
                ambientLatest := none
                converting := none }
            lgt := s.lgt.sample count.toNat }) ∧
    (s.sns.converting = some (.battery, e) →
      exec (.conversionEnd count) s =
        arbitrated
          (State.handBattery
            { s with
              clock := now
              sns :=
                { s.sns with
                  records := { s.sns.records with battery := good (count.toNat * 5000 / 4096 : Nat) }
                  requests := { s.sns.requests with battery := false }
                  converting := none } })) ∧
    (s.sns.converting = some (.panelTemp, e) → 1 ≤ count.toNat → count.toNat ≤ 4094 →
      exec (.conversionEnd count) s =
        arbitrated
          (State.handTemperature
            { s with
              clock := now
              sns :=
                { s.sns with
                  records :=
                    { s.sns.records with
                      panelTemp := good (((count.toNat * 1000 / 4096 : Nat) : Int) - 250) }
                  requests := { s.sns.requests with panelTemp := false }
                  converting := none } })) ∧
    (s.sns.converting = some (.panelTemp, e) → (count.toNat = 0 ∨ count.toNat = 4095) →
      (old.fault = true →
        exec (.conversionEnd count) s = arbitrated (State.handTemperature faulted)) ∧
      (old.fault = false →
        exec (.conversionEnd count) s =
          arbitrated
            (State.handTemperature
              { faulted with lnk := { s.lnk with notices := s.lnk.notices ||| 0x1000#16 } }))) ∧
    ∀ (raw : Nat) (l : Lgt),
      let sampled (a : Nat) : Lgt :=
        { l with
          filtered := some a
          firstSample := false
          taken := (l.taken + 1) % 65536
          skipRun := 0
          stale := false
          auto := l.curve.at_ (2 * a) }
      let follows (a : Nat) : Lgt :=
        if l.mode = .auto then
          let target := splitDuty (l.curve.at_ (2 * a)) l.mix
          { sampled a with target := target, clamped := target.clampTo l.ceiling }
        else sampled a
      ((l.filtered = none ∨ l.firstSample = true) → l.sample raw = follows raw) ∧
      ∀ a, l.filtered = some a → l.firstSample = false →
        (a ≤ raw → l.sample raw = follows (a + (raw - a) / 4)) ∧
        (raw < a → l.sample raw = follows (a - (a - raw) / 4))

/-- R99 and R120: an AMBIENT request missed at its latest start leaves the set, and SNS's miss count and LGT's
consecutive-skip count rise. R100 and R103: a timer's expiry starts the timer again and its request joins the set, or
merges into the one there; in DEEP it powers the converter. R101 and R104: the two messages. An expiry that is taken
late finds the clock past its deadline, and starts its timer from there (log entry 2, DESIGN CHOICE). -/
def Obligations.SensorTimersAndMessages : Prop :=
  ∀ (d : Nat) (s : State),
    let now := max s.clock d
    (s.sns.ambientLatest = some d → s.sns.requests.ambient = true →
      (∀ e, s.sns.converting ≠ some (.ambient, e)) →
      exec .ambientMiss s = .next
        { s with
          clock := now
          sns :=
            { s.sns with
              requests := { s.sns.requests with ambient := false }
              ambientLatest := none
              missCount := (s.sns.missCount + 1) % 65536 }
          lgt :=
            { s.lgt with
              skipRun := min 255 (s.lgt.skipRun + 1)
              stale := s.lgt.stale || decide (8 ≤ min 255 (s.lgt.skipRun + 1)) } }) ∧
    (s.sns.panelTimer = some d →
      exec .panelTempTimerExpiry s = .next
        { s with
          clock := now
          sns :=
            Sns.arbitrate
              { s.sns with
                panelTimer := some (now + s.sns.period * 4000000)
                requests := { s.sns.requests with panelTemp := true } }
              now }) ∧
    (s.sns.batteryTimer = some d →
      exec .batteryTimerExpiry s = .next
        { s with
          clock := now
          sns :=
            Sns.arbitrate
              { s.sns with
                powered := true
                batteryTimer := if s.pwr.power = .deep then none else some (now + 4000000)
                requests := { s.sns.requests with battery := true } }
              now }) ∧
    (s.linkOpen → ∀ tag fresh : Byte,
      let asked :=
        { s with
          sns := Sns.arbitrate { s.sns with requests := { s.sns.requests with panelTemp := true } } s.clock }
      (fresh = 0#8 →
        exec (.readSensors tag fresh) s = .next { s with lnk := s.replied 0x50#8 tag .ok s.sensorRecord }) ∧
      (fresh = 1#8 →
        exec (.readSensors tag fresh) s = .next { asked with lnk := s.replied 0x50#8 tag .ok asked.sensorRecord }) ∧
      (1 < fresh.toNat → exec (.readSensors tag fresh) s = .next (s.refusedBy 0x50#8 tag .badParam))) ∧
    (s.linkOpen → ∀ tag period : Byte,
      (period ≠ 0#8 →
        exec (.sensorSettings tag period) s = .next
          { s with
            sns := { s.sns with period := period.toNat, panelTimer := some (s.clock + period.toNat * 4000000) }
            lnk := s.replied 0x51#8 tag .ok [] }) ∧
      (period = 0#8 → exec (.sensorSettings tag period) s = .next (s.refusedBy 0x51#8 tag .badParam)))

/-! ### Front light (chapter 6) -/

/-- R110: a period boundary takes the ramp step that is due, latches the pending duties and, at period index 0 with the
light on, judges an ambient opportunity (R119). RAMP_TICK takes the boundary's step 1 ahead of it, once (the model's
division of the event: log entry 5), and AMBIENT_OPPORTUNITY is the boundary where one falls. R119 by its cases, in
order; a decided placement's request joins SNS's set at its count. A boundary or a placement that is taken late finds
the clock past its time (log entry 2, DESIGN CHOICE). -/
def Obligations.PeriodBoundaryRampsLatchesAndSamples : Prop :=
  (∀ (b : Nat) (s : State), s.lgt.nextBoundary = some b →
    let l := s.lgt
    let index := (l.index + 1) % 64
    let stepped : Duty :=
      ⟨rampToward l.pending.warm l.clamped.warm l.step, rampToward l.pending.cool l.clamped.cool l.step⟩
    let duties := if index % 8 = 0 ∧ l.rampTaken = false then stepped else l.pending
    let after : Lgt :=
      { l with pending := duties, rampTaken := false, latched := duties, index := index, nextBoundary := some (b + 1000) }
    let boundary : Host.Outcome State Fault Refusal :=
      .next
        { s with
          clock := max s.clock b
          lgt := if index = 0 ∧ l.mode ≠ .off then after.opportunity s.upd.scanning b else after }
    exec .periodBoundary s = boundary ∧
    (index = 0 → l.mode ≠ .off → exec .ambientOpportunity s = boundary) ∧
    ((l.index + 1) % 8 = 0 → l.rampTaken = false →
      exec .rampTick s = .next { s with clock := max s.clock b, lgt := { l with pending := stepped, rampTaken := true } })) ∧
  (∀ (l : Lgt) (start : Nat),
    let skipped : Lgt :=
      { l with
        skipRun := min 255 (l.skipRun + 1)
        stale := l.stale || decide (8 ≤ min 255 (l.skipRun + 1))
        skipped := (l.skipped + 1) % 65536 }
    let d := max l.latched.warm l.latched.cool
    l.opportunity true start = skipped ∧
    (0 < l.holdoff → l.opportunity false start = { skipped with holdoff := l.holdoff - 1 }) ∧
    (l.holdoff = 0 → 908 < d → l.opportunity false start = skipped) ∧
    (l.holdoff = 0 → d ≤ 908 →
      l.opportunity false start = { l with decided := some ⟨start + (d + 20), start + 928⟩ })) ∧
  ∀ (p : Placement) (s : State), s.lgt.decided = some p →
    exec .ambientRequest s = .next
      { s with
        clock := max s.clock p.placeAt
        lgt := { s.lgt with decided := none }
        sns := s.sns.requestAmbient p.latest (max s.clock p.placeAt) }

/-- R111 and R112: the targets add up to the brightness, halves rounded up on WARM; the clamped targets are the targets
where their sum fits the ceiling, and otherwise the two floors, whose sum is the ceiling or one less. R114: a ramp step
brings each pending duty nearer its clamped target by the step, or by the difference where that is smaller, and never
carries the sum above the larger of its previous sum and the clamped targets' sum.

R109: each line is driven on from count 0 of the PWM counter to its channel's latched duty: a duty of 1000 keeps it on
for the whole period, one of 0 off. While the counter is stopped, and wherever nothing is driven, both are off. -/
def Obligations.DutiesAreClampedAndRamped : Prop :=
  (∀ b m : Nat, b ≤ 1000 → m ≤ 100 →
    (splitDuty b m).warm = (b * m + 50) / 100 ∧ (splitDuty b m).sum = b) ∧
  (∀ (d : Duty) (c : Nat),
    (d.clampTo c).sum ≤ c ∧
    (d.warm + d.cool ≤ c → d.clampTo c = d) ∧
    (c < d.warm + d.cool →
      d.clampTo c = ⟨d.warm * c / (d.warm + d.cool), d.cool * c / (d.warm + d.cool)⟩ ∧ c ≤ (d.clampTo c).sum + 1)) ∧
  (∀ s : State,
    (∀ b count, s.live = true → s.lgt.nextBoundary = some b → count < 1000 → s.clock % 1000 = (b + count) % 1000 →
      (s.ledw = true ↔ count < s.lgt.latched.warm) ∧ (s.ledc = true ↔ count < s.lgt.latched.cool)) ∧
    ((s.live = false ∨ s.lgt.nextBoundary = none) → s.ledw = false ∧ s.ledc = false)) ∧
  ∀ l : Lgt,
    (∀ duty target : Nat,
      (duty ≤ target → rampToward duty target l.step = min target (duty + l.step)) ∧
      (target ≤ duty → rampToward duty target l.step = max target (duty - l.step))) ∧
    l.ramp.pending =
      ⟨rampToward l.pending.warm l.clamped.warm l.step, rampToward l.pending.cool l.clamped.cool l.step⟩ ∧
    l.ramp.pending.sum ≤ max l.pending.sum l.clamped.sum

/-- R115 and R117: Light Set, Light Curve and Light Ramp. After a Light Set the targets and the clamped targets are
those of the brightness now in use (R111, R112), and the reply carries them. R122: the auto brightness of a lux by the
curve's four points, on a segment rounded toward minus infinity. -/
def Obligations.LightMessagesSetOrRefuse : Prop :=
  ∀ (tag : Byte) (s : State), s.linkOpen →
    (∀ (mode mix : Byte) (brightness : U16),
      let answer := exec (.lightSet tag mode brightness mix) s
      ((2 < mode.toNat ∨ 1000 < brightness.toNat ∨ 100 < mix.toNat) →
        answer = .next (s.refusedBy 0x60#8 tag .badParam)) ∧
      (mode.toNat ≤ 2 → brightness.toNat ≤ 1000 → mix.toNat ≤ 100 → s.pwr.cutoff = true →
        answer = .next (s.refusedBy 0x60#8 tag .powerDown)) ∧
      ∀ md, lightModeOf mode = some md → brightness.toNat ≤ 1000 → mix.toNat ≤ 100 → s.pwr.cutoff = false →
        let inUse := match md with
          | .off => 0
          | .manual => brightness.toNat
          | .auto => s.lgt.auto
        let target := splitDuty inUse mix.toNat
        let clamped := target.clampTo s.lgt.ceiling
        answer = .next
          { s with
            lgt :=
              { s.lgt with
                manual := brightness.toNat
                mix := mix.toNat
                mode := md
                lastMode := if md = .off then s.lgt.lastMode else md
                firstSample := s.lgt.firstSample || decide (md ≠ .off ∧ s.lgt.mode = .off)
                target := target
                clamped := clamped }
            lnk :=
              s.replied 0x60#8 tag .ok
                (mode :: (le16 (BitVec.ofNat 16 target.warm) ++ le16 (BitVec.ofNat 16 target.cool) ++
                  (le16 (BitVec.ofNat 16 clamped.warm) ++ le16 (BitVec.ofNat 16 clamped.cool)))) }) ∧
    (∀ lux0 b0 lux1 b1 lux2 b2 lux3 b3 : U16,
      let answer := exec (.lightCurve tag lux0 b0 lux1 b1 lux2 b2 lux3 b3) s
      let c : Curve :=
        ⟨⟨lux0.toNat, b0.toNat⟩, ⟨lux1.toNat, b1.toNat⟩, ⟨lux2.toNat, b2.toNat⟩, ⟨lux3.toNat, b3.toNat⟩⟩
      let ascending := lux0.toNat < lux1.toNat ∧ lux1.toNat < lux2.toNat ∧ lux2.toNat < lux3.toNat
      let fits := lux3.toNat ≤ 8190 ∧ b0.toNat ≤ 1000 ∧ b1.toNat ≤ 1000 ∧ b2.toNat ≤ 1000 ∧ b3.toNat ≤ 1000
      (¬(ascending ∧ fits) → answer = .next (s.refusedBy 0x61#8 tag .badParam)) ∧
      (ascending → fits → (s.lgt.filtered = none ∨ s.lgt.stale = true) →
        answer = .next { s with lgt := { s.lgt with curve := c }, lnk := s.replied 0x61#8 tag .ok [] }) ∧
      (ascending → fits → ∀ a, s.lgt.filtered = some a → s.lgt.stale = false →
        let l : Lgt := { s.lgt with curve := c, auto := c.at_ (2 * a) }
        answer = .next
          { s with
            lgt := if s.lgt.mode = .auto then l.retarget else l
            lnk := s.replied 0x61#8 tag .ok [] })) ∧
    ∀ step : Byte,
      (1 ≤ step.toNat → step.toNat ≤ 100 →
        exec (.lightRamp tag step) s = .next
          { s with lgt := { s.lgt with step := step.toNat }, lnk := s.replied 0x62#8 tag .ok [] }) ∧
      ((step.toNat = 0 ∨ 100 < step.toNat) →
        exec (.lightRamp tag step) s = .next (s.refusedBy 0x62#8 tag .badParam)) ∧
      ∀ (c : Curve) (lux : Nat), c.p0.lux < c.p1.lux → c.p1.lux < c.p2.lux → c.p2.lux < c.p3.lux →
        (lux < c.p0.lux → c.at_ lux = c.p0.b) ∧
        (c.p3.lux ≤ lux → c.at_ lux = c.p3.b) ∧
        ∀ p q : Point, ((p = c.p0 ∧ q = c.p1) ∨ (p = c.p1 ∧ q = c.p2) ∨ (p = c.p2 ∧ q = c.p3)) →
          p.lux ≤ lux → lux < q.lux →
          (p.b ≤ q.b → c.at_ lux = p.b + (lux - p.lux) * (q.b - p.b) / (q.lux - p.lux)) ∧
          (q.b < p.b → c.at_ lux = p.b - ((lux - p.lux) * (p.b - q.b) + (q.lux - p.lux - 1)) / (q.lux - p.lux))

/-! ### Radio link and download spooler (chapter 7) -/

/-- R127: the CRC register starts at 0xFFFF; each byte is combined by exclusive-or into its upper 8 bits, and then it is
shifted left eight times, a 1 that is shifted out combining 0x1021 into it. A STATUS frame carries the final register,
low byte first, computed from its kind byte on; a DATA or ABORT frame is taken only where its check agrees, and is
otherwise discarded as a receive fault (R129). A STATUS frame's 14 bytes are laid out by 11.9 and R204: the marker, the
kind, the id, the lowest missing index, the last segment index, the result's code and the CRC. The nine bytes of
"123456789" give 0x29B1, carried as 0xB1 and 0x29. -/
def Obligations.RadioFramesCarryTheCrc : Prop :=
  let shift (r : U16) : U16 := if r.msb then (r <<< 1) ^^^ 0x1021#16 else r <<< 1
  crc [] = 0xFFFF#16 ∧
    (∀ (bytes : List Byte) (b : Byte),
      crc (bytes ++ [b]) =
        shift (shift (shift (shift (shift (shift (shift (shift (crc bytes ^^^ (b ++ 0#8)))))))))) ∧
    le16 (crc [0x31#8, 0x32#8, 0x33#8, 0x34#8, 0x35#8, 0x36#8, 0x37#8, 0x38#8, 0x39#8]) = [0xB1#8, 0x29#8] ∧
    (∀ e : StatusEntry,
      let result : Byte :=
        match e.result with
        | .accepted => 0#8
        | .duplicate => 1#8
        | .badRange => 2#8
        | .outOfWindow => 3#8
        | .gapLimit => 4#8
        | .refused => 5#8
        | .overrun => 6#8
        | .held => 7#8
        | .aborted => 8#8
      let check := crc ([3#8, e.id] ++ le32 (BitVec.ofNat 32 e.lowest) ++ le32 (BitVec.ofNat 32 e.last) ++ [result])
      e.bytes.length = 14 ∧ e.bytes[0]? = some 0xA5#8 ∧ e.bytes[1]? = some 3#8 ∧ e.bytes[2]? = some e.id ∧
        (e.bytes.drop 3).take 4 = le32 (BitVec.ofNat 32 e.lowest) ∧
        (e.bytes.drop 7).take 4 = le32 (BitVec.ofNat 32 e.last) ∧ e.bytes[11]? = some result ∧
        e.bytes.drop 12 = le16 check) ∧
    ∀ (id : Byte) (index : U32) (payload : List Byte) (check : U16) (s : State), s.radioEn = true →
      s.rad.inFrame = true → payload.length ≤ 2048 →
      let covered (kind : Byte) := [kind, id] ++ le32 index ++ le16 (BitVec.ofNat 16 payload.length) ++ payload
      (check ≠ crc (covered 0x01#8) →
        exec (.dataFrame id index payload check) s = exec (.receiveFault .crcMismatch (some id)) s) ∧
      (check ≠ crc (covered 0x02#8) →
        exec (.abortFrame id index payload check) s = exec (.receiveFault .crcMismatch (some id)) s)

/-- R128, R129, R132: a marker claims an EMPTY assembly buffer; a receive fault or a gap discards the frame in assembly
and counts against its record; the idle transmitter takes the head entry; a status replaces its id's entry in place,
joins the tail, or takes the place of the oldest entry whose id names no record.

R132 and R204: a status, `State.status`, joins the queue with its record's lowest missing index, 0 where no record has
the id, and an idle transmitter takes the head at once, while RADIO_EN is asserted.

R126: RADIO_EN is asserted in ACTIVE and DOZE, the cutoff sequence included, and deasserted in DEEP and in CUTOFF, and
without supply and under RESET (R185).

The model's choices (DESIGN CHOICE, log entry 19): where both buffers are EMPTY the marker claims buffer A, and a full
queue that R132's cases do not cover is left as it is. GAP leaves the clock as it stands (log entry 2, DESIGN CHOICE).
-/
def Obligations.RadioFramesStartFaultAndReport : Prop :=
  (∀ s : State, s.radioEn = true ↔ s.supply = .on ∧ (s.pwr.power = .active ∨ s.pwr.power = .doze)) ∧
  (∀ s : State, s.radioEn = true →
    (s.rad.inFrame = false → s.rad.bufA = .empty →
      exec .frameStart s = .next { s with rad := { s.rad with bufA := .assembling } }) ∧
    (s.rad.inFrame = false → s.rad.bufA ≠ .empty → s.rad.bufB = .empty →
      exec .frameStart s = .next { s with rad := { s.rad with bufB := .assembling } }) ∧
    (s.rad.inFrame = true →
      let freed : Rad :=
        if s.rad.bufA = .assembling then { s.rad with bufA := .empty } else { s.rad with bufB := .empty }
      let counted (i : Byte) : Spl :=
        { s.spl with
          table :=
            s.spl.table.map fun d => if d.id = i then { d with discards := (d.discards + 1) % 65536 } else d }
      ∀ f : RxFault,
        exec (.receiveFault f none) s = .next (State.afterRadio s.spl { s with rad := freed }) ∧
        exec (.gap none) s = .next (State.afterRadio s.spl { s with rad := freed }) ∧
        ∀ i : Byte,
          exec (.receiveFault f (some i)) s = .next (State.afterRadio s.spl { s with rad := freed, spl := counted i }) ∧
          exec (.gap (some i)) s = .next (State.afterRadio s.spl { s with rad := freed, spl := counted i })) ∧
    (∀ e rest, s.rad.queue = e :: rest →
      let sent : Host.Outcome State Fault Refusal :=
        .next { s with rad := { s.rad with sending := some e.bytes, queue := rest } }
      (s.rad.sending = none → exec .statusTransmit s = sent) ∧
      (∀ f, s.rad.sending = some f → exec .statusFrameSent s = sent)) ∧
    (∀ f, s.rad.sending = some f → s.rad.queue = [] →
      exec .statusFrameSent s = .next { s with rad := { s.rad with sending := none } })) ∧
  (∀ (id : Byte) (index : Nat) (result : SegResult) (s : State),
    let lowest := ((s.spl.find id).map Download.lowest).getD 0
    let queue := enqueueStatus (fun i => (s.spl.find i).isSome) s.rad.queue ⟨id, lowest, index, result⟩
    (∀ e rest, s.radioEn = true → s.rad.sending = none → queue = e :: rest →
      s.status id index result = { s with rad := { s.rad with sending := some e.bytes, queue := rest } }) ∧
    ((s.radioEn = false ∨ s.rad.sending ≠ none) →
      s.status id index result = { s with rad := { s.rad with queue := queue } })) ∧
  ∀ (known : Byte → Bool) (queue : List StatusEntry) (e : StatusEntry),
    ((∃ q ∈ queue, q.id = e.id) →
      enqueueStatus known queue e = queue.map fun q => if q.id = e.id then e else q) ∧
    ((∀ q ∈ queue, q.id ≠ e.id) → queue.length < 4 → enqueueStatus known queue e = queue ++ [e]) ∧
    ((∀ q ∈ queue, q.id ≠ e.id) → 4 ≤ queue.length → known e.id = true →
      ∀ pre q post, queue = pre ++ q :: post → (∀ x ∈ pre, known x.id = true) → known q.id = false →
        enqueueStatus known queue e = pre ++ post ++ [e]) ∧
    ((∀ q ∈ queue, q.id ≠ e.id) → 4 ≤ queue.length → (known e.id = false ∨ ∀ q ∈ queue, known q.id = true) →
      enqueueStatus known queue e = queue)

/-- R130 and R140 to R143: a complete DATA frame by the gate and the tests of acceptance, in order, and an ABORT frame
by the state of the record it names. Every outcome but waiting produces a STATUS; an accepted segment is copied into a
staging block, joins the runs and restarts the stall timer.

R140 and R142: a WAITING segment that is examined again is judged by the same tests, of which the load gate's decides
HELD; until it is given an outcome, nothing changes. It is examined where staging blocks became free, a record left
RECEIVING, was removed, had its runs trimmed or its lowest page changed, at a change of the gate's holder, and at the
end of every operation of the spooler (R146); not in the drain of a soft reset (R151).

R135 and R141: a segment of the lowest page has room where a staging block is free, another where more are free than the
reserve, the missing segments of the lowest pages of all RECEIVING records. R141 and R147: what joins the runs is the
index and nothing else; the stall timer restarts, and with the last missing segment the record becomes DRAINING and its
timer stops.

R143 and R149: an ABORT trims the runs to the committed pages and the page in program, and withdraws a pending request
of the record. In the drain of a soft reset (R151) a good frame only frees its buffer; that its record's discard count
stays is log entry 20's choice, and so is that an event of R142 has a WAITING segment examined before the gate changes
its holder in the same event (R144, R171) (DESIGN CHOICE). Which free staging block `Spl.freeBlock` names is log entry
4's choice (DESIGN CHOICE). -/
def Obligations.SegmentsAreJudgedInOrder : Prop :=
  (∀ (id : Byte) (index : U32) (payload : List Byte) (s : State), s.radioEn = true → s.rad.inFrame = true →
    payload.length ≤ 2048 → s.draining = false →
    let covered (kind : Byte) := [kind, id] ++ le32 index ++ le16 (BitVec.ofNat 16 payload.length) ++ payload
    let n := index.toNat
    let becomes (b : Buffer) : State :=
      { s with
        rad := if s.rad.bufA = .assembling then { s.rad with bufA := b } else { s.rad with bufB := b } }
    let free := becomes .empty
    let discarded : State :=
      { free with
        spl :=
          { s.spl with
            table :=
              s.spl.table.map fun d => if d.id = id then { d with discards := (d.discards + 1) % 65536 } else d } }
    let abort := exec (.abortFrame id index payload (crc (covered 0x02#8))) s
    let data := exec (.dataFrame id index payload (crc (covered 0x01#8))) s
    let told (t : State) (r : SegResult) : Host.Outcome State Fault Refusal :=
      .next (State.afterRadio s.spl (t.status id n r))
    let admitted := s.pwr.level = .normal ∨ s.pwr.gate.holder = .radio
    let programs : Bool :=
      match s.sto.op with
      | some o => decide (o.requester = .spooler ∧ o.download = id ∧ o.kind = .program)
      | none => false
    let withdrawn : Sto :=
      match s.sto.pending.spooler with
      | some q => if q.download = id then { s.sto with pending := { s.sto.pending with spooler := none } } else s.sto
      | none => s.sto
    (¬admitted → data = told discarded .held) ∧
    (admitted → s.spl.find id = none → data = told free .refused) ∧
    (∀ d, s.spl.find id = some d → admitted →
      ((d.state ≠ .receiving ∨ d.removal = true) → data = told free .refused) ∧
      (d.state = .receiving → d.removal = false →
        ((d.segments ≤ n ∨ payload.length ≠ d.payloadLength n) → data = told free .badRange) ∧
        (n < d.segments → payload.length = d.payloadLength n →
          (inRuns d.runs n = true → data = told free .duplicate) ∧
          (inRuns d.runs n = false → d.lowest + 64 ≤ n → data = told free .outOfWindow) ∧
          (inRuns d.runs n = false → n < d.lowest + 64 → touchesRun d.runs n = false → 8 ≤ d.runs.length →
            data = told free .gapLimit) ∧
          (inRuns d.runs n = false → n < d.lowest + 64 → (touchesRun d.runs n = true ∨ d.runs.length < 8) →
            (s.spl.hasRoom d n = false → s.rad.waitingSegment = none →
              data = .next (State.afterRadio s.spl (becomes (.waiting ⟨id, n, payload⟩)))) ∧
            (s.spl.hasRoom d n = false → s.rad.waitingSegment ≠ none → data = told discarded .overrun) ∧
            (s.spl.hasRoom d n = true → ∀ b, s.spl.freeBlock = some b →
              data =
                told
                  { free with
                    mem :=
                      { s.mem with
                        cells := Memory.writeMany 0xFF#8 s.mem.cells (Memory.run (b * 2048) payload) }
                    spl :=
                      { s.spl with
                        table :=
                          s.spl.table.map fun e =>
                            if e.id = id then e.accept n (s.clock + s.spl.stallTime * 4000000) else e
                        staged := s.spl.staged ++ [⟨id, n, b⟩] } }
                  .accepted))))) ∧
    ((s.spl.find id = none → abort = told free .refused) ∧
      ∀ d, s.spl.find id = some d →
        ((d.state = .complete ∨ d.state = .failed ∨ d.removal = true) → abort = told free .refused) ∧
        ((d.state = .receiving ∨ d.state = .draining ∨ d.state = .suspended) → d.removal = false →
          abort =
            told
              { free with
                sto := withdrawn
                spl :=
                  { s.spl with
                    table :=
                      s.spl.table.map fun e =>
                        if e.id = id then
                          { e with
                            state := .failed
                            fault := some .radioAbort
                            runs := e.runsOfPages (e.committedPages + if programs then 1 else 0)
                            stall := none }
                        else e
                    staged := s.spl.staged.filter fun g => g.id ≠ id }
                lnk := { s.lnk with notices := s.lnk.notices ||| 0x0080#16 } }
              .aborted))) ∧
  (∀ (id : Byte) (index : U32) (payload : List Byte) (s : State), s.radioEn = true → s.rad.inFrame = true →
    payload.length ≤ 2048 → s.draining = true →
    let covered (kind : Byte) := [kind, id] ++ le32 index ++ le16 (BitVec.ofNat 16 payload.length) ++ payload
    let dropped :=
      State.afterRadio s.spl
        { s with
          rad :=
            if s.rad.bufA = .assembling then { s.rad with bufA := .empty } else { s.rad with bufB := .empty } }
    exec (.dataFrame id index payload (crc (covered 0x01#8))) s = .next dropped ∧
      exec (.abortFrame id index payload (crc (covered 0x02#8))) s = .next dropped) ∧
  (∀ (p : Spl) (d : Download) (i stallAt : Nat),
    let perPage := 2048 / d.size
    let first := d.lowest / perPage * perPage
    let inLowest := first ≤ i ∧ i < first + perPage ∧ i < d.segments
    let free := p.staging.length - p.staged.length
    (p.hasRoom d i = true ↔ (inLowest ∧ 0 < free) ∨ (¬inLowest ∧ p.reserve < free)) ∧
    p.reserve = ((p.table.filter fun d => d.state = .receiving).map Download.shortfall).sum ∧
    d.shortfall =
      (List.range perPage).countP (fun j => decide (first + j < d.segments) && !inRuns d.runs (first + j)) ∧
    (goodRuns d.runs → ∀ j, inRuns (d.accept i stallAt).runs j = true ↔ j = i ∨ inRuns d.runs j = true) ∧
    (let joined := { d with runs := addRun i d.runs, stall := some stallAt }
    (joined.lowest ≠ d.segments → d.accept i stallAt = joined) ∧
      (joined.lowest = d.segments → d.accept i stallAt = { joined with state := .draining, stall := none }))) ∧
  (∀ (g : Segment) (s : State), s.rad.waitingSegment = some g →
    let free : State :=
      { s with
        rad :=
          if s.rad.bufA = .waiting g then { s.rad with bufA := .empty } else { s.rad with bufB := .empty } }
    let discarded : State :=
      { free with
        spl :=
          { s.spl with
            table :=
              s.spl.table.map fun d => if d.id = g.id then { d with discards := (d.discards + 1) % 65536 } else d } }
    let told (t : State) (r : SegResult) : Prop := s.examineWaiting = t.status g.id g.index r
    (s.draining = true → s.examineWaiting = s) ∧
    (s.draining = false →
      (s.spl.find g.id = none → told free .refused) ∧
      ∀ d, s.spl.find g.id = some d →
        ((d.state ≠ .receiving ∨ d.removal = true) → told free .refused) ∧
        (d.state = .receiving → d.removal = false →
          ((s.pwr.level ≠ .normal ∧ s.pwr.gate.holder ≠ .radio) → told discarded .held) ∧
          ((s.pwr.level = .normal ∨ s.pwr.gate.holder = .radio) →
            ((d.segments ≤ g.index ∨ g.payload.length ≠ d.payloadLength g.index) → told free .badRange) ∧
            (g.index < d.segments → g.payload.length = d.payloadLength g.index →
              (inRuns d.runs g.index = true → told free .duplicate) ∧
              (inRuns d.runs g.index = false → d.lowest + 64 ≤ g.index → told free .outOfWindow) ∧
              (inRuns d.runs g.index = false → g.index < d.lowest + 64 → touchesRun d.runs g.index = false →
                8 ≤ d.runs.length → told free .gapLimit) ∧
              (inRuns d.runs g.index = false → g.index < d.lowest + 64 →
                (touchesRun d.runs g.index = true ∨ d.runs.length < 8) →
                (s.spl.hasRoom d g.index = false → s.examineWaiting = s) ∧
                (s.spl.hasRoom d g.index = true → ∀ b, s.spl.freeBlock = some b →
                  told
                    { free with
                      mem :=
                        { s.mem with
                          cells := Memory.writeMany 0xFF#8 s.mem.cells (Memory.run (b * 2048) g.payload) }
                      spl :=
                        { s.spl with
                          table :=
                            s.spl.table.map fun e =>
                              if e.id = g.id then e.accept g.index (s.clock + s.spl.stallTime * 4000000) else e
                          staged := s.spl.staged ++ [⟨g.id, g.index, b⟩] } }
                    .accepted))))))) ∧
  (∀ before after : Spl,
    before.wakesWaiting after = true ↔
      before.freeBlocks < after.freeBlocks ∨
        ∃ d ∈ before.table,
          after.find d.id = none ∨
            ∃ e, after.find d.id = some e ∧
              ((d.state = .receiving ∧ e.state ≠ .receiving) ∨
                (∃ r ∈ d.runs, ∀ q ∈ e.runs, ¬(q.1 ≤ r.1 ∧ r.2 ≤ q.2)) ∨ d.lowestPage ≠ e.lowestPage)) ∧
  ∀ (s t : State) (o : Op) (outcome : OpOutcome) (data : List Byte),
    State.afterRadio s.spl t = (t.spooler (s.spl.wakesWaiting t.spl)).settle true ∧
      s.endOp o outcome data =
        State.settle
          ((s.stoEnd o outcome data).spooler
            (decide (o.requester = .spooler) || s.spl.wakesWaiting (s.stoEnd o outcome data).spl))
          true

/-- R134, R136 to R139, R148: the download messages by their tests, in order, and the stall timer's expiry. A record
that enters RECEIVING takes staging where none is held. A removal waits for the record's storage operation, and its
reply with it. R139: a new bit rate discards a frame in assembly; which id that frame carried is a free value (log entry
12). R135: staging is taken from the pool's front, and returns to its end once no record is RECEIVING or DRAINING (log
entry 4, DESIGN CHOICE), and can carry a record where the blocks free, or the budget still to be taken, hold the reserve
and the record's own shortfall. R149: a suspension trims the runs to the committed pages and the page in program, and
withdraws a pending request of the record, as a Cancel and a removal do. A stall timer that is taken late finds the
clock past its deadline (log entry 2, DESIGN CHOICE). -/
def Obligations.DownloadMessagesAndStall : Prop :=
  ∀ (tag id : Byte) (s : State),
    let renewed (f : Download → Download) : List Download := s.spl.table.map fun d => if d.id = id then f d else d
    let taken (table : List Download) (l : Lnk) : Host.Outcome State Fault Refusal :=
      .next
        (State.settle
          { s with
            mem := { s.mem with pool := if s.spl.staging = [] then s.mem.pool.drop s.spl.budget else s.mem.pool }
            spl :=
              { s.spl with
                table := table
                staging := if s.spl.staging = [] then s.mem.pool.take s.spl.budget else s.spl.staging }
            lnk := l }
          true)
    let stopped : Spl :=
      { s.spl with
        table := renewed fun d => { d with stall := none }
        staged := s.spl.staged.filter fun g => g.id ≠ id }
    let resume := exec (.downloadResume tag id) s
    let cancel := exec (.downloadCancel tag id) s
    let clear := exec (.downloadClear tag id) s
    let stallAt := some (s.clock + s.spl.stallTime * 4000000)
    let running : Bool :=
      match s.sto.op with
      | some o => decide (o.requester = .spooler ∧ o.download = id)
      | none => false
    let programs : Bool :=
      match s.sto.op with
      | some o => decide (o.requester = .spooler ∧ o.download = id ∧ o.kind = .program)
      | none => false
    let withdrawn : Sto :=
      match s.sto.pending.spooler with
      | some q => if q.download = id then { s.sto with pending := { s.sto.pending with spooler := none } } else s.sto
      | none => s.sto
    (∀ d : Download,
      s.canCarry d = true ↔
        (s.spl.staging = [] →
          s.spl.budget ≤ s.mem.pool.length ∧ s.spl.reserve + d.shortfall ≤ s.spl.budget) ∧
        (s.spl.staging ≠ [] → s.spl.reserve + d.shortfall ≤ s.spl.staging.length - s.spl.staged.length)) ∧
    (∀ d e, s.spl.find id = some d → d.stall = some e →
      exec (.stallTimerExpiry id) s = .next
        (State.afterRadio s.spl
          { s with
            clock := max s.clock e
            sto := withdrawn
            spl :=
              { s.spl with
                table :=
                  renewed fun d =>
                    { d with
                      state := .suspended
                      fault := some .stall
                      runs := d.runsOfPages (d.committedPages + if programs then 1 else 0)
                      stall := none }
                staged := s.spl.staged.filter fun g => g.id ≠ id }
            lnk := { s.lnk with notices := s.lnk.notices ||| 0x0080#16 } })) ∧
    (s.linkOpen →
      (∀ (total start : U32) (size : U16),
        let arm := exec (.downloadArm tag id total size start) s
        let refused (e : Status) := arm = .next (s.refusedBy 0x70#8 tag e)
        let good :=
          id ≠ 0#8 ∧ 1 ≤ total.toNat ∧ total.toNat ≤ 1073741824 ∧ size.toNat ∈ [256, 512, 1024, 2048] ∧
            start.toNat % 64 = 0 ∧ start.toNat < 524288
        let d : Download := { id := id, total := total.toNat, size := size.toNat, start := start.toNat }
        let meets (e : Download) := d.start < e.start + e.pages ∧ e.start < d.start + d.pages
        (¬good → refused .badParam) ∧
        (good →
          (s.spl.find id ≠ none → refused .dlExists) ∧
          (s.spl.find id = none →
            (4 ≤ s.spl.table.length → refused .dlTableFull) ∧
            (s.spl.table.length < 4 →
              (524288 < d.start + d.pages → refused .storageRange) ∧
              (d.start + d.pages ≤ 524288 →
                ((∃ e ∈ s.spl.table, meets e) → refused .dlOverlap) ∧
                ((∀ e ∈ s.spl.table, ¬meets e) →
                  (s.pwr.cutoff = true → refused .powerDown) ∧
                  (s.pwr.cutoff = false → s.canCarry d = false → refused .noMemory) ∧
                  (s.pwr.cutoff = false → s.canCarry d = true →
                    arm =
                      taken (s.spl.table ++ [{ d with stall := stallAt }])
                        (s.replied 0x70#8 tag .ok
                          (le32 (BitVec.ofNat 32 d.segments) ++ le32 (BitVec.ofNat 32 d.pages)))))))))) ∧
      ((s.spl.find id = none → resume = .next (s.refusedBy 0x71#8 tag .unknownDownload)) ∧
        ∀ d, s.spl.find id = some d →
          ((d.state ≠ .suspended ∨ d.removal = true) → resume = .next (s.refusedBy 0x71#8 tag .dlState)) ∧
          (d.state = .suspended → d.removal = false →
            (s.pwr.cutoff = true → resume = .next (s.refusedBy 0x71#8 tag .powerDown)) ∧
            (s.pwr.cutoff = false → s.canCarry d = false → resume = .next (s.refusedBy 0x71#8 tag .noMemory)) ∧
            (s.pwr.cutoff = false → s.canCarry d = true →
              resume =
                taken (renewed fun d => { d with state := .receiving, fault := none, stall := stallAt })
                  (s.replied 0x71#8 tag .ok (le32 (BitVec.ofNat 32 d.lowest)))))) ∧
      ((s.spl.find id = none → cancel = .next (s.refusedBy 0x72#8 tag .unknownDownload)) ∧
        (s.spl.find id ≠ none →
          (running = false →
            cancel = .next
              (State.afterRadio s.spl
                { s with spl := stopped.remove id, sto := withdrawn, lnk := s.replied 0x72#8 tag .ok [] })) ∧
          (running = true →
            cancel = .next
              (State.afterRadio s.spl
                { s with
                  sto := withdrawn
                  spl := stopped.update id fun d => { d with removal := true }
                  lnk := { s.lnk with receiver := .idle, processing := some ⟨0x72#8, tag, .removal⟩ } })))) ∧
      ((s.spl.find id = none → clear = .next (s.refusedBy 0x73#8 tag .unknownDownload)) ∧
        ∀ d, s.spl.find id = some d →
          (d.state ≠ .complete → d.state ≠ .failed → clear = .next (s.refusedBy 0x73#8 tag .dlState)) ∧
          ((d.state = .complete ∨ d.state = .failed) →
            (running = false →
              clear = .next
                (State.afterRadio s.spl
                  { s with spl := s.spl.remove id, sto := withdrawn, lnk := s.replied 0x73#8 tag .ok [] })) ∧
            (running = true →
              clear = .next
                (State.afterRadio s.spl
                  { s with
                    spl := s.spl.update id fun d => { d with removal := true }
                    lnk :=
                      { s.lnk with receiver := .idle, processing := some ⟨0x73#8, tag, .removal⟩ } })))) ∧
      ∀ (budget hold : U16) (stall rate : Byte),
        let answer := exec (.spoolSettings tag budget stall hold rate) s
        let good :=
          4 ≤ budget.toNat ∧ budget.toNat ≤ 256 ∧ 1 ≤ stall.toNat ∧ hold.toNat ≤ 10000 ∧ rate.toNat ≤ 3
        (¬good → answer = .next (s.refusedBy 0x75#8 tag .badParam)) ∧
        (good → rate.toNat ≠ s.rad.rate → (∃ d ∈ s.spl.table, d.state = .receiving) →
          answer = .next (s.refusedBy 0x75#8 tag .downloadActive)) ∧
        (good → (rate.toNat = s.rad.rate ∨ ((∀ d ∈ s.spl.table, d.state ≠ .receiving) ∧ s.rad.inFrame = false)) →
          answer = .next
            (State.settle
              { s with
                spl := { s.spl with budget := budget.toNat, stallTime := stall.toNat, holdLimit := hold.toNat }
                rad := { s.rad with rate := rate.toNat }
                lnk := s.replied 0x75#8 tag .ok [] }
              true)) ∧
        (good → rate.toNat ≠ s.rad.rate → (∀ d ∈ s.spl.table, d.state ≠ .receiving) → s.rad.inFrame = true →
          let cut : Rad :=
            if s.rad.bufA = .assembling then { s.rad with bufA := .empty } else { s.rad with bufB := .empty }
          answer = .next
            (State.settle
              { s with
                freeUsed := s.freeUsed + 1
                spl :=
                  { s.spl with
                    budget := budget.toNat
                    stallTime := stall.toNat
                    holdLimit := hold.toNat
                    table :=
                      match Config.idOfCutFrame s.freeUsed with
                      | some i =>
                        s.spl.table.map fun d =>
                          if d.id = i then { d with discards := (d.discards + 1) % 65536 } else d
                      | none => s.spl.table }
                rad := { cut with rate := rate.toNat }
                lnk := s.replied 0x75#8 tag .ok [] }
              true))) ∧
    ((∀ d ∈ s.spl.table, d.state ≠ .receiving ∧ d.state ≠ .draining) →
      s.returnStaging =
        { s with
          mem := { s.mem with pool := s.mem.pool ++ s.spl.staging }
          spl := { s.spl with staging := [], staged := [] } })

/-! ### Storage port (chapter 8) -/

/-- R155, R156, R158, R160: the arbiter starts the first pending request of the round, its data in the page buffer; a
wait phase ends with SRDY, at once where SRDY already reads ready, or with its limit; in the other phases SRDY is not
looked at; a strobe that SWAIT has stretched for 10 µs ends the operation; and the last phase ends it with the outcome
that the status byte's bit 0 or the bytes read give. What the end does is `State.endOp`.

R153 and R155: the byte transfers of an operation one by one, with SPH high on the command and address bytes; those that
the flash drives (the status byte, a page's data) are read with SPH low. R153: while SWAIT is held, the byte stays on
the bus, from the tick at which its strobe would have ended; 10 µs after that, SWAIT_TIMEOUT falls, and no tick ends the
transfer any more.

R158 and R145: what a program takes into the page buffer: a LINK program's own bytes, or the segments of the spooler's
page in index order, out of staging, and 0xFF after the end of the file.

R160, R164, R165, R166: `State.stoArbitrate`, in which other statements end, is what STORAGE_OPERATION_START does; where
STO is busy or held back, nothing.

The model's choices (DESIGN CHOICE, log entry 3): a tick moves one byte, the flash leaves ready when the first byte
begins, and STORAGE_OPERATION_END or WAIT_TIMEOUT amid the transfers finds them ended; a limit that is taken late finds
the clock past it (log entry 2, DESIGN CHOICE); the level of SWAIT is a free value at each tick, the last transfer
counts as stretched until the operation's end, and SWAIT_TIMEOUT takes a stretch that has not begun to begin at the next
tick (log entry 22, DESIGN CHOICE). -/
def Obligations.StorageOperationsRunTheirPhases : Prop :=
  ∀ s : State,
    (s.live = true → s.sto.op = none → s.pwr.power ≠ .deep → s.pwr.deepWait = none → s.pwr.cutoff = false →
      s.draining = false →
      let round : List Requester := match s.sto.pointer with
        | .link => [.spooler, .loader, .link]
        | .spooler => [.loader, .link, .spooler]
        | .loader => [.link, .spooler, .loader]
      (∀ pre r post q, round = pre ++ r :: post → (∀ x ∈ pre, s.sto.pending.get x = none) →
        s.sto.pending.get r = some q →
        exec .storageOperationStart s = .next
          { s with
            sto :=
              { s.sto with
                op :=
                  some
                    { requester := r
                      kind := q.kind
                      page := q.page
                      download := q.download
                      stage := if s.sto.srdy = true then .sending else .readyWait
                      deadline := s.clock + 40000
                      buffer := toWords (s.programData r q)
                      moved := []
                      stretch := none }
                pending := s.sto.pending.set r none
                pointer := r
                srdy := false } }) ∧
      ((∀ x, s.sto.pending.get x = none) → exec .storageOperationStart s = .next s)) ∧
    ((s.live = false ∨ s.sto.op ≠ none ∨ s.pwr.power = .deep ∨ s.pwr.deepWait ≠ none ∨ s.pwr.cutoff = true ∨
        s.draining = true) →
      exec .storageOperationStart s = .next s) ∧
    exec .storageOperationStart s = .next s.stoArbitrate ∧
    (∀ r q, (q.kind ≠ .program → s.programData r q = []) ∧
      (q.kind = .program → r ≠ .spooler → s.programData r q = q.data) ∧
      (∀ d, q.kind = .program → r = .spooler → s.spl.find q.download = some d →
        let perPage := 2048 / d.size
        let first := (q.page - d.start) * perPage
        let bytes :=
          (List.range' first (min perPage (d.segments - first))).flatMap fun i =>
            match s.spl.staged.find? fun g => g.id = d.id && g.index = i with
            | some g => (List.range (d.payloadLength i)).map fun o => Memory.read 0xFF#8 s.mem.cells (g.block * 2048 + o)
            | none => []
        s.programData r q = bytes ++ List.replicate (2048 - bytes.length) 0xFF#8)) ∧
    (s.sto.op = none → exec .srdyReady s = .next { s with sto := { s.sto with srdy := true } }) ∧
    ∀ o, s.sto.op = some o →
      let runs (p : Op) (ready : Bool) : Host.Outcome State Fault Refusal :=
        .next { s with sto := { s.sto with op := some p, srdy := ready } }
      let address :=
        [BitVec.ofNat 8 (o.page % 256), BitVec.ofNat 8 (o.page / 256 % 256), BitVec.ofNat 8 (o.page / 65536 % 8)]
      let raised (b : Byte) : BusByte := ⟨true, some b⟩
      let data (b : Byte) : BusByte := ⟨false, some b⟩
      let taken : BusByte := ⟨false, none⟩
      let first :=
        (o.kind.command :: address).map raised ++ if o.kind = .program then (o.buffer.flatMap le16).map data else []
      let last :=
        if o.kind = .read then List.replicate 2048 taken else (0x4D#8 :: address).map raised ++ [taken]
      let limit := match o.kind with
        | .read => 800
        | .program => 8000
        | .erase => 40000
      let n := o.moved.length
      let busy (now : Nat) : Op := { o with stage := .busyWait, moved := first, deadline := now + limit, stretch := none }
      let moving := o.stage = .sending ∨ o.stage = .final
      let waiting := o.stage = .readyWait ∨ o.stage = .busyWait
      (o.stage = .readyWait → exec .srdyReady s = runs { o with stage := .sending } false) ∧
      (o.stage = .busyWait → exec .srdyReady s = runs { o with stage := .final } true) ∧
      (moving → exec .srdyReady s = runs o true) ∧
      (∀ now held,
        let tick := s.sto.moveByte now held
        let stretched := { s.sto with op := some { o with stretch := some (o.stretch.getD now) } }
        let overdue := ∃ start, o.stretch = some start ∧ start + 40 < now
        (moving → (held = true ∨ overdue) → tick = stretched) ∧
        (held = false → ¬overdue →
          (o.stage = .sending → n + 1 < first.length →
            tick = { s.sto with op := some { o with moved := first.take (n + 1), stretch := none } }) ∧
          (o.stage = .sending → first.length ≤ n + 1 →
            tick =
              { s.sto with
                op := some (if s.sto.srdy = true then { busy now with stage := .final } else busy now) }) ∧
          (o.stage = .final → n + 1 < (first ++ last).length →
            tick = { s.sto with op := some { o with moved := (first ++ last).take (n + 1), stretch := none } }) ∧
          (o.stage = .final → (first ++ last).length ≤ n + 1 → tick = stretched)) ∧
        (waiting → s.sto.srdy = false → tick = s.sto)) ∧
      (s.live = true →
        (moving → s.bus = (first ++ last)[n]?) ∧ (waiting → s.bus = none) ∧
        (s.sph = true ↔ ∃ b, s.bus = some (raised b) ∨ s.bus = some ⟨true, none⟩)) ∧
      (waiting →
        exec .waitTimeout s = .next (State.endOp { s with clock := max s.clock o.deadline } o .timeout []) ∧
          exec .swaitTimeout s = .next s) ∧
      (o.stage = .sending → s.sto.srdy = false →
        exec .waitTimeout s = .next (State.endOp { s with clock := s.clock + limit } (busy s.clock) .timeout [])) ∧
      ((o.stage = .final ∨ (o.stage = .sending ∧ s.sto.srdy = true)) → exec .waitTimeout s = .next s) ∧
      (moving →
        exec .swaitTimeout s = .next
          (State.endOp { s with clock := max s.clock (o.stretch.getD (s.clock + 1) + 40) } o .timeout [])) ∧
      ∀ (status : Byte) (bytes : List Byte),
        let ends (p : Op) : Prop :=
          (o.kind = .read → bytes.length = 2048 →
            exec (.storageOperationEnd status bytes) s = .next (s.endOp p .ok bytes)) ∧
          (o.kind = .read → bytes.length ≠ 2048 → exec (.storageOperationEnd status bytes) s = .next s) ∧
          (o.kind ≠ .read →
            exec (.storageOperationEnd status bytes) s =
              .next (s.endOp p (if status.getLsbD 0 = true then .fault else .ok) []))
        (o.stage = .final → ends o) ∧
        (o.stage = .sending → s.sto.srdy = true → ends { o with stage := .final, moved := first, stretch := none }) ∧
        ((waiting ∨ (o.stage = .sending ∧ s.sto.srdy = false)) →
          exec (.storageOperationEnd status bytes) s = .next s)

/-- R158, R162, R16, R17, R146: what an operation's end hands to its requester: the host link's reply, with the page
and, for a read that ended OK, its bytes; the loader's page, its slot READY after the last and FREE after a fault; the
spooler's erased blocks, committed bytes, failed record or removed record. A page that is not the load's last has the
loader ask for the next one. That freed blocks join the pool's end is log entry 4's choice (DESIGN CHOICE).

R147: the last page program of a DRAINING record makes it COMPLETE and raises DOWNLOAD_DONE.

R145: the spooler places the next operation of the first record of the round that has one: the erase of a block whose
turn has come, or the program of its next page, where every segment of that page is in the first run and held in
staging. That the round advances when the request is placed, so that the record counts as served also where the request
is withdrawn before it starts, is the model's choice in this clause: R145 does not say it (log entry 19, DESIGN CHOICE).

R135, R145 and R146: what follows a change of the records or of staging, `State.spooler`: staging returns to the pool's
end (log entry 4, DESIGN CHOICE) where no record is RECEIVING or DRAINING, the next request is placed, a WAITING segment
is examined again where the change is an event of R142, the next request is placed where there was none, and the arbiter
acts. -/
def Obligations.StorageOutcomesReachTheirRequesters : Prop :=
  ∀ (s : State) (o : Op) (outcome : OpOutcome) (data : List Byte),
    let bump (c : Bool) (n : Nat) : Nat := if c then (n + 1) % 65536 else n
    let finished : Sto :=
      { s.sto with
        op := none
        latest := s.sto.latest.set o.requester (some ⟨o.kind, o.page, outcome⟩)
        faults := s.sto.faults.set o.requester (bump (outcome = .fault) (s.sto.faults.get o.requester))
        timeouts := s.sto.timeouts.set o.requester (bump (outcome = .timeout) (s.sto.timeouts.get o.requester)) }
    let done := { s with sto := finished }
    let renewed (f : Download → Download) : List Download :=
      s.spl.table.map fun d => if d.id = o.download then f d else d
    (∀ p, o.requester = .link → s.lnk.processing = some p →
      s.stoEnd o outcome data =
        { done with
          lnk :=
            { s.replied p.kind p.tag
                (match outcome with
                | .ok => .ok
                | .fault => .storageFault
                | .timeout => .storageTimeout)
                (le32 (BitVec.ofNat 32 o.page) ++ if outcome = .ok then data else []) with
              receiver := s.lnk.receiver.replaced } }) ∧
    (∀ l, o.requester = .loader → s.mem.storageLoad = some l →
      let x := s.mem.slots[l.slot]
      let ready := { s.lnk with notices := s.lnk.notices ||| 0x0010#16 }
      (outcome = .ok → l.pageCount ≤ l.written + 1 →
        s.stoEnd o outcome data =
          { done with
            mem :=
              { s.mem with
                cells := Memory.writeMany 0xFF#8 s.mem.cells (s.mem.pageWrites x l.written data)
                slots := s.mem.slots.set l.slot { x with state := .ready, incomplete := false }
                storageLoad := none
                loadResult := some ⟨l.slot, false, l.pageCount, l.written + 1⟩ }
            lnk := ready }) ∧
      (outcome = .ok → l.written + 1 < l.pageCount → s.sto.pending.loader = none →
        s.stoEnd o outcome data =
          { done with
            mem :=
              { s.mem with
                cells := Memory.writeMany 0xFF#8 s.mem.cells (s.mem.pageWrites x l.written data)
                storageLoad := some { l with written := l.written + 1 } }
            sto :=
              if s.pwr.power ≠ .deep ∧ s.draining = false ∧ s.pwr.cutoff = false then
                { finished with
                  pending :=
                    { s.sto.pending with
                      loader := some { kind := .read, page := l.startPage + (l.written + 1) } } }
              else finished }) ∧
      (outcome ≠ .ok →
        s.stoEnd o outcome data =
          { done with
            mem :=
              { s.mem with
                pool := s.mem.pool ++ x.blocks
                slots := s.mem.slots.set l.slot {}
                storageLoad := none
                loadResult := some ⟨l.slot, true, l.pageCount, l.written⟩ }
            lnk := ready })) ∧
    (∀ d, o.requester = .spooler → s.spl.find o.download = some d → d.removal = true →
      s.sto.pending.spooler = none →
      (∀ p, s.lnk.processing = some p → p.work = .removal →
        s.stoEnd o outcome data =
          { done with
            spl := s.spl.remove o.download
            lnk := { s.replied p.kind p.tag .ok [] with receiver := s.lnk.receiver.replaced } }) ∧
      (s.lnk.processing = none → s.stoEnd o outcome data = { done with spl := s.spl.remove o.download })) ∧
    (∀ d, o.requester = .spooler → s.spl.find o.download = some d → d.removal = false →
      (outcome = .ok → o.kind = .erase →
        s.stoEnd o outcome data =
          { done with spl := { s.spl with table := renewed fun d => { d with erased := d.erased + 1 } } }) ∧
      (outcome = .ok → o.kind = .program → (d.state ≠ .draining ∨ d.committed + d.pageBytes (o.page - d.start) < d.total) →
        s.stoEnd o outcome data =
          { done with
            spl :=
              { s.spl with
                table :=
                  renewed fun e => { e with committed := e.committed + e.pageBytes (o.page - d.start) }
                staged :=
                  s.spl.staged.filter fun g => !(g.id = o.download && (d.pageSegments (o.page - d.start)).contains g.index) } }) ∧
      (outcome = .ok → o.kind = .program → d.state = .draining →
        d.total ≤ d.committed + d.pageBytes (o.page - d.start) →
        (∀ e ∈ s.spl.table, e.id = o.download → e = d) →
        s.stoEnd o outcome data =
          { done with
            spl :=
              { s.spl with
                table :=
                  renewed fun e =>
                    { e with state := .complete, committed := e.committed + e.pageBytes (o.page - d.start) }
                staged :=
                  s.spl.staged.filter fun g => !(g.id = o.download && (d.pageSegments (o.page - d.start)).contains g.index) }
            lnk := { s.lnk with notices := s.lnk.notices ||| 0x0040#16 } }) ∧
      (outcome ≠ .ok → (d.state = .complete ∨ d.state = .failed) → s.stoEnd o outcome data = done) ∧
      (outcome ≠ .ok → (d.state = .receiving ∨ d.state = .draining ∨ d.state = .suspended) →
        s.sto.pending.spooler = none →
        s.stoEnd o outcome data =
          { done with
            spl :=
              { s.spl with
                table :=
                  renewed fun e =>
                    { e with
                      state := .failed
                      fault := some (if outcome = .fault then .storageFault else .storageTimeout)
                      runs := e.runsOfPages e.committedPages
                      stall := none }
                staged := s.spl.staged.filter fun g => g.id ≠ o.download }
            lnk := { s.lnk with notices := s.lnk.notices ||| 0x0080#16 } })) ∧
    (s.sto.has .spooler = false → s.draining = false → s.pwr.cutoff = false →
      let places := s.spl.table.length
      let page (d : Download) : Nat := d.committed / 2048
      let ready (d : Download) : Prop :=
        (d.state = .receiving ∨ d.state = .draining) ∧ d.removal = false ∧ d.committed < d.total ∧
          ∀ i, page d * (2048 / d.size) ≤ i → i < (page d + 1) * (2048 / d.size) → i < d.segments →
            i < d.lowest ∧ ∃ g ∈ s.spl.staged, g.id = d.id ∧ g.index = i
      (∀ k d, k < places → s.spl.table[(s.spl.round + k) % places]? = some d → ready d →
        (∀ j < k, ∀ e, s.spl.table[(s.spl.round + j) % places]? = some e → ¬ready e) →
        s.splNext =
          { s with
            spl := { s.spl with round := (s.spl.round + k) % places + 1 }
            sto :=
              { s.sto with
                pending :=
                  { s.sto.pending with
                    spooler :=
                      some
                        { kind := if page d % 64 = 0 ∧ d.erased = page d / 64 then .erase else .program
                          page := d.start + page d
                          download := d.id } } } }) ∧
      ((∀ d ∈ s.spl.table, ¬ready d) → s.splNext = s)) ∧
    ((s.sto.has .spooler = true ∨ s.draining = true ∨ s.pwr.cutoff = true) → s.splNext = s) ∧
    ∀ examine : Bool,
      let follows (t : State) : State :=
        (State.splNext (if examine then t.splNext.examineWaiting else t.splNext)).stoArbitrate
      ((∃ d ∈ s.spl.table, d.state = .receiving ∨ d.state = .draining) → s.spooler examine = follows s) ∧
      ((∀ d ∈ s.spl.table, d.state ≠ .receiving ∧ d.state ≠ .draining) →
        s.spooler examine =
          follows
            { s with
              mem := { s.mem with pool := s.mem.pool ++ s.spl.staging }
              spl := { s.spl with staging := [], staged := [] } })

/-- R161 and R162: the storage messages by their tests, in order. One that passes becomes the LINK request, the request
in processing keeps its kind and tag, and the arbiter acts. -/
def Obligations.StorageMessagesPlaceOrRefuse : Prop :=
  ∀ (tag : Byte) (page : U32) (data : List Byte) (s : State), s.linkOpen →
    let p := page.toNat
    let locked (q : Nat) :=
      ∃ d ∈ s.spl.table, (d.state = .receiving ∨ d.state = .draining) ∧ d.start ≤ q ∧ q < d.start + d.pages
    let placed (q : StoRequest) : Host.Outcome State Fault Refusal :=
      .next
        (State.stoArbitrate
          { s with
            lnk :=
              { s.lnk with
                receiver := .idle
                processing := some ⟨q.kind.message, tag, .storage⟩ }
            sto := { s.sto with pending := { s.sto.pending with link := some q } } })
    let read := exec (.storageRead tag page) s
    let program := exec (.storageProgram tag page data) s
    let erase := exec (.storageErase tag page) s
    (524288 ≤ p → read = .next (s.refusedBy 0x80#8 tag .badParam) ∧ program = .next (s.refusedBy 0x81#8 tag .badParam)) ∧
    ((524288 ≤ p ∨ p % 64 ≠ 0) → erase = .next (s.refusedBy 0x82#8 tag .badParam)) ∧
    (p < 524288 → s.pwr.cutoff = true →
      read = .next (s.refusedBy 0x80#8 tag .powerDown) ∧ program = .next (s.refusedBy 0x81#8 tag .powerDown) ∧
        (p % 64 = 0 → erase = .next (s.refusedBy 0x82#8 tag .powerDown))) ∧
    (p < 524288 → s.pwr.cutoff = false →
      read = placed { kind := .read, page := p } ∧
      (locked p → program = .next (s.refusedBy 0x81#8 tag .storageLocked)) ∧
      (¬locked p → program = placed { kind := .program, page := p, data := data }) ∧
      (p % 64 = 0 → (∃ k < 64, locked (p + k)) → erase = .next (s.refusedBy 0x82#8 tag .storageLocked)) ∧
      (p % 64 = 0 → (∀ k < 64, ¬locked (p + k)) → erase = placed { kind := .erase, page := p }))

/-! ### Power supervisor (chapter 9) -/

/-- R167 to R169 and R181: a BATTERY result joins the window of the latest four; the level moves by at most one row of
R168's table, judged on the window's mean; with it go the notice, the ceiling that is announced to LGT and the grace
timer. Outside DEEP the examination follows. R103 and R176: the end of a battery wake in DEEP: a level that is CRITICAL
takes the part out to DOZE with the cause CRITICAL; any other powers the converter down and starts the battery timer
again for 60 s. That the level goes on starting and stopping the grace timer in the cutoff sequence is log entry 11's
reading (DEDUCED). -/
def Obligations.BatteryResultsMoveTheLevel : Prop :=
  (∀ (p : Pwr) (v : Nat),
    (p.level = .normal →
      p.judged v = if v < p.critMv then .critical else if v < p.lowMv then .low else .normal) ∧
    (p.level = .low →
      p.judged v = if v < p.critMv then .critical else if p.lowMv + 80 ≤ v then .normal else .low) ∧
    (p.level = .critical → p.judged v = if p.critMv + 80 ≤ v then .low else .critical)) ∧
  (∀ (mv : Nat) (s : State), s.pwr.window.length ≤ 4 →
    let window := if s.pwr.window.length < 4 then s.pwr.window ++ [mv] else s.pwr.window.tail ++ [mv]
    let before := s.pwr.level
    let after := s.pwr.judged (window.sum / window.length)
    s.batteryResult mv =
      { s with
        pwr :=
          { s.pwr with
            window := window
            level := after
            graceTimer :=
              if after ≠ .critical then none
              else if before = .critical ∨ s.pwr.charger = true then s.pwr.graceTimer
              else some (s.clock + 40000000) }
        lgt :=
          if before = .normal ∧ after ≠ .normal then s.lgt.announce s.pwr.lowCeiling
          else if before = .low ∧ after = .normal then s.lgt.announce 1000
          else s.lgt
        lnk :=
          { s.lnk with
            notices :=
              if after = .critical ∧ before ≠ .critical then s.lnk.notices ||| 0x0200#16
              else if after = .low ∧ before ≠ .low then s.lnk.notices ||| 0x0100#16
              else s.lnk.notices } }) ∧
  (∀ s : State, s.pwr.power ≠ .deep →
    s.handBattery = State.settle (s.batteryResult s.sns.records.battery.derived.toNat) true) ∧
  (∀ s : State, s.pwr.power = .deep →
    let t := s.batteryResult s.sns.records.battery.derived.toNat
    (t.pwr.level = .critical → s.handBattery = State.settle (t.leaveDeep .doze .critical) true) ∧
    (t.pwr.level ≠ .critical →
      s.handBattery =
        State.settle
          { t with
            sns := { s.sns with powered := false, lastChannel := none, batteryTimer := some (s.clock + 240000000) } }
          true)) ∧
  State.reset.pwr.level = .normal

/-- R174: the deep-idle timer, which `State.idleFollow` looks at last in what follows an event: it is stopped unless
every condition holds; where all hold, it runs on, and one that is stopped starts from the full time. R173 and R201:
what `State.progress` does outside the cutoff sequence: nothing in a drain that goes on; elsewhere the entry to DEEP, in
the event in which the last of its conditions comes to hold, or the deep-idle timer alone.

R172 to R175 and R106, R123, R150, R164: the messages that leave ACTIVE, the deep-idle timer's expiry, and the event of
the entry to DEEP, with the pending wake that takes the part out again at once. The entry cancels a decided ambient
placement, which counts as skipped (R119, R123), misses an AMBIENT request still with SNS, for SNS's miss count and
LGT's run of skips (R106, R120), and discards a frame in assembly as by a receive fault (R150); which record's discard
count that raises is a free value (log entry 12). The eighth consecutive skip or miss sets the stale flag (R120).

The model's choices (DESIGN CHOICE): DEEP_ENTRY is a row of its own (log entry 5), and an expiry that is taken late
finds the clock past its deadline (log entry 2). -/
def Obligations.DozeAndDeepEntry : Prop :=
  (∀ (tag : Byte) (s : State), s.linkOpen →
    let waits (l : Lnk) : Host.Outcome State Fault Refusal :=
      .next
        (State.settle
          { s with
            upd := { s.upd with freshWait := false }
            pwr := { s.pwr with power := .doze, deepWait := some .commanded, pendingWake := none, idleTimer := none }
            lnk := l }
          true)
    (s.pwr.cutoff = true →
      exec (.enterDoze tag) s = .next (s.refusedBy 0x90#8 tag .powerDown) ∧
        exec (.enterDeep tag) s = .next (s.refusedBy 0x91#8 tag .powerDown)) ∧
    (s.pwr.cutoff = false →
      exec (.enterDoze tag) s = .next
        (State.idleFollow { s with pwr := { s.pwr with power := .doze }, lnk := s.replied 0x90#8 tag .ok [] }) ∧
      ((∃ d ∈ s.spl.table, d.state = .receiving ∨ d.state = .draining) →
        exec (.enterDeep tag) s = .next (s.refusedBy 0x91#8 tag .downloadActive)) ∧
      ((∀ d ∈ s.spl.table, d.state ≠ .receiving ∧ d.state ≠ .draining) →
        exec (.enterDeep tag) s = waits (s.replied 0x91#8 tag .ok [])))) ∧
  (∀ (d : Nat) (s : State), s.pwr.idleTimer = some d →
    exec .deepIdleTimerExpiry s = .next
      (State.settle
        { s with
          clock := max s.clock d
          upd := { s.upd with freshWait := false }
          pwr := { s.pwr with power := .doze, deepWait := some .automatic, pendingWake := none, idleTimer := none } }
        true)) ∧
  (∀ s : State,
    let runs :=
      s.pwr.power = .doze ∧ s.pwr.deepWait = none ∧ s.pwr.deepIdle ≠ 0 ∧
        (∀ d ∈ s.spl.table, d.state ≠ .receiving ∧ d.state ≠ .draining) ∧ s.upd.rails = .off ∧ s.lgt.mode = .off ∧
        s.pwr.level ≠ .critical ∧ s.pwr.cutoff = false
    (¬runs → s.idleFollow = { s with pwr := { s.pwr with idleTimer := none } }) ∧
    (runs →
      (∀ d, s.pwr.idleTimer = some d → s.idleFollow = s) ∧
      (s.pwr.idleTimer = none →
        s.idleFollow = { s with pwr := { s.pwr with idleTimer := some (s.clock + s.pwr.deepIdle * 4000000) } }))) ∧
  (∀ s : State, s.pwr.cutoff = false →
    (s.draining = true → (s.upd.contextInUse = true ∨ s.sto.op ≠ none) → s.progress = s) ∧
    (s.draining = false →
      (s.pwr.deepWait = none ∨ s.upd.rails ≠ .off ∨ s.upd.work = true ∨ s.sto.op ≠ none ∨ s.pwr.level = .critical) →
      s.progress = s.idleFollow ∧ exec .deepEntry s = .next s)) ∧
  ∀ s : State, s.live = true → s.pwr.cutoff = false → s.pwr.deepWait ≠ none → s.upd.rails = .off →
    s.upd.work = false → s.sto.op = none → s.pwr.level ≠ .critical →
    let once := if s.lgt.decided.isSome then min 255 (s.lgt.skipRun + 1) else s.lgt.skipRun
    let run := if s.sns.requests.ambient then min 255 (once + 1) else once
    let asleep :=
      { s with
        freeUsed := if s.rad.inFrame then s.freeUsed + 1 else s.freeUsed
        spl :=
          { s.spl with
            table :=
              match s.rad.inFrame, Config.idOfCutFrame s.freeUsed with
              | true, some i =>
                s.spl.table.map fun d => if d.id = i then { d with discards := (d.discards + 1) % 65536 } else d
              | _, _ => s.spl.table }
        lgt :=
          { s.lgt with
            mode := .off
            lastMode := if s.lgt.mode = .off then s.lgt.lastMode else s.lgt.mode
            target := {}
            clamped := {}
            pending := {}
            latched := {}
            nextBoundary := none
            index := 0
            rampTaken := false
            holdoff := 0
            decided := none
            skipRun := run
            stale :=
              s.lgt.stale || (s.lgt.decided.isSome && decide (8 ≤ once)) ||
                (s.sns.requests.ambient && decide (8 ≤ run))
            skipped := if s.lgt.decided.isSome then (s.lgt.skipped + 1) % 65536 else s.lgt.skipped }
        sns :=
          { s.sns with
            powered := false
            converting := none
            lastChannel := none
            requests := ⟨false, false, false⟩
            ambientLatest := none
            panelTimer := none
            batteryTimer := some (s.clock + 240000000)
            abortCount := if s.sns.converting.isSome then (s.sns.abortCount + 1) % 65536 else s.sns.abortCount
            missCount := if s.sns.requests.ambient then (s.sns.missCount + 1) % 65536 else s.sns.missCount }
        rad := { s.rad with bufA := .empty, bufB := .empty, queue := [], sending := none }
        sto := { s.sto with pending := ⟨none, none, none⟩ }
        lnk := { s.lnk with receiver := s.lnk.receiver.abandoned }
        pwr :=
          { s.pwr with
            power := .deep
            deepWait := none
            pendingWake := none
            wakeCause := none
            idleTimer := none
            gate := {} } }
    (s.pwr.pendingWake = none →
      exec .deepEntry s = .next asleep ∧ (s.draining = false → s.progress = asleep)) ∧
    (∀ c, s.pwr.pendingWake = some c →
      exec .deepEntry s = .next (asleep.leaveDeep .doze c) ∧
        (s.draining = false → s.progress = asleep.leaveDeep .doze c))

/-- R176 to R180 and R195: the wake by CS, the end of its holdoff, the wake timer, the charger's filter and its changes,
and the two settings messages. Leaving DEEP starts LGT's counter, powers the converter and starts its timers; the
loader's next page, the arbiter, the examination of the queue and the deep-idle timer follow. R18: the loader places the
request for its next page where it has none with STO, out of DEEP, a drain and the cutoff sequence. A fall of CS
elsewhere begins a transaction, which is heard only where the port takes transactions.

Choices of the model: an expiry that is taken late finds the clock past its deadline (log entry 2, DESIGN CHOICE); the
charger's filter runs exactly while input and charger state differ (log entry 8, DEDUCED), and what a charger change
does in the cutoff sequence is log entry 11's reading (DEDUCED). That the last channel is none on leaving DEEP also
where a battery wake's conversion runs on is log entry 21's reading of R93 and R106 (DEDUCED). -/
def Obligations.WakesChargerAndPowerSettings : Prop :=
  (∀ (target : Power) (cause : WakeCause) (s : State),
    s.leaveDeep target cause =
      State.idleFollow
        (State.engine
          (State.stoArbitrate
            (State.loaderNext
              { s with
                pwr := { s.pwr with power := target, wakeCause := some cause }
                lgt := { s.lgt with nextBoundary := some (s.clock + 1000), index := 0 }
                sns :=
                  { s.sns with
                    powered := true
                    lastChannel := none
                    panelTimer := some (s.clock + s.sns.period * 4000000)
                    batteryTimer := some (s.clock + 4000000) } }))
          true)) ∧
  (∀ s : State,
    (∀ l, s.mem.storageLoad = some l → l.written < l.pageCount → s.sto.has .loader = false → s.pwr.power ≠ .deep →
      s.draining = false → s.pwr.cutoff = false →
      s.loaderNext =
        { s with
          sto :=
            { s.sto with
              pending :=
                { s.sto.pending with loader := some { kind := .read, page := l.startPage + l.written } } } }) ∧
    ((s.mem.storageLoad = none ∨ s.sto.has .loader = true ∨ s.pwr.power = .deep ∨ s.draining = true ∨
        s.pwr.cutoff = true) →
      s.loaderNext = s)) ∧
  (∀ s : State, s.supply = .on → s.pwr.power = .deep →
    exec .csFallWake s = .next
      (State.leaveDeep
        { s with lnk := { s.lnk with holdoff := some (s.clock + 4000), receiver := .unheard } } .active .host)) ∧
  (∀ s : State, (s.supply ≠ .on ∨ s.pwr.power ≠ .deep) →
    (s.linkOn = true → exec .csFallWake s = .next { s with lnk := { s.lnk with receiver := .begun } }) ∧
    (s.linkOn = false → exec .csFallWake s = .next { s with lnk := { s.lnk with receiver := .unheard } })) ∧
  (∀ (d : Nat) (s : State),
    let now := max s.clock d
    let expired :=
      { s with
        clock := now
        pwr := { s.pwr with wakeTimer := none }
        lnk := { s.lnk with notices := s.lnk.notices ||| 0x2000#16 } }
    let changed :=
      { s with
        clock := now
        pwr :=
          { s.pwr with
            chargerFilter := none
            charger := s.pwr.chargerInput
            graceTimer :=
              if s.pwr.level = .critical ∧ s.pwr.cutoff = false then
                if s.pwr.chargerInput = true then none else some (now + 40000000)
              else s.pwr.graceTimer }
        lnk := { s.lnk with notices := s.lnk.notices ||| 0x0400#16 } }
    let noted (t : State) (c : WakeCause) : Host.Outcome State Fault Refusal :=
      .next
        { t with
          pwr := { t.pwr with pendingWake := if s.pwr.deepWait = none then s.pwr.pendingWake else s.pwr.pendingWake.or (some c) } }
    (s.lnk.holdoff = some d →
      exec .wakeHoldoffEnd s = .next { s with clock := now, lnk := { s.lnk with holdoff := none } }) ∧
    (s.pwr.wakeTimer = some d → s.pwr.power ≠ .deep → exec .wakeTimerExpiry s = noted expired .wakeTimer) ∧
    (s.pwr.wakeTimer = some d → s.pwr.power = .deep →
      exec .wakeTimerExpiry s = .next (expired.leaveDeep .doze .wakeTimer)) ∧
    (s.pwr.chargerFilter = some d → (s.pwr.power = .active ∨ s.pwr.power = .doze) →
      exec .chargerChange s = noted changed .charger) ∧
    (s.pwr.chargerFilter = some d → s.pwr.power = .deep →
      exec .chargerChange s = .next (changed.leaveDeep .doze .charger)) ∧
    (s.pwr.chargerFilter = some d → s.pwr.power = .cutoff → s.pwr.chargerInput = true →
      exec .chargerChange s = .next (s.fullReset .cutoffExit))) ∧
  (∀ (present : Bool) (s : State), s.supply = .on → s.pwr.chargerInput ≠ present →
    exec (.chargerInputChange present) s = .next
      { s with
        pwr :=
          { s.pwr with
            chargerInput := present
            chargerFilter := if present = s.pwr.charger then none else some (s.clock + 80000) } }) ∧
  ∀ (tag : Byte) (s : State), s.linkOpen →
    (∀ time : U32,
      (86400 < time.toNat → exec (.wakeTimerSet tag time) s = .next (s.refusedBy 0x94#8 tag .badParam)) ∧
      (time.toNat ≤ 86400 →
        exec (.wakeTimerSet tag time) s = .next
          { s with
            pwr :=
              { s.pwr with
                wakeTimer := if time.toNat = 0 then none else some (s.clock + time.toNat * 4000000) }
            lnk := s.replied 0x94#8 tag .ok [] })) ∧
    ∀ (low crit ceiling idle : U16) (slot : Byte),
      let answer := exec (.powerSettings tag low crit ceiling idle slot) s
      let refused (e : Status) := answer = .next (s.refusedBy 0x93#8 tag e)
      let good :=
        3000 ≤ low.toNat ∧ low.toNat ≤ 4200 ∧ 2800 ≤ crit.toNat ∧ crit.toNat ≤ 4100 ∧ crit.toNat < low.toNat ∧
          100 ≤ ceiling.toNat ∧ ceiling.toNat ≤ 1000 ∧ idle.toNat ≤ 3600
      let stored (m : Mem) (d : Option (Fin 16)) : Host.Outcome State Fault Refusal :=
        .next
          { s with
            mem := m
            lgt :=
              if s.pwr.level ≠ .normal ∧ ceiling.toNat ≠ s.pwr.lowCeiling then s.lgt.announce ceiling.toNat else s.lgt
            pwr :=
              { s.pwr with
                lowMv := low.toNat
                critMv := crit.toNat
                lowCeiling := ceiling.toNat
                deepIdle := idle.toNat
                designation := d }
            lnk := s.replied 0x93#8 tag .ok [slot] }
      ((¬good ∨ (15 < slot.toNat ∧ slot ≠ 0xFF#8)) → refused .badParam) ∧
      (good → (slot.toNat ≤ 15 ∨ slot = 0xFF#8) → s.pwr.cutoff = true → refused .powerDown) ∧
      (good → s.pwr.cutoff = false →
        let given : Vector Slot 16 :=
          match s.pwr.designation with
          | some j => s.mem.slots.set j { s.mem.slots[j] with owner := .host, tag := none }
          | none => s.mem.slots
        (slot = 0xFF#8 → answer = stored { s.mem with slots := given } none) ∧
        (∀ i : Fin 16, slot = slotByte i → s.pwr.designation = some i →
          answer =
            stored
              { s.mem with slots := s.mem.slots.set i { s.mem.slots[i] with owner := .sleep, tag := none } }
              (some i)) ∧
        ∀ i : Fin 16, slot = slotByte i → s.pwr.designation ≠ some i →
          let x := s.mem.slots[i]
          (x.state = .releasing → refused .slotBusy) ∧
          (x.state ≠ .releasing → (x.state ≠ .ready ∨ x.owner ≠ .host) → refused .slotState) ∧
          (x.state = .ready → x.owner = .host → (x.width ≠ 1280 ∨ x.height ≠ 1600) → refused .notFullPanel) ∧
          (x.state = .ready → x.owner = .host → x.width = 1280 → x.height = 1600 →
            answer =
              stored { s.mem with slots := given.set i { x with owner := .sleep, tag := none } } (some i)))

/-- R181 to R185: the grace timer's expiry and Shutdown Now begin the cutoff sequence; the sleep screen is submitted
when no context is in use; and the entry to CUTOFF loses every block's state and drives no output.

R183, with R57, R70, R124, R149, R164, R165, R173, R186 and R192: what the beginning does, step by step, and in one
piece where nothing but the light and PWR's timers is to be stopped. A DEEP entry that waits is abandoned, upon which
the queue is examined and the arbiter acts; the light goes off; every RECEIVING and DRAINING record is suspended with
the reason POWER; the freshness wait ends and the pending requests are cancelled, in queue order (log entry 19, DESIGN
CHOICE); STO's pending requests are withdrawn, and a storage message among them is answered POWER_DOWN; a Soft Reset in
processing is abandoned, after the suspension (log entry 20, DESIGN CHOICE); and a hold timer that runs expires.

R184, R70 and R201: what follows an event, `State.settle`: a sleep screen that is due is submitted, if a slot is
designated and admission takes it; the engine goes on; and then, by `State.progress`, a soft reset's drain that is over
ends, or the cutoff sequence goes on: a report of no context in use that was made meanwhile is acted on, and the part
enters CUTOFF once every report has been made. DozeAndDeepEntry has what follows outside the cutoff sequence.

Choices of the model: the grace expiry that is taken late finds the clock past its deadline (log entry 2), and
SLEEP_SCREEN_REQUEST and CUTOFF_ENTRY are rows of their own (log entry 5) (DESIGN CHOICE); `sleepAsked` is the model's
own field (log entry 16); where a Soft Reset's drain is over too, it ends first (log entry 10, DEDUCED). -/
def Obligations.CutoffSequenceRunsToCutoff : Prop :=
  (∀ s : State,
    (∀ d, s.pwr.graceTimer = some d → s.pwr.cutoff = false →
      exec .graceTimerExpiry s = .next (State.startCutoff { s with clock := max s.clock d })) ∧
    (s.linkOpen → ∀ tag : Byte,
      (s.pwr.cutoff = true → exec (.shutdownNow tag) s = .next (s.refusedBy 0x92#8 tag .powerDown)) ∧
      (s.pwr.cutoff = false → s.pwr.graceTimer = none →
        exec (.shutdownNow tag) s = .next (s.refusedBy 0x92#8 tag .noGrace)) ∧
      (s.pwr.cutoff = false → s.pwr.graceTimer ≠ none →
        exec (.shutdownNow tag) s = .next (State.startCutoff { s with lnk := s.replied 0x92#8 tag .ok [] })))) ∧
  (∀ s : State,
    let begun :=
      { s.abandonDeep with
        lgt := s.abandonDeep.lgt.forceOff
        pwr := { s.abandonDeep.pwr with cutoff := true, sleepAsked := false, graceTimer := none } }
    let held :=
      ((begun.spl.table.filter fun d => d.state = .receiving || d.state = .draining).map Download.id).foldl
        (fun t id => State.suspend t id .power) begun
    let spooled := held.spooler (begun.spl.wakesWaiting held.spl)
    let cancelled := State.cancelPending { spooled with upd := { spooled.upd with freshWait := false } }
    let freed := cancelled.withdrawStorage.abandonSoftReset
    s.startCutoff =
      State.settle
        (if freed.upd.rails = .onIdle ∧ freed.upd.holdTimer ≠ none then
          { freed with upd := { freed.upd with rails := .falling (freed.clock + 8000), holdTimer := none } }
        else freed)
        true) ∧
  (∀ s : State,
    let alone := { s with pwr := { s.pwr with deepWait := none, pendingWake := none, idleTimer := none } }
    (s.pwr.deepWait = none → s.abandonDeep = alone) ∧
    (s.pwr.deepWait ≠ none → s.abandonDeep = (alone.engine true).stoArbitrate) ∧
    s.cancelPending =
      s.upd.queue.foldl (fun t r => State.retire t r .cancelled) { s with upd := { s.upd with queue := [] } } ∧
    (s.draining = true → s.abandonSoftReset = { s with lnk := { s.lnk with processing := none } }) ∧
    (s.draining = false → s.abandonSoftReset = s) ∧
    (∀ q p, s.sto.pending.link = some q → s.lnk.processing = some p →
      s.withdrawStorage =
        { s with
          sto := { s.sto with pending := ⟨none, none, none⟩ }
          lnk :=
            { s.replied p.kind p.tag .powerDown (le32 (BitVec.ofNat 32 q.page)) with
              receiver := s.lnk.receiver.replaced } }) ∧
    ((s.sto.pending.link = none ∨ s.lnk.processing = none) →
      s.withdrawStorage = { s with sto := { s.sto with pending := ⟨none, none, none⟩ } }) ∧
    s.lgt.forceOff =
      { s.lgt.cancelDecided with
        mode := .off
        lastMode := if s.lgt.mode = .off then s.lgt.lastMode else s.lgt.mode
        target := {}
        clamped := {}
        pending := {}
        latched := {} } ∧
    ∀ (id : Byte) (why : DlFault),
      let programs : Bool :=
        match s.sto.op with
        | some o => decide (o.requester = .spooler ∧ o.download = id ∧ o.kind = .program)
        | none => false
      s.suspend id why =
        { s with
          spl :=
            { s.spl with
              table :=
                s.spl.table.map fun d =>
                  if d.id = id then
                    { d with
                      state := .suspended
                      fault := some why
                      runs := d.runsOfPages (d.committedPages + if programs then 1 else 0)
                      stall := none }
                  else d
              staged := s.spl.staged.filter fun g => g.id ≠ id }
          sto :=
            match s.sto.pending.spooler with
            | some q =>
              if q.download = id then { s.sto with pending := { s.sto.pending with spooler := none } } else s.sto
            | none => s.sto }) ∧
  (∀ s : State, s.pwr.deepWait = none →
    s.upd.queue = [] → s.sto.pending = ⟨none, none, none⟩ → s.lnk.processing = none →
    s.spl.table = [] → s.spl.staging = [] → s.spl.staged = [] → s.rad.waitingSegment = none →
    s.lgt.decided = none → s.upd.holdTimer = none →
    s.startCutoff =
      State.settle
        { s with
          lgt :=
            { s.lgt with
              mode := .off
              lastMode := if s.lgt.mode = .off then s.lgt.lastMode else s.lgt.mode
              target := {}
              clamped := {}
              pending := {}
              latched := {} }
          upd := { s.upd with freshWait := false }
          pwr :=
            { s.pwr with
              cutoff := true
              sleepAsked := false
              deepWait := none
              pendingWake := none
              idleTimer := none
              graceTimer := none } }
        true) ∧
  (∀ (check : Bool) (s : State),
    let due :=
      s.pwr.cutoff = true ∧ s.pwr.sleepAsked = false ∧ s.upd.contextInUse = false ∧
        (s.draining = false ∨ s.sto.op ≠ none)
    let asked := { s with pwr := { s.pwr with sleepAsked := true } }
    (¬due → s.settle check = (s.engine check).progress) ∧
    (due →
      (s.pwr.designation = none → s.settle check = (asked.engine check).progress) ∧
      ∀ i, s.pwr.designation = some i →
        (∀ r, s.judgeSubmission (fullPanel .power i .full false) = .ok r →
          s.settle check = ((asked.enterQueue r).engine check).progress) ∧
        (∀ e, s.judgeSubmission (fullPanel .power i .full false) = .error e →
          s.settle check = (asked.engine check).progress))) ∧
  (∀ s : State,
    let reported :=
      s.pwr.cutoff = true ∧ s.pwr.sleepAsked = true ∧ s.upd.rails = .off ∧ s.upd.work = false ∧ s.upd.queue = [] ∧
        s.sto.op = none ∧ s.draining = false
    (s.cutoffDue = true ↔ reported) ∧
    (∀ p, s.lnk.processing = some p → p.work = .softReset → s.upd.contextInUse = false → s.sto.op = none →
      s.progress = s.drainEnd p.tag) ∧
    (s.pwr.cutoff = true → (s.draining = false ∨ s.upd.contextInUse = true ∨ s.sto.op ≠ none) → ¬reported →
      (s.pwr.sleepAsked = true ∨ s.upd.contextInUse = true) → s.progress = s)) ∧
  (∀ s : State, s.live = true → s.pwr.cutoff = true → s.pwr.sleepAsked = false → s.upd.contextInUse = false →
    (s.draining = false ∨ s.sto.op ≠ none) →
    let asked := { s with pwr := { s.pwr with sleepAsked := true } }
    let reported (t : State) : State := if t.cutoffDue then t.enterCutoff else t
    exec .sleepScreenRequest s = .next s.progress ∧
    (s.pwr.designation = none → s.progress = reported asked) ∧
    ∀ i, s.pwr.designation = some i →
      (∀ r, s.judgeSubmission (fullPanel .power i .full false) = .ok r →
        s.progress = reported ((asked.enterQueue r).engine true)) ∧
      (∀ e, s.judgeSubmission (fullPanel .power i .full false) = .error e → s.progress = reported asked)) ∧
  (∀ s : State, s.live = true → s.pwr.cutoff = true → s.upd.contextInUse = false → s.sto.op = none →
    s.draining = true → exec .sleepScreenRequest s = .next s ∧ exec .cutoffEntry s = .next s) ∧
  ∀ s : State, s.live = true → s.pwr.cutoff = true → s.pwr.sleepAsked = true → s.upd.rails = .off →
    s.upd.work = false → s.upd.queue = [] → s.sto.op = none → s.draining = false →
    let gone : State :=
      { clock := s.clock
        freeUsed := s.freeUsed
        sns := { powered := false }
        lgt := { nextBoundary := none }
        trn := { keys := s.trn.keys.map fun k => { input := k.input } }
        sto := { srdy := s.sto.srdy }
        lnk := { receiver := s.lnk.receiver.abandoned }
        pwr :=
          { power := .cutoff
            chargerInput := s.pwr.chargerInput
            chargerFilter := if s.pwr.chargerInput then some (s.clock + 80000) else none }
        pending := s.pending }
    exec .cutoffEntry s = .next gone ∧ s.progress = gone ∧ gone.outputsOff ∧ gone.linkOn = false

/-- R170, R171, R61 and R144: the load gate's holder, asks and passing once the asks, releases and grants of an event
are taken. It applies while the battery level is not NORMAL. The engine asks while it is SCANNING, while a context is
WAITING in RAILS_ON_IDLE, while RADIO's holding alone keeps a request from preparation, and, after its release at a
scan's end (`renewed`), while work remains or has followed; the spooler asks while a record is RECEIVING without a
removal pending. A gate that no one holds goes to PANEL if it asks, else to RADIO; a panel ask that finds RADIO holding
passes the gate, at once or with the end of the frame in assembly; the spooler releases when its ask lapses, and the
engine when the scan ends, or, at the end of an event (`release`), when it holds the gate without work outside a scan. A
change of holder has a WAITING segment examined (R142). Where both asks arrive together at a gate that no one holds,
that the panel's is taken first is log entry 19's choice (DESIGN CHOICE). That the holder's own ask goes on standing
while it holds the gate is log entry 21's reading (DEDUCED).

R131: HOLD toward the radio module. -/
def Obligations.LoadGateAndHold : Prop :=
  (∀ (release : Bool) (s : State),
    let g := s.gateAfter release
    let panel :=
      s.upd.scanning = true ∨ (s.upd.rails = .onIdle ∧ ∃ i : Fin 8, s.upd.contexts[i].isWaiting = true) ∨
        (s.pwr.level ≠ .normal ∧ s.pwr.gate.holder = .radio ∧
          ∃ r, State.firstEligible
            { s with pwr := { s.pwr with gate := { s.pwr.gate with holder := .none } } } = some r) ∨
        (s.pwr.gate.renewed = true ∧ s.upd.work = true)
    let again := s.pwr.gate.renewed && (s.upd.work || !release)
    let radio := ∃ d ∈ s.spl.table, d.state = .receiving ∧ d.removal = false
    let frees := release = true ∧ s.upd.scanning = false ∧ s.upd.work = false
    let free := s.pwr.gate.holder = .none ∨ (s.pwr.gate.holder = .panel ∧ frees) ∨ (s.pwr.gate.holder = .radio ∧ ¬radio)
    (s.pwr.level = .normal → g = ⟨.none, false, false, false, false⟩) ∧
    (s.pwr.level ≠ .normal →
      (free →
        (panel → radio → g = ⟨.panel, true, true, false, false⟩) ∧
        (panel → ¬radio → g = ⟨.panel, true, false, false, false⟩) ∧
        (¬panel → radio → g = ⟨.radio, false, true, false, again⟩) ∧
        (¬panel → ¬radio → g = ⟨.none, false, false, false, again⟩)) ∧
      (s.pwr.gate.holder = .radio → radio →
        (¬panel → g = ⟨.radio, false, true, false, again⟩) ∧
        (panel → s.rad.inFrame = true → g = ⟨.radio, true, true, true, again⟩) ∧
        (panel → s.rad.inFrame = false → g = ⟨.panel, true, true, false, false⟩)) ∧
      (s.pwr.gate.holder = .panel → ¬frees →
        (radio → g = ⟨.panel, true, true, false, false⟩) ∧ (¬radio → g = ⟨.panel, true, false, false, false⟩)))) ∧
  (∀ (g : Gate) (s : State),
    let set := { s with pwr := { s.pwr with gate := g } }
    (g.holder = s.pwr.gate.holder → s.withGate g = set) ∧
    (g.holder ≠ s.pwr.gate.holder → s.withGate g = set.spooler true) ∧
    ∀ release, s.gateCycle release =
      let t := s.withGate (s.gateAfter release)
      t.withGate (t.gateAfter release)) ∧
  (∀ s : State,
    (s.pwr.gate.holder ≠ .panel → s.releaseGate = s) ∧
    (s.pwr.gate.holder = .panel → (∃ d ∈ s.spl.table, d.state = .receiving ∧ d.removal = false) →
      s.releaseGate = s.withGate ⟨.radio, false, true, false, true⟩) ∧
    (s.pwr.gate.holder = .panel → (∀ d ∈ s.spl.table, d.state = .receiving → d.removal = true) →
      s.releaseGate = s.withGate ⟨.none, false, false, false, true⟩)) ∧
  ∀ s : State,
    (s.live = false → s.hold = false) ∧
    (s.live = true →
      (s.hold = true ↔
        (∃ g, (s.rad.bufA = .waiting g ∧ s.rad.bufB = .assembling) ∨
          (s.rad.bufB = .waiting g ∧ s.rad.bufA = .assembling)) ∨
        (s.pwr.level ≠ .normal ∧ s.pwr.gate.holder ≠ .radio) ∨
        (∀ d ∈ s.spl.table, d.state = .receiving → d.removal = true) ∨ s.pwr.power = .deep ∨ s.pwr.cutoff = true ∨
        s.pwr.gate.passing = true ∨ s.draining = true))
end

