-- ==== Sys2Proof/Laws/State.lean ====
section
/-! SUPPORT. One lemma per field per update of State, each true by `rfl`: no later proof unfolds a record update. -/
namespace Sys2Proof.Machine
open Sys2Proof

/-! ### `onMem` -/

@[simp] theorem State.onMem_clock (s : State) (f : Mem → Mem) : (s.onMem f).clock = s.clock := rfl
@[simp] theorem State.onMem_freeUsed (s : State) (f : Mem → Mem) : (s.onMem f).freeUsed = s.freeUsed := rfl
@[simp] theorem State.onMem_supply (s : State) (f : Mem → Mem) : (s.onMem f).supply = s.supply := rfl
@[simp] theorem State.onMem_mem (s : State) (f : Mem → Mem) : (s.onMem f).mem = f s.mem := rfl
@[simp] theorem State.onMem_wav (s : State) (f : Mem → Mem) : (s.onMem f).wav = s.wav := rfl
@[simp] theorem State.onMem_upd (s : State) (f : Mem → Mem) : (s.onMem f).upd = s.upd := rfl
@[simp] theorem State.onMem_trn (s : State) (f : Mem → Mem) : (s.onMem f).trn = s.trn := rfl
@[simp] theorem State.onMem_sns (s : State) (f : Mem → Mem) : (s.onMem f).sns = s.sns := rfl
@[simp] theorem State.onMem_lgt (s : State) (f : Mem → Mem) : (s.onMem f).lgt = s.lgt := rfl
@[simp] theorem State.onMem_rad (s : State) (f : Mem → Mem) : (s.onMem f).rad = s.rad := rfl
@[simp] theorem State.onMem_spl (s : State) (f : Mem → Mem) : (s.onMem f).spl = s.spl := rfl
@[simp] theorem State.onMem_sto (s : State) (f : Mem → Mem) : (s.onMem f).sto = s.sto := rfl
@[simp] theorem State.onMem_pwr (s : State) (f : Mem → Mem) : (s.onMem f).pwr = s.pwr := rfl
@[simp] theorem State.onMem_lnk (s : State) (f : Mem → Mem) : (s.onMem f).lnk = s.lnk := rfl
@[simp] theorem State.onMem_pending (s : State) (f : Mem → Mem) : (s.onMem f).pending = s.pending := rfl

/-! ### `onWav` -/

@[simp] theorem State.onWav_clock (s : State) (f : Wav → Wav) : (s.onWav f).clock = s.clock := rfl
@[simp] theorem State.onWav_freeUsed (s : State) (f : Wav → Wav) : (s.onWav f).freeUsed = s.freeUsed := rfl
@[simp] theorem State.onWav_supply (s : State) (f : Wav → Wav) : (s.onWav f).supply = s.supply := rfl
@[simp] theorem State.onWav_mem (s : State) (f : Wav → Wav) : (s.onWav f).mem = s.mem := rfl
@[simp] theorem State.onWav_wav (s : State) (f : Wav → Wav) : (s.onWav f).wav = f s.wav := rfl
@[simp] theorem State.onWav_upd (s : State) (f : Wav → Wav) : (s.onWav f).upd = s.upd := rfl
@[simp] theorem State.onWav_trn (s : State) (f : Wav → Wav) : (s.onWav f).trn = s.trn := rfl
@[simp] theorem State.onWav_sns (s : State) (f : Wav → Wav) : (s.onWav f).sns = s.sns := rfl
@[simp] theorem State.onWav_lgt (s : State) (f : Wav → Wav) : (s.onWav f).lgt = s.lgt := rfl
@[simp] theorem State.onWav_rad (s : State) (f : Wav → Wav) : (s.onWav f).rad = s.rad := rfl
@[simp] theorem State.onWav_spl (s : State) (f : Wav → Wav) : (s.onWav f).spl = s.spl := rfl
@[simp] theorem State.onWav_sto (s : State) (f : Wav → Wav) : (s.onWav f).sto = s.sto := rfl
@[simp] theorem State.onWav_pwr (s : State) (f : Wav → Wav) : (s.onWav f).pwr = s.pwr := rfl
@[simp] theorem State.onWav_lnk (s : State) (f : Wav → Wav) : (s.onWav f).lnk = s.lnk := rfl
@[simp] theorem State.onWav_pending (s : State) (f : Wav → Wav) : (s.onWav f).pending = s.pending := rfl

/-! ### `onUpd` -/

@[simp] theorem State.onUpd_clock (s : State) (f : Upd → Upd) : (s.onUpd f).clock = s.clock := rfl
@[simp] theorem State.onUpd_freeUsed (s : State) (f : Upd → Upd) : (s.onUpd f).freeUsed = s.freeUsed := rfl
@[simp] theorem State.onUpd_supply (s : State) (f : Upd → Upd) : (s.onUpd f).supply = s.supply := rfl
@[simp] theorem State.onUpd_mem (s : State) (f : Upd → Upd) : (s.onUpd f).mem = s.mem := rfl
@[simp] theorem State.onUpd_wav (s : State) (f : Upd → Upd) : (s.onUpd f).wav = s.wav := rfl
@[simp] theorem State.onUpd_upd (s : State) (f : Upd → Upd) : (s.onUpd f).upd = f s.upd := rfl
@[simp] theorem State.onUpd_trn (s : State) (f : Upd → Upd) : (s.onUpd f).trn = s.trn := rfl
@[simp] theorem State.onUpd_sns (s : State) (f : Upd → Upd) : (s.onUpd f).sns = s.sns := rfl
@[simp] theorem State.onUpd_lgt (s : State) (f : Upd → Upd) : (s.onUpd f).lgt = s.lgt := rfl
@[simp] theorem State.onUpd_rad (s : State) (f : Upd → Upd) : (s.onUpd f).rad = s.rad := rfl
@[simp] theorem State.onUpd_spl (s : State) (f : Upd → Upd) : (s.onUpd f).spl = s.spl := rfl
@[simp] theorem State.onUpd_sto (s : State) (f : Upd → Upd) : (s.onUpd f).sto = s.sto := rfl
@[simp] theorem State.onUpd_pwr (s : State) (f : Upd → Upd) : (s.onUpd f).pwr = s.pwr := rfl
@[simp] theorem State.onUpd_lnk (s : State) (f : Upd → Upd) : (s.onUpd f).lnk = s.lnk := rfl
@[simp] theorem State.onUpd_pending (s : State) (f : Upd → Upd) : (s.onUpd f).pending = s.pending := rfl

/-! ### `onTrn` -/

@[simp] theorem State.onTrn_clock (s : State) (f : Trn → Trn) : (s.onTrn f).clock = s.clock := rfl
@[simp] theorem State.onTrn_freeUsed (s : State) (f : Trn → Trn) : (s.onTrn f).freeUsed = s.freeUsed := rfl
@[simp] theorem State.onTrn_supply (s : State) (f : Trn → Trn) : (s.onTrn f).supply = s.supply := rfl
@[simp] theorem State.onTrn_mem (s : State) (f : Trn → Trn) : (s.onTrn f).mem = s.mem := rfl
@[simp] theorem State.onTrn_wav (s : State) (f : Trn → Trn) : (s.onTrn f).wav = s.wav := rfl
@[simp] theorem State.onTrn_upd (s : State) (f : Trn → Trn) : (s.onTrn f).upd = s.upd := rfl
@[simp] theorem State.onTrn_trn (s : State) (f : Trn → Trn) : (s.onTrn f).trn = f s.trn := rfl
@[simp] theorem State.onTrn_sns (s : State) (f : Trn → Trn) : (s.onTrn f).sns = s.sns := rfl
@[simp] theorem State.onTrn_lgt (s : State) (f : Trn → Trn) : (s.onTrn f).lgt = s.lgt := rfl
@[simp] theorem State.onTrn_rad (s : State) (f : Trn → Trn) : (s.onTrn f).rad = s.rad := rfl
@[simp] theorem State.onTrn_spl (s : State) (f : Trn → Trn) : (s.onTrn f).spl = s.spl := rfl
@[simp] theorem State.onTrn_sto (s : State) (f : Trn → Trn) : (s.onTrn f).sto = s.sto := rfl
@[simp] theorem State.onTrn_pwr (s : State) (f : Trn → Trn) : (s.onTrn f).pwr = s.pwr := rfl
@[simp] theorem State.onTrn_lnk (s : State) (f : Trn → Trn) : (s.onTrn f).lnk = s.lnk := rfl
@[simp] theorem State.onTrn_pending (s : State) (f : Trn → Trn) : (s.onTrn f).pending = s.pending := rfl

/-! ### `onSns` -/

@[simp] theorem State.onSns_clock (s : State) (f : Sns → Sns) : (s.onSns f).clock = s.clock := rfl
@[simp] theorem State.onSns_freeUsed (s : State) (f : Sns → Sns) : (s.onSns f).freeUsed = s.freeUsed := rfl
@[simp] theorem State.onSns_supply (s : State) (f : Sns → Sns) : (s.onSns f).supply = s.supply := rfl
@[simp] theorem State.onSns_mem (s : State) (f : Sns → Sns) : (s.onSns f).mem = s.mem := rfl
@[simp] theorem State.onSns_wav (s : State) (f : Sns → Sns) : (s.onSns f).wav = s.wav := rfl
@[simp] theorem State.onSns_upd (s : State) (f : Sns → Sns) : (s.onSns f).upd = s.upd := rfl
@[simp] theorem State.onSns_trn (s : State) (f : Sns → Sns) : (s.onSns f).trn = s.trn := rfl
@[simp] theorem State.onSns_sns (s : State) (f : Sns → Sns) : (s.onSns f).sns = f s.sns := rfl
@[simp] theorem State.onSns_lgt (s : State) (f : Sns → Sns) : (s.onSns f).lgt = s.lgt := rfl
@[simp] theorem State.onSns_rad (s : State) (f : Sns → Sns) : (s.onSns f).rad = s.rad := rfl
@[simp] theorem State.onSns_spl (s : State) (f : Sns → Sns) : (s.onSns f).spl = s.spl := rfl
@[simp] theorem State.onSns_sto (s : State) (f : Sns → Sns) : (s.onSns f).sto = s.sto := rfl
@[simp] theorem State.onSns_pwr (s : State) (f : Sns → Sns) : (s.onSns f).pwr = s.pwr := rfl
@[simp] theorem State.onSns_lnk (s : State) (f : Sns → Sns) : (s.onSns f).lnk = s.lnk := rfl
@[simp] theorem State.onSns_pending (s : State) (f : Sns → Sns) : (s.onSns f).pending = s.pending := rfl

/-! ### `onLgt` -/

@[simp] theorem State.onLgt_clock (s : State) (f : Lgt → Lgt) : (s.onLgt f).clock = s.clock := rfl
@[simp] theorem State.onLgt_freeUsed (s : State) (f : Lgt → Lgt) : (s.onLgt f).freeUsed = s.freeUsed := rfl
@[simp] theorem State.onLgt_supply (s : State) (f : Lgt → Lgt) : (s.onLgt f).supply = s.supply := rfl
@[simp] theorem State.onLgt_mem (s : State) (f : Lgt → Lgt) : (s.onLgt f).mem = s.mem := rfl
@[simp] theorem State.onLgt_wav (s : State) (f : Lgt → Lgt) : (s.onLgt f).wav = s.wav := rfl
@[simp] theorem State.onLgt_upd (s : State) (f : Lgt → Lgt) : (s.onLgt f).upd = s.upd := rfl
@[simp] theorem State.onLgt_trn (s : State) (f : Lgt → Lgt) : (s.onLgt f).trn = s.trn := rfl
@[simp] theorem State.onLgt_sns (s : State) (f : Lgt → Lgt) : (s.onLgt f).sns = s.sns := rfl
@[simp] theorem State.onLgt_lgt (s : State) (f : Lgt → Lgt) : (s.onLgt f).lgt = f s.lgt := rfl
@[simp] theorem State.onLgt_rad (s : State) (f : Lgt → Lgt) : (s.onLgt f).rad = s.rad := rfl
@[simp] theorem State.onLgt_spl (s : State) (f : Lgt → Lgt) : (s.onLgt f).spl = s.spl := rfl
@[simp] theorem State.onLgt_sto (s : State) (f : Lgt → Lgt) : (s.onLgt f).sto = s.sto := rfl
@[simp] theorem State.onLgt_pwr (s : State) (f : Lgt → Lgt) : (s.onLgt f).pwr = s.pwr := rfl
@[simp] theorem State.onLgt_lnk (s : State) (f : Lgt → Lgt) : (s.onLgt f).lnk = s.lnk := rfl
@[simp] theorem State.onLgt_pending (s : State) (f : Lgt → Lgt) : (s.onLgt f).pending = s.pending := rfl

/-! ### `onRad` -/

@[simp] theorem State.onRad_clock (s : State) (f : Rad → Rad) : (s.onRad f).clock = s.clock := rfl
@[simp] theorem State.onRad_freeUsed (s : State) (f : Rad → Rad) : (s.onRad f).freeUsed = s.freeUsed := rfl
@[simp] theorem State.onRad_supply (s : State) (f : Rad → Rad) : (s.onRad f).supply = s.supply := rfl
@[simp] theorem State.onRad_mem (s : State) (f : Rad → Rad) : (s.onRad f).mem = s.mem := rfl
@[simp] theorem State.onRad_wav (s : State) (f : Rad → Rad) : (s.onRad f).wav = s.wav := rfl
@[simp] theorem State.onRad_upd (s : State) (f : Rad → Rad) : (s.onRad f).upd = s.upd := rfl
@[simp] theorem State.onRad_trn (s : State) (f : Rad → Rad) : (s.onRad f).trn = s.trn := rfl
@[simp] theorem State.onRad_sns (s : State) (f : Rad → Rad) : (s.onRad f).sns = s.sns := rfl
@[simp] theorem State.onRad_lgt (s : State) (f : Rad → Rad) : (s.onRad f).lgt = s.lgt := rfl
@[simp] theorem State.onRad_rad (s : State) (f : Rad → Rad) : (s.onRad f).rad = f s.rad := rfl
@[simp] theorem State.onRad_spl (s : State) (f : Rad → Rad) : (s.onRad f).spl = s.spl := rfl
@[simp] theorem State.onRad_sto (s : State) (f : Rad → Rad) : (s.onRad f).sto = s.sto := rfl
@[simp] theorem State.onRad_pwr (s : State) (f : Rad → Rad) : (s.onRad f).pwr = s.pwr := rfl
@[simp] theorem State.onRad_lnk (s : State) (f : Rad → Rad) : (s.onRad f).lnk = s.lnk := rfl
@[simp] theorem State.onRad_pending (s : State) (f : Rad → Rad) : (s.onRad f).pending = s.pending := rfl

/-! ### `onSpl` -/

@[simp] theorem State.onSpl_clock (s : State) (f : Spl → Spl) : (s.onSpl f).clock = s.clock := rfl
@[simp] theorem State.onSpl_freeUsed (s : State) (f : Spl → Spl) : (s.onSpl f).freeUsed = s.freeUsed := rfl
@[simp] theorem State.onSpl_supply (s : State) (f : Spl → Spl) : (s.onSpl f).supply = s.supply := rfl
@[simp] theorem State.onSpl_mem (s : State) (f : Spl → Spl) : (s.onSpl f).mem = s.mem := rfl
@[simp] theorem State.onSpl_wav (s : State) (f : Spl → Spl) : (s.onSpl f).wav = s.wav := rfl
@[simp] theorem State.onSpl_upd (s : State) (f : Spl → Spl) : (s.onSpl f).upd = s.upd := rfl
@[simp] theorem State.onSpl_trn (s : State) (f : Spl → Spl) : (s.onSpl f).trn = s.trn := rfl
@[simp] theorem State.onSpl_sns (s : State) (f : Spl → Spl) : (s.onSpl f).sns = s.sns := rfl
@[simp] theorem State.onSpl_lgt (s : State) (f : Spl → Spl) : (s.onSpl f).lgt = s.lgt := rfl
@[simp] theorem State.onSpl_rad (s : State) (f : Spl → Spl) : (s.onSpl f).rad = s.rad := rfl
@[simp] theorem State.onSpl_spl (s : State) (f : Spl → Spl) : (s.onSpl f).spl = f s.spl := rfl
@[simp] theorem State.onSpl_sto (s : State) (f : Spl → Spl) : (s.onSpl f).sto = s.sto := rfl
@[simp] theorem State.onSpl_pwr (s : State) (f : Spl → Spl) : (s.onSpl f).pwr = s.pwr := rfl
@[simp] theorem State.onSpl_lnk (s : State) (f : Spl → Spl) : (s.onSpl f).lnk = s.lnk := rfl
@[simp] theorem State.onSpl_pending (s : State) (f : Spl → Spl) : (s.onSpl f).pending = s.pending := rfl

/-! ### `onSto` -/

@[simp] theorem State.onSto_clock (s : State) (f : Sto → Sto) : (s.onSto f).clock = s.clock := rfl
@[simp] theorem State.onSto_freeUsed (s : State) (f : Sto → Sto) : (s.onSto f).freeUsed = s.freeUsed := rfl
@[simp] theorem State.onSto_supply (s : State) (f : Sto → Sto) : (s.onSto f).supply = s.supply := rfl
@[simp] theorem State.onSto_mem (s : State) (f : Sto → Sto) : (s.onSto f).mem = s.mem := rfl
@[simp] theorem State.onSto_wav (s : State) (f : Sto → Sto) : (s.onSto f).wav = s.wav := rfl
@[simp] theorem State.onSto_upd (s : State) (f : Sto → Sto) : (s.onSto f).upd = s.upd := rfl
@[simp] theorem State.onSto_trn (s : State) (f : Sto → Sto) : (s.onSto f).trn = s.trn := rfl
@[simp] theorem State.onSto_sns (s : State) (f : Sto → Sto) : (s.onSto f).sns = s.sns := rfl
@[simp] theorem State.onSto_lgt (s : State) (f : Sto → Sto) : (s.onSto f).lgt = s.lgt := rfl
@[simp] theorem State.onSto_rad (s : State) (f : Sto → Sto) : (s.onSto f).rad = s.rad := rfl
@[simp] theorem State.onSto_spl (s : State) (f : Sto → Sto) : (s.onSto f).spl = s.spl := rfl
@[simp] theorem State.onSto_sto (s : State) (f : Sto → Sto) : (s.onSto f).sto = f s.sto := rfl
@[simp] theorem State.onSto_pwr (s : State) (f : Sto → Sto) : (s.onSto f).pwr = s.pwr := rfl
@[simp] theorem State.onSto_lnk (s : State) (f : Sto → Sto) : (s.onSto f).lnk = s.lnk := rfl
@[simp] theorem State.onSto_pending (s : State) (f : Sto → Sto) : (s.onSto f).pending = s.pending := rfl

/-! ### `onPwr` -/

@[simp] theorem State.onPwr_clock (s : State) (f : Pwr → Pwr) : (s.onPwr f).clock = s.clock := rfl
@[simp] theorem State.onPwr_freeUsed (s : State) (f : Pwr → Pwr) : (s.onPwr f).freeUsed = s.freeUsed := rfl
@[simp] theorem State.onPwr_supply (s : State) (f : Pwr → Pwr) : (s.onPwr f).supply = s.supply := rfl
@[simp] theorem State.onPwr_mem (s : State) (f : Pwr → Pwr) : (s.onPwr f).mem = s.mem := rfl
@[simp] theorem State.onPwr_wav (s : State) (f : Pwr → Pwr) : (s.onPwr f).wav = s.wav := rfl
@[simp] theorem State.onPwr_upd (s : State) (f : Pwr → Pwr) : (s.onPwr f).upd = s.upd := rfl
@[simp] theorem State.onPwr_trn (s : State) (f : Pwr → Pwr) : (s.onPwr f).trn = s.trn := rfl
@[simp] theorem State.onPwr_sns (s : State) (f : Pwr → Pwr) : (s.onPwr f).sns = s.sns := rfl
@[simp] theorem State.onPwr_lgt (s : State) (f : Pwr → Pwr) : (s.onPwr f).lgt = s.lgt := rfl
@[simp] theorem State.onPwr_rad (s : State) (f : Pwr → Pwr) : (s.onPwr f).rad = s.rad := rfl
@[simp] theorem State.onPwr_spl (s : State) (f : Pwr → Pwr) : (s.onPwr f).spl = s.spl := rfl
@[simp] theorem State.onPwr_sto (s : State) (f : Pwr → Pwr) : (s.onPwr f).sto = s.sto := rfl
@[simp] theorem State.onPwr_pwr (s : State) (f : Pwr → Pwr) : (s.onPwr f).pwr = f s.pwr := rfl
@[simp] theorem State.onPwr_lnk (s : State) (f : Pwr → Pwr) : (s.onPwr f).lnk = s.lnk := rfl
@[simp] theorem State.onPwr_pending (s : State) (f : Pwr → Pwr) : (s.onPwr f).pending = s.pending := rfl

/-! ### `onLnk` -/

@[simp] theorem State.onLnk_clock (s : State) (f : Lnk → Lnk) : (s.onLnk f).clock = s.clock := rfl
@[simp] theorem State.onLnk_freeUsed (s : State) (f : Lnk → Lnk) : (s.onLnk f).freeUsed = s.freeUsed := rfl
@[simp] theorem State.onLnk_supply (s : State) (f : Lnk → Lnk) : (s.onLnk f).supply = s.supply := rfl
@[simp] theorem State.onLnk_mem (s : State) (f : Lnk → Lnk) : (s.onLnk f).mem = s.mem := rfl
@[simp] theorem State.onLnk_wav (s : State) (f : Lnk → Lnk) : (s.onLnk f).wav = s.wav := rfl
@[simp] theorem State.onLnk_upd (s : State) (f : Lnk → Lnk) : (s.onLnk f).upd = s.upd := rfl
@[simp] theorem State.onLnk_trn (s : State) (f : Lnk → Lnk) : (s.onLnk f).trn = s.trn := rfl
@[simp] theorem State.onLnk_sns (s : State) (f : Lnk → Lnk) : (s.onLnk f).sns = s.sns := rfl
@[simp] theorem State.onLnk_lgt (s : State) (f : Lnk → Lnk) : (s.onLnk f).lgt = s.lgt := rfl
@[simp] theorem State.onLnk_rad (s : State) (f : Lnk → Lnk) : (s.onLnk f).rad = s.rad := rfl
@[simp] theorem State.onLnk_spl (s : State) (f : Lnk → Lnk) : (s.onLnk f).spl = s.spl := rfl
@[simp] theorem State.onLnk_sto (s : State) (f : Lnk → Lnk) : (s.onLnk f).sto = s.sto := rfl
@[simp] theorem State.onLnk_pwr (s : State) (f : Lnk → Lnk) : (s.onLnk f).pwr = s.pwr := rfl
@[simp] theorem State.onLnk_lnk (s : State) (f : Lnk → Lnk) : (s.onLnk f).lnk = f s.lnk := rfl
@[simp] theorem State.onLnk_pending (s : State) (f : Lnk → Lnk) : (s.onLnk f).pending = s.pending := rfl

/-! ### `raise` -/

@[simp] theorem State.raise_clock (s : State) (k : Notice) : (s.raise k).clock = s.clock := rfl
@[simp] theorem State.raise_freeUsed (s : State) (k : Notice) : (s.raise k).freeUsed = s.freeUsed := rfl
@[simp] theorem State.raise_supply (s : State) (k : Notice) : (s.raise k).supply = s.supply := rfl
@[simp] theorem State.raise_mem (s : State) (k : Notice) : (s.raise k).mem = s.mem := rfl
@[simp] theorem State.raise_wav (s : State) (k : Notice) : (s.raise k).wav = s.wav := rfl
@[simp] theorem State.raise_upd (s : State) (k : Notice) : (s.raise k).upd = s.upd := rfl
@[simp] theorem State.raise_trn (s : State) (k : Notice) : (s.raise k).trn = s.trn := rfl
@[simp] theorem State.raise_sns (s : State) (k : Notice) : (s.raise k).sns = s.sns := rfl
@[simp] theorem State.raise_lgt (s : State) (k : Notice) : (s.raise k).lgt = s.lgt := rfl
@[simp] theorem State.raise_rad (s : State) (k : Notice) : (s.raise k).rad = s.rad := rfl
@[simp] theorem State.raise_spl (s : State) (k : Notice) : (s.raise k).spl = s.spl := rfl
@[simp] theorem State.raise_sto (s : State) (k : Notice) : (s.raise k).sto = s.sto := rfl
@[simp] theorem State.raise_pwr (s : State) (k : Notice) : (s.raise k).pwr = s.pwr := rfl
@[simp] theorem State.raise_lnk (s : State) (k : Notice) : (s.raise k).lnk = { s.lnk with notices := s.lnk.notices ||| k.set } := rfl
@[simp] theorem State.raise_pending (s : State) (k : Notice) : (s.raise k).pending = s.pending := rfl

/-! ### `reach` -/

@[simp] theorem State.reach_clock (s : State) (d : Nat) : (s.reach d).clock = max s.clock d := rfl
@[simp] theorem State.reach_freeUsed (s : State) (d : Nat) : (s.reach d).freeUsed = s.freeUsed := rfl
@[simp] theorem State.reach_supply (s : State) (d : Nat) : (s.reach d).supply = s.supply := rfl
@[simp] theorem State.reach_mem (s : State) (d : Nat) : (s.reach d).mem = s.mem := rfl
@[simp] theorem State.reach_wav (s : State) (d : Nat) : (s.reach d).wav = s.wav := rfl
@[simp] theorem State.reach_upd (s : State) (d : Nat) : (s.reach d).upd = s.upd := rfl
@[simp] theorem State.reach_trn (s : State) (d : Nat) : (s.reach d).trn = s.trn := rfl
@[simp] theorem State.reach_sns (s : State) (d : Nat) : (s.reach d).sns = s.sns := rfl
@[simp] theorem State.reach_lgt (s : State) (d : Nat) : (s.reach d).lgt = s.lgt := rfl
@[simp] theorem State.reach_rad (s : State) (d : Nat) : (s.reach d).rad = s.rad := rfl
@[simp] theorem State.reach_spl (s : State) (d : Nat) : (s.reach d).spl = s.spl := rfl
@[simp] theorem State.reach_sto (s : State) (d : Nat) : (s.reach d).sto = s.sto := rfl
@[simp] theorem State.reach_pwr (s : State) (d : Nat) : (s.reach d).pwr = s.pwr := rfl
@[simp] theorem State.reach_lnk (s : State) (d : Nat) : (s.reach d).lnk = s.lnk := rfl
@[simp] theorem State.reach_pending (s : State) (d : Nat) : (s.reach d).pending = s.pending := rfl

/-! ### `newTransaction` -/

@[simp] theorem State.newTransaction_clock (s : State) : (s.newTransaction).clock = s.clock := rfl
@[simp] theorem State.newTransaction_freeUsed (s : State) : (s.newTransaction).freeUsed = s.freeUsed := rfl
@[simp] theorem State.newTransaction_supply (s : State) : (s.newTransaction).supply = s.supply := rfl
@[simp] theorem State.newTransaction_mem (s : State) : (s.newTransaction).mem = s.mem := rfl
@[simp] theorem State.newTransaction_wav (s : State) : (s.newTransaction).wav = s.wav := rfl
@[simp] theorem State.newTransaction_upd (s : State) : (s.newTransaction).upd = s.upd := rfl
@[simp] theorem State.newTransaction_trn (s : State) : (s.newTransaction).trn = s.trn := rfl
@[simp] theorem State.newTransaction_sns (s : State) : (s.newTransaction).sns = s.sns := rfl
@[simp] theorem State.newTransaction_lgt (s : State) : (s.newTransaction).lgt = s.lgt := rfl
@[simp] theorem State.newTransaction_rad (s : State) : (s.newTransaction).rad = s.rad := rfl
@[simp] theorem State.newTransaction_spl (s : State) : (s.newTransaction).spl = s.spl := rfl
@[simp] theorem State.newTransaction_sto (s : State) : (s.newTransaction).sto = s.sto := rfl
@[simp] theorem State.newTransaction_pwr (s : State) : (s.newTransaction).pwr = s.pwr := rfl
@[simp] theorem State.newTransaction_lnk (s : State) : (s.newTransaction).lnk = { s.lnk with receiver := .idle } := rfl
@[simp] theorem State.newTransaction_pending (s : State) : (s.newTransaction).pending = s.pending := rfl

/-! ### `discardFrame` -/

@[simp] theorem State.discardFrame_clock (s : State) : (s.discardFrame).clock = s.clock := rfl
@[simp] theorem State.discardFrame_freeUsed (s : State) : (s.discardFrame).freeUsed = s.freeUsed := rfl
@[simp] theorem State.discardFrame_supply (s : State) : (s.discardFrame).supply = s.supply := rfl
@[simp] theorem State.discardFrame_mem (s : State) : (s.discardFrame).mem = s.mem := rfl
@[simp] theorem State.discardFrame_wav (s : State) : (s.discardFrame).wav = s.wav := rfl
@[simp] theorem State.discardFrame_upd (s : State) : (s.discardFrame).upd = s.upd := rfl
@[simp] theorem State.discardFrame_trn (s : State) : (s.discardFrame).trn = s.trn := rfl
@[simp] theorem State.discardFrame_sns (s : State) : (s.discardFrame).sns = s.sns := rfl
@[simp] theorem State.discardFrame_lgt (s : State) : (s.discardFrame).lgt = s.lgt := rfl
@[simp] theorem State.discardFrame_rad (s : State) : (s.discardFrame).rad = s.rad := rfl
@[simp] theorem State.discardFrame_spl (s : State) : (s.discardFrame).spl = s.spl := rfl
@[simp] theorem State.discardFrame_sto (s : State) : (s.discardFrame).sto = s.sto := rfl
@[simp] theorem State.discardFrame_pwr (s : State) : (s.discardFrame).pwr = s.pwr := rfl
@[simp] theorem State.discardFrame_lnk (s : State) : (s.discardFrame).lnk = { s.lnk with discarded := true } := rfl
@[simp] theorem State.discardFrame_pending (s : State) : (s.discardFrame).pending = s.pending := rfl

/-! ### `place` -/

@[simp] theorem State.place_clock (s : State) (r : Reply) : (s.place r).clock = s.clock := rfl
@[simp] theorem State.place_freeUsed (s : State) (r : Reply) : (s.place r).freeUsed = s.freeUsed := rfl
@[simp] theorem State.place_supply (s : State) (r : Reply) : (s.place r).supply = s.supply := rfl
@[simp] theorem State.place_mem (s : State) (r : Reply) : (s.place r).mem = s.mem := rfl
@[simp] theorem State.place_wav (s : State) (r : Reply) : (s.place r).wav = s.wav := rfl
@[simp] theorem State.place_upd (s : State) (r : Reply) : (s.place r).upd = s.upd := rfl
@[simp] theorem State.place_trn (s : State) (r : Reply) : (s.place r).trn = s.trn := rfl
@[simp] theorem State.place_sns (s : State) (r : Reply) : (s.place r).sns = s.sns := rfl
@[simp] theorem State.place_lgt (s : State) (r : Reply) : (s.place r).lgt = s.lgt := rfl
@[simp] theorem State.place_rad (s : State) (r : Reply) : (s.place r).rad = s.rad := rfl
@[simp] theorem State.place_spl (s : State) (r : Reply) : (s.place r).spl = s.spl := rfl
@[simp] theorem State.place_sto (s : State) (r : Reply) : (s.place r).sto = s.sto := rfl
@[simp] theorem State.place_pwr (s : State) (r : Reply) : (s.place r).pwr = s.pwr := rfl
@[simp] theorem State.place_pending (s : State) (r : Reply) : (s.place r).pending = s.pending := rfl

/-! ### `answer` -/

@[simp] theorem State.answer_clock (s : State) (k t : Byte) (e : Status) (b : List Byte) : (s.answer k t e b).clock = s.clock := rfl
@[simp] theorem State.answer_freeUsed (s : State) (k t : Byte) (e : Status) (b : List Byte) : (s.answer k t e b).freeUsed = s.freeUsed := rfl
@[simp] theorem State.answer_supply (s : State) (k t : Byte) (e : Status) (b : List Byte) : (s.answer k t e b).supply = s.supply := rfl
@[simp] theorem State.answer_mem (s : State) (k t : Byte) (e : Status) (b : List Byte) : (s.answer k t e b).mem = s.mem := rfl
@[simp] theorem State.answer_wav (s : State) (k t : Byte) (e : Status) (b : List Byte) : (s.answer k t e b).wav = s.wav := rfl
@[simp] theorem State.answer_upd (s : State) (k t : Byte) (e : Status) (b : List Byte) : (s.answer k t e b).upd = s.upd := rfl
@[simp] theorem State.answer_trn (s : State) (k t : Byte) (e : Status) (b : List Byte) : (s.answer k t e b).trn = s.trn := rfl
@[simp] theorem State.answer_sns (s : State) (k t : Byte) (e : Status) (b : List Byte) : (s.answer k t e b).sns = s.sns := rfl
@[simp] theorem State.answer_lgt (s : State) (k t : Byte) (e : Status) (b : List Byte) : (s.answer k t e b).lgt = s.lgt := rfl
@[simp] theorem State.answer_rad (s : State) (k t : Byte) (e : Status) (b : List Byte) : (s.answer k t e b).rad = s.rad := rfl
@[simp] theorem State.answer_spl (s : State) (k t : Byte) (e : Status) (b : List Byte) : (s.answer k t e b).spl = s.spl := rfl
@[simp] theorem State.answer_sto (s : State) (k t : Byte) (e : Status) (b : List Byte) : (s.answer k t e b).sto = s.sto := rfl
@[simp] theorem State.answer_pwr (s : State) (k t : Byte) (e : Status) (b : List Byte) : (s.answer k t e b).pwr = s.pwr := rfl
@[simp] theorem State.answer_pending (s : State) (k t : Byte) (e : Status) (b : List Byte) : (s.answer k t e b).pending = s.pending := rfl

/-! ### A reply placed on an idle receiver -/

/-- A reply placed after `newTransaction` leaves LNK as `State.replied` says (R193). -/
@[simp] theorem State.newTransaction_answer (s : State) (k t : Byte) (e : Status) (b : List Byte) :
    s.newTransaction.answer k t e b = { s with lnk := s.replied k t e b } := rfl

/-! ### Block updates -/

@[simp] theorem Upd.setCtx_queue (u : Upd) (i : Fin 8) (c : Ctx) : (u.setCtx i c).queue = u.queue := rfl
@[simp] theorem Upd.setCtx_log (u : Upd) (i : Fin 8) (c : Ctx) : (u.setCtx i c).log = u.log := rfl
@[simp] theorem Upd.setCtx_rails (u : Upd) (i : Fin 8) (c : Ctx) : (u.setCtx i c).rails = u.rails := rfl
@[simp] theorem Upd.setCtx_known (u : Upd) (i : Fin 8) (c : Ctx) : (u.setCtx i c).known = u.known := rfl
@[simp] theorem Mem.setSlot_cells (m : Mem) (i : Fin 16) (x : Slot) : (m.setSlot i x).cells = m.cells := rfl
@[simp] theorem Mem.setSlot_pool (m : Mem) (i : Fin 16) (x : Slot) : (m.setSlot i x).pool = m.pool := rfl
@[simp] theorem Mem.setSlot_slots (m : Mem) (i : Fin 16) (x : Slot) :
    (m.setSlot i x).slots = m.slots.set i x := rfl
@[simp] theorem Mem.setSlot_linkLoad (m : Mem) (i : Fin 16) (x : Slot) :
    (m.setSlot i x).linkLoad = m.linkLoad := rfl
@[simp] theorem Mem.setSlot_storageLoad (m : Mem) (i : Fin 16) (x : Slot) :
    (m.setSlot i x).storageLoad = m.storageLoad := rfl
@[simp] theorem Mem.setSlot_loadResult (m : Mem) (i : Fin 16) (x : Slot) :
    (m.setSlot i x).loadResult = m.loadResult := rfl
@[simp] theorem Mem.putByte_pool (m : Mem) (a : Nat) (v : Byte) : (m.putByte a v).pool = m.pool := rfl
@[simp] theorem Mem.putByte_slots (m : Mem) (a : Nat) (v : Byte) : (m.putByte a v).slots = m.slots := rfl
@[simp] theorem Mem.putByte_linkLoad (m : Mem) (a : Nat) (v : Byte) : (m.putByte a v).linkLoad = m.linkLoad := rfl
@[simp] theorem Mem.putBytes_pool (m : Mem) (ws : List Cell) : (m.putBytes ws).pool = m.pool := rfl
@[simp] theorem Mem.putBytes_slots (m : Mem) (ws : List Cell) : (m.putBytes ws).slots = m.slots := rfl
@[simp] theorem Mem.putBytes_linkLoad (m : Mem) (ws : List Cell) : (m.putBytes ws).linkLoad = m.linkLoad := rfl
@[simp] theorem Mem.free_cells (m : Mem) (i : Fin 16) : (m.free i).cells = m.cells := rfl
@[simp] theorem Mem.free_pool (m : Mem) (i : Fin 16) : (m.free i).pool = m.pool ++ m.slots[i].blocks := rfl
@[simp] theorem Mem.free_slots (m : Mem) (i : Fin 16) : (m.free i).slots = m.slots.set i {} := rfl
@[simp] theorem Op.stretched_stage (o : Op) (now : Nat) : (o.stretched now).stage = o.stage := rfl
@[simp] theorem Op.stretched_moved (o : Op) (now : Nat) : (o.stretched now).moved = o.moved := rfl
@[simp] theorem Op.stretched_stretch (o : Op) (now : Nat) :
    (o.stretched now).stretch = some (o.stretch.getD now) := rfl
@[simp] theorem Op.transferred_stage (o : Op) (now : Nat) : (o.transferred now).stage = .busyWait := rfl
@[simp] theorem Op.transferred_moved (o : Op) (now : Nat) : (o.transferred now).moved = o.script := rfl
@[simp] theorem Op.transferred_stretch (o : Op) (now : Nat) : (o.transferred now).stretch = none := rfl

end Sys2Proof.Machine
end

