-- ==== Sys2Proof/Laws/Memory.lean ====
section
/-! SUPPORT. The sparse memory: a read after a write, and the canonical form, for every memory operation. -/
namespace Sys2Proof.Machine
open Sys2Proof

/-- In a canonical memory whose addresses lie above `lo`, an address below `lo` is not listed. -/
theorem Memory.read_below (d : Byte) (m : List Cell) (lo x : Nat) (h : Memory.wfFrom d lo m = true) (hx : x < lo) :
    Memory.read d m x = d := by
  induction m generalizing lo with
  | nil => rfl
  | cons c m ih =>
    obtain ⟨a, b⟩ := c
    simp only [Memory.wfFrom, Bool.and_eq_true, decide_eq_true_eq] at h
    have hne : a ≠ x := by omega
    simp only [Memory.read, hne, if_false]
    exact ih (a + 1) h.2 (by omega)

/-- A canonical form above a bound is canonical above every lower bound. -/
theorem Memory.wfFrom_lower (d : Byte) (m : List Cell) (lo lo' : Nat) (h : Memory.wfFrom d lo m = true)
    (hl : lo' ≤ lo) : Memory.wfFrom d lo' m = true := by
  cases m with
  | nil => rfl
  | cons c m =>
    obtain ⟨a, b⟩ := c
    simp only [Memory.wfFrom, Bool.and_eq_true, decide_eq_true_eq] at h ⊢
    exact ⟨⟨by omega, h.1.2⟩, h.2⟩

/-- A write keeps the canonical form. -/
theorem Memory.wfFrom_write (d : Byte) (m : List Cell) (lo x : Nat) (v : Byte) (h : Memory.wfFrom d lo m = true)
    (hx : lo ≤ x) : Memory.wfFrom d lo (Memory.write d m x v) = true := by
  induction m generalizing lo with
  | nil =>
    unfold Memory.write
    split
    · rfl
    · rename_i hv; simp [Memory.wfFrom, hx, hv]
  | cons c m ih =>
    obtain ⟨a, b⟩ := c
    have h0 := h
    simp only [Memory.wfFrom, Bool.and_eq_true, decide_eq_true_eq] at h
    unfold Memory.write
    split
    · rename_i hlt
      split
      · exact h0
      · rename_i hv
        simp only [Memory.wfFrom, Bool.and_eq_true, decide_eq_true_eq]
        exact ⟨⟨hx, hv⟩, ⟨by omega, h.1.2⟩, h.2⟩
    · split
      · rename_i heq
        subst heq
        split
        · exact Memory.wfFrom_lower d m (x + 1) lo h.2 (by omega)
        · rename_i hv
          simp only [Memory.wfFrom, Bool.and_eq_true, decide_eq_true_eq]
          exact ⟨⟨hx, hv⟩, h.2⟩
      · simp only [Memory.wfFrom, Bool.and_eq_true, decide_eq_true_eq]
        exact ⟨h.1, ih (a + 1) h.2 (by omega)⟩

/-- A write keeps the canonical form of a whole memory. -/
theorem Memory.wf_write (d : Byte) (m : List Cell) (x : Nat) (v : Byte) (h : Memory.wf d m = true) :
    Memory.wf d (Memory.write d m x v) = true := Memory.wfFrom_write d m 0 x v h (Nat.zero_le x)

/-- Several writes keep it. -/
theorem Memory.wf_writeMany (d : Byte) (m ws : List Cell) (h : Memory.wf d m = true) :
    Memory.wf d (Memory.writeMany d m ws) = true := by
  unfold Memory.writeMany
  induction ws generalizing m with
  | nil => exact h
  | cons w ws ih => exact ih _ (Memory.wf_write d m w.1 w.2 h)

/-- A filter by address keeps the canonical form. -/
theorem Memory.wfFrom_filter (d : Byte) (m : List Cell) (lo : Nat) (p : Cell → Bool)
    (h : Memory.wfFrom d lo m = true) : Memory.wfFrom d lo (m.filter p) = true := by
  induction m generalizing lo with
  | nil => rfl
  | cons c m ih =>
    obtain ⟨a, b⟩ := c
    simp only [Memory.wfFrom, Bool.and_eq_true, decide_eq_true_eq] at h
    rw [List.filter_cons]
    split
    · simp only [Memory.wfFrom, Bool.and_eq_true, decide_eq_true_eq]
      exact ⟨h.1, ih (a + 1) h.2⟩
    · exact Memory.wfFrom_lower d _ (a + 1) lo (ih (a + 1) h.2) (by omega)

theorem Memory.wf_filter (d : Byte) (m : List Cell) (p : Cell → Bool) (h : Memory.wf d m = true) :
    Memory.wf d (m.filter p) = true := Memory.wfFrom_filter d m 0 p h

/-- What a write makes an address read as, in a canonical memory. -/
theorem Memory.read_writeFrom (d : Byte) (m : List Cell) (lo x y : Nat) (v : Byte)
    (h : Memory.wfFrom d lo m = true) :
    Memory.read d (Memory.write d m x v) y = if y = x then v else Memory.read d m y := by
  induction m generalizing lo with
  | nil =>
    unfold Memory.write
    split
    · rename_i hv; subst hv; simp [Memory.read]
    · by_cases hy : y = x
      · simp [Memory.read, hy]
      · simp [Memory.read, hy, Ne.symm hy]
  | cons c m ih =>
    obtain ⟨a, b⟩ := c
    simp only [Memory.wfFrom, Bool.and_eq_true, decide_eq_true_eq] at h
    have hbelow : Memory.read d m a = d := Memory.read_below d m (a + 1) a h.2 (by omega)
    unfold Memory.write
    split
    · rename_i hlt
      have hx : Memory.read d m x = d := Memory.read_below d m (a + 1) x h.2 (by omega)
      by_cases hy : y = x
      · subst hy
        split
        · rename_i hv; have hne : a ≠ y := by omega
          simp [Memory.read, hne, hx, hv]
        · simp [Memory.read]
      · split
        · simp
        · simp [Memory.read, Ne.symm hy]
    · split
      · rename_i heq
        subst heq
        by_cases hy : y = x
        · subst hy
          split
          · rename_i hv; simp [hbelow, hv]
          · simp [Memory.read]
        · split
          · simp [Memory.read, Ne.symm hy]
          · simp [Memory.read, Ne.symm hy]
      · rename_i hne
        have := ih (a + 1) h.2
        by_cases hya : a = y
        · subst hya
          simp [Memory.read]
          intro hax; exact absurd hax.symm (by omega)
        · simp [Memory.read, hya, this]

/-- A read after a write. -/
theorem Memory.read_write (d : Byte) (m : List Cell) (x y : Nat) (v : Byte) (h : Memory.wf d m = true) :
    Memory.read d (Memory.write d m x v) y = if y = x then v else Memory.read d m y :=
  Memory.read_writeFrom d m 0 x y v h

/-- Writes elsewhere leave an address as it reads. -/
theorem Memory.read_writeMany_other (d : Byte) (m ws : List Cell) (y : Nat) (h : Memory.wf d m = true)
    (hy : ∀ w ∈ ws, w.1 ≠ y) : Memory.read d (Memory.writeMany d m ws) y = Memory.read d m y := by
  unfold Memory.writeMany
  induction ws generalizing m with
  | nil => rfl
  | cons w ws ih =>
    have hw := hy w (by simp)
    have := ih (Memory.write d m w.1 w.2) (Memory.wf_write d m w.1 w.2 h) fun u hu => hy u (by simp [hu])
    simp only [List.foldl_cons]
    rw [this, Memory.read_write d m w.1 y w.2 h]
    simp [Ne.symm hw]

end Sys2Proof.Machine
end

