-- ==== Sys2Proof/Laws/Moves.lean ====
section
/-! SUPPORT. What a step can do, said once: every command is a chain of small moves, each on one block's state under
a condition that the invariants of `Safety.lean` need. An invariant is then one case per kind of move, and no proof
unfolds a shared operation. -/
namespace Sys2Proof.Machine
open Sys2Proof

/-- One small move. -/
inductive Move : State → State → Prop where
  | time (s : State) (c n : Nat) : Move s { s with clock := c, freeUsed := n }
  | cells (s : State) (ws : List Cell) : Move s (s.onMem fun m => m.putBytes ws)
  | slot (s : State) (i : Fin 16) (x : Slot) (hb : x.blocks = s.mem.slots[i].blocks)
      (hf : x.state = .free → s.mem.slots[i].state = .free) : Move s (s.onMem fun m => m.setSlot i x)
  | free (s : State) (i : Fin 16) : Move s (s.onMem fun m => m.free i)
  | allocate (s : State) (i : Fin 16) (st : SlotState) (w h : Nat) (hst : st ≠ .free)
      (hi : s.mem.slots[i].state = .free) (hp : blocksFor w h ≤ s.mem.pool.length) :
      Move s (s.onMem fun m => m.allocate i st w h)
  | loads (s : State) (a : Option LinkLoad) (b : Option StorageLoad) (c : Option LoadResult) :
      Move s (s.onMem fun m => { m with linkLoad := a, storageLoad := b, loadResult := c })
  | wav (s : State) (w : Wav)
      (h : s.canonical →
        Memory.wf Config.tableDefault w.incoming = true ∧
          ∀ t, w.active = some t → Memory.wf Config.tableDefault t = true) : Move s { s with wav := w }
  | upd (s : State) (u : Upd) (hq : s.upd.queue.length ≤ 16 → u.queue.length ≤ 16)
      (hl : s.upd.log.length ≤ 8 → u.log.length ≤ 8) : Move s { s with upd := u }
  | trn (s : State) (t : Trn) (hf : s.trn.forward.length ≤ 4 → t.forward.length ≤ 4)
      (hb : s.trn.backward.length ≤ 2 → t.backward.length ≤ 2) : Move s { s with trn := t }
  | sns (s : State) (n : Sns) : Move s { s with sns := n }
  | lgt (s : State) (l : Lgt) (h : s.lightSafe → l.safe) : Move s { s with lgt := l }
  | rad (s : State) (r : Rad) (h : s.rad.queue.length ≤ 4 → r.queue.length ≤ 4) : Move s { s with rad := r }
  | spl (s : State) (p : Spl) (hs : p.staging = s.spl.staging) (hb : s.spl.bounded → p.bounded) :
      Move s { s with spl := p }
  | takeStaging (s : State) (h : s.spl.staging = [] → s.spl.budget ≤ s.mem.pool.length) : Move s s.takeStaging
  | returnStaging (s : State) : Move s s.returnStaging
  | sto (s : State) (t : Sto) : Move s { s with sto := t }
  | pwr (s : State) (p : Pwr) (hw : s.pwr.window.length ≤ 4 → p.window.length ≤ 4)
      (hc : s.pwr.lowCeiling ≤ 1000 → p.lowCeiling ≤ 1000) : Move s { s with pwr := p }
  | lnk (s : State) (l : Lnk) : Move s { s with lnk := l }
  | lost (s : State) (y : Supply) (p : Power) : Move s (s.lost y p)
  | drainEnd (s : State) (tag : Byte) : Move s (s.drainEnd tag)
  | fullReset (s : State) (c : ResetCause) : Move s (s.fullReset c)

/-- A chain of small moves. -/
inductive Moves : State → State → Prop where
  | refl (s : State) : Moves s s
  | step {s t u : State} (h : Moves s t) (m : Move t u) : Moves s u

/-- A property that every small move keeps is kept by a chain of them. -/
theorem Moves.keeps {P : State → Prop} (hP : ∀ s t, Move s t → P s → P t) {s t : State} (h : Moves s t) :
    P s → P t := by
  induction h with
  | refl => exact id
  | step _ m ih => exact fun hs => hP _ _ m (ih hs)

theorem Moves.trans {s t u : State} (h : Moves s t) (k : Moves t u) : Moves s u := by
  induction k with
  | refl => exact h
  | step _ m ih => exact .step ih m

theorem Move.one {s t : State} (m : Move s t) : Moves s t := .step (.refl s) m

/-- A chain through a fold. -/
theorem Moves.foldl {α : Type} (f : State → α → State) (hf : ∀ s a, Moves s (f s a)) (l : List α) (s : State) :
    Moves s (l.foldl f s) := by
  induction l generalizing s with
  | nil => exact .refl s
  | cons a l ih => exact (hf s a).trans (ih (f s a))

/-- A chain through a choice. -/
theorem Moves.ite {s t u : State} {p : Prop} [Decidable p] (ht : p → Moves s t) (hu : ¬p → Moves s u) :
    Moves s (if p then t else u) := by
  split
  · exact ht ‹_›
  · exact hu ‹_›

/-! ### Updates that every block admits -/

theorem moves_sns (s : State) (f : Sns → Sns) : Moves s (s.onSns f) := (Move.sns s (f s.sns)).one
theorem moves_sto (s : State) (f : Sto → Sto) : Moves s (s.onSto f) := (Move.sto s (f s.sto)).one
theorem moves_lnk (s : State) (f : Lnk → Lnk) : Moves s (s.onLnk f) := (Move.lnk s (f s.lnk)).one
theorem moves_raise (s : State) (k : Notice) : Moves s (s.raise k) := (Move.lnk s _).one
theorem moves_place (s : State) (r : Reply) : Moves s (s.place r) := (Move.lnk s _).one
theorem moves_answer (s : State) (k t : Byte) (e : Status) (b : List Byte) : Moves s (s.answer k t e b) :=
  (Move.lnk s _).one
theorem moves_reach (s : State) (d : Nat) : Moves s (s.reach d) := (Move.time s (max s.clock d) s.freeUsed).one
theorem moves_newTransaction (s : State) : Moves s s.newTransaction := (Move.lnk s _).one
theorem moves_discardFrame (s : State) : Moves s s.discardFrame := (Move.lnk s _).one

/-- UPD's state changes but for its queue and its log. -/
theorem moves_upd (s : State) (f : Upd → Upd) (hq : (f s.upd).queue = s.upd.queue)
    (hl : (f s.upd).log = s.upd.log) : Moves s (s.onUpd f) :=
  (Move.upd s (f s.upd) (by rw [hq]; exact id) (by rw [hl]; exact id)).one

/-- WAV's state changes but for its tables. -/
theorem moves_wav (s : State) (f : Wav → Wav) (hi : (f s.wav).incoming = s.wav.incoming)
    (ha : (f s.wav).active = s.wav.active) : Moves s (s.onWav f) :=
  (Move.wav s (f s.wav) (by rw [hi, ha]; exact fun h => h.2)).one

/-- TRN's state changes but for its lists. -/
theorem moves_trn (s : State) (f : Trn → Trn) (hf : (f s.trn).forward = s.trn.forward)
    (hb : (f s.trn).backward = s.trn.backward) : Moves s (s.onTrn f) :=
  (Move.trn s (f s.trn) (by rw [hf]; exact id) (by rw [hb]; exact id)).one

/-- RAD's state changes but for its STATUS queue. -/
theorem moves_rad (s : State) (f : Rad → Rad) (h : (f s.rad).queue = s.rad.queue) : Moves s (s.onRad f) :=
  (Move.rad s (f s.rad) (by rw [h]; exact id)).one

/-- SPL's state changes but for its staging, within its capacities. -/
theorem moves_spl (s : State) (f : Spl → Spl) (hs : (f s.spl).staging = s.spl.staging)
    (hb : s.spl.bounded → (f s.spl).bounded) : Moves s (s.onSpl f) :=
  (Move.spl s (f s.spl) hs hb).one

/-- PWR's state changes but for its window and its LOW ceiling. -/
theorem moves_pwr (s : State) (f : Pwr → Pwr) (hw : (f s.pwr).window = s.pwr.window)
    (hc : (f s.pwr).lowCeiling = s.pwr.lowCeiling) : Moves s (s.onPwr f) :=
  (Move.pwr s (f s.pwr) (by rw [hw]; exact id) (by rw [hc]; exact id)).one

end Sys2Proof.Machine
end

