-- ==== Sys2Proof/Laws/Light.lean ====
section
/-! SUPPORT. The light's ceiling law through each of LGT's operations (R110 to R116, R123, R124). -/
namespace Sys2Proof.Machine
open Sys2Proof

/-- A clamped pair lies within the ceiling (R112). -/
theorem Duty.clampTo_sum (d : Duty) (c : Nat) : (d.clampTo c).sum ≤ c := by
  unfold Duty.clampTo
  split
  · rename_i h
    have h0 : 0 < d.sum := by omega
    show d.warm * c / d.sum + d.cool * c / d.sum ≤ c
    have h1 : d.warm * c / d.sum + d.cool * c / d.sum ≤ (d.warm * c + d.cool * c) / d.sum := by
      rw [Nat.le_div_iff_mul_le h0, Nat.add_mul]
      exact Nat.add_le_add (Nat.div_mul_le_self _ _) (Nat.div_mul_le_self _ _)
    have h2 : (d.warm * c + d.cool * c) / d.sum = c := by
      rw [← Nat.add_mul]
      exact Nat.mul_div_cancel_left c h0
    omega
  · omega

/-- A ramp step stays within the larger of the pair's sum and the clamped targets' sum (R114). -/
theorem Lgt.ramp_sum (l : Lgt) : l.ramp.pending.sum ≤ max l.pending.sum l.clamped.sum := by
  simp only [Lgt.ramp, Duty.sum, rampToward]
  split <;> split <;> omega

theorem Lgt.retarget_safe (l : Lgt) (h : l.safe) : l.retarget.safe :=
  ⟨h.1, h.2.1, Duty.clampTo_sum _ _⟩

theorem Lgt.announce_safe (l : Lgt) (c : Nat) (hc : c ≤ 1000) : (l.announce c).safe :=
  ⟨hc, Duty.clampTo_sum _ _, Duty.clampTo_sum _ _⟩

theorem Lgt.ramp_safe (l : Lgt) (h : l.safe) : l.ramp.safe := by
  refine ⟨h.1, ?_, h.2.2⟩
  have := l.ramp_sum
  have h1 := h.2.1
  have h2 := h.2.2
  show l.ramp.pending.sum ≤ l.ceiling
  omega

/-- An update that leaves the ceiling, the pending and the clamped pair leaves the law. -/
theorem Lgt.safe_of_eq {l k : Lgt} (h : l.safe) (hc : k.ceiling = l.ceiling) (hp : k.pending = l.pending)
    (ht : k.clamped = l.clamped) : k.safe := by
  unfold Lgt.safe at *
  rw [hc, hp, ht]
  exact h

theorem Lgt.missed_safe (l : Lgt) (h : l.safe) : l.missed.safe := h
theorem Lgt.skip_safe (l : Lgt) (h : l.safe) : l.skip.safe := h

theorem Lgt.cancelDecided_safe (l : Lgt) (h : l.safe) : l.cancelDecided.safe := by
  unfold Lgt.cancelDecided
  split <;> exact h

theorem Lgt.forceOff_safe (l : Lgt) (h : l.safe) : l.forceOff.safe := by
  refine ⟨?_, Nat.zero_le _, Nat.zero_le _⟩
  have := l.cancelDecided_safe h
  exact this.1

theorem Lgt.enterDeep_safe (l : Lgt) (h : l.safe) : l.enterDeep.safe := l.forceOff_safe h

theorem Lgt.opportunity_safe (l : Lgt) (b : Bool) (n : Nat) (h : l.safe) : (l.opportunity b n).safe := by
  unfold Lgt.opportunity
  split
  · exact h
  · split
    · exact h
    · split <;> exact h

theorem Lgt.rampAt_safe (l : Lgt) (n : Nat) (h : l.safe) : (l.rampAt n).safe := by
  unfold Lgt.rampAt
  split
  · exact l.ramp_safe h
  · exact h

theorem Lgt.boundary_safe (l : Lgt) (b : Bool) (n : Nat) (h : l.safe) : (l.boundary b n).safe := by
  have hr := l.rampAt_safe ((l.index + 1) % 64) h
  simp only [Lgt.boundary]
  split
  · exact Lgt.opportunity_safe _ _ _ hr
  · exact hr

theorem Lgt.reauto_safe (l : Lgt) (h : l.safe) : l.reauto.safe := by
  simp only [Lgt.reauto]
  split
  · split
    · exact Lgt.retarget_safe _ h
    · exact h
  · exact h

theorem Lgt.sample_safe (l : Lgt) (raw : Nat) (h : l.safe) : (l.sample raw).safe :=
  Lgt.reauto_safe _ h

theorem Lgt.set_safe (l : Lgt) (m : LightMode) (b x : Nat) (h : l.safe) : (l.set m b x).safe := by
  cases m <;> exact Lgt.retarget_safe _ h

theorem Lgt.toggle_safe (l : Lgt) (h : l.safe) : l.toggle.safe := by
  simp only [Lgt.toggle]
  split <;> exact Lgt.retarget_safe _ h

theorem Lgt.setCurve_safe (l : Lgt) (c : Curve) (h : l.safe) : (l.setCurve c).safe := by
  simp only [Lgt.setCurve]
  split
  · exact Lgt.reauto_safe _ h
  · exact h

/-- LGT's state changes by an operation that keeps the law. -/
theorem moves_lgt (s : State) (f : Lgt → Lgt) (h : s.lgt.safe → (f s.lgt).safe) : Moves s (s.onLgt f) :=
  (Move.lgt s (f s.lgt) fun hs => h hs.1).one

end Sys2Proof.Machine
end

