-- ==== Sys2Proof/Laws/Spool.lean ====
section
/-! SUPPORT. SPL keeps its capacities (`Spl.bounded`): the received runs of a record, and the updates of its table and
its staging (R133, R135, R141). -/
namespace Sys2Proof.Machine
open Sys2Proof

/-! ### Received runs (R133, R141) -/

/-- A bound below every run and below the new index stays below every run. -/
theorem addRun_above (i k : Nat) (runs : List (Nat × Nat)) (hk : k < i) (h : ∀ r ∈ runs, k < r.1) :
    ∀ r ∈ addRun i runs, k < r.1 := by
  induction runs with
  | nil => simpa [addRun] using hk
  | cons a rest ih =>
    obtain ⟨a, b⟩ := a
    have ha : k < a := h (a, b) List.mem_cons_self
    have hr : ∀ r ∈ rest, k < r.1 := fun r hr => h r (List.mem_cons_of_mem _ hr)
    simp only [addRun]
    repeat' split
    · exact List.forall_mem_cons.2 ⟨hk, h⟩
    · exact List.forall_mem_cons.2 ⟨hk, hr⟩
    · exact h
    · exact List.forall_mem_cons.2 ⟨ha, fun r hm => hr r (List.mem_cons_of_mem _ hm)⟩
    · exact List.forall_mem_cons.2 ⟨ha, hr⟩
    · exact List.forall_mem_cons.2 ⟨ha, hr⟩
    · exact List.forall_mem_cons.2 ⟨ha, ih hr⟩

/-- An index that joins the runs leaves them in order (R141). -/
theorem addRun_ordered (i : Nat) (runs : List (Nat × Nat)) (h : ∀ r ∈ runs, r.1 ≤ r.2)
    (hp : runs.Pairwise fun r q => r.2 + 1 < q.1) :
    (∀ r ∈ addRun i runs, r.1 ≤ r.2) ∧ (addRun i runs).Pairwise fun r q => r.2 + 1 < q.1 := by
  induction runs with
  | nil => simp [addRun]
  | cons a rest ih =>
    obtain ⟨a, b⟩ := a
    have hab : a ≤ b := h (a, b) List.mem_cons_self
    have hr : ∀ r ∈ rest, r.1 ≤ r.2 := fun r hm => h r (List.mem_cons_of_mem _ hm)
    obtain ⟨hb, hp'⟩ := List.pairwise_cons.1 hp
    simp only [addRun]
    repeat' split
    · exact ⟨List.forall_mem_cons.2 ⟨Nat.le_refl i, h⟩, .cons (List.forall_mem_cons.2 ⟨‹_›, fun r hm => by
        have := hb r hm; simp only at this ⊢; omega⟩) hp⟩
    · exact ⟨List.forall_mem_cons.2 ⟨by simp only; omega, hr⟩, .cons hb hp'⟩
    · exact ⟨h, hp⟩
    · rename_i c e more _
      obtain ⟨he, hp''⟩ := List.pairwise_cons.1 hp'
      have hc := hb (c, e) List.mem_cons_self
      have hce := hr (c, e) List.mem_cons_self
      exact ⟨List.forall_mem_cons.2 ⟨by simp only at *; omega, fun r hm => hr r (List.mem_cons_of_mem _ hm)⟩, .cons he hp''⟩
    · rename_i c e more hc
      have hc' := hb (c, e) List.mem_cons_self
      refine ⟨List.forall_mem_cons.2 ⟨by simp only; omega, hr⟩, .cons (List.forall_mem_cons.2 ⟨?_, fun r hm => ?_⟩) hp'⟩
      · simp only at *; omega
      · have h1 := (List.pairwise_cons.1 hp').1 r hm
        have h2 := hr (c, e) List.mem_cons_self
        simp only at *; omega
    · exact ⟨by simp only [List.mem_singleton, forall_eq]; omega, List.pairwise_singleton _ _⟩
    · obtain ⟨h1, h2⟩ := ih hr hp'
      refine ⟨List.forall_mem_cons.2 ⟨hab, h1⟩, .cons ?_ h2⟩
      exact addRun_above i (b + 1) rest (by omega) hb

theorem addRun_length (i : Nat) (runs : List (Nat × Nat)) : (addRun i runs).length ≤ runs.length + 1 := by
  induction runs with
  | nil => simp [addRun]
  | cons a rest ih =>
    obtain ⟨a, b⟩ := a
    simp only [addRun]
    repeat' split
    all_goals simp only [List.length_cons, List.length_nil] at *; omega

/-- An index that touches a run starts no new one (R141). -/
theorem addRun_touching (i : Nat) (runs : List (Nat × Nat)) (h : ∀ r ∈ runs, r.1 ≤ r.2)
    (hp : runs.Pairwise fun r q => r.2 + 1 < q.1) (ht : touchesRun runs i = true) :
    (addRun i runs).length ≤ runs.length := by
  induction runs with
  | nil => simp [touchesRun] at ht
  | cons a rest ih =>
    obtain ⟨a, b⟩ := a
    have hab : a ≤ b := h (a, b) List.mem_cons_self
    have hr : ∀ r ∈ rest, r.1 ≤ r.2 := fun r hm => h r (List.mem_cons_of_mem _ hm)
    obtain ⟨hb, hp'⟩ := List.pairwise_cons.1 hp
    simp only [addRun]
    repeat' split
    · exfalso
      simp only [touchesRun, List.any_eq_true, List.mem_cons, Bool.or_eq_true, decide_eq_true_eq] at ht
      obtain ⟨r, rfl | hm, ht⟩ := ht
      · simp only at ht; omega
      · have h1 := hb r hm
        have h2 := hr r hm
        simp only at h1; omega
    · exact Nat.le_refl _
    · exact Nat.le_refl _
    · simp
    · exact Nat.le_refl _
    · exact Nat.le_refl _
    · refine Nat.succ_le_succ (ih hr hp' ?_)
      simp only [touchesRun, List.any_cons, Bool.or_eq_true, decide_eq_true_eq] at ht ⊢
      rcases ht with ht | ht
      · omega
      · exact ht

/-- The runs that test 6 of R140 lets an index join stay as R133 has them. -/
theorem addRun_good (i : Nat) (runs : List (Nat × Nat)) (h : goodRuns runs)
    (hr : touchesRun runs i = true ∨ runs.length < 8) : goodRuns (addRun i runs) := by
  refine ⟨?_, addRun_ordered i runs h.2.1 h.2.2⟩
  rcases hr with ht | hl
  · exact Nat.le_trans (addRun_touching i runs h.2.1 h.2.2 ht) h.1
  · have := addRun_length i runs
    omega

theorem runsOfPages_good (d : Download) (n : Nat) : goodRuns (d.runsOfPages n) := by
  simp only [Download.runsOfPages]
  split
  · exact ⟨Nat.zero_le _, by simp, .nil⟩
  · exact ⟨by simp, by simp, List.pairwise_singleton _ _⟩

/-! ### SPL's updates -/

/-- A change of a record that keeps its id and the order of its runs. -/
def Download.Tame (f : Download → Download) : Prop :=
  ∀ d : Download, (f d).id = d.id ∧ (goodRuns d.runs → goodRuns (f d).runs)

theorem Spl.update_ids (p : Spl) (id : Byte) (f : Download → Download) (h : ∀ d, (f d).id = d.id) :
    (p.update id f).table.map Download.id = p.table.map Download.id := by
  simp only [Spl.update, List.map_map]
  refine List.map_congr_left fun d _ => ?_
  simp only [Function.comp]
  split
  · exact h d
  · rfl

/-- The records of an id are changed, each within its capacity. -/
theorem Spl.update_bounded (p : Spl) (id : Byte) (f : Download → Download) (hid : ∀ d, (f d).id = d.id)
    (hr : ∀ d ∈ p.table, d.id = id → goodRuns d.runs → goodRuns (f d).runs) (h : p.bounded) :
    (p.update id f).bounded := by
  obtain ⟨h1, h2, h3, h4⟩ := h
  refine ⟨by simpa [Spl.update] using h1, by rw [Spl.update_ids p id f hid]; exact h2, fun d hd => ?_, h4⟩
  simp only [Spl.update, List.mem_map] at hd
  obtain ⟨e, he, rfl⟩ := hd
  split
  · exact hr e he ‹_› (h3 e he)
  · exact h3 e he

theorem Spl.update_tame (p : Spl) (id : Byte) {f : Download → Download} (hf : Download.Tame f) (h : p.bounded) :
    (p.update id f).bounded :=
  p.update_bounded id f (fun d => (hf d).1) (fun d _ _ => (hf d).2) h

/-- Segments leave staging. -/
theorem Spl.filterStaged_bounded (p : Spl) (keep : Staged → Bool) (h : p.bounded) :
    Spl.bounded { p with staged := p.staged.filter keep } :=
  ⟨h.1, h.2.1, h.2.2.1, h.2.2.2.1, h.2.2.2.2.1, Nat.le_trans (List.length_filter_le _ _) h.2.2.2.2.2⟩

theorem Spl.discardStaged_bounded (p : Spl) (id : Byte) (h : p.bounded) : (p.discardStaged id).bounded :=
  p.filterStaged_bounded (fun g => decide (g.id ≠ id)) h

theorem Spl.remove_bounded (p : Spl) (id : Byte) (h : p.bounded) : (p.remove id).bounded := by
  obtain ⟨h1, h2, h3, h4, h5, h6⟩ := h
  have hs : List.Sublist (p.table.eraseP fun d => d.id = id) p.table := List.eraseP_sublist
  exact ⟨Nat.le_trans hs.length_le h1, h2.sublist (hs.map _), fun d hd => h3 d (hs.mem hd), h4, h5,
    Nat.le_trans (List.length_filter_le _ _) h6⟩

theorem Spl.programmed_bounded (p : Spl) (id : Byte) (page : Nat) (h : p.bounded) : (p.programmed id page).bounded :=
  Spl.filterStaged_bounded _ _ (p.update_tame id (fun _ => ⟨rfl, fun h => h⟩) h)

/-- The records of an id are one where ids are distinct. -/
theorem find_unique (p : Spl) (h : (p.table.map Download.id).Nodup) {id : Byte} {d e : Download}
    (hd : p.find id = some d) (he : e ∈ p.table) (hid : e.id = id) : e = d := by
  have hm := List.mem_of_find?_eq_some hd
  have hd' : d.id = id := by simpa using List.find?_some hd
  clear hd
  generalize p.table = l at *
  induction l with
  | nil => cases he
  | cons a l ih =>
    simp only [List.map_cons, List.nodup_cons, List.mem_map, not_exists, not_and] at h
    rcases List.mem_cons.1 he with h1 | h1 <;> rcases List.mem_cons.1 hm with h2 | h2
    · exact h1.trans h2.symm
    · exact absurd (hd'.trans (hid.symm.trans (congrArg Download.id h1))) (h.1 d h2)
    · exact absurd (hid.trans (hd'.symm.trans (congrArg Download.id h2))) (h.1 e h1)
    · exact ih h.2 h1 h2

/-- A segment that passes the tests of R140 finds its record with room in its runs and in staging. -/
theorem judge_stores (s : State) (g : Segment) (d : Download) (b : Nat) (h : s.judge g = .stores d b) :
    s.spl.find g.id = some d ∧ (touchesRun d.runs g.index = true ∨ d.runs.length < 8) ∧
      s.spl.staged.length < s.spl.staging.length := by
  unfold State.judge at h
  split at h
  · cases h
  · rename_i e he
    repeat' split at h
    all_goals try cases h
    rename_i h6 h7 _
    refine ⟨he, ?_, ?_⟩
    · by_cases ht : touchesRun d.runs g.index = true
      · exact .inl ht
      · simp only [Bool.not_eq_true] at ht
        simp [ht] at h6
        exact .inr h6
    · simp only [Bool.not_eq_true', Bool.not_eq_false, Spl.hasRoom, Spl.freeBlocks] at h7
      split at h7 <;> have := of_decide_eq_true h7 <;> omega

/-- The record and the staging after an acceptance (R140 test 8). -/
theorem Spl.accept_bounded (p : Spl) (id : Byte) (i stall block : Nat) (d : Download) (hd : p.find id = some d)
    (hr : touchesRun d.runs i = true ∨ d.runs.length < 8) (hs : p.staged.length < p.staging.length) (h : p.bounded) :
    Spl.bounded
      { p.update id fun d => d.accept i stall with staged := p.staged ++ [⟨id, i, block⟩] } := by
  have k := p.update_bounded id (fun d => d.accept i stall)
    (fun d => by simp only [Download.accept]; split <;> rfl)
    (fun e he hid hg => by
      rw [find_unique p h.2.1 hd he hid] at hg ⊢
      have := addRun_good i d.runs hg hr
      simp only [Download.accept]
      split <;> exact this) h
  refine ⟨k.1, k.2.1, k.2.2.1, k.2.2.2.1, k.2.2.2.2.1, ?_⟩
  show (p.staged ++ [_]).length ≤ p.staging.length
  simp only [List.length_append, List.length_singleton]
  omega

/-- A new record joins the table (R134). -/
theorem Spl.arm_bounded (p : Spl) (d : Download) (hn : p.find d.id = none) (hl : p.table.length < 4)
    (hr : goodRuns d.runs) (h : p.bounded) : Spl.bounded { p with table := p.table ++ [d] } := by
  obtain ⟨_, h2, h3, h4⟩ := h
  refine ⟨by simp only [List.length_append, List.length_singleton]; omega, ?_, ?_, h4⟩
  · show (List.map Download.id (p.table ++ [d])).Nodup
    rw [List.map_append, List.nodup_append]
    refine ⟨h2, by simp, fun a ha b hb => ?_⟩
    simp only [List.mem_map] at ha
    obtain ⟨e, he, rfl⟩ := ha
    rw [List.map_singleton, List.mem_singleton] at hb
    subst hb
    have := List.find?_eq_none.1 hn e he
    simpa using this
  · intro e he
    rcases List.mem_append.1 he with he | he
    · exact h3 e he
    · rw [List.mem_singleton.1 he]
      exact hr

/-- Every stall timer stops (R151). -/
theorem Spl.mapTable_bounded (p : Spl) {f : Download → Download} (h : p.bounded)
    (hf : Download.Tame f := by exact fun _ => ⟨rfl, fun h => h⟩) :
    Spl.bounded { p with table := p.table.map f } := by
  obtain ⟨h1, h2, h3, h4⟩ := h
  refine ⟨by simpa using h1, ?_, ?_, h4⟩
  · have : List.map Download.id (p.table.map f) = p.table.map Download.id := by
      simp only [List.map_map]
      exact List.map_congr_left fun d _ => (hf d).1
    rw [this]
    exact h2
  · intro d hd
    simp only [List.mem_map] at hd
    obtain ⟨e, he, rfl⟩ := hd
    exact (hf e).2 (h3 e he)

/-- Staging is taken within the budget (R135). -/
theorem takeStaging_bounded (s : State) (h : s.spl.bounded) : s.takeStaging.spl.bounded := by
  unfold State.takeStaging
  split
  · rename_i h0
    obtain ⟨h1, h2, h3, h4, h5, h6⟩ := h
    rw [h0] at h6
    refine ⟨h1, h2, h3, h4, Nat.le_trans (List.length_take_le _ _) h4, ?_⟩
    exact Nat.le_trans h6 (Nat.zero_le _)
  · exact h

/-- Staging returns to the pool empty (R135). -/
theorem returnStaging_bounded (s : State) (h : s.spl.bounded) : s.returnStaging.spl.bounded := by
  unfold State.returnStaging
  split
  · exact h
  · exact ⟨h.1, h.2.1, h.2.2.1, h.2.2.2.1, Nat.zero_le _, Nat.le_refl 0⟩

end Sys2Proof.Machine
end

