-- ==== Sys2Proof/Laws/Operations.lean ====
section
/-! SUPPORT. Each shared operation is a chain of small moves (`Moves`). -/
namespace Sys2Proof.Machine
open Sys2Proof

/-! ### MEM (chapter 1) -/

theorem moves_cells (s : State) (ws : List Cell) : Moves s (s.onMem fun m => m.putBytes ws) := (Move.cells s ws).one

theorem moves_loads (s : State) (a : Option LinkLoad) (b : Option StorageLoad) (c : Option LoadResult) :
    Moves s (s.onMem fun m => { m with linkLoad := a, storageLoad := b, loadResult := c }) := (Move.loads s a b c).one

theorem moves_free (s : State) (i : Fin 16) : Moves s (s.onMem fun m => m.free i) := (Move.free s i).one

theorem moves_slot (s : State) (i : Fin 16) (x : Slot) (hb : x.blocks = s.mem.slots[i].blocks)
    (hf : x.state = .free → s.mem.slots[i].state = .free) : Moves s (s.onMem fun m => m.setSlot i x) :=
  (Move.slot s i x hb hf).one

theorem moves_setOwner (s : State) (i : Fin 16) (o : Owner) (t : Option U32) :
    Moves s (s.onMem fun m => m.setOwner i o t) := moves_slot s i _ rfl id

theorem moves_pin (s : State) (i : Fin 16) : Moves s (s.onMem fun m => m.pin i) := moves_slot s i _ rfl id

theorem moves_unpin (s : State) (i : Fin 16) : Moves s (s.onMem fun m => m.unpin i) := by
  have h : (s.onMem fun m => m.unpin i) =
      if s.mem.slots[i].state = .releasing ∧ s.mem.slots[i].pins ≤ 1 then s.onMem fun m => m.free i
      else s.onMem fun m => m.setSlot i { m.slots[i] with pins := m.slots[i].pins - 1 } := by
    simp only [State.onMem, Mem.unpin]
    split <;> rfl
  rw [h]
  exact .ite (fun _ => moves_free s i) fun _ => moves_slot s i _ rfl id

theorem moves_drop (s : State) (i : Fin 16) : Moves s (s.onMem fun m => m.drop i) := by
  have h : (s.onMem fun m => m.drop i) =
      if s.mem.slots[i].pins = 0 then s.onMem fun m => m.free i
      else s.onMem fun m => m.setSlot i { m.slots[i] with state := .releasing } := by
    simp only [State.onMem, Mem.drop]
    split <;> rfl
  rw [h]
  exact .ite (fun _ => moves_free s i) fun _ => moves_slot s i _ rfl (by intro h; cases h)

/-- A change of MEM's load records alone. -/
theorem moves_memRest (s : State) (f : Mem → Mem) (hc : (f s.mem).cells = s.mem.cells)
    (hp : (f s.mem).pool = s.mem.pool) (hs : (f s.mem).slots = s.mem.slots) : Moves s (s.onMem f) := by
  have : s.onMem f =
      s.onMem fun m => ⟨m.cells, m.pool, m.slots, (f s.mem).linkLoad, (f s.mem).storageLoad, (f s.mem).loadResult⟩ := by
    simp only [State.onMem]
    rw [← hc, ← hp, ← hs]
  rw [this]
  exact moves_loads s _ _ _

theorem moves_dropHeld (s : State) : Moves s (s.onMem Mem.dropHeld) := moves_memRest s _ rfl rfl rfl

theorem moves_clearResult (s : State) (i : Fin 16) : Moves s (s.onMem fun m => m.clearResult i) := by
  apply moves_memRest <;> simp only [Mem.clearResult] <;> split <;> first | rfl | (split <;> rfl)

theorem moves_putSlotLevel (s : State) (i : Fin 16) (n : Nat) (l : Level) :
    Moves s (s.onMem fun m => m.putSlotLevel i n l) := by
  cases h : pixelAddr s.mem.slots[i].blocks n with
  | none =>
    have : (s.onMem fun m => m.putSlotLevel i n l) = s := by simp only [State.onMem, Mem.putSlotLevel, h]
    rw [this]
    exact .refl s
  | some a =>
    have : (s.onMem fun m => m.putSlotLevel i n l) =
        s.onMem fun m => m.putBytes [(a, putNibble (s.mem.byteAt a) n l)] := by
      simp only [State.onMem, Mem.putSlotLevel, h, Mem.putByte, Mem.putBytes, Memory.writeMany, List.foldl_cons,
        List.foldl_nil]
    rw [this]
    exact moves_cells s _

theorem moves_putAtCursor (s : State) (l : LinkLoad) (v : Level) : Moves s (s.onMem fun m => m.putAtCursor l v) :=
  (moves_putSlotLevel s l.slot l.cursor v).trans
    (moves_memRest (s.onMem fun m => m.putSlotLevel l.slot l.cursor v)
      (fun m => { m with linkLoad := some { l with cursor := l.cursor + 1, written := max l.written (l.cursor + 1) } })
      rfl rfl rfl)

theorem moves_applyLevel (s : State) (v : Level) : Moves s (s.onMem fun m => m.applyLevel v) := by
  cases h : s.mem.linkLoad with
  | none =>
    have : (s.onMem fun m => m.applyLevel v) = s := by simp [State.onMem, Mem.applyLevel, h]
    rw [this]
    exact .refl s
  | some l =>
    have : (s.onMem fun m => m.applyLevel v) =
        if l.cursor < s.mem.slots[l.slot].pixels then s.onMem fun m => m.putAtCursor l v
        else
          match l.endBehaviour with
          | .stop => s.onMem fun m => { m with linkLoad := some { l with overflow := true } }
          | .wrap =>
            s.onMem fun m => m.putAtCursor { l with cursor := 0, written := s.mem.slots[l.slot].pixels } v := by
      simp only [State.onMem, Mem.applyLevel, h]
      split
      · rfl
      · cases l.endBehaviour <;> rfl
    rw [this]
    refine .ite (fun _ => moves_putAtCursor s l v) fun _ => ?_
    cases l.endBehaviour
    · exact moves_memRest s _ rfl rfl rfl
    · exact moves_putAtCursor s _ v

theorem onMem_foldl (s : State) (f : Mem → Level → Mem) (vs : List Level) :
    (s.onMem fun m => vs.foldl f m) = vs.foldl (fun s v => s.onMem fun m => f m v) s := by
  induction vs generalizing s with
  | nil => rfl
  | cons v vs ih => exact ih (s.onMem fun m => f m v)

theorem moves_applyByte (s : State) (v : Byte) : Moves s (s.onMem fun m => m.applyByte v) := by
  cases h : s.mem.linkLoad with
  | none =>
    have : (s.onMem fun m => m.applyByte v) = s := by simp [State.onMem, Mem.applyByte, h]
    rw [this]
    exact .refl s
  | some l =>
    have : (s.onMem fun m => m.applyByte v) =
        (s.onMem fun m => (l.format.levels v).foldl Mem.applyLevel m).onMem Mem.dropHeld := by
      simp [State.onMem, Mem.applyByte, h]
    rw [this, onMem_foldl]
    exact (Moves.foldl _ moves_applyLevel _ s).trans (moves_dropHeld _)

/-! ### Memory laws of WAV (chapter 2) -/

theorem moves_adopt (s : State) : Moves s s.adopt :=
  (Move.wav s s.wav.adopt fun h => ⟨rfl, by
    intro t ht
    have : s.wav.incoming = t := by simpa [Wav.adopt] using ht
    rw [← this]
    exact h.2.1⟩).one.trans (moves_raise _ _)

theorem moves_wavWrite (s : State) (o : Nat) (d : List Byte) : Moves s (s.onWav fun w => w.writeData o d) :=
  (Move.wav s (s.wav.writeData o d) fun h =>
    ⟨Memory.wf_writeMany _ _ _ h.2.1, fun t ht => h.2.2 t ht⟩).one

theorem moves_wavRefuse (s : State) (f : CommitFault) : Moves s (s.onWav fun w => w.refuse f) :=
  (Move.wav s (s.wav.refuse f) fun h => ⟨rfl, fun t ht => h.2.2 t ht⟩).one

theorem moves_adoptIfStill (s : State) : Moves s s.adoptIfStill :=
  .ite (fun _ => moves_adopt s) fun _ => .refl s

/-! ### RAD and SPL (chapter 7) -/

theorem length_eraseP_of_any {α : Type} (p : α → Bool) (l : List α) (h : l.any p = true) :
    (l.eraseP p).length + 1 = l.length := by
  induction l with
  | nil => simp at h
  | cons a l ih =>
    by_cases ha : p a
    · simp [ha]
    · simp only [List.any_cons, ha, Bool.false_or] at h
      simp [ha, ih h]

/-- The STATUS queue holds at most 4 entries (R132). -/
theorem enqueueStatus_length (known : Byte → Bool) (q : List StatusEntry) (e : StatusEntry) (h : q.length ≤ 4) :
    (enqueueStatus known q e).length ≤ 4 := by
  unfold enqueueStatus
  split
  · simpa using h
  · split
    · rename_i h4; simp; omega
    · split
      · split
        · rename_i ha
          have := length_eraseP_of_any _ _ ha
          simp; omega
        · exact h
      · exact h

theorem moves_transmit (s : State) : Moves s s.transmit := by
  unfold State.transmit
  refine .ite (fun _ => ?_) fun _ => .refl s
  split
  · rename_i e rest hq
    exact (Move.rad s { s.rad with sending := some e.bytes, queue := rest } (by
      rw [hq]; intro h; exact Nat.le_of_succ_le h)).one
  · exact .refl s

theorem moves_status (s : State) (id : Byte) (n : Nat) (r : SegResult) : Moves s (s.status id n r) :=
  (Move.rad s _ (enqueueStatus_length (fun i => (s.spl.find i).isSome) _ _)).one.trans (moves_transmit _)

theorem moves_splUpdate (s : State) (id : Byte) {f : Download → Download}
    (hf : Download.Tame f := by exact fun _ => ⟨rfl, fun h => h⟩) :
    Moves s (s.onSpl fun p => p.update id f) := moves_spl s _ rfl (s.spl.update_tame id hf)

theorem moves_countDiscard (s : State) (id : Byte) : Moves s (s.countDiscard id) :=
  moves_splUpdate s id

theorem moves_settleAssembling (s : State) (b : Buffer) : Moves s (s.onRad fun r => r.settleAssembling b) := by
  apply moves_rad
  simp only [Rad.settleAssembling]
  split
  · rfl
  · split <;> rfl

theorem moves_clearWaiting (s : State) : Moves s (s.onRad Rad.clearWaiting) := by
  apply moves_rad
  simp only [Rad.clearWaiting]
  split <;> rfl

theorem moves_claim (s : State) : Moves s (s.onRad Rad.claim) := by
  apply moves_rad
  simp only [Rad.claim]
  split
  · rfl
  · split <;> rfl

/-! ### STO (chapter 8) -/

theorem moves_stoArbitrate (s : State) : Moves s s.stoArbitrate := by
  unfold State.stoArbitrate
  refine .ite (fun _ => ?_) fun _ => .refl s
  split
  · exact moves_sto s _
  · exact .refl s

theorem moves_stoPlace (s : State) (r : Requester) (q : StoRequest) : Moves s (s.stoPlace r q) :=
  .ite (fun _ => .refl s) fun _ => moves_sto s _

theorem moves_splNext (s : State) : Moves s s.splNext := by
  unfold State.splNext
  refine .ite (fun _ => .refl s) fun _ => ?_
  split
  · exact (moves_spl s _ rfl fun h => h).trans (moves_stoPlace _ _ _)
  · exact .refl s

theorem moves_withdrawFor (s : State) (id : Byte) : Moves s (s.withdrawFor id) := by
  unfold State.withdrawFor
  split
  · exact .ite (fun _ => moves_sto s _) fun _ => .refl s
  · exact .refl s

theorem moves_dropSegment (s : State) (g : Segment) (r : SegResult) : Moves s (s.dropSegment g r) :=
  (moves_countDiscard s g.id).trans (moves_status _ _ _ _)

theorem moves_outcome (s : State) (g : Segment) (r : SegResult) : Moves s (s.outcome g r) :=
  .ite (fun _ => moves_dropSegment s g r) fun _ => moves_status s _ _ _

/-- A segment is stored as `State.judge` decides it, in a state with the same SPL. -/
theorem moves_store (s t : State) (g : Segment) (d : Download) (b : Nat) (h : s.judge g = .stores d b)
    (ht : t.spl = s.spl) : Moves t (t.store g b) := by
  obtain ⟨hd, hr, hs⟩ := judge_stores s g d b h
  rw [← ht] at hd hs
  refine ((moves_cells t _).trans (moves_spl _ _ rfl ?_)).trans (moves_status _ _ _ _)
  exact t.spl.accept_bounded g.id g.index _ b d hd hr hs

theorem moves_examineWaiting (s : State) : Moves s s.examineWaiting := by
  unfold State.examineWaiting
  refine .ite (fun _ => .refl s) fun _ => ?_
  split
  · exact .refl s
  · split
    · exact .refl s
    · exact (moves_clearWaiting s).trans (moves_outcome _ _ _)
    · exact (moves_clearWaiting s).trans (moves_store s _ _ _ _ ‹_› rfl)

theorem moves_spooler (s : State) (examine : Bool) : Moves s (s.spooler examine) :=
  ((((Move.returnStaging s).one.trans (moves_splNext _)).trans
    (.ite (fun _ => moves_examineWaiting _) fun _ => .refl _)).trans (moves_splNext _)).trans (moves_stoArbitrate _)

theorem moves_takeSegment (s : State) (g : Segment) : Moves s (s.takeSegment g) := by
  unfold State.takeSegment
  refine .ite (fun _ => (moves_settleAssembling s _).trans (moves_dropSegment _ _ _)) fun _ => ?_
  split
  · exact (moves_settleAssembling s _).trans (moves_outcome _ _ _)
  · exact (moves_settleAssembling s _).trans (moves_store s _ _ _ _ ‹_› rfl)
  · exact .ite (fun _ => (moves_settleAssembling s _).trans (moves_dropSegment _ _ _))
      fun _ => moves_settleAssembling s _

theorem moves_releaseRecord (s : State) (id : Byte) {f : Download → Download}
    (hf : Download.Tame f := by exact fun _ => ⟨rfl, fun h => h⟩) :
    Moves s (s.releaseRecord id f) :=
  (moves_spl s _ rfl fun h => Spl.discardStaged_bounded _ id
    (s.spl.update_tame id (f := fun d => { f d with stall := none }) hf h)).trans (moves_withdrawFor _ _)

theorem moves_suspend (s : State) (id : Byte) (w : DlFault) : Moves s (s.suspend id w) :=
  moves_releaseRecord s id (by exact fun d => ⟨rfl, fun _ => runsOfPages_good d _⟩)

theorem moves_abort (s : State) (id : Byte) : Moves s (s.abort id) :=
  (moves_releaseRecord s id (by exact fun d => ⟨rfl, fun _ => runsOfPages_good d _⟩)).trans (moves_raise _ _)

theorem moves_failStorage (s : State) (id : Byte) (w : DlFault) : Moves s (s.failStorage id w) :=
  (moves_releaseRecord s id (by exact fun d => ⟨rfl, fun _ => runsOfPages_good d _⟩)).trans (moves_raise _ _)

theorem moves_removeRecord (s : State) (id : Byte) : Moves s (s.removeRecord id) :=
  (moves_withdrawFor s id).trans (moves_spl _ _ rfl (Spl.remove_bounded _ id))

theorem moves_completeRecord (s : State) (id : Byte) : Moves s (s.completeRecord id) := by
  unfold State.completeRecord
  split
  · exact .ite (fun _ => (moves_splUpdate s _).trans (moves_raise _ _)) fun _ => .refl s
  · exact .refl s

theorem moves_finishRemoval (s : State) (id : Byte) : Moves s (s.finishRemoval id) := by
  refine (moves_removeRecord s id).trans ?_
  show Moves (s.removeRecord id) (s.finishRemoval id)
  simp only [State.finishRemoval]
  split
  · exact .ite (fun _ => moves_answer _ _ _ _ _) fun _ => .refl _
  · exact .refl _

theorem moves_spoolerDone (s : State) (o : Op) (out : OpOutcome) : Moves s (s.spoolerDone o out) := by
  unfold State.spoolerDone
  split
  · exact .refl s
  · refine .ite (fun _ => moves_finishRemoval s _) fun _ => ?_
    split
    · split
      · exact moves_splUpdate s _
      · exact (moves_spl s _ rfl (s.spl.programmed_bounded _ _)).trans (moves_completeRecord _ _)
      · exact .refl s
    · exact .ite (fun _ => moves_failStorage s _ _) fun _ => .refl s
    · exact .ite (fun _ => moves_failStorage s _ _) fun _ => .refl s

theorem moves_loaderNext (s : State) : Moves s s.loaderNext := by
  unfold State.loaderNext
  split
  · exact .ite (fun _ => moves_stoPlace s _ _) fun _ => .refl s
  · exact .refl s

theorem moves_pageRead (s : State) (l : StorageLoad) (d : List Byte) : Moves s (s.pageRead l d) := by
  have h1 := moves_cells s (s.mem.pageWrites s.mem.slots[l.slot] l.written d)
  refine h1.trans ?_
  simp only [State.pageRead]
  refine .ite (fun _ => ?_) fun _ => ?_
  · exact (moves_loads (s.onMem fun m => m.putBytes (s.mem.pageWrites s.mem.slots[l.slot] l.written d)) _ _ _).trans
      (moves_loaderNext _)
  · refine ((moves_slot (s.onMem fun m => m.putBytes (s.mem.pageWrites s.mem.slots[l.slot] l.written d)) l.slot
      { s.mem.slots[l.slot] with state := .ready, incomplete := false } rfl (by intro h; cases h)).trans ?_).trans
      (moves_raise _ _)
    exact moves_loads _ _ _ _

theorem moves_loadFault (s : State) (l : StorageLoad) : Moves s (s.loadFault l) :=
  ((moves_free s l.slot).trans (moves_loads _ _ _ _)).trans (moves_raise _ _)

theorem moves_loaderDone (s : State) (out : OpOutcome) (d : List Byte) : Moves s (s.loaderDone out d) := by
  unfold State.loaderDone
  split
  · split
    · exact moves_pageRead s _ _
    · exact moves_loadFault s _
  · exact .refl s

theorem moves_linkDone (s : State) (o : Op) (out : OpOutcome) (d : List Byte) : Moves s (s.linkDone o out d) := by
  unfold State.linkDone
  split
  · exact moves_answer s _ _ _ _
  · exact .refl s

theorem moves_stoEnd (s : State) (o : Op) (out : OpOutcome) (d : List Byte) : Moves s (s.stoEnd o out d) := by
  refine (moves_sto s fun t => t.finish o out).trans ?_
  simp only [State.stoEnd]
  split
  · exact moves_linkDone _ _ _ _
  · exact moves_spoolerDone _ _ _
  · exact moves_loaderDone _ _ _

/-! ### UPD and the gate (chapter 3, section 9.2) -/

theorem appendLog_length (log : List (Nat × Retired)) (e : Nat × Retired) : (appendLog log e).length ≤ 8 := by
  simp [appendLog]; omega

theorem moves_retire (s : State) (r : Request) (o : Retired) : Moves s (s.retire r o) := by
  have h := ((Move.upd s { s.upd with log := appendLog s.upd.log (r.number, o) } id fun _ => appendLog_length _ _).one).trans
    (moves_unpin _ r.slot)
  refine h.trans ?_
  simp only [State.retire]
  exact .ite (fun _ => moves_raise _ _) fun _ => .refl _

theorem moves_retireAll (s : State) (rs : List Request) (o : Retired) : Moves s (s.retireAll rs o) :=
  Moves.foldl _ (fun s r => moves_retire s r o) rs s

theorem moves_cancelPending (s : State) : Moves s s.cancelPending :=
  ((Move.upd s { s.upd with queue := [] } (fun _ => Nat.zero_le _) id).one).trans (moves_retireAll _ _ _)

theorem moves_gate (s : State) (g : Gate) : Moves s (s.onPwr fun p => { p with gate := g }) := moves_pwr s _ rfl rfl

theorem moves_withGate (s : State) (g : Gate) : Moves s (s.withGate g) := by
  refine (moves_gate s g).trans ?_
  simp only [State.withGate]
  exact .ite (fun _ => .refl _) fun _ => moves_spooler _ _

theorem moves_gateCycle (s : State) (b : Bool) : Moves s (s.gateCycle b) :=
  (moves_withGate s _).trans (moves_withGate _ _)

theorem moves_releaseGate (s : State) : Moves s s.releaseGate :=
  .ite (fun _ => moves_withGate s _) fun _ => .refl s

theorem moves_beginPreparation (s : State) (r : Request) : Moves s (s.beginPreparation r) := by
  unfold State.beginPreparation
  split
  · rename_i i _
    refine (Move.upd s
      { s.upd.setCtx i (.reserved r s.wav.band (s.planFor r) (s.after (prepTime r.rect))) with
        queue := s.upd.queue.filter fun q => q.serial ≠ r.serial } (fun h => ?_) id).one
    exact Nat.le_trans (List.length_filter_le _ _) h
  · exact .refl s

theorem moves_askPanelTemp (s : State) : Moves s s.askPanelTemp := moves_sns s _

theorem moves_beginFreshWait (s : State) : Moves s s.beginFreshWait :=
  (moves_upd s _ rfl rfl).trans (moves_askPanelTemp _)

theorem moves_examineOnce (s t : State) (c : Bool) (h : s.examineOnce c = some t) : Moves s t := by
  unfold State.examineOnce at h
  split at h
  · cases h
  · split at h
    · cases h; exact moves_beginFreshWait s
    · cases h; exact moves_beginPreparation s _

theorem moves_examineFor (c : Bool) (n : Nat) (s : State) : Moves s (State.examineFor c n s) := by
  induction n generalizing s with
  | zero => exact .refl s
  | succ n ih =>
    unfold State.examineFor
    split
    · exact .refl s
    · rename_i t ht
      exact (moves_examineOnce s t c ht).trans (ih t)

theorem moves_examine (s : State) (c : Bool) : Moves s (s.examine c) := moves_examineFor c 9 s

theorem moves_rise (s : State) : Moves s s.rise := moves_upd s _ rfl rfl
theorem moves_fall (s : State) : Moves s s.fall := moves_upd s _ rfl rfl

theorem moves_startScan (s : State) : Moves s s.startScan := by
  unfold State.startScan
  split
  · exact (moves_upd s _ rfl rfl).trans (moves_lgt _ _ (Lgt.cancelDecided_safe _))
  · exact .refl s

theorem moves_railsFollow (s : State) : Moves s s.railsFollow := by
  unfold State.railsFollow
  split
  · exact .ite (fun _ => moves_rise s) fun _ => .refl s
  · refine .ite (fun _ => moves_startScan s) fun _ => .ite (fun _ => moves_upd s _ rfl rfl) fun _ =>
      .ite (fun _ => moves_fall s) fun _ => .ite (fun _ => .refl s) fun _ => .ite (fun _ => moves_fall s) fun _ =>
        moves_upd s _ rfl rfl
  · exact .refl s

theorem moves_engine (s : State) (c : Bool) : Moves s (s.engine c) :=
  (((moves_gateCycle s false).trans (moves_examine _ c)).trans (moves_gateCycle _ true)).trans (moves_railsFollow _)

theorem Ctx.before_trans {a b c : Ctx} (h1 : a.before b = true) (h2 : b.before c = true) : a.before c = true := by
  simp only [Ctx.before, Bool.or_eq_true, Bool.and_eq_true, decide_eq_true_eq] at *
  omega

theorem Ctx.before_total (a b : Ctx) : a.before b = true ∨ b.before a = true := by
  simp only [Ctx.before, Bool.or_eq_true, Bool.and_eq_true, decide_eq_true_eq]
  omega

theorem Upd.insertCompleting_perm (u : Upd) (i : Fin 8) (l : List (Fin 8)) :
    (u.insertCompleting i l).Perm (i :: l) := by
  induction l with
  | nil => exact .refl _
  | cons j rest ih =>
    simp only [Upd.insertCompleting]
    split
    · exact .refl _
    · exact (ih.cons j).trans (.swap i j rest)

theorem Upd.insertCompleting_ordered (u : Upd) (i : Fin 8) (l : List (Fin 8))
    (h : l.Pairwise fun j k => u.contexts[j].before u.contexts[k] = true) :
    (u.insertCompleting i l).Pairwise fun j k => u.contexts[j].before u.contexts[k] = true := by
  induction l with
  | nil => simp [Upd.insertCompleting]
  | cons j rest ih =>
    have ⟨hj, hr⟩ := List.pairwise_cons.1 h
    simp only [Upd.insertCompleting]
    split <;> rename_i hb
    · refine .cons (fun k hk => ?_) h
      rcases List.mem_cons.1 hk with rfl | hk
      · exact hb
      · exact Ctx.before_trans hb (hj k hk)
    · refine .cons (fun k hk => ?_) (ih hr)
      rcases List.mem_cons.1 ((u.insertCompleting_perm i rest).mem_iff.1 hk) with rfl | hk
      · exact (Ctx.before_total _ _).resolve_left hb
      · exact hj k hk

/-- The contexts that complete at a boundary are those whose last frame ends, in the order of completion (R62). -/
theorem Upd.completing_spec (u : Upd) :
    u.completing.Perm ((List.finRange 8).filter fun i => u.contexts[i].ended) ∧
      u.completing.Pairwise fun i j => u.contexts[i].before u.contexts[j] = true := by
  simp only [Upd.completing]
  induction (List.finRange 8).filter fun i => u.contexts[i].ended with
  | nil => exact ⟨.refl _, .nil⟩
  | cons i rest ih =>
    exact ⟨(u.insertCompleting_perm i _).trans (ih.1.cons i), u.insertCompleting_ordered i _ ih.2⟩

theorem moves_completeCtx (s : State) (i : Fin 8) : Moves s (s.completeCtx i) := by
  unfold State.completeCtx
  split
  · exact ((moves_cells s _).trans (moves_upd _ _ rfl rfl)).trans (moves_retire _ _ _)
  · exact .refl s

theorem moves_leaveScan (s : State) : Moves s s.leaveScan :=
  ((moves_upd s _ rfl rfl).trans (moves_lgt _ Lgt.scanEnded id)).trans (moves_releaseGate _)

theorem moves_boundary (s : State) (b p a n : Nat) : Moves s (s.boundary b p a n) := by
  refine (Moves.foldl State.completeCtx (fun s i => moves_completeCtx s i) s.upd.completing s).trans ?_
  refine (moves_adoptIfStill _).trans ?_
  refine (moves_upd (s.upd.completing.foldl State.completeCtx s).adoptIfStill
    (fun u => { u with contexts := (u.contexts.map Ctx.advance).map (Ctx.join (n + 1)) }) rfl rfl).trans ?_
  simp only [State.boundary]
  exact .ite (fun _ => moves_upd _ _ rfl rfl) fun _ => moves_leaveScan _

/-- The queue has room for a request that admission takes (R44 test 7). -/
theorem judge_room (s : State) (b : Submission) (r : Request) (h : s.judgeSubmission b = .ok r) :
    s.upd.queue.length < 16 := by
  unfold State.judgeSubmission at h
  split at h
  · cases h
  · split at h
    · cases h
    · split at h
      · split at h
        · cases h
        · split at h
          · cases h
          · split at h
            · cases h
            · split at h
              · cases h
              · omega
      · cases h

theorem retire_queue (s : State) (r : Request) (o : Retired) : (s.retire r o).upd.queue = s.upd.queue := by
  simp only [State.retire]
  split <;> rfl

theorem retireAll_queue (s : State) (rs : List Request) (o : Retired) :
    (s.retireAll rs o).upd.queue = s.upd.queue := by
  unfold State.retireAll
  induction rs generalizing s with
  | nil => rfl
  | cons r rs ih => exact (ih (s.retire r o)).trans (retire_queue s r o)

theorem moves_enterQueue (s : State) (r : Request) (h : s.upd.queue.length < 16) : Moves s (s.enterQueue r) := by
  have hf := List.length_filter_le (fun q => !q.supersededBy r) s.upd.queue
  have h1 := (moves_pin s r.slot).trans (Move.upd (s.onMem fun m => m.pin r.slot)
    { s.upd with
      nextNumber := nextNumber s.upd.nextNumber
      nextSerial := s.upd.nextSerial + 1
      queue := s.upd.queue.filter fun q => !q.supersededBy r }
    (fun hq => Nat.le_trans hf hq) id).one
  have h2 := h1.trans (moves_retireAll _ (s.upd.supersededBy r) .superseded)
  generalize ht : State.retireAll _ (s.upd.supersededBy r) .superseded = t at h2
  have hq : t.upd.queue = s.upd.queue.filter fun q => !q.supersededBy r := by
    rw [← ht, retireAll_queue]
  have h3 : s.enterQueue r = { t with upd := { t.upd with queue := t.upd.queue ++ [r.inherit (s.upd.supersededBy r)] } } := by
    rw [← ht]
    rfl
  rw [h3]
  refine h2.trans
    (Move.upd t { t.upd with queue := t.upd.queue ++ [r.inherit (s.upd.supersededBy r)] } (fun _ => ?_) id).one
  show (t.upd.queue ++ [r.inherit (s.upd.supersededBy r)]).length ≤ 16
  rw [List.length_append, hq]
  exact Nat.le_trans (Nat.add_le_add_right hf 1) h

end Sys2Proof.Machine
end

