-- ==== Sys2Proof/Laws/Commands.lean ====
section
/-! SUPPORT. The supervisor's operations and every command are chains of small moves: `exec_moves` and
`step_moves`. -/
namespace Sys2Proof.Machine
open Sys2Proof

/-! ### PWR and the whole-part events (chapter 9, sections 10.2 and 10.4) -/

theorem moves_idleFollow (s : State) : Moves s s.idleFollow := moves_pwr s _ rfl rfl
theorem moves_idleRestart (s : State) : Moves s s.idleRestart := moves_pwr s _ rfl rfl

theorem moves_raiseOpt (s : State) (k : Option Notice) : Moves s (s.raiseOpt k) := by
  cases k
  · exact .refl s
  · exact moves_raise s _

/-- A change of level announces the LOW ceiling or 1000 (R169). -/
theorem moves_announceFor (s : State) (a b : BatteryLevel) : Moves s (s.announce (s.pwr.ceilingFor a b)) := by
  unfold Pwr.ceilingFor
  split
  · exact (Move.lgt s _ fun h => Lgt.announce_safe _ _ h.2).one
  · exact (Move.lgt s _ fun h => Lgt.announce_safe _ _ h.2).one
  · exact (Move.lgt s _ fun _ => Lgt.announce_safe _ _ (Nat.le_refl 1000)).one
  · exact .refl s

theorem moves_levelChange (s : State) (b : BatteryLevel) : Moves s (s.levelChange b) := by
  have h := moves_raiseOpt s (levelNotice s.pwr.level b)
  have k := h.trans (moves_announceFor _ s.pwr.level b)
  refine k.trans ?_
  unfold State.levelChange
  exact moves_pwr _ _ rfl rfl

theorem Pwr.join_length (p : Pwr) (v : Nat) : (p.join v).window.length ≤ 4 := by
  simp [Pwr.join]; omega

theorem moves_batteryResult (s : State) (mv : Nat) : Moves s (s.batteryResult mv) :=
  (Move.pwr s (s.pwr.join mv) (fun _ => Pwr.join_length _ _) id).one.trans (moves_levelChange _ _)

theorem moves_freeUsed (s : State) (n : Nat) : Moves s { s with freeUsed := n } := (Move.time s s.clock n).one

theorem moves_cutFrame (s : State) : Moves s s.cutFrame := by
  unfold State.cutFrame
  refine .ite (fun _ => ?_) fun _ => .refl s
  have h := (moves_freeUsed s (s.freeUsed + 1)).trans (moves_settleAssembling _ .empty)
  refine h.trans ?_
  dsimp only
  split
  · exact moves_countDiscard _ _
  · exact .refl _

theorem moves_radDeep (s : State) : Moves s s.radDeep :=
  (moves_cutFrame s).trans (Move.rad _ _ fun _ => Nat.zero_le _).one

theorem moves_lightDeep (s : State) : Moves s s.lightDeep := by
  apply moves_lgt
  intro h
  split
  · exact Lgt.missed_safe _ (Lgt.enterDeep_safe _ h)
  · exact Lgt.enterDeep_safe _ h

theorem moves_enterDeep (s : State) : Moves s s.enterDeep := by
  have h := (((moves_lightDeep s).trans (moves_sns _ fun n => n.enterDeep s.lightDeep.clock)).trans
    (moves_radDeep _)).trans (moves_sto _ Sto.withdrawAll)
  have k := h.trans (moves_lnk _ fun l => { l with receiver := l.receiver.abandoned })
  refine k.trans ?_
  unfold State.enterDeep
  exact moves_pwr _ _ rfl rfl

theorem moves_leaveDeep (s : State) (target : Power) (c : WakeCause) : Moves s (s.leaveDeep target c) :=
  (((((moves_pwr s _ rfl rfl).trans (moves_lgt _ _ fun h => h)).trans (moves_sns _ _)).trans
    (moves_loaderNext _)).trans (moves_stoArbitrate _)).trans ((moves_engine _ true).trans (moves_idleFollow _))

theorem moves_deepProgress (s : State) : Moves s s.deepProgress := by
  unfold State.deepProgress
  refine .ite (fun _ => ?_) fun _ => .refl s
  split
  · exact (moves_enterDeep s).trans (moves_leaveDeep _ _ _)
  · exact moves_enterDeep s

theorem moves_noteWake (s : State) (c : WakeCause) : Moves s (s.noteWake c) := moves_pwr s _ rfl rfl

theorem moves_wakeBy (s : State) (c : WakeCause) : Moves s (s.wakeBy c) :=
  .ite (fun _ => moves_leaveDeep s _ _) fun _ => moves_noteWake s c

theorem moves_suspendAll (s : State) (w : DlFault) : Moves s (s.suspendAll w) :=
  Moves.foldl _ (fun s id => moves_suspend s id w) _ s

theorem moves_withdrawStorage (s : State) : Moves s s.withdrawStorage := by
  refine (moves_sto s Sto.withdrawAll).trans ?_
  simp only [State.withdrawStorage]
  split
  · exact moves_answer _ _ _ _ _
  · exact .refl _

theorem moves_abandonSoftReset (s : State) : Moves s s.abandonSoftReset :=
  .ite (fun _ => moves_lnk s _) fun _ => .refl s

/-- The sleep-screen request is one that admission took, so the queue has room for it. -/
theorem sleepRequest_room (s : State) (r : Request) (h : s.sleepRequest = some r) :
    ∃ x, s.judgeSubmission x = .ok r := by
  simp only [State.sleepRequest] at h
  split at h
  · cases h
  · rename_i i _
    refine ⟨fullPanel .power i .full false, ?_⟩
    revert h
    cases s.judgeSubmission (fullPanel .power i .full false) with
    | error e => intro h; cases h
    | ok q => intro h; cases h; rfl

theorem moves_submitSleep (s : State) : Moves s s.submitSleep := by
  refine (moves_pwr s (fun p => { p with sleepAsked := true }) rfl rfl).trans ?_
  simp only [State.submitSleep]
  split
  · exact .refl _
  · rename_i h
    obtain ⟨x, k⟩ := sleepRequest_room _ _ h
    exact moves_enterQueue _ _ (judge_room _ _ _ k)

theorem moves_sleepScreen (s : State) : Moves s s.sleepScreen := by
  refine (moves_pwr s (fun p => { p with sleepAsked := true }) rfl rfl).trans ?_
  simp only [State.sleepScreen]
  split
  · exact .refl _
  · rename_i h
    obtain ⟨x, k⟩ := sleepRequest_room _ _ h
    exact (moves_enterQueue _ _ (judge_room _ _ _ k)).trans (moves_engine _ _)

theorem moves_enterCutoff (s : State) : Moves s s.enterCutoff := (Move.lost s .on .cutoff).one

theorem moves_cutoffProgress (s : State) : Moves s s.cutoffProgress := by
  have h : Moves s (if s.sleepDue then s.sleepScreen else s) := .ite (fun _ => moves_sleepScreen s) fun _ => .refl s
  refine h.trans ?_
  simp only [State.cutoffProgress]
  exact .ite (fun _ => moves_enterCutoff _) fun _ => .refl _

theorem moves_drainProgress (s : State) : Moves s s.drainProgress := by
  unfold State.drainProgress
  split
  · exact .ite (fun _ => (Move.drainEnd s _).one) fun _ => .refl s
  · exact .refl s

theorem moves_progress (s : State) : Moves s s.progress :=
  .ite (fun _ => moves_drainProgress s) fun _ => .ite (fun _ => moves_cutoffProgress s) fun _ =>
    .ite (fun _ => .refl s) fun _ => (moves_deepProgress s).trans (moves_idleFollow _)

theorem moves_settle (s : State) (c : Bool) : Moves s (s.settle c) := by
  have h : Moves s (if s.sleepDue then s.submitSleep else s) := .ite (fun _ => moves_submitSleep s) fun _ => .refl s
  exact (h.trans (moves_engine _ c)).trans (moves_progress _)

theorem moves_beginDeepWait (s : State) (k : DeepKind) : Moves s (s.beginDeepWait k) :=
  ((moves_upd s _ rfl rfl).trans (moves_pwr _ _ rfl rfl)).trans (moves_settle _ _)

theorem moves_abandonDeep (s : State) : Moves s s.abandonDeep := by
  have h := moves_pwr s (fun p => { p with deepWait := none, pendingWake := none, idleTimer := none }) rfl rfl
  exact .ite (fun _ => (h.trans (moves_engine _ _)).trans (moves_stoArbitrate _)) fun _ => h

theorem moves_startCutoff (s : State) : Moves s s.startCutoff :=
  ((((((((moves_abandonDeep s).trans (moves_pwr _ _ rfl rfl)).trans (moves_lgt _ _ (Lgt.forceOff_safe _))).trans
    (moves_suspendAll _ _)).trans (moves_spooler _ _)).trans (moves_upd _ _ rfl rfl)).trans (moves_cancelPending _)).trans
      ((moves_withdrawStorage _).trans (moves_abandonSoftReset _))).trans
        (Moves.trans (.ite (fun _ => moves_fall _) fun _ => .refl _) (moves_settle _ _))

theorem moves_returnToActive (s : State) : Moves s s.returnToActive :=
  .ite (fun _ => (moves_pwr s _ rfl rfl).trans (moves_abandonDeep _)) fun _ => .refl s

/-- What stands at the rise of CS is a chain of moves wherever what is made of it is one. -/
theorem moves_atRise (s : State) (f : State → State) (h : ∀ t, Moves t (f t)) : Moves s (s.atRise f) :=
  .ite (fun _ => moves_newTransaction s) fun _ => .ite (fun _ => (moves_newTransaction s).trans (h _)) fun _ => .refl s

/-- A message is a chain of moves wherever what it carries out is one. -/
theorem moves_take (s : State) (f : State → State) (h : ∀ t, Moves t (f t)) : Moves s (s.take f) :=
  moves_atRise s _ fun t => .ite (fun _ => moves_discardFrame t) fun _ => (moves_returnToActive t).trans (h _)

/-! ### What each message carries out -/

theorem moves_doFetchNotices (t : Byte) (n : U16) (s : State) : Moves s (doFetchNotices t n s) :=
  (moves_lnk s _).trans (moves_answer _ _ _ _ _)

theorem moves_doSetNoticeMasks (t : Byte) (a b : U16) (s : State) : Moves s (doSetNoticeMasks t a b s) :=
  (moves_lnk s _).trans (moves_answer _ _ _ _ _)

theorem moves_doSoftReset (t : Byte) (s : State) : Moves s (doSoftReset t s) :=
  (((((moves_lnk s _).trans (moves_trn _ _ rfl rfl)).trans (moves_sto _ _)).trans
    (moves_spl _ _ rfl fun h => Spl.mapTable_bounded _ h)).trans (moves_cancelPending _)).trans
      (moves_settle _ _)

theorem Mem.clearResult_slots (m : Mem) (i : Fin 16) : (m.clearResult i).slots = m.slots := by
  simp only [Mem.clearResult]
  split
  · split <;> rfl
  · rfl

theorem Mem.clearResult_pool (m : Mem) (i : Fin 16) : (m.clearResult i).pool = m.pool := by
  simp only [Mem.clearResult]
  split
  · split <;> rfl
  · rfl

theorem notFree_none (x : Slot) (h : x.notFree = none) : x.state = .free := by
  unfold Slot.notFree at h
  split at h
  · assumption
  · cases h
  · cases h
  · cases h
  · split at h <;> cases h

/-- The two loads' tests leave a FREE slot and blocks enough (R8, R15). -/
theorem notFree_or (x : Slot) (o : Option Status) (h : x.notFree.or o = none) : x.state = .free ∧ o = none := by
  cases hx : x.notFree with
  | none => rw [hx] at h; exact ⟨notFree_none x hx, by simpa using h⟩
  | some e => rw [hx] at h; cases h

theorem moves_clearAllocate (s : State) (i : Fin 16) (st : SlotState) (w h : Nat) (hst : st ≠ .free)
    (hi : s.mem.slots[i].state = .free) (hp : blocksFor w h ≤ s.mem.pool.length) :
    Moves s (s.onMem fun m => (m.clearResult i).allocate i st w h) := by
  refine (moves_clearResult s i).trans (Move.allocate _ i st w h hst ?_ ?_).one
  · show (s.mem.clearResult i).slots[i].state = .free
    rw [Mem.clearResult_slots]
    exact hi
  · show blocksFor w h ≤ (s.mem.clearResult i).pool.length
    rw [Mem.clearResult_pool]
    exact hp

theorem moves_doOpenImage (t a : Byte) (w h : U16) (f e : Byte) (s : State) :
    Moves s (doOpenImage t a w h f e s) := by
  unfold doOpenImage
  split
  · exact moves_answer s _ _ _ _
  · rename_i p _
    split
    · exact moves_answer s _ _ _ _
    · rename_i hj
      have hj' := notFree_or _ _ hj
      have hp : blocksFor p.width p.height ≤ s.mem.pool.length := by
        have h2 := hj'.2
        split at h2
        · cases h2
        · split at h2
          · cases h2
          · omega
      refine Moves.trans ?_ (moves_answer _ _ _ _ _)
      exact ((moves_clearAllocate s p.slot .loadingLink p.width p.height (by decide) hj'.1 hp).trans
        (moves_cells _ _)).trans (moves_loads _ _ _ _)

theorem moves_doCloseImage (t a : Byte) (s : State) : Moves s (doCloseImage t a s) := by
  unfold doCloseImage
  split
  · exact moves_answer s _ _ _ _
  · refine .ite (fun _ => moves_answer s _ _ _ _) fun _ => ?_
    split
    · exact moves_answer s _ _ _ _
    · rename_i l _
      refine Moves.trans ?_ (moves_answer _ _ _ _ _)
      refine (moves_slot s l.slot { s.mem.slots[l.slot] with
        state := .ready, incomplete := decide (l.written < s.mem.slots[l.slot].pixels) } rfl ?_).trans
        (moves_loads _ _ _ _)
      intro h
      exact SlotState.noConfusion h

theorem moves_doLoadSlot (t a : Byte) (w h : U16) (st : U32) (s : State) : Moves s (doLoadSlot t a w h st s) := by
  unfold doLoadSlot
  split
  · exact moves_answer s _ _ _ _
  · rename_i p _
    split
    · exact moves_answer s _ _ _ _
    · rename_i hj
      unfold Mem.judgeLoad at hj
      split at hj
      · cases hj
      · have hj' := notFree_or _ _ hj
        have hp : blocksFor p.width p.height ≤ s.mem.pool.length := by
          have h2 := hj'.2
          split at h2
          · cases h2
          · split at h2
            · cases h2
            · omega
        refine Moves.trans (Moves.trans (Moves.trans ?_ (moves_answer _ _ _ _ _)) (moves_loaderNext _))
          (moves_stoArbitrate _)
        exact (moves_clearAllocate s p.slot .loadingStorage p.width p.height (by decide) hj'.1 hp).trans
          (moves_loads _ _ _ _)

theorem moves_doFreeSlot (t a : Byte) (s : State) : Moves s (doFreeSlot t a s) := by
  unfold doFreeSlot
  split
  · exact moves_answer s _ _ _ _
  · split
    · exact moves_answer s _ _ _ _
    · exact ((moves_free s _).trans (moves_loads _ _ _ _)).trans (moves_answer _ _ _ _ _)

theorem moves_doSlotStatus (t a : Byte) (s : State) : Moves s (doSlotStatus t a s) := by
  unfold doSlotStatus
  split <;> exact moves_answer s _ _ _ _

theorem moves_doWaveformData (t : Byte) (o : U32) (d : List Byte) (s : State) : Moves s (doWaveformData t o d s) :=
  .ite (fun _ => moves_answer s _ _ _ _) fun _ => .ite (fun _ => moves_answer s _ _ _ _) fun _ =>
    (moves_wavWrite s _ _).trans (moves_answer _ _ _ _ _)

theorem moves_doWaveformCommit (t : Byte) (s : State) : Moves s (doWaveformCommit t s) := by
  unfold doWaveformCommit
  refine .ite (fun _ => moves_answer s _ _ _ _) fun _ => ?_
  split
  · exact (moves_wavRefuse s _).trans (moves_answer _ _ _ _ _)
  · exact .ite (fun _ => ((moves_wav s _ rfl rfl).trans (moves_answer _ _ _ _ _)).trans (moves_settle _ _)) fun _ =>
      ((moves_adopt s).trans (moves_answer _ _ _ _ _)).trans (moves_settle _ _)

theorem moves_submitRegion (s : State) (t : Byte) (b : Submission) : Moves s (s.submitRegion t b) := by
  unfold State.submitRegion
  split
  · exact moves_answer s _ _ _ _
  · rename_i h
    exact ((moves_enterQueue s _ (judge_room s b _ h)).trans (moves_answer _ _ _ _ _)).trans (moves_settle _ _)

theorem moves_cancelRequest (s : State) (r : Request) : Moves s (s.cancelRequest r) :=
  (Move.upd s { s.upd with queue := s.upd.queue.filter fun q => q.number ≠ r.number }
    (fun h => Nat.le_trans (List.length_filter_le _ _) h) id).one.trans (moves_retire _ _ _)

theorem moves_doCancelUpdate (t : Byte) (n : U16) (s : State) : Moves s (doCancelUpdate t n s) := by
  unfold doCancelUpdate
  refine .ite (fun _ => moves_answer s _ _ _ _) fun _ => ?_
  split
  · exact ((moves_cancelRequest s _).trans (moves_answer _ _ _ _ _)).trans (moves_settle _ _)
  · exact .ite (fun _ => moves_answer s _ _ _ _) fun _ => moves_answer s _ _ _ _

theorem moves_doUpdateStatus (t : Byte) (n : U16) (s : State) : Moves s (doUpdateStatus t n s) := by
  unfold doUpdateStatus
  refine .ite (fun _ => moves_answer s _ _ _ _) fun _ => ?_
  split
  · exact moves_place s _
  · exact moves_answer s _ _ _ _

theorem moves_doPanelSettings (t : Byte) (n : U16) (s : State) : Moves s (doPanelSettings t n s) :=
  .ite (fun _ => moves_answer s _ _ _ _) fun _ => (moves_upd s _ rfl rfl).trans (moves_answer _ _ _ _ _)

theorem TurnList.push_bounds (t : Trn) (l : TurnList) (e : Entry) (h : ¬ l.limit ≤ (t.list l).length) :
    (t.forward.length ≤ 4 → (t.setList l (t.list l ++ [e])).forward.length ≤ 4) ∧
      (t.backward.length ≤ 2 → (t.setList l (t.list l ++ [e])).backward.length ≤ 2) := by
  cases l
  · refine ⟨fun _ => ?_, id⟩
    simp only [Trn.list, TurnList.limit, Trn.setList, List.length_append, List.length_singleton] at *
    omega
  · refine ⟨id, fun _ => ?_⟩
    simp only [Trn.list, TurnList.limit, Trn.setList, List.length_append, List.length_singleton] at *
    omega

theorem moves_doTurnPush (t a b : Byte) (g : U32) (s : State) : Moves s (doTurnPush t a b g s) := by
  unfold doTurnPush
  split
  · rename_i i l _ _
    split
    · exact moves_answer s _ _ _ _
    · refine .ite (fun _ => moves_answer s _ _ _ _) fun h => ?_
      have hb := TurnList.push_bounds s.trn l ⟨i, g⟩ h
      exact ((moves_setOwner s i .turn (some g)).trans
        (Move.trn (s.onMem fun m => m.setOwner i .turn (some g)) _ hb.1 hb.2).one).trans (moves_answer _ _ _ _ _)
  · exact moves_answer s _ _ _ _

theorem moves_doTurnWithdraw (t a : Byte) (s : State) : Moves s (doTurnWithdraw t a s) := by
  unfold doTurnWithdraw
  split
  · exact moves_answer s _ _ _ _
  · rename_i i _
    refine .ite (fun _ => moves_answer s _ _ _ _) fun _ => ?_
    split
    · exact moves_answer s _ _ _ _
    · rename_i l e _
      refine Moves.trans ((moves_setOwner s i _ _).trans (Move.trn _ _ ?_ ?_).one) (moves_answer _ _ _ _ _)
      · cases l
        · exact fun h => Nat.le_trans (List.length_filter_le _ _) h
        · exact id
      · cases l
        · exact id
        · exact fun h => Nat.le_trans (List.length_filter_le _ _) h

theorem moves_releaseCurrent (s : State) : Moves s s.releaseCurrent := by
  unfold State.releaseCurrent
  split
  · exact moves_setOwner s _ _ _
  · exact .refl s

theorem moves_syncTo (s : State) (t : Byte) (e : Option Entry) : Moves s (s.syncTo t e) :=
  (moves_trn s _ rfl rfl).trans (moves_answer _ _ _ _ _)

theorem moves_doTurnSync (t a : Byte) (g : U32) (s : State) : Moves s (doTurnSync t a g s) := by
  unfold doTurnSync
  refine .ite (fun _ => (moves_releaseCurrent s).trans (moves_syncTo _ _ _)) fun _ => ?_
  split
  · exact moves_answer s _ _ _ _
  · rename_i i _
    refine .ite (fun _ => moves_answer s _ _ _ _) fun _ =>
      .ite (fun _ => (moves_setOwner s i _ _).trans (moves_syncTo _ _ _)) fun _ => ?_
    split
    · exact moves_answer s _ _ _ _
    · exact ((moves_releaseCurrent s).trans (moves_setOwner _ i _ _)).trans (moves_syncTo _ _ _)

theorem moves_doTurnSettings (t a b c d : Byte) (s : State) : Moves s (doTurnSettings t a b c d s) := by
  unfold doTurnSettings
  split
  · exact .ite (fun _ => moves_answer s _ _ _ _) fun _ => (moves_trn s _ rfl rfl).trans (moves_answer _ _ _ _ _)
  · exact moves_answer s _ _ _ _

theorem moves_doKeyStatus (t : Byte) (s : State) : Moves s (doKeyStatus t s) :=
  (moves_trn s _ rfl rfl).trans (moves_answer _ _ _ _ _)

theorem moves_doReadSensors (t a : Byte) (s : State) : Moves s (doReadSensors t a s) := by
  unfold doReadSensors
  split
  · exact moves_answer s _ _ _ _
  · rename_i f _
    cases f
    · exact moves_answer s _ _ _ _
    · exact (moves_askPanelTemp s).trans (moves_answer _ _ _ _ _)

theorem moves_doSensorSettings (t a : Byte) (s : State) : Moves s (doSensorSettings t a s) :=
  .ite (fun _ => moves_answer s _ _ _ _) fun _ => (moves_sns s _).trans (moves_answer _ _ _ _ _)

theorem moves_doLightSet (t a : Byte) (b : U16) (c : Byte) (s : State) : Moves s (doLightSet t a b c s) := by
  unfold doLightSet
  split
  · exact moves_answer s _ _ _ _
  · exact .ite (fun _ => moves_answer s _ _ _ _) fun _ => .ite (fun _ => moves_answer s _ _ _ _) fun _ =>
      (moves_lgt s _ (Lgt.set_safe _ _ _ _)).trans (moves_answer _ _ _ _ _)

theorem moves_doLightCurve (t : Byte) (a b c d e f g h : U16) (s : State) :
    Moves s (doLightCurve t a b c d e f g h s) :=
  .ite (fun _ => (moves_lgt s (fun l => l.setCurve _) (Lgt.setCurve_safe s.lgt _)).trans (moves_answer _ _ _ _ _))
    fun _ => moves_answer s _ _ _ _

theorem moves_doLightRamp (t a : Byte) (s : State) : Moves s (doLightRamp t a s) :=
  .ite (fun _ => moves_answer s _ _ _ _) fun _ => (moves_lgt s _ id).trans (moves_answer _ _ _ _ _)

/-- Staging can carry a record: where none is held, the pool holds the budget (R135). -/
theorem canCarry_pool (s : State) (d : Download) (h : s.canCarry d ≠ false) :
    s.spl.staging = [] → s.spl.budget ≤ s.mem.pool.length := by
  intro h0
  simp only [State.canCarry, h0] at h
  simp at h
  exact h.1

theorem moves_doDownloadArm (t a : Byte) (n : U32) (z : U16) (p : U32) (s : State) :
    Moves s (doDownloadArm t a n z p s) := by
  unfold doDownloadArm
  refine .ite (fun _ => ?_) fun _ => moves_answer s _ _ _ _
  split
  · exact moves_answer s _ _ _ _
  · rename_i hj
    unfold State.judgeArm at hj
    split at hj
    · cases hj
    · rename_i hn
      split at hj
      · cases hj
      · rename_i ht
        split at hj
        · cases hj
        · split at hj
          · cases hj
          · split at hj
            · cases hj
            · split at hj
              · cases hj
              · rename_i hc
                have htab : s.takeStaging.spl.table = s.spl.table := by
                  unfold State.takeStaging
                  split <;> rfl
                have hnone : s.takeStaging.spl.find a = none := by
                  unfold Spl.find
                  rw [htab]
                  simp only [newDownload, Bool.not_eq_true, Option.isSome_eq_false_iff, Option.isNone_iff_eq_none] at hn
                  exact hn
                refine Moves.trans (Moves.trans (Moves.trans (Move.takeStaging s (canCarry_pool s _ hc)).one ?_)
                  (moves_answer _ _ _ _ _)) (moves_settle _ _)
                refine (Move.spl s.takeStaging
                  { s.takeStaging.spl with
                    table := s.takeStaging.spl.table ++
                      [{ newDownload a n.toNat z.toNat p.toNat with stall := some s.stallAt }] } rfl ?_).one
                exact Spl.arm_bounded _ { newDownload a n.toNat z.toNat p.toNat with stall := some s.stallAt } hnone
                  (by rw [htab]; omega) ⟨Nat.zero_le _, by simp [newDownload], .nil⟩

theorem moves_doDownloadResume (t a : Byte) (s : State) : Moves s (doDownloadResume t a s) := by
  unfold doDownloadResume
  split
  · exact moves_answer s _ _ _ _
  · split
    · exact moves_answer s _ _ _ _
    · rename_i d _ hj
      unfold State.judgeResume at hj
      split at hj
      · cases hj
      · split at hj
        · cases hj
        · split at hj
          · cases hj
          · rename_i hc
            exact (((Move.takeStaging s (canCarry_pool s _ hc)).one.trans
              (moves_splUpdate _ _)).trans
              (moves_answer _ _ _ _ _)).trans (moves_settle _ _)

theorem moves_removeOrWait (s : State) (k t a : Byte) : Moves s (s.removeOrWait k t a) :=
  .ite (fun _ => (moves_splUpdate s _).trans (moves_lnk _ _))
    fun _ => (moves_removeRecord s a).trans (moves_answer _ _ _ _ _)

theorem moves_afterRadio (s : State) (p : Spl) : Moves s (s.afterRadio p) :=
  (moves_spooler s _).trans (moves_settle _ _)

theorem moves_doDownloadCancel (t a : Byte) (s : State) : Moves s (doDownloadCancel t a s) := by
  unfold doDownloadCancel
  split
  · exact moves_answer s _ _ _ _
  · exact ((moves_releaseRecord s _).trans (moves_removeOrWait _ _ _ _)).trans
      (moves_afterRadio _ _)

theorem moves_doDownloadClear (t a : Byte) (s : State) : Moves s (doDownloadClear t a s) := by
  unfold doDownloadClear
  split
  · exact moves_answer s _ _ _ _
  · exact .ite (fun _ => (moves_removeOrWait s _ _ _).trans (moves_afterRadio _ _)) fun _ => moves_answer s _ _ _ _

theorem moves_doDownloadStatus (t a : Byte) (s : State) : Moves s (doDownloadStatus t a s) := by
  unfold doDownloadStatus
  refine .ite (fun _ => moves_answer s _ _ _ _) fun _ => ?_
  split <;> exact moves_answer s _ _ _ _

theorem moves_storeSpool (s : State) (a b c d : Nat) (ha : a ≤ 256) : Moves s (s.storeSpool a b c d) := by
  have h := moves_spl s (fun p => { p with budget := a, stallTime := b, holdLimit := c }) rfl
    fun h => ⟨h.1, h.2.1, h.2.2.1, ha, h.2.2.2.2⟩
  refine h.trans ?_
  simp only [State.storeSpool]
  exact .ite (fun _ => .refl _) fun _ => (moves_cutFrame _).trans (moves_rad _ _ rfl)

theorem moves_doSpoolSettings (t : Byte) (a : U16) (b : Byte) (c : U16) (d : Byte) (s : State) :
    Moves s (doSpoolSettings t a b c d s) := by
  unfold doSpoolSettings
  split
  · exact moves_answer s _ _ _ _
  · refine .ite (fun hg => ?_) fun _ => moves_answer s _ _ _ _
    have ha : a.toNat ≤ 256 := by
      simp only [goodSpool, Bool.and_eq_true, decide_eq_true_eq] at hg
      exact hg.1.1.2
    exact .ite (fun _ => moves_answer s _ _ _ _) fun _ =>
      ((moves_storeSpool s _ _ _ _ ha).trans (moves_answer _ _ _ _ _)).trans (moves_settle _ _)

theorem moves_placeLink (s : State) (t : Byte) (q : StoRequest) : Moves s (s.placeLink t q) :=
  ((moves_lnk s _).trans (moves_stoPlace _ _ _)).trans (moves_stoArbitrate _)

theorem moves_storageMessage (s : State) (t : Byte) (q : StoRequest) (a b : Bool) :
    Moves s (s.storageMessage t q a b) := by
  unfold State.storageMessage
  split
  · exact moves_answer s _ _ _ _
  · exact moves_placeLink s _ _

theorem moves_doEnterDoze (t : Byte) (s : State) : Moves s (doEnterDoze t s) :=
  .ite (fun _ => moves_answer s _ _ _ _) fun _ =>
    ((moves_pwr s _ rfl rfl).trans (moves_answer _ _ _ _ _)).trans (moves_idleFollow _)

theorem moves_doEnterDeep (t : Byte) (s : State) : Moves s (doEnterDeep t s) :=
  .ite (fun _ => moves_answer s _ _ _ _) fun _ => .ite (fun _ => moves_answer s _ _ _ _) fun _ =>
    (moves_answer s _ _ _ _).trans (moves_beginDeepWait _ _)

theorem moves_doShutdownNow (t : Byte) (s : State) : Moves s (doShutdownNow t s) :=
  .ite (fun _ => moves_answer s _ _ _ _) fun _ => .ite (fun _ => moves_answer s _ _ _ _) fun _ =>
    (moves_answer s _ _ _ _).trans (moves_startCutoff _)

theorem moves_ownSlot (s : State) (o : Owner) (d : Option (Fin 16)) : Moves s (s.ownSlot o d) := by
  cases d
  · exact .refl s
  · exact moves_setOwner s _ _ _

theorem moves_designate (s : State) (d : Option (Fin 16)) : Moves s (s.designate d) := by
  refine ((moves_ownSlot s .host s.pwr.designation).trans (moves_ownSlot _ .sleep d)).trans ?_
  unfold State.designate
  exact moves_pwr _ _ rfl rfl

theorem moves_newCeiling (s : State) (c : Nat) (hc : c ≤ 1000) : Moves s (s.newCeiling c) :=
  .ite (fun _ => moves_lgt s _ fun _ => Lgt.announce_safe _ _ hc) fun _ => .refl s

theorem goodPower_ceiling (a b c d : Nat) (h : goodPower a b c d ≠ false) : c ≤ 1000 := by
  simp only [goodPower] at h
  simp at h
  omega

theorem moves_storePower (s : State) (a b c d : Nat) (e : Option (Fin 16)) (hc : c ≤ 1000) :
    Moves s (s.storePower a b c d e) := by
  refine ((moves_newCeiling s c hc).trans (moves_designate _ e)).trans ?_
  generalize hu : (s.newCeiling c).designate e = u
  have : s.storePower a b c d e =
      { u with pwr := { u.pwr with lowMv := a, critMv := b, lowCeiling := c, deepIdle := d } } := by
    rw [← hu]
    rfl
  rw [this]
  exact (Move.pwr u { u.pwr with lowMv := a, critMv := b, lowCeiling := c, deepIdle := d } id fun _ => hc).one

theorem moves_doPowerSettings (t : Byte) (a b c d : U16) (e : Byte) (s : State) :
    Moves s (doPowerSettings t a b c d e s) := by
  unfold doPowerSettings
  split
  · exact moves_answer s _ _ _ _
  · refine .ite (fun _ => moves_answer s _ _ _ _) fun hg => .ite (fun _ => moves_answer s _ _ _ _) fun _ => ?_
    split
    · exact moves_answer s _ _ _ _
    · exact (moves_storePower s _ _ _ _ _ (goodPower_ceiling _ _ _ _ hg)).trans (moves_answer _ _ _ _ _)

theorem moves_doWakeTimerSet (t : Byte) (a : U32) (s : State) : Moves s (doWakeTimerSet t a s) :=
  .ite (fun _ => moves_answer s _ _ _ _) fun _ => (moves_pwr s _ rfl rfl).trans (moves_answer _ _ _ _ _)

/-- What a decoded message carries out. -/
theorem moves_carryOut (i : Instr) (s : State) : Moves s (carryOut i s) := by
  cases i with
  | identify => exact moves_answer s _ _ _ _
  | fetchNotices => exact moves_doFetchNotices _ _ s
  | setNoticeMasks => exact moves_doSetNoticeMasks _ _ _ s
  | softReset => exact moves_doSoftReset _ s
  | openImage => exact moves_doOpenImage _ _ _ _ _ _ s
  | closeImage => exact moves_doCloseImage _ _ s
  | loadSlotFromStorage => exact moves_doLoadSlot _ _ _ _ _ s
  | freeSlot => exact moves_doFreeSlot _ _ s
  | slotStatus => exact moves_doSlotStatus _ _ s
  | poolStatus => exact moves_answer s _ _ _ _
  | waveformData => exact moves_doWaveformData _ _ _ s
  | waveformCommit => exact moves_doWaveformCommit _ s
  | waveformStatus => exact moves_answer s _ _ _ _
  | updateRegion => exact moves_submitRegion s _ _
  | cancelUpdate => exact moves_doCancelUpdate _ _ s
  | updateStatus => exact moves_doUpdateStatus _ _ s
  | panelSettings => exact moves_doPanelSettings _ _ s
  | panelStatus => exact moves_answer s _ _ _ _
  | turnPush => exact moves_doTurnPush _ _ _ _ s
  | turnWithdraw => exact moves_doTurnWithdraw _ _ s
  | turnSync => exact moves_doTurnSync _ _ _ s
  | turnSettings => exact moves_doTurnSettings _ _ _ _ _ s
  | turnStatus => exact moves_answer s _ _ _ _
  | keyStatus => exact moves_doKeyStatus _ s
  | readSensors => exact moves_doReadSensors _ _ s
  | sensorSettings => exact moves_doSensorSettings _ _ s
  | lightSet => exact moves_doLightSet _ _ _ _ s
  | lightCurve => exact moves_doLightCurve _ _ _ _ _ _ _ _ _ s
  | lightRamp => exact moves_doLightRamp _ _ s
  | lightStatus => exact moves_answer s _ _ _ _
  | downloadArm => exact moves_doDownloadArm _ _ _ _ _ s
  | downloadResume => exact moves_doDownloadResume _ _ s
  | downloadCancel => exact moves_doDownloadCancel _ _ s
  | downloadClear => exact moves_doDownloadClear _ _ s
  | downloadStatus => exact moves_doDownloadStatus _ _ s
  | spoolSettings => exact moves_doSpoolSettings _ _ _ _ _ s
  | storageRead => exact moves_storageMessage s _ _ _ _
  | storageProgram => exact moves_storageMessage s _ _ _ _
  | storageErase => exact moves_storageMessage s _ _ _ _
  | storageStatus => exact moves_answer s _ _ _ _
  | enterDoze => exact moves_doEnterDoze _ s
  | enterDeep => exact moves_doEnterDeep _ s
  | wakeTimerSet => exact moves_doWakeTimerSet _ _ s
  | powerSettings => exact moves_doPowerSettings _ _ _ _ _ _ s
  | shutdownNow => exact moves_doShutdownNow _ s
  | powerStatus => exact moves_answer s _ _ _ _
  | _ => exact .refl s

end Sys2Proof.Machine
end

