-- ==== Sys2Proof/Laws/Steps.lean ====
section
/-! SUPPORT. Every command, and every step, is a chain of small moves: `exec_moves`, `step_moves`. -/
namespace Sys2Proof.Machine
open Sys2Proof

/-! ### Events -/

theorem moves_beginRead (s : State) : Moves s s.beginRead := moves_lnk s _

theorem moves_collect (s : State) : Moves s s.collect := by
  unfold State.collect
  split
  · exact moves_lnk s _
  · exact moves_newTransaction s
  · exact moves_newTransaction s
  · exact .refl s

theorem moves_imageHeader (s : State) (n : Nat) : Moves s (s.imageHeader n) := moves_lnk s _

theorem moves_imageByte (s : State) (v : Byte) : Moves s (s.imageByte v) := by
  unfold State.imageByte
  split
  · rename_i n stray _
    cases stray
    · exact (moves_applyByte s v).trans (moves_lnk _ _)
    · exact moves_lnk s _
  · exact .refl s

theorem moves_imageCut (s : State) : Moves s s.imageCut := by
  unfold State.imageCut
  split
  · exact (moves_dropHeld s).trans (moves_newTransaction _)
  · exact moves_newTransaction s
  · exact moves_newTransaction s
  · exact .refl s

theorem moves_imageEnd (s : State) : Moves s s.imageEnd := by
  unfold State.imageEnd
  split
  · exact (moves_newTransaction s).trans (moves_returnToActive _)
  · exact moves_newTransaction s
  · exact moves_newTransaction s
  · exact .refl s

theorem moves_prepareNext (s : State) : Moves s s.prepareNext := by
  unfold State.prepareNext
  split
  · exact .ite (fun _ => .refl s) fun _ => (moves_beginPreparation s _).trans (moves_railsFollow _)
  · exact .refl s

theorem moves_endPreparation (s : State) (i : Fin 8) (r : Request) (p : Plan) :
    Moves s (s.endPreparation i r p) :=
  .ite (fun _ => ((moves_upd s _ rfl rfl).trans (moves_retire _ _ _)).trans (moves_adoptIfStill _))
    fun _ => moves_upd s _ rfl rfl

theorem moves_turnUnserved (s : State) (k : Key) (r : Unserved) : Moves s (s.turnUnserved k r) :=
  (moves_trn s _ rfl rfl).trans (moves_raise _ _)

theorem moves_dropSlot (s : State) (d : Option (Fin 16)) : Moves s (s.dropSlot d) := by
  cases d
  · exact .refl s
  · exact moves_drop s _

theorem moves_ringLow (s : State) : Moves s s.ringLow := .ite (fun _ => moves_raise s _) fun _ => .refl s

theorem pushCurrent_length (c : Option Entry) (l : List Entry) (n : Nat) (h : l.length ≤ n) :
    (pushCurrent c l n).length ≤ n := by
  cases c
  · exact h
  · exact List.length_take_le _ _

theorem retireAll_trn (s : State) (rs : List Request) (o : Retired) : (s.retireAll rs o).trn = s.trn := by
  unfold State.retireAll
  induction rs generalizing s with
  | nil => rfl
  | cons r rs ih =>
    refine (ih (s.retire r o)).trans ?_
    simp only [State.retire]
    split <;> rfl

theorem enterQueue_trn (s : State) (r : Request) : (s.enterQueue r).trn = s.trn := by
  simp only [State.enterQueue, State.onUpd_trn]
  rw [retireAll_trn]
  rfl

theorem moves_forwardTurn (s : State) : Moves s s.forwardTurn := by
  unfold State.forwardTurn
  split
  · exact moves_turnUnserved s _ _
  · rename_i front rest hl
    split
    · exact moves_turnUnserved s _ _
    · rename_i r hr
      have hf : (s.enterQueue r).trn.forward = front :: rest := by rw [enterQueue_trn, hl]
      refine (((moves_enterQueue s r (judge_room s _ r hr)).trans (Move.trn _ _ ?_ ?_).one).trans
        (moves_dropSlot _ _)).trans ((moves_ringLow _).trans (moves_settle _ _))
      · rw [hf]
        exact fun h => Nat.le_of_succ_le h
      · exact fun h => pushCurrent_length _ _ 2 h

theorem moves_backwardTurn (s : State) : Moves s s.backwardTurn := by
  unfold State.backwardTurn
  split
  · exact moves_turnUnserved s _ _
  · rename_i front rest hl
    split
    · exact moves_turnUnserved s _ _
    · rename_i r hr
      have hb : (s.enterQueue r).trn.backward = front :: rest := by rw [enterQueue_trn, hl]
      refine (((moves_enterQueue s r (judge_room s _ r hr)).trans (Move.trn _ _ ?_ ?_).one).trans
        (moves_dropSlot _ _)).trans (moves_settle _ _)
      · exact fun h => pushCurrent_length _ _ 4 h
      · rw [hb]
        exact fun h => Nat.le_of_succ_le h

theorem moves_lightKey (s : State) : Moves s s.lightKey := by
  have h : Moves s (if s.pwr.cutoff then s else s.onLgt Lgt.toggle) :=
    .ite (fun _ => .refl s) fun _ => moves_lgt s _ (Lgt.toggle_safe _)
  exact (h.trans (moves_raise _ _)).trans (moves_idleFollow _)

theorem moves_keyAction (s : State) (k : Key) : Moves s (s.keyAction k) := by
  cases k
  · exact .ite (fun _ => moves_forwardTurn s) fun _ => moves_raise s _
  · exact .ite (fun _ => moves_backwardTurn s) fun _ => moves_raise s _
  · exact moves_trn s (fun t => { t with longPress := some (s.after Config.longPressTime) }) rfl rfl
  · exact moves_lightKey s

theorem moves_onKey (s : State) (k : Key) (f : KeyRec → KeyRec) : Moves s (s.onTrn fun t => t.onKey k f) :=
  moves_trn s _ rfl rfl

theorem moves_pressAccepted (s : State) (k : Key) : Moves s (s.pressAccepted k) := by
  have h := moves_onKey s k fun r => { r with debounce := .pressed, settle := none }
  refine h.trans ?_
  simp only [State.pressAccepted]
  exact .ite (fun _ => .refl _) fun _ =>
    (((moves_onKey _ k _).trans (moves_idleRestart _)).trans (moves_wakeBy _ _)).trans (moves_keyAction _ k)

theorem moves_powerKey (s : State) (d : PowerDetail) : Moves s (s.powerKey d) :=
  (moves_trn s _ rfl rfl).trans (moves_raise _ _)

theorem moves_releaseAccepted (s : State) (k : Key) : Moves s (s.releaseAccepted k) := by
  have h := moves_onKey s k fun r => { r with debounce := .released, settle := none }
  refine h.trans ?_
  simp only [State.releaseAccepted]
  exact .ite (fun _ => moves_powerKey _ _) fun _ => .refl _

theorem moves_takeTemperature (s : State) : Moves s s.takeTemperature := by
  unfold State.takeTemperature
  refine .ite (fun _ => .refl s) fun _ => ?_
  exact .ite (fun _ => (moves_wav s _ rfl rfl).trans (moves_raise _ _)) fun _ => moves_wav s _ rfl rfl

theorem moves_handTemperature (s : State) : Moves s s.handTemperature := by
  refine (moves_takeTemperature s).trans ?_
  simp only [State.handTemperature]
  exact .ite (fun _ => (moves_upd _ _ rfl rfl).trans (moves_settle _ _)) fun _ => moves_settle _ _

theorem moves_handBattery (s : State) : Moves s s.handBattery := by
  refine (moves_batteryResult s s.sns.records.battery.derived.toNat).trans ?_
  simp only [State.handBattery]
  refine Moves.trans ?_ (moves_settle _ true)
  exact .ite (fun _ => .ite (fun _ => moves_leaveDeep _ _ _) fun _ => moves_sns _ _) fun _ => .refl _

theorem moves_handOver (s : State) (c : Channel) : Moves s (s.handOver c) := by
  cases c
  · exact moves_lgt s (fun l => l.sample s.sns.records.ambient.raw) (Lgt.sample_safe _ _)
  · exact moves_handTemperature s
  · exact moves_handBattery s

theorem moves_endConversion (s : State) (c : Channel) (n : Nat) : Moves s (s.endConversion c n) := by
  have h := moves_sns s fun m => m.finish c n s.nowMs
  refine h.trans ?_
  simp only [State.endConversion]
  refine Moves.trans ?_ ((moves_handOver _ c).trans (moves_sns _ _))
  exact .ite (fun _ => moves_raise _ _) fun _ => .refl _

theorem moves_periodBoundary (s : State) : Moves s s.periodBoundary := by
  unfold State.periodBoundary
  split
  · exact (moves_reach s _).trans (moves_lgt _ _ (Lgt.boundary_safe _ _ _))
  · exact .refl s

theorem moves_receiveFault (s : State) (id : Option Byte) : Moves s (s.receiveFault id) := by
  refine (moves_settleAssembling s .empty).trans ?_
  simp only [State.receiveFault]
  split
  · exact moves_countDiscard _ _
  · exact .refl _

theorem moves_takeAbort (s : State) (id : Byte) (n : Nat) : Moves s (s.takeAbort id n) := by
  unfold State.takeAbort
  split
  · exact .ite (fun _ => (moves_abort s id).trans (moves_status _ _ _ _)) fun _ => moves_status s _ _ _
  · exact moves_status s _ _ _

theorem moves_endOp (s : State) (o : Op) (r : OpOutcome) (d : List Byte) : Moves s (s.endOp o r d) :=
  ((moves_stoEnd s o r d).trans (moves_spooler _ _)).trans (moves_settle _ _)

theorem moves_chargerAccepted (s : State) : Moves s s.chargerAccepted :=
  ((moves_pwr s _ rfl rfl).trans (moves_raise _ _)).trans (moves_wakeBy _ _)

theorem moves_afterFrame (s : State) (k t : Byte) (c : FrameCase) : Moves s (s.afterFrame k t c) := by
  cases c
  · exact (moves_returnToActive s).trans (moves_answer _ _ _ _ _)
  · exact moves_answer s _ _ _ _
  · exact (moves_returnToActive s).trans (moves_answer _ _ _ _ _)
  · exact (moves_returnToActive s).trans (moves_answer _ _ _ _ _)
  · exact (moves_returnToActive s).trans (moves_carryOut _ _)

theorem moves_imageFrame (s : State) (n : Nat) (r : List Byte) : Moves s (s.imageFrame n r) := by
  have h := (moves_imageHeader s n).trans (Moves.foldl State.imageByte moves_imageByte (r.take n) _)
  refine h.trans ?_
  simp only [State.imageFrame]
  exact .ite (fun _ => (moves_imageCut _).trans (moves_newTransaction _)) fun _ => moves_imageEnd _

theorem moves_readFrame (s : State) (n : Nat) : Moves s (s.readFrame n) := by
  refine (moves_beginRead s).trans ?_
  simp only [State.readFrame]
  split
  · exact .ite (fun _ => moves_collect _) fun _ => moves_newTransaction _
  · exact .refl _

theorem moves_frame (s : State) (k t : Byte) (n : Nat) (r : List Byte) : Moves s (s.frame k t n r) :=
  .ite (fun _ => moves_readFrame s _) fun _ => .ite (fun _ => moves_imageFrame s _ _) fun _ =>
    .ite (fun _ => moves_discardFrame s) fun _ => moves_afterFrame s _ _ _

theorem moves_heardFrame (s : State) (m : List Byte) : Moves s (s.heardFrame m) := by
  unfold State.heardFrame
  split
  · exact moves_frame s _ _ _ _
  · exact .refl s

/-! ### One command -/

/-- Every command leaves its state by a chain of small moves. -/
theorem exec_moves (i : Instr) (s t : State) (h : exec i s = .next t) : Moves s t := by
  cases i
  case identify => cases h; exact moves_take s _ (fun t => moves_carryOut (.identify _) t)
  case fetchNotices => cases h; exact moves_take s _ (fun t => moves_carryOut (.fetchNotices _ _) t)
  case setNoticeMasks => cases h; exact moves_take s _ (fun t => moves_carryOut (.setNoticeMasks _ _ _) t)
  case softReset => cases h; exact moves_take s _ (fun t => moves_carryOut (.softReset _) t)
  case softResetDrainEnd => cases h; exact moves_drainProgress s
  case openImage => cases h; exact moves_take s _ (fun t => moves_carryOut (.openImage _ _ _ _ _ _) t)
  case imageDataHeader => cases h; exact .ite (fun _ => (moves_newTransaction s).trans (moves_imageHeader _ _)) fun _ => .refl s
  case imageDataByte => cases h; exact moves_imageByte s _
  case imageDataCut => cases h; exact moves_imageCut s
  case closeImage => cases h; exact moves_take s _ (fun t => moves_carryOut (.closeImage _ _) t)
  case loadSlotFromStorage => cases h; exact moves_take s _ (fun t => moves_carryOut (.loadSlotFromStorage _ _ _ _ _) t)
  case freeSlot => cases h; exact moves_take s _ (fun t => moves_carryOut (.freeSlot _ _) t)
  case slotStatus => cases h; exact moves_take s _ (fun t => moves_carryOut (.slotStatus _ _) t)
  case poolStatus => cases h; exact moves_take s _ (fun t => moves_carryOut (.poolStatus _) t)
  case waveformData => cases h; exact moves_take s _ (fun t => moves_carryOut (.waveformData _ _ _) t)
  case waveformCommit => cases h; exact moves_take s _ (fun t => moves_carryOut (.waveformCommit _) t)
  case waveformAdoption => cases h; exact .ite (fun _ => (moves_adopt s).trans (moves_settle _ _)) fun _ => .refl s
  case waveformStatus => cases h; exact moves_take s _ (fun t => moves_carryOut (.waveformStatus _) t)
  case updateRegion => cases h; exact moves_take s _ (fun t => moves_carryOut (.updateRegion _ _ _ _ _ _ _ _ _ _ _) t)
  case cancelUpdate => cases h; exact moves_take s _ (fun t => moves_carryOut (.cancelUpdate _ _) t)
  case updateStatus => cases h; exact moves_take s _ (fun t => moves_carryOut (.updateStatus _ _) t)
  case panelSettings => cases h; exact moves_take s _ (fun t => moves_carryOut (.panelSettings _ _) t)
  case panelStatus => cases h; exact moves_take s _ (fun t => moves_carryOut (.panelStatus _) t)
  case preparationBegin => cases h; exact moves_prepareNext s
  case preparationEnd =>
    cases h
    split
    · exact ((moves_reach s _).trans (moves_endPreparation _ _ _ _)).trans (moves_settle _ _)
    · exact .refl s
  case railRise => cases h; exact .ite (fun _ => (moves_rise s).trans (moves_idleFollow _)) fun _ => .refl s
  case railsUp =>
    cases h
    split
    · exact ((moves_reach s _).trans (moves_upd _ _ rfl rfl)).trans (moves_settle _ _)
    · exact .refl s
  case railHoldExpiry =>
    cases h
    split
    · exact (moves_reach s _).trans (moves_fall _)
    · exact .refl s
  case railsOff =>
    cases h
    split
    · exact ((moves_reach s _).trans (moves_upd _ _ rfl rfl)).trans (moves_settle _ _)
    · exact .refl s
  case scanStart => cases h; exact .ite (fun _ => moves_startScan s) fun _ => .refl s
  case frameBoundary =>
    cases h
    split
    · exact ((moves_reach s _).trans (moves_boundary _ _ _ _ _)).trans (moves_settle _ _)
    · exact .refl s
  case contextComplete =>
    cases h
    split
    · exact .ite (fun _ => ((moves_reach s _).trans (moves_completeCtx _ _)).trans (moves_adoptIfStill _)) fun _ => .refl s
    · exact .refl s
  case keyInputChange => cases h; exact .ite (fun _ => .refl s) fun _ => moves_onKey s _ _
  case keyPress =>
    cases h
    split
    · exact .ite (fun _ => (moves_reach s _).trans (moves_pressAccepted _ _)) fun _ => .refl s
    · exact .refl s
  case keyRelease =>
    cases h
    split
    · exact .ite (fun _ => (moves_reach s _).trans (moves_releaseAccepted _ _)) fun _ => .refl s
    · exact .refl s
  case powerLongPress =>
    cases h
    split
    · exact .ite (fun _ => (moves_reach s _).trans (moves_powerKey _ _)) fun _ => .refl s
    · exact .refl s
  case turnPush => cases h; exact moves_take s _ (fun t => moves_carryOut (.turnPush _ _ _ _) t)
  case turnWithdraw => cases h; exact moves_take s _ (fun t => moves_carryOut (.turnWithdraw _ _) t)
  case turnSync => cases h; exact moves_take s _ (fun t => moves_carryOut (.turnSync _ _ _) t)
  case turnSettings => cases h; exact moves_take s _ (fun t => moves_carryOut (.turnSettings _ _ _ _ _) t)
  case turnStatus => cases h; exact moves_take s _ (fun t => moves_carryOut (.turnStatus _) t)
  case keyStatus => cases h; exact moves_take s _ (fun t => moves_carryOut (.keyStatus _) t)
  case conversionStart => cases h; exact .ite (fun _ => moves_sns s _) fun _ => .refl s
  case conversionEnd =>
    cases h
    split
    · exact (moves_reach s _).trans (moves_endConversion _ _ _)
    · exact .refl s
  case ambientMiss =>
    cases h
    split
    · exact .ite (fun _ => ((moves_reach s _).trans (moves_sns _ _)).trans (moves_lgt _ _ id)) fun _ => .refl s
    · exact .refl s
  case panelTempTimerExpiry =>
    cases h
    split
    · exact ((moves_reach s _).trans (moves_sns _ _)).trans (moves_askPanelTemp _)
    · exact .refl s
  case batteryTimerExpiry =>
    cases h
    split
    · exact (moves_reach s _).trans (moves_sns _ _)
    · exact .refl s
  case readSensors => cases h; exact moves_take s _ (fun t => moves_carryOut (.readSensors _ _) t)
  case sensorSettings => cases h; exact moves_take s _ (fun t => moves_carryOut (.sensorSettings _ _) t)
  case periodBoundary => cases h; exact moves_periodBoundary s
  case rampTick =>
    cases h
    split
    · exact .ite (fun _ => (moves_reach s _).trans (moves_lgt _ _ (Lgt.ramp_safe _))) fun _ => .refl s
    · exact .refl s
  case ambientOpportunity => cases h; exact .ite (fun _ => moves_periodBoundary s) fun _ => .refl s
  case ambientRequest =>
    cases h
    split
    · exact ((moves_reach s _).trans (moves_lgt _ _ id)).trans (moves_sns _ _)
    · exact .refl s
  case lightSet => cases h; exact moves_take s _ (fun t => moves_carryOut (.lightSet _ _ _ _) t)
  case lightCurve => cases h; exact moves_take s _ (fun t => moves_carryOut (.lightCurve _ _ _ _ _ _ _ _ _) t)
  case lightRamp => cases h; exact moves_take s _ (fun t => moves_carryOut (.lightRamp _ _) t)
  case lightStatus => cases h; exact moves_take s _ (fun t => moves_carryOut (.lightStatus _) t)
  case frameStart => cases h; exact .ite (fun _ => moves_claim s) fun _ => .refl s
  case receiveFault => cases h; exact .ite (fun _ => (moves_receiveFault s _).trans (moves_afterRadio _ _)) fun _ => .refl s
  case gap => cases h; exact .ite (fun _ => (moves_receiveFault s _).trans (moves_afterRadio _ _)) fun _ => .refl s
  case dataFrame =>
    cases h
    exact .ite (fun _ => .ite
        (fun _ => .ite (fun _ => (moves_settleAssembling s _).trans (moves_afterRadio _ _))
          fun _ => (moves_takeSegment s _).trans (moves_afterRadio _ _))
        fun _ => (moves_receiveFault s _).trans (moves_afterRadio _ _))
      fun _ => .refl s
  case abortFrame =>
    cases h
    exact .ite (fun _ => .ite
        (fun _ => (moves_settleAssembling s .empty).trans
          (.ite (fun _ => moves_afterRadio _ _) fun _ => (moves_takeAbort _ _ _).trans (moves_afterRadio _ _)))
        fun _ => (moves_receiveFault s _).trans (moves_afterRadio _ _))
      fun _ => .refl s
  case statusTransmit => cases h; exact moves_transmit s
  case stallTimerExpiry =>
    cases h
    split
    · split
      · exact (((moves_reach s _).trans (moves_suspend _ _ _)).trans (moves_raise _ _)).trans (moves_afterRadio _ _)
      · exact .refl s
    · exact .refl s
  case downloadArm => cases h; exact moves_take s _ (fun t => moves_carryOut (.downloadArm _ _ _ _ _) t)
  case downloadResume => cases h; exact moves_take s _ (fun t => moves_carryOut (.downloadResume _ _) t)
  case downloadCancel => cases h; exact moves_take s _ (fun t => moves_carryOut (.downloadCancel _ _) t)
  case downloadClear => cases h; exact moves_take s _ (fun t => moves_carryOut (.downloadClear _ _) t)
  case downloadStatus => cases h; exact moves_take s _ (fun t => moves_carryOut (.downloadStatus _ _) t)
  case spoolSettings => cases h; exact moves_take s _ (fun t => moves_carryOut (.spoolSettings _ _ _ _ _) t)
  case storageOperationStart => cases h; exact moves_stoArbitrate s
  case srdyReady => cases h; exact moves_sto s _
  case waitTimeout =>
    cases h
    split
    · exact (moves_reach s _).trans (moves_endOp _ _ _ _)
    · exact .refl s
  case swaitTimeout =>
    cases h
    split
    · exact .ite (fun _ => (moves_reach s _).trans (moves_endOp _ _ _ _)) fun _ => .refl s
    · exact .refl s
  case storageOperationEnd =>
    cases h
    split
    · split
      · exact moves_endOp s _ _ _
      · exact .refl s
    · exact .refl s
  case storageRead => cases h; exact moves_take s _ (fun t => moves_carryOut (.storageRead _ _) t)
  case storageProgram => cases h; exact moves_take s _ (fun t => moves_carryOut (.storageProgram _ _ _) t)
  case storageErase => cases h; exact moves_take s _ (fun t => moves_carryOut (.storageErase _ _) t)
  case storageStatus => cases h; exact moves_take s _ (fun t => moves_carryOut (.storageStatus _) t)
  case enterDoze => cases h; exact moves_take s _ (fun t => moves_carryOut (.enterDoze _) t)
  case enterDeep => cases h; exact moves_take s _ (fun t => moves_carryOut (.enterDeep _) t)
  case deepIdleTimerExpiry =>
    cases h
    split
    · exact (moves_reach s _).trans (moves_beginDeepWait _ _)
    · exact .refl s
  case deepEntry => cases h; exact .ite (fun _ => moves_deepProgress s) fun _ => .refl s
  case csFallWake => cases h; exact .ite (fun _ => (moves_lnk s _).trans (moves_leaveDeep _ _ _)) fun _ => moves_lnk s _
  case wakeHoldoffEnd =>
    cases h
    split
    · exact (moves_reach s _).trans (moves_lnk _ _)
    · exact .refl s
  case wakeTimerSet => cases h; exact moves_take s _ (fun t => moves_carryOut (.wakeTimerSet _ _) t)
  case wakeTimerExpiry =>
    cases h
    split
    · exact (((moves_reach s _).trans (moves_pwr _ _ rfl rfl)).trans (moves_raise _ _)).trans (moves_wakeBy _ _)
    · exact .refl s
  case chargerInputChange => cases h; exact .ite (fun _ => .refl s) fun _ => moves_pwr s _ rfl rfl
  case chargerChange =>
    cases h
    split
    · exact ((moves_reach s _).trans (moves_pwr _ (fun p => { p with chargerFilter := none }) rfl rfl)).trans
        (.ite (fun _ => .ite (fun _ => (Move.fullReset _ _).one) fun _ => .refl _) fun _ => moves_chargerAccepted _)
    · exact .refl s
  case powerSettings => cases h; exact moves_take s _ (fun t => moves_carryOut (.powerSettings _ _ _ _ _ _) t)
  case graceTimerExpiry =>
    cases h
    split
    · exact (moves_reach s _).trans (.ite (fun _ => moves_pwr _ _ rfl rfl) fun _ => moves_startCutoff _)
    · exact .refl s
  case shutdownNow => cases h; exact moves_take s _ (fun t => moves_carryOut (.shutdownNow _) t)
  case sleepScreenRequest => cases h; exact .ite (fun _ => moves_cutoffProgress s) fun _ => .refl s
  case cutoffEntry => cases h; exact .ite (fun _ => moves_enterCutoff s) fun _ => .refl s
  case powerStatus => cases h; exact moves_take s _ (fun t => moves_carryOut (.powerStatus _) t)
  case writeFrame =>
    cases h
    exact moves_atRise s _ fun t => moves_heardFrame t _
  case readReply => cases h; exact .ite (fun _ => (moves_newTransaction s).trans (moves_beginRead _)) fun _ => .refl s
  case replyCollected => cases h; exact moves_collect s
  case powerOn => cases h; exact (Move.fullReset s _).one
  case resetLineAssert => cases h; exact .ite (fun _ => (Move.lost s _ _).one) fun _ => .refl s
  case resetLine => cases h; exact .ite (fun _ => .refl s) fun _ => (Move.fullReset s _).one
  case imageDataEnd => cases h; exact moves_imageEnd s
  case statusFrameSent => cases h; exact .ite (fun _ => (moves_rad s _ rfl).trans (moves_transmit _)) fun _ => .refl s
  case powerFail => cases h; exact (Move.lost s _ _).one

/-- What a tick can do to an operation: nothing in a wait phase; else its strobe is stretched, the transfers of phases 2
to 4 end, or one more transfer has ended. -/
theorem Op.transferOne_cases (o : Op) (now : Nat) (held : Bool) :
    (o.moving = false ∧ o.transferOne now held = o) ∨
    (o.moving = true ∧ o.transferOne now held = o.stretched now) ∨
    (o.stage = .sending ∧ o.script.length ≤ o.moved.length + 1 ∧ o.transferOne now held = o.transferred now) ∨
    (o.moving = true ∧ held = false ∧ o.overdue now = false ∧ ∃ bytes : List BusByte,
      (bytes = o.script ∨ bytes = o.transfers) ∧
        o.transferOne now held = { o with moved := bytes.take (o.moved.length + 1), stretch := none }) := by
  unfold Op.transferOne
  split
  · rename_i h
    exact .inr (.inl ⟨(Bool.and_eq_true _ _ ▸ h).1, rfl⟩)
  · rename_i h
    have run (hm : o.moving = true) : held = false ∧ o.overdue now = false := by simpa [hm] using h
    split
    · rename_i hs
      have hm : o.moving = true := by simp [Op.moving, hs]
      split
      · exact .inr (.inr (.inl ⟨hs, ‹_›, rfl⟩))
      · exact .inr (.inr (.inr ⟨hm, (run hm).1, (run hm).2, _, .inl rfl, rfl⟩))
    · rename_i hs
      have hm : o.moving = true := by simp [Op.moving, hs]
      split
      · exact .inr (.inr (.inr ⟨hm, (run hm).1, (run hm).2, _, .inr rfl, rfl⟩))
      · exact .inr (.inl ⟨hm, rfl⟩)
    · rename_i hs; exact .inl ⟨by simp [Op.moving, hs], rfl⟩
    · rename_i hs; exact .inl ⟨by simp [Op.moving, hs], rfl⟩

theorem moves_tick (s : State) : Moves s s.tick :=
  .ite (fun _ => (Move.time s (s.clock + 1) (s.freeUsed + 1)).one.trans (Move.sto _ _).one) fun _ => .refl s

/-- A move of the queue's front off the queue is no move of any block: an invariant that does not read the queue
holds of the state without it. -/
theorem step_moves (s t : State) (h : step s = .next t) :
    Moves s t ∨ ∃ i rest, s.pending = i :: rest ∧ Moves { s with pending := rest } t := by
  unfold step at h
  split at h
  · cases h; exact .inl (moves_tick s)
  · rename_i i rest hp
    exact .inr ⟨i, rest, hp, exec_moves i _ t h⟩

end Sys2Proof.Machine
end

