-- ==== Sys2Proof/Tests/Slice0.lean ====
section
/-! SUPPORT. Tests of the model on small states: the well-formedness checks, bytes and values that the manual writes
out, and, for each statement with hypotheses, witnesses that meet them, clause by clause, at the ends of their
ranges. -/
namespace Sys2Proof.Tests
open Sys2Proof Sys2Proof.Machine

/-! ### Small states -/

/-- The part after reset with two blocks in the pool. -/
def base : State := { State.reset with mem := { pool := [500, 501] } }

/-- A full-panel picture, READY. -/
def page : Slot := { state := .ready, width := 1280, height := 1600 }

/-- `base` with one slot's record. -/
def withSlot (x : Slot) : State := { base with mem := { pool := [500, 501], slots := (Vector.replicate 16 {}).set 0 x } }

/-- A state that differs from `base` in one block. -/
def onPwr (p : Pwr) : State := { base with pwr := p }
def onLnk (l : Lnk) : State := { base with lnk := l }
def onUpd (u : Upd) : State := { base with upd := u }
def onTrn (t : Trn) : State := { base with trn := t }
def onSns (n : Sns) : State := { base with sns := n }
def onLgt (l : Lgt) : State := { base with lgt := l }
def onRad (r : Rad) : State := { base with rad := r }
def onSpl (p : Spl) : State := { base with spl := p }
def onSto (t : Sto) : State := { base with sto := t }

/-- The one context of a state that is in use. -/
def contexts (c : Ctx) : Vector Ctx 8 := (Vector.replicate 8 .free).set 0 c

/-- A request for the top left pixel pair, from slot 0. -/
def request : Request := ⟨1, 0, .link, 0, 0, 0, ⟨0, 0, 2, 1⟩, .gray, none, false, false⟩

/-- A plan of one frame in band 4. -/
def plan : Plan := ⟨.gray, 4, 1, 100, 1, 2, false, false, false⟩

/-- The header of a waveform table whose 24 frame counts are 1 and whose periods are 100; every symbol is HOLD. -/
def table : List Cell :=
  ((List.range 24).map fun e => (4 + e, 1#8)) ++ (List.range 8).map fun b => (28 + 2 * b, 100#8)

/-- A download of two segments of 256 bytes. -/
def book : Download := { id := 7#8, total := 512, size := 256, start := 64 }

/-! ### Well-formedness -/

theorem test_wf_waveformData : WellFormed (.waveformData 0 0 (List.replicate 4092 0)) = true ∧
    WellFormed (.waveformData 0 0 (List.replicate 4093 0)) = false := by
  constructor <;> simp only [WellFormed, List.length_replicate] <;> decide
theorem test_wf_storageProgram : WellFormed (.storageProgram 0 0 (List.replicate 2048 0)) = true ∧
    WellFormed (.storageProgram 0 0 []) = false := by
  constructor <;> simp only [WellFormed, List.length_replicate] <;> decide
theorem test_wf_dataFrame : WellFormed (.dataFrame 0 0 (List.replicate 65536 0) 0) = false := by
  simp only [WellFormed, List.length_replicate]; decide
theorem test_wf_abortFrame : WellFormed (.abortFrame 0 0 (List.replicate 65536 0) 0) = false := by
  simp only [WellFormed, List.length_replicate]; decide
theorem test_wf_storageOperationEnd : WellFormed (.storageOperationEnd 0 [0]) = false := by decide
theorem test_wf_badKind : WellFormed (.receiveFault .badKind (some 1)) = false := by decide
theorem test_wf_writeFrame : WellFormed (.writeFrame [0xFF#8, 0, 0, 0]) = false := by decide

/-! ### Bytes the manual writes out (11.2 to 11.6) -/

/-- A Light Set of mode MANUAL, B = 600 and M = 30, by 11.5: the header, then mode, brightness, mix. -/
theorem test_lightSet_bytes :
    encodeMessage (.lightSet 0x05 1 600 30) = some [0x60, 0x05, 0x04, 0x00, 0x01, 0x58, 0x02, 0x1E] := by decide
/-- Turn Push of slot 3 into the backward list with tag 0x01020304. -/
theorem test_turnPush_decodes :
    decodeMessage 0x40 0x09 [0x03, 0x01, 0x04, 0x03, 0x02, 0x01] = some (.turnPush 0x09 3 1 0x01020304) := by decide
/-- Storage Erase of page 524,224. -/
theorem test_storageErase_decodes : decodeMessage 0x82 0 [0xC0, 0xFF, 0x07, 0x00] = some (.storageErase 0 524224) := by
  decide
/-- Power Settings of the default values with no designation. -/
theorem test_powerSettings_decodes :
    decodeMessage 0x93 1 [0xAC, 0x0D, 0x16, 0x0D, 0x90, 0x01, 0x78, 0x00, 0xFF] =
      some (.powerSettings 1 3500 3350 400 120 0xFF) := by decide
/-- The table gives no row bits: no word spells a command. -/
theorem test_no_word_spells : decodeTableWord 8 0x01 = none := by decide

/-! ### Worked examples of the manual -/

/-- R41: 127, 128, 200 and 255. -/
theorem test_reduceP8 : [127#8, 128#8, 200#8, 255#8].map reduceP8 = [7#4, 8#4, 12#4, 15#4] := by decide
/-- R45: (−100, 1500, 400, 300) is clipped to (0, 1500, 300, 100). -/
theorem test_clip : clipRect (-100) 1500 400 300 = some ⟨0, 1500, 300, 100⟩ := by decide
/-- R112's table. -/
theorem test_clamp : (splitDuty 600 30).clampTo 400 = ⟨120, 280⟩ ∧ (splitDuty 850 37).clampTo 400 = ⟨148, 251⟩ ∧
    (splitDuty 350 50).clampTo 400 = ⟨175, 175⟩ := by decide
/-- R121's table. -/
theorem test_filter : (((({} : Lgt).filter 150).filter 250).filter 100).filtered = some 157 := by decide
/-- R122's falling curve at L = 1 and L = 301. -/
theorem test_curve : (Curve.mk ⟨0, 800⟩ ⟨100, 500⟩ ⟨300, 500⟩ ⟨2000, 100⟩).at_ 1 = 797 ∧
    (Curve.mk ⟨0, 800⟩ ⟨100, 500⟩ ⟨300, 500⟩ ⟨2000, 100⟩).at_ 301 = 499 := by decide
/-- R134: the 100,000-byte book with S = 1024 has 98 segments on 49 pages. -/
theorem test_segments : (newDownload 1 100000 1024 0).segments = 98 ∧ (newDownload 1 100000 1024 0).pages = 49 := by
  decide
/-- R168 with the default thresholds. -/
theorem test_levels : ({} : Pwr).judged 3500 = .normal ∧ ({} : Pwr).judged 3499 = .low ∧
    ({} : Pwr).judged 3349 = .critical ∧ ({ level := .low } : Pwr).judged 3580 = .normal ∧
    ({ level := .critical } : Pwr).judged 3429 = .critical := by decide
/-- R93: counts 1 and 4094 give −25.0 and 74.9 degrees. -/
theorem test_temp : tempOf 1 = -250 ∧ tempOf 4094 = 749 := by decide
/-- R155: the page 0x012345 is sent least significant byte first. -/
theorem test_address : addressBytes 0x012345 = [0x45, 0x23, 0x01] := by decide

/-- R109: the counter wraps at 1000 counts, so that a channel latched at 1000 stays on past a boundary that is still to be
taken. -/
theorem test_pwm_wraps : ({ base with clock := 1000 } : State).pwmCount = some 0 ∧
    ({ base with clock := 1000, lgt := { latched := ⟨1000, 999⟩ } } : State).ledw = true ∧
    ({ base with clock := 999, lgt := { latched := ⟨1000, 999⟩ } } : State).ledc = false := by decide
/-- R155: a ready wait that finds SRDY ready ends in the event of the start, and the byte on the bus is the command, with
SPH high. -/
theorem test_ready_start :
    (let s := ({ base with sto := { pending := ⟨some { kind := .read, page := 1 }, none, none⟩ } } : State).stoArbitrate
    s.sto.op.map Op.stage = some .sending ∧ s.bus = some ⟨true, some 0x1A⟩ ∧ s.sph = true) := by decide
/-- R195: the transaction that wakes the part is not heard, even where it ends after the holdoff. -/
theorem test_waking_transaction :
    exec (.writeFrame [0x01, 7, 0, 0]) { base with lnk := { receiver := .unheard } } = .next base := by rfl
/-- R188 and R195: of a transaction that is not heard, the header of a read frame and of Image Data begin nothing. -/
theorem test_unheard_headers :
    (let s := { base with lnk := { receiver := .unheard, reply := some emptyReply } }
    exec .readReply s = .next s ∧ exec (.imageDataHeader 1) s = .next s) := by
  exact ⟨rfl, rfl⟩
/-- R201: a soft reset taken in the cutoff sequence ends it. -/
theorem test_soft_reset_in_cutoff :
    ({ base with pwr := { cutoff := true }, lnk := { processing := some ⟨0x04, 9, .softReset⟩ } } : State).progress.pwr =
      { resetCause := .soft } := by decide

/-! ### Witnesses for the statements, in their order -/

theorem witness_step : base.pending = [] ∧ base.supply = .on ∧ ({ base with supply := .resetHeld }).supply ≠ .on := by
  decide
theorem witness_decode : WellFormed (.fetchNotices 1 0xFFFF) = true ∧ messageKind (.fetchNotices 1 0xFFFF) = some 0x02 ∧
    encodeMessage (.fetchNotices 1 0xFFFF) = some [0x02, 0x01, 0x02, 0x00, 0xFF, 0xFF] := by decide
/-- A body of 4097 bytes declared, a frame cut before its last byte, an unknown kind, and lengths one off. -/
theorem witness_frame_checks : base.linkOpen ∧ (0x01#8 : Byte) ≠ 0xFF ∧ (0x01#8 : Byte) ≠ 0x11 ∧
    4096 < (0x01#8 : Byte).toNat + 256 * (0x10#8 : Byte).toNat ∧ ([] : List Byte).length < 1 ∧
    bodyLengths 0x05 = none ∧ bodyLengths 0x02 = some (2, 2) ∧ (1 < 2 ∧ 2 < 3) ∧
    decodeMessage 0x02 1 ([0xFF#8, 0xFF#8, 0#8].take 2) = some (.fetchNotices 1 0xFFFF) ∧ [0, 0, 0#8].length < 4 := by
  decide
theorem witness_link_and_power :
    (onLnk { processing := some ⟨0x80, 1, .storage⟩ }).linkOn = true ∧ isMessage (.identify 1) = true ∧
    (onPwr { power := .deep }).linkOn = false ∧ (onLnk { holdoff := some 4000 }).linkOn = false ∧
    (onLnk { holdoff := some 4000 }).lnk.receiver ≠ .unheard ∧ (onLnk { receiver := .unheard }).lnk.receiver = .unheard ∧
    ((onPwr { power := .doze }).linkOn = true ∧ (onPwr { power := .doze }).lnk.processing = none ∧
      (onPwr { power := .doze }).pwr.deepWait = none ∧ (onPwr { power := .doze }).lnk.receiver ≠ .unheard) ∧
    (let s : State := { onPwr { power := .doze, deepWait := some .commanded } with lnk := { receiver := .imageData 0 false } }
    s.linkOn = true ∧ s.pwr.power = .doze ∧ s.pwr.deepWait ≠ none ∧ s.lnk.processing = none ∧ s.lnk.receiver ≠ .unheard ∧
      s.lnk.receiver = .imageData 0 false) ∧
    4096 < (0x01#8 : Byte).toNat + 256 * (0x10#8 : Byte).toNat ∧ ([] : List Byte).length < 1 := by decide
theorem witness_read : base.linkOn = true ∧ base.lnk.reply = none ∧
    (onLnk { reply := some emptyReply }).lnk.reply = some emptyReply ∧
    (onLnk { receiver := .reading [0] true }).lnk.receiver = .reading [0] true ∧
    (onLnk { receiver := .reading [0] false }).lnk.receiver = .reading [0] false ∧
    (onLnk { receiver := .unheard }).lnk.receiver = .unheard ∧
    ((onLnk { receiver := .reading [5] true }).live = true ∧ [5#8][0]? = some 5 ∧ [5#8].length ≤ 1) ∧
    base.lnk.receiver ≠ .reading [5] true ∧ ({ base with supply := .off }).live = false := by decide
theorem witness_reset_line : base.pwr.power ≠ .cutoff ∧ (onPwr { power := .cutoff }).supply = .on := by decide
theorem witness_soft_reset : base.linkOpen ∧
    (let s := onLnk { processing := some ⟨0x04, 9, .softReset⟩ }
    s.lnk.processing = some ⟨0x04, 9, .softReset⟩ ∧ s.upd.contextInUse = false ∧ s.sto.op = none) ∧
    base.lnk.processing = none ∧ (onUpd { contexts := contexts (.waiting request plan) }).upd.contextInUse = true := by
  decide

/-- The invariants' premises, on `base` (its light and lists) and on the reset state's memories. -/
theorem witness_invariants : base.lightSafe ∧ State.reset.canonical ∧ base.bounded := by
  refine ⟨?_, ?_, ?_⟩ <;> simp [State.lightSafe, Lgt.safe, State.canonical, State.bounded] <;> decide

/-- The smallest and the largest picture, for a FREE slot with a pool that holds its blocks exactly. -/
theorem witness_openImage : base.linkOpen ∧ formatOf 0 = some .p4 ∧ endBehaviourOf 1 = some .wrap ∧
    base.mem.slots[(15 : Fin 16)].state = .free ∧ base.mem.linkLoad = none ∧ (1 * 1 + 4095) / 4096 ≤ base.mem.pool.length ∧
    (4096 * 2 + 4095) / 4096 = base.mem.pool.length ∧ (1280 * 1600 + 4095) / 4096 = 500 := by decide
theorem witness_openImage_refused :
    (15 < (16#8 : Byte).toNat ∧ 1280 < (1281#16 : U16).toNat ∧ 1600 < (1601#16 : U16).toNat ∧ (0#16 : U16).toNat = 0) ∧
    (withSlot { page with state := .releasing }).mem.slots[(0 : Fin 16)].state = .releasing ∧
    ((withSlot { page with pins := 1 }).mem.slots[(0 : Fin 16)].state = .ready ∧
      0 < (withSlot { page with pins := 1 }).mem.slots[(0 : Fin 16)].pins) ∧
    (withSlot page).mem.slots[(0 : Fin 16)].pins = 0 ∧
    ({ base with mem := { pool := [], linkLoad := some ⟨0, .p4, .stop, 0, 0, false, none⟩ } }).mem.linkLoad ≠ none ∧
    base.mem.pool.length < blocksFor 8193 1 := by decide
/-- An Image Data frame with no load, with one, overlong, and at its end. -/
def loading (c : Nat) (f : Format) (e : EndBehaviour) : State :=
  { base with
    mem :=
      { pool := []
        slots := (Vector.replicate 16 {}).set 0 { state := .loadingLink, width := 3, height := 1, blocks := [500] }
        linkLoad := some { slot := 0, format := f, endBehaviour := e, cursor := c } }
    lnk := { receiver := .imageData 1 false } }
theorem witness_imageData : base.linkOn = true ∧ 4096 < (4097#16 : U16).toNat ∧ (4096#16 : U16).toNat ≤ 4096 ∧
    base.mem.linkLoad = none ∧ (loading 0 .p8 .stop).mem.linkLoad ≠ none ∧
    (onLnk { receiver := .imageData 1 true }).lnk.receiver = .imageData (0 + 1) true ∧
    (loading 0 .p8 .stop).lnk.receiver = .imageData (0 + 1) false ∧
    ((onLnk { receiver := .imageData 0 true }).lnk.receiver = .imageData 0 true ∧ base.pwr.power = .active) ∧
    (onLnk { receiver := .discarding }).lnk.receiver = .discarding ∧ base.lnk.receiver ≠ .unheard ∧
    (onLnk { receiver := .unheard }).lnk.receiver = .unheard := by decide
/-- Three pixels: the first, the last, and the cursor at the end; a P4 byte whole, and cut by the end. -/
theorem witness_imageByte : (loading 0 .p8 .stop).mem.linkLoad.map LinkLoad.held = some none ∧
    pixelAddr [500] 0 = some 1024000 ∧ pixelAddr [500] 2 = some 1024001 ∧ (0 % 2 = 0 ∧ 0 + 1 < 3 * 1) ∧ 2 + 1 = 3 * 1 ∧
    (loading 3 .p8 .wrap).mem.linkLoad.map LinkLoad.cursor = some (3 * 1) ∧ pixelAddr [500] 1 = some 1024000 ∧
    (1 % 2 = 1 ∧ 1 + 1 < 3 * 1) ∧ (2 ≤ 3 * 1 ∧ 1 * 1 = 1) ∧
    Memory.wf 0xFF (loading 0 .p4 .stop).mem.cells = true := by decide
/-- R10: a P4 byte's two levels at an odd cursor, and at the last pixel under WRAP. -/
theorem test_p4_levels :
    let levels (s : State) := [s.mem.slotLevel 0 0, s.mem.slotLevel 0 1, s.mem.slotLevel 0 2]
    levels ((loading 1 .p4 .stop).imageByte 0xAB) = [15, 0xA, 0xB] ∧
      levels ((loading 2 .p4 .wrap).imageByte 0xAB) = [0xB, 15, 0xA] := by decide
theorem witness_loadSlot : base.linkOpen ∧ (524286#32 : U32).toNat + blocksFor 8192 1 ≤ 524288 ∧
    base.mem.slots[(0 : Fin 16)].state = .free ∧ base.mem.storageLoad = none ∧ blocksFor 1280 3 ≤ base.mem.pool.length ∧
    base.sto.has .loader = false ∧ base.pwr.cutoff = false := by decide
theorem witness_loadSlot_refused :
    (15 < (16#8 : Byte).toNat ∧ (0#16 : U16).toNat = 0 ∧ 1280 < (1281#16 : U16).toNat ∧ 1600 < (1601#16 : U16).toNat ∧
      524287 < (524288#32 : U32).toNat) ∧
    (¬(15 < (slotByte 15).toNat ∨ (1280#16 : U16).toNat = 0 ∨ 1280 < (1280#16 : U16).toNat ∨ (1600#16 : U16).toNat = 0 ∨
        1600 < (1600#16 : U16).toNat ∨ 524287 < (524287#32 : U32).toNat) ∧
      524288 < (524287#32 : U32).toNat + (1280 * 1600 + 4095) / 4096) ∧
    ({ base with mem := { pool := [], storageLoad := some ⟨0, 0, 1, 0⟩ } } : State).mem.storageLoad ≠ none ∧
    base.mem.pool.length < (8193 * 1 + 4095) / 4096 := by decide
theorem witness_closeImage : (let s : State := { loading 2 .p8 .stop with lnk := {} }
    s.linkOpen ∧ s.mem.linkLoad ≠ none ∧ s.mem.slots[(0 : Fin 16)].state ≠ .releasing ∧
      s.mem.slots[(0 : Fin 16)].state = .loadingLink) ∧
    ((withSlot page).mem.slots[(0 : Fin 16)].state = .ready ∧ (withSlot page).mem.slots[(0 : Fin 16)].owner = .host) ∧
    (withSlot { page with owner := .turn }).mem.slots[(0 : Fin 16)].owner = .turn ∧
    (withSlot { page with owner := .sleep }).mem.slots[(0 : Fin 16)].owner = .sleep ∧
    0 < (withSlot { page with pins := 1 }).mem.slots[(0 : Fin 16)].pins ∧
    (withSlot { page with state := .loadingStorage }).mem.slots[(0 : Fin 16)].state = .loadingStorage ∧
    (withSlot { page with state := .releasing }).mem.slots[(0 : Fin 16)].state = .releasing ∧
    (∀ l, base.mem.linkLoad = some l → l.slot ≠ 0) ∧ 15 < (16#8 : Byte).toNat := by
  refine ⟨by decide, by decide, by decide, by decide, by decide, by decide, by decide, ?_, by decide⟩
  intro l h
  cases h
theorem witness_status : base.linkOpen ∧ (7#8 : Byte) ≠ 0 ∧ (onSpl { table := [book] }).spl.find 7 = some book ∧
    base.spl.find 7 = none ∧ 15 < (16#8 : Byte).toNat := by decide
/-- Records whose optional parts are there and are not, and lists at the ends of their ranges. -/
theorem witness_records : (let m := (loading 2 .p8 .stop).mem
    (m.linkLoad.filter fun l => l.slot = 0) ≠ none ∧ (m.linkLoad.filter fun l => l.slot = 15) = none ∧
      (m.storageLoad.filter fun l => l.slot = 0) = none ∧ (m.loadResult.filter fun r => r.slot = 0) = none) ∧
    ((some (⟨0, 0, 1, 0⟩ : StorageLoad)).filter fun l => l.slot = 0) = some ⟨0, 0, 1, 0⟩ ∧
    ((some (⟨0, true, 1, 0⟩ : LoadResult)).filter fun r => r.slot = 0) = some ⟨0, true, 1, 0⟩ ∧
    (book.runs.length ≤ 8 ∧ book.stall = none ∧ 0 < 8) ∧
    ((List.replicate 8 (0, 0)).length ≤ 8 ∧ (List.replicate 8 (0, 0))[7]? = some (0, 0)) ∧
    (base.rad.queue.length ≤ 4 ∧ [StatusEntry.mk 1 0 0 .accepted][0]? = some ⟨1, 0, 0, .accepted⟩) ∧
    (base.pwr.window.length ≤ 4 ∧ [3500, 3500, 3500, 3500][3]? = some 3500 ∧ 0 < 4) := by decide
/-- The block accounts' premise: every block in the pool, none held. -/
theorem witness_accounts : State.reset.accounts := by
  refine ⟨?_, ?_⟩
  · have h : State.reset.mem.heldBlocks = [] := by decide
    rw [h]
    simp [State.reset]
  · intro i _
    revert i
    decide

theorem witness_waveformData : base.linkOpen ∧ base.wav.adoptionWaiting = false ∧ ([] : List Byte) = [] ∧
    92204 < (92204#32 : U32).toNat + [0#8].length ∧ ([0#8] ≠ [] ∧ (92203#32 : U32).toNat + [0#8].length ≤ 92204) ∧
    ({ base with wav := { adoptionWaiting := true } }).wav.adoptionWaiting = true ∧
    Memory.wf 0 base.wav.incoming = true := by decide
/-- A header reads as HOLD in every symbol. -/
theorem table_read (a : Nat) (h : 44 ≤ a) : Memory.read 0 table a = 0#8 := by
  have key : ∀ m : List Cell, (∀ c ∈ m, c.1 < 44) → Memory.read 0 m a = 0#8 := by
    intro m
    induction m with
    | nil => intro _; rfl
    | cons c m ih =>
      intro hm
      have hc := hm c (by simp)
      simp only [Memory.read, if_neg (show ¬ c.1 = a by omega)]
      exact ih fun x hx => hm x (by simp [hx])
  exact key table (by decide)
/-- The smallest valid table: 1580 bytes. -/
theorem witness_validTable : validate table 1580 = none := by
  have h : badSymbol table = none := by
    have : ∀ j q, symbolIn (tableByte table (44 + j)) q ≠ 3 := by
      intro j q
      have : tableByte table (44 + j) = 0 := congrArg BitVec.toNat (table_read (44 + j) (by omega))
      simp [this, symbolIn]
    simp [badSymbol, this]
  have e : (List.range 24).find? (fun e => decide (tableF table e < 1 ∨ 60 < tableF table e)) = none := by decide
  have p : (List.range 8).find? (fun b => decide (tableP table b < 100 ∨ 2500 < tableP table b)) = none := by decide
  have f : 44 + 64 * framesAll table = 1580 := by decide
  simp only [validate, e, p, f, h]
  decide
/-- A table that fails each test: its length, the first and the last frame count, the first and the last period. -/
theorem witness_badTables : 43 < 44 ∧ 44 ≤ 1581 ∧ 1581 ≠ 44 + 64 * framesAll table ∧
    ¬(1 ≤ tableF (Memory.write 0 table 4 0) 0 ∧ tableF (Memory.write 0 table 4 0) 0 ≤ 60) ∧
    (¬(1 ≤ tableF (Memory.write 0 table 27 61) 23 ∧ tableF (Memory.write 0 table 27 61) 23 ≤ 60) ∧
      ∀ d < 23, 1 ≤ tableF (Memory.write 0 table 27 61) d ∧ tableF (Memory.write 0 table 27 61) d ≤ 60) ∧
    (∀ e < 24, 1 ≤ tableF table e ∧ tableF table e ≤ 60) ∧
    (¬(100 ≤ tableP (Memory.write 0 table 28 99) 0) ∧ ¬(tableP (Memory.write 0 table 43 10) 7 ≤ 2500) ∧
      ∀ d < 7, 100 ≤ tableP (Memory.write 0 table 43 10) d ∧ tableP (Memory.write 0 table 43 10) d ≤ 2500) ∧
    (∀ b < 8, 100 ≤ tableP table b ∧ tableP table b ≤ 2500) := by decide
/-- A table whose one symbol of code 3 is the last: entry 23, frame 0, pair 255. -/
theorem witness_badSymbol : let t := table ++ [(1579, 3#8)]
    (∀ e < 24, tableF t e = 1) ∧ (∀ b < 8, tableP t b = 100) ∧ 1580 = 44 + 64 * framesAll t ∧ tableSymbol t 23 0 255 = 3 ∧
      ∀ d j q, d < 24 → j < tableF t d → q < 256 → (d < 23 ∨ (d = 23 ∧ (j < 0 ∨ (j = 0 ∧ q < 255)))) →
        tableSymbol t d j q ≠ 3 := by
  intro t
  have hf : ∀ e < 24, tableF t e = 1 := by decide
  have hb : ∀ e < 24, framesBefore t e = e := by decide
  refine ⟨hf, by decide, by decide, by decide, ?_⟩
  intro d j q hd hj hq h
  have one : j = 0 := by have := hf d hd; omega
  have reads : ∀ a, 44 ≤ a → a ≠ 1579 → tableByte t a = 0 := by
    intro a h1 h2
    have key : ∀ m : List Cell, (∀ c ∈ m, c.1 < 44 ∨ c.1 = 1579) → Memory.read 0 m a = 0#8 := by
      intro m
      induction m with
      | nil => intro _; rfl
      | cons c m ih =>
        intro hm
        have hc := hm c (by simp)
        simp only [Memory.read, if_neg (show ¬ c.1 = a by omega)]
        exact ih fun x hx => hm x (by simp [hx])
    exact congrArg BitVec.toNat (key t (by decide))
  have hlast : tableByte t 1579 = 3 := by decide
  simp only [tableSymbol, hb d hd, one]
  by_cases hp : 44 + 64 * d + 64 * 0 + q / 4 = 1579
  · rw [hp, hlast]
    obtain rfl | rfl | rfl : q = 252 ∨ q = 253 ∨ q = 254 := by omega
    all_goals decide
  · rw [reads _ (by omega) hp]
    simp [symbolIn]
theorem witness_commit : base.linkOpen ∧ base.wav.adoptionWaiting = false ∧
    validate base.wav.incoming base.wav.incomingLen = some { reason := .length } ∧
    (onUpd { contexts := contexts (.waiting request plan) }).upd.contextInUse = true ∧ base.upd.contextInUse = false ∧
    ({ base with wav := { adoptionWaiting := true } }).live = true := by decide
theorem witness_band : ((-1 : Int) < 0 ∧ (500 : Int) ≤ 500 ∧ (0 : Int) ≤ 499 ∧ (499 : Int) < 500) ∧
    ({} : Wav).firstTaken = false ∧ ({ firstTaken := true, band := 0 } : Wav).band ≤ rawBand 0 ∧
    rawBand 0 < ({ firstTaken := true, band := 7 } : Wav).band ∧ (1 ≤ 1 ∧ 4094 ≤ 4094) ∧
    base.upd.freshWait = false ∧ (onUpd { freshWait := true }).upd.freshWait = true ∧
    (let s := onUpd { queue := [request] }
    s.firstEligible = some request ∧ s.upd.scanning = false ∧ s.upd.contextInUse = false ∧
      s.sns.records.panelTemp.valid = false) := by decide

/-- A submission of the whole panel from slot 0. -/
def whole : Submission := fullPanel .link 0 .full false
theorem witness_clip : clipRect 1279 1599 2 2 = some ⟨1279, 1599, 1, 1⟩ ∧ clipRect 1280 0 1 1 = none ∧
    clipRect (-32768) 0 32768 1 = none := by decide
theorem witness_admission : base.wav.active = none ∧
    (let s : State := { withSlot page with wav := { active := some table } }
    s.wav.active ≠ none ∧ s.pwr.cutoff = false ∧ whole.origin ≠ .power ∧ (onPwr { cutoff := true }).pwr.cutoff = true ∧
      whole.slot = some 0 ∧ whole.mode = some .full ∧ whole.forced = some none ∧ whole.notify = some false ∧
      clipRect whole.x whole.y whole.w whole.h = some ⟨0, 0, 1280, 1600⟩ ∧
      s.mem.slots[(0 : Fin 16)].state = .ready ∧ 0 + 1280 ≤ s.mem.slots[(0 : Fin 16)].width ∧
      s.upd.queue.length < 16 ∧ 16 ≤ (List.replicate 16 request).length ∧ clipRect 0 0 0 1 = none ∧
      ¬(1 + 1280 ≤ s.mem.slots[(0 : Fin 16)].width)) := by decide
theorem witness_admit : (base.upd.queue.filter fun q => q.origin = request.origin && q.rect.inside request.rect) = [] ∧
    (∀ notify : Bool, let q := { request with number := 7, notify := notify, slot := 3 }
    ((onUpd { queue := [q] }).upd.queue.filter fun q => q.origin = request.origin && q.rect.inside request.rect) = [q]) ∧
    (onUpd { queue := [request] }).upd.log.length ≤ 8 := by
  decide
theorem witness_retire : base.upd.log.length < 8 ∧ (List.replicate 8 (1, Retired.done)).length = 8 ∧
    ((withSlot { page with state := .releasing, pins := 1 }).mem.slots[request.slot].state = .releasing ∧
      (withSlot { page with state := .releasing, pins := 1 }).mem.slots[request.slot].pins ≤ 1) ∧
    ¬((withSlot { page with state := .releasing, pins := 2 }).mem.slots[request.slot].pins ≤ 1) ∧
    ({ request with notify := true }).notify = true ∧ Retired.done ≠ .cancelled := by decide
theorem witness_updateMessages : base.linkOpen ∧
    (base.judgeSubmission whole).toOption = none ∧
    ((onUpd { queue := [request] }).upd.queue.find? fun q => q.number = (1#16 : U16).toNat) = some request ∧
    (let u := (onUpd { contexts := contexts (.waiting request plan) }).upd
    (u.queue.find? fun q => q.number = (1#16 : U16).toNat) = none ∧
      u.contexts[(0 : Fin 8)].request = some request ∧ request.number = 1 ∧ u.found 1 ≠ none ∧ u.found 2 = none) ∧
    (∀ i : Fin 8, base.upd.contexts[i].request = none) ∧ (5000#16 : U16).toNat ≤ 5000 ∧ 5000 < (5001#16 : U16).toNat := by
  decide
/-- A submission that admission takes. -/
theorem witness_submission :
    let s : State := { withSlot { page with width := 2, height := 1 } with wav := { active := some table } }
    s.judgeSubmission { whole with w := 2, h := 1 } =
      .ok ⟨1, 0, .link, 0, 0, 0, ⟨0, 0, 2, 1⟩, .full, none, false, false⟩ := by rfl
/-- A request in the queue, eligible, with a fresh temperature and with a stale one; and none eligible. -/
theorem witness_preparation : (let s := onUpd { queue := [request] }
    s.firstEligible = some request ∧ s.upd.freeCtx = some 0 ∧ s.upd.idle = true ∧ s.sns.stale s.nowMs = true ∧
      ({ s with sns := { records := ⟨{}, { valid := true }, {}⟩ } } : State).sns.stale 60000 = false ∧
      ({ s with sns := { records := ⟨{}, { valid := true }, {}⟩ } } : State).sns.stale 60001 = true) ∧
    base.firstEligible = none ∧
    (onUpd { contexts := contexts (.reserved request 4 plan 4) }).upd.contexts[(0 : Fin 8)] = .reserved request 4 plan 4 ∧
    plan.empty = false ∧ ({ plan with empty := true }).empty = true := by decide
theorem witness_plans : base.upd.known = false ∧
    (let s : State :=
      { base with
        upd := { known := true }
        pwr := { level := .low }
        wav := { active := some table }
        spl := { table := [book], holdLimit := 0 } }
    s.upd.known = true ∧ s.pwr.level ≠ .normal ∧ book.state = .receiving ∧
      s.spl.holdLimit < (tableF table s.wav.band * tableP table s.wav.band + 99) / 100) ∧
    ¬(request.mode = .full) ∧ (base.planFor request).mode = .full ∧
    ((onUpd { known := true }).planFor request).mode ≠ .full := by decide
theorem witness_rails : (let s := onUpd { contexts := contexts (.waiting request plan) }
    s.upd.rails = .off ∧ s.upd.work = true ∧ s.supply = .on ∧ s.pwr.power = .active) ∧
    (onUpd { rails := .rising 12000 }).upd.rails = .rising 12000 ∧
    ((onUpd { rails := .onIdle, holdTimer := some 5 }).upd.rails = .onIdle ∧
      (onUpd { rails := .onIdle, holdTimer := some 5 }).upd.holdTimer = some 5) ∧
    (onUpd { rails := .falling 8000 }).upd.rails = .falling 8000 ∧
    (let s := onUpd { rails := .onIdle, contexts := contexts (.waiting request plan) }
    s.live = true ∧ s.upd.waitingPlan = some plan ∧ s.pwr.level = .normal) ∧
    (let u := (onUpd { rails := .onIdle, contexts := contexts (.reserved request 4 plan 4) }).upd
    u.work = true ∧ u.anyWaiting = false) ∧
    (let u := (onUpd { rails := .onIdle, holdTime := 0 }).upd
    u.work = false ∧ u.holdTimer = none ∧ u.holdTime = 0 ∧ ({} : Upd).holdTime ≠ 0) ∧
    (let s : State := { onPwr { level := .low } with upd := { rails := .onIdle, contexts := contexts (.waiting request plan) } }
    s.upd.work = true ∧ s.pwr.level ≠ .normal ∧ s.pwr.gate.holder ≠ .panel) := by decide
theorem witness_boundary : (let s := onUpd { rails := .scanning 4 100 4000 0, contexts := contexts (.waiting request plan) }
    s.upd.rails = .scanning 4 100 4000 0 ∧ (∀ i : Fin 8, s.upd.contexts[i].ended = false) ∧ s.wav.adoptionWaiting = false ∧
      s.upd.contexts[(0 : Fin 8)].isWaiting = true) ∧
    (∀ i : Fin 8, (onUpd { rails := .scanning 4 100 4000 0 }).upd.contexts[i].isRunning = false ∧
      (onUpd { rails := .scanning 4 100 4000 0 }).upd.contexts[i].isWaiting = false) ∧
    (let s := onUpd { rails := .scanning 4 100 4000 0, contexts := contexts (.running request plan 0 0) }
    s.upd.rails = .scanning 4 100 4000 0 ∧ s.upd.contexts[(0 : Fin 8)] = .running request plan 0 0 ∧ plan.frames ≤ 0 + 1 ∧
      s.wav.adoptionWaiting = false) := by decide
/-- Two contexts complete at one boundary, the one admitted first being context 1; a third, of 60 frames, goes on. -/
theorem witness_completions :
    let u : Upd :=
      { rails := .scanning 4 100 4000 0
        contexts :=
          ((contexts (.running { request with serial := 5 } plan 0 0)).set 1 (.running request plan 0 0)).set 2
            (.running request { plan with frames := 60 } 0 0) }
    let order : List (Fin 8) := [1, 0]
    u.completing = order ∧ order.Nodup ∧ (∀ i : Fin 8, i ∈ order ↔ u.contexts[i].ended = true) ∧
      u.contexts[(1 : Fin 8)] = .running request plan 0 0 ∧
      u.contexts[(0 : Fin 8)] = .running { request with serial := 5 } plan 0 0 ∧ (0 < 0 ∨ (0 = 0 ∧ request.serial < 5)) := by
  decide
theorem witness_completion : Memory.wf 0xFF base.mem.cells = true ∧ 1279 < 1280 ∧ 1599 < 1600 ∧ 0 < request.rect.w ∧
    request.rect.x + request.rect.w ≤ 1280 ∧ 0 < request.rect.h ∧ request.rect.y + request.rect.h ≤ 1600 := by decide
theorem witness_port : base.upd.scanning = false ∧ request.rect.has 2 0 = false ∧
    (let s : State :=
      { onUpd { rails := .scanning 4 100 4000 0, contexts := contexts (.running request plan 0 0) } with
        wav := { active := some table } }
    s.live = true ∧ s.upd.scanning = true ∧ s.upd.contexts[(0 : Fin 8)] = .running request plan 0 0 ∧
      request.rect.has 1 0 = true ∧ s.wav.active = some table ∧ plan.mode ≠ .full) ∧
    (∀ i : Fin 8, i ≠ 0 → (contexts (.running request plan 0 0))[i] = .free) := by decide

/-- A key's record in each debounce state. -/
def keyIn (d : Debounce) (settle : Option Nat) : State :=
  let r : KeyRec := { input := d = .pressSettling || d = .pressed, debounce := d, settle := settle }
  onTrn { keys := ⟨r, r, r, r⟩ }
theorem witness_presses : (let s := keyIn .pressSettling (some 80000)
    s.live = true ∧ s.draining = false ∧ s.pwr.power = .active ∧ s.pwr.cutoff = false ∧ s.pwr.deepWait = none ∧
      s.pwr.idleTimer = none ∧ (∀ k ∈ [Key.forward, .backward, .power, .light],
        (s.trn.keys.get k).debounce = .pressSettling ∧ (s.trn.keys.get k).settle = some 80000) ∧
      s.trn.forwardRouting = .turns) ∧
    ({ backwardRouting := .report } : Trn).backwardRouting = .report ∧
    (∀ p ∈ [({ power := .doze, idleTimer := some 9 } : Pwr), { power := .doze, deepWait := some .commanded },
        { power := .deep }, { cutoff := true }],
      let s : State := { keyIn .pressSettling (some 80000) with pwr := p }
      s.live = true ∧ s.draining = false ∧ (s.trn.keys.get .light).debounce = .pressSettling ∧
        (s.trn.keys.get .light).settle = some 80000) ∧
    ({ mode := .auto } : Lgt).mode ≠ .off ∧ ({} : Lgt).mode = .off := by decide
theorem witness_keys : (∀ d ∈ [Debounce.released, .pressSettling, .pressed, .releaseSettling],
      ((keyIn d none).trn.keys.get .power).debounce = d ∧ (keyIn d none).live = true) ∧
    ((keyIn .released none).trn.keys.get .light).input ≠ true ∧
    (let s := { keyIn .pressSettling (some 80000) with lnk := { processing := some ⟨0x04, 9, .softReset⟩ } }
    s.live = true ∧ s.draining = true ∧ (s.trn.keys.get .light).debounce = .pressSettling) ∧
    (let s := keyIn .releaseSettling (some 80000)
    (s.trn.keys.get .power).debounce = .releaseSettling ∧ (s.trn.keys.get .power).settle = some 80000 ∧
      s.trn.longPress = none) ∧
    (let k : KeyRec := { debounce := .releaseSettling, settle := some 80000 }
    let s := onTrn { keys := ⟨{}, {}, k, {}⟩, longPress := some 12000000 }
    s.live = true ∧ (s.trn.keys.get .power).debounce = .releaseSettling ∧ (s.trn.keys.get .power).settle = some 80000 ∧
      s.trn.longPress = some 12000000) := by decide
/-- The submission of a turn is admitted, or refused for want of a table. -/
theorem witness_turns :
    (let s : State :=
      { withSlot { page with owner := .turn } with
        wav := { active := some table }
        trn := { forward := [⟨0, 5⟩], backward := [⟨0, 5⟩] } }
    s.judgeTurn 0 = .ok ⟨1, 0, .turn, 0, 0, 0, ⟨0, 0, 1280, 1600⟩, .gray, none, false, false⟩ ∧
      ({ s with trn := { cadence := 1, cadenceCounter := 1 } } : State).judgeTurn 0 =
        .ok ⟨1, 0, .turn, 0, 0, 0, ⟨0, 0, 1280, 1600⟩, .full, none, false, true⟩) ∧
    base.judgeTurn 0 = .error .noWaveform ∧ base.trn.forward = [] ∧ base.trn.backward = [] := by
  exact ⟨⟨rfl, rfl⟩, rfl, rfl, rfl⟩
theorem witness_turnMessages : base.linkOpen ∧ turnListOf 0 = some .forward ∧ turnListOf 1 = some .backward ∧
    (let x := (withSlot page).mem.slots[(0 : Fin 16)]
    x.state = .ready ∧ x.owner = .host ∧ x.width = 1280 ∧ x.height = 1600) ∧
    (page.width ≠ 1279 ∧ ({ page with state := .releasing } : Slot).state = .releasing) ∧
    4 ≤ (List.replicate 4 (⟨0, 0⟩ : Entry)).length ∧ ([⟨0, 0⟩] : List Entry).length < 2 ∧ base.trn.listed 0 = none ∧
    (onTrn { backward := [⟨0, 5⟩] }).trn.listed 0 = some (.backward, ⟨0, 5⟩) ∧ base.trn.current = none ∧
    (let s : State := { withSlot page with trn := { current := some ⟨5, 0⟩ } }
    s.linkOpen ∧ s.trn.current = some ⟨5, 0⟩ ∧ (5 : Fin 16) ≠ 0 ∧ s.mem.slots[(5 : Fin 16)].state ≠ .releasing) ∧
    (15 < (16#8 : Byte).toNat ∧ (16#8 : Byte) ≠ 0xFF ∧ 1 < (2#8 : Byte).toNat) ∧
    routingOf 1 = some .report ∧ (32#8 : Byte).toNat ≤ 32 ∧ (4#8 : Byte).toNat ≤ 4 ∧ 32 < (33#8 : Byte).toNat ∧
    1 < (2#8 : Byte).toNat := by decide

theorem witness_conversions : (let s := onSns {}
    s.live = true ∧ s.sns.powered = true ∧ s.sns.converting = none ∧ s.sns.requests = ⟨false, false, false⟩) ∧
    (onSns { requests := ⟨true, true, true⟩ }).sns.requests.ambient = true ∧
    (onSns { requests := ⟨false, true, true⟩ }).sns.requests.panelTemp = true ∧
    (onSns { requests := ⟨false, false, true⟩ }).sns.requests.battery = true ∧
    base.sns.converting = some (.panelTemp, 72) ∧ base.sns.records.panelTemp.fault = false ∧
    (onSns { converting := some (.ambient, 56) }).sns.converting = some (.ambient, 56) ∧
    (onSns { converting := some (.battery, 56) }).sns.converting = some (.battery, 56) ∧
    1 ≤ (1#12 : Count).toNat ∧ (4094#12 : Count).toNat ≤ 4094 ∧ (4095#12 : Count).toNat = 4095 ∧
    (({} : Lgt).filtered = none ∧ ({ filtered := some 4, firstSample := true } : Lgt).firstSample = true) ∧
    (({ filtered := some 4, firstSample := false } : Lgt).firstSample = false ∧ 4 ≤ 4 ∧ 3 < 4) := by decide
theorem witness_sensorTimers : (let s := onSns { ambientLatest := some 928, requests := ⟨true, false, false⟩ }
    s.sns.ambientLatest = some 928 ∧ s.sns.requests.ambient = true ∧ s.sns.converting = none) ∧
    base.sns.panelTimer = some 40000000 ∧ base.sns.batteryTimer = some 4000000 ∧ base.linkOpen ∧
    1 < (2#8 : Byte).toNat ∧ (255#8 : Byte) ≠ 0 := by decide
theorem witness_periods : base.lgt.nextBoundary = some 1000 ∧
    (let l := (onLgt { index := 63, mode := .auto }).lgt
    (l.index + 1) % 64 = 0 ∧ l.mode ≠ .off ∧ (l.index + 1) % 8 = 0 ∧ l.rampTaken = false) ∧
    (0 < ({ holdoff := 2 } : Lgt).holdoff ∧ ({} : Lgt).holdoff = 0) ∧ 908 < max 909 0 ∧ max 454 908 ≤ 908 ∧
    (onLgt { decided := some ⟨20, 928⟩ }).lgt.decided = some ⟨20, 928⟩ := by decide
/-- The first and the last count of a period, with duties about them, and a stopped counter. -/
theorem witness_lines : base.live = true ∧ base.clock % 1000 = (1000 + 0) % 1000 ∧ 0 < 1000 ∧
    (({ base with clock := 1999 } : State).clock % 1000 = (1000 + 999) % 1000 ∧ 999 < 1000 ∧ ¬(1000 < 1000)) ∧
    (onLgt { nextBoundary := none }).lgt.nextBoundary = none ∧
    ({ base with supply := .off } : State).live = false := by decide
theorem witness_light : base.linkOpen ∧ 2 < (3#8 : Byte).toNat ∧ 1000 < (1001#16 : U16).toNat ∧ 100 < (101#8 : Byte).toNat ∧
    (onPwr { cutoff := true }).linkOpen ∧ (onPwr { cutoff := true }).pwr.cutoff = true ∧
    (lightModeOf 0 = some .off ∧ lightModeOf 1 = some .manual ∧ lightModeOf 2 = some .auto) ∧
    (1000#16 : U16).toNat ≤ 1000 ∧ (100#8 : Byte).toNat ≤ 100 ∧ base.pwr.cutoff = false ∧
    (0 < 1 ∧ 1 < 8189 ∧ 8189 < 8190 ∧ 8190 ≤ 8190) ∧ base.lgt.filtered = none ∧
    ((onLgt { filtered := some 0 }).lgt.filtered = some 0 ∧ (onLgt { filtered := some 0 }).lgt.stale = false) := by decide

/-- An operation of the storage port in a stage. -/
def operation (k : OpKind) (g : Stage) : Op := ⟨.link, k, 64, 0, g, 40000, [], [], none⟩
/-- The part receives a frame in buffer A, with one record. -/
def receiving (d : Download) : State :=
  { base with rad := { bufA := .assembling }, spl := { table := [d], staging := [500, 501] } }
theorem witness_crc : (receiving book).radioEn = true ∧ (receiving book).rad.inFrame = true ∧
    (List.replicate 2048 (0#8)).length ≤ 2048 ∧ ([] : List Byte).length ≤ 2048 ∧ (0#16 : U16) ≠ 1 := by
  refine ⟨rfl, rfl, ?_, by decide, by decide⟩
  exact Nat.le_of_eq List.length_replicate
/-- A STATUS entry of an id. -/
def statusOf (id : Byte) : StatusEntry := ⟨id, 0, 0, .accepted⟩
theorem witness_frames : base.radioEn = true ∧ base.rad.inFrame = false ∧ base.rad.bufA = .empty ∧
    ((onRad { bufA := .waiting ⟨1, 0, []⟩ }).rad.inFrame = false ∧ (onRad { bufA := .waiting ⟨1, 0, []⟩ }).rad.bufA ≠ .empty) ∧
    (receiving book).rad.inFrame = true ∧ (onRad { queue := [statusOf 1] }).rad.queue = [statusOf 1] ∧
    (onRad { sending := some [0xA5] }).rad.sending = some [0xA5] ∧ base.rad.queue = [] ∧
    (let q := [statusOf 1, statusOf 2, statusOf 3, statusOf 4]
    4 ≤ q.length ∧ (∀ x ∈ q, x.id ≠ 5) ∧ (∃ x ∈ q, x.id = 1)) := by decide
/-- Two segments: the first missing one, one beyond the end, a duplicate, and staging without room. -/
theorem witness_segments : (let s := receiving book
    s.draining = false ∧ s.pwr.level = .normal ∧ s.spl.find 7 = some book ∧ s.spl.find 8 = none ∧
      book.segments = 2 ∧ 1 < book.segments ∧ book.payloadLength 1 = 256 ∧ inRuns book.runs 0 = false ∧
      s.spl.hasRoom book 0 = true ∧ s.spl.freeBlock = some 500 ∧ s.sto.op = none ∧ s.sto.pending.spooler = none) ∧
    ¬((onPwr { level := .low }).pwr.level = .normal ∨ (onPwr { level := .low }).pwr.gate.holder = .radio) ∧
    inRuns ({ book with runs := [(0, 0)] } : Download).runs 0 = true ∧
    ({ book with total := 65536 } : Download).lowest + 64 ≤ 64 ∧ 64 < ({ book with total := 65536 } : Download).segments ∧
    (let d : Download := { book with total := 65536, runs := (List.range 8).map fun k => (2 * k + 2, 2 * k + 2) }
    touchesRun d.runs 20 = false ∧ 8 ≤ d.runs.length ∧ inRuns d.runs 20 = false ∧ 20 < d.lowest + 64) ∧
    (let p : Spl := { table := [book], staging := [500], staged := [⟨7, 1, 500⟩] }
    p.hasRoom book 0 = false ∧ base.rad.waitingSegment = none) ∧
    (onRad { bufB := .waiting ⟨7, 0, []⟩ }).rad.waitingSegment ≠ none ∧ book.removal = false := by decide
/-- A frame in the drain of a soft reset; an ABORT amid a program, with a request pending; the lowest page's segments and
the one after them; and runs that an index joins, the last of them included. -/
theorem witness_abort_and_room : (let s := { receiving book with lnk := { processing := some ⟨0x04, 9, .softReset⟩ } }
    s.radioEn = true ∧ s.rad.inFrame = true ∧ s.draining = true) ∧
    (let o : Op := { operation .program .busyWait with requester := .spooler, download := 7 }
    let s :=
      { receiving book with
        sto := { op := some o, pending := ⟨none, some { kind := .program, page := 64, download := 7 }, none⟩ } }
    s.radioEn = true ∧ s.draining = false ∧ s.sto.op = some o ∧ o.requester = .spooler ∧ o.download = 7 ∧ o.kind = .program ∧
      s.sto.pending.spooler ≠ none) ∧
    (let d : Download := { book with total := 65536 }
    d.lowest / (2048 / d.size) * (2048 / d.size) = 0 ∧ 7 < 0 + 2048 / d.size ∧ 7 < d.segments ∧ ¬(8 < 0 + 2048 / d.size)) ∧
    goodRuns book.runs ∧ goodRuns ((List.range 8).map fun k => (2 * k, 2 * k)) ∧
    (({ book with runs := addRun 1 [(0, 0)] } : Download).lowest = book.segments ∧
      ({ book with runs := addRun 1 [] } : Download).lowest ≠ book.segments) := by decide
/-- A WAITING segment with a record, with none, under the gate, and in the drain of a soft reset. -/
theorem witness_waiting : (let g : Segment := ⟨7, 1, [0]⟩
    let book := { book with total := 257 }
    let s : State := { receiving book with rad := { bufA := .assembling, bufB := .waiting g } }
    s.rad.waitingSegment = some g ∧ s.draining = false ∧ s.spl.find 7 = some book ∧ s.spl.find 8 = none ∧
      book.state = .receiving ∧ book.removal = false ∧ s.pwr.level = .normal ∧ g.index < book.segments ∧
      g.payload.length = book.payloadLength g.index ∧ inRuns book.runs g.index = false ∧ g.index < book.lowest + 64 ∧
      book.runs.length < 8 ∧ s.spl.hasRoom book g.index = true ∧ s.spl.freeBlock = some 500) ∧
    ((onPwr { level := .low }).pwr.level ≠ .normal ∧ (onPwr { level := .low }).pwr.gate.holder ≠ .radio) ∧
    (onLnk { processing := some ⟨0x04, 9, .softReset⟩ }).draining = true ∧
    (book.lowestPage = 0 ∧ ({ book with runs := [(0, 1)], total := 65536, size := 2048 } : Download).lowestPage = 2) := by
  decide
theorem witness_downloads : base.linkOpen ∧
    (let d : Download := { book with stall := some 120000000 }
    (onSpl { table := [d] }).spl.find 7 = some d ∧ d.stall = some 120000000 ∧ base.sto.op = none ∧
      base.sto.pending.spooler = none) ∧
    ((1#8 : Byte) ≠ 0 ∧ 1 ≤ (1#32 : U32).toNat ∧ (1073741824#32 : U32).toNat ≤ 1073741824 ∧
      (2048#16 : U16).toNat ∈ [256, 512, 1024, 2048] ∧ (524224#32 : U32).toNat % 64 = 0 ∧ (524224#32 : U32).toNat < 524288) ∧
    4 ≤ (List.replicate 4 book).length ∧ 524288 < 524224 + ({ book with total := 131073 } : Download).pages ∧
    book.overlaps { book with id := 8 } = true ∧ base.pwr.cutoff = false ∧ base.canCarry book = false ∧
    ({ base with spl := { budget := 2 } } : State).canCarry book = true ∧
    (let d : Download := { book with state := .suspended }
    d.state = .suspended ∧ d.removal = false ∧ (onSpl { table := [d] }).spl.find 7 = some d) ∧
    ({ book with state := .complete } : Download).state = .complete ∧ book.state ≠ .complete ∧ book.state ≠ .failed ∧
    (4 ≤ (4#16 : U16).toNat ∧ (256#16 : U16).toNat ≤ 256 ∧ (10000#16 : U16).toNat ≤ 10000 ∧ (3#8 : Byte).toNat ≤ 3) ∧
    (2#8 : Byte).toNat = base.rad.rate ∧ base.rad.inFrame = false ∧
    (let d : Download := { book with state := .complete }
    let o : Op := { operation .program .busyWait with requester := .spooler, download := 7 }
    let s : State := { onSpl { table := [d] } with sto := { op := some o } }
    s.linkOpen ∧ s.spl.find 7 = some d ∧ d.state = .complete ∧ s.sto.pending.spooler = none ∧ s.sto.op = some o ∧
      o.requester = .spooler ∧ o.download = 7) ∧
    (let s : State := { onRad { bufB := .assembling } with spl := { table := [{ book with state := .suspended }] } }
    s.linkOpen ∧ (3#8 : Byte).toNat ≠ s.rad.rate ∧ (∀ d ∈ s.spl.table, d.state ≠ .receiving ∧ d.state ≠ .draining) ∧
      s.rad.inFrame = true) := by decide
/-- A record with a program in progress, a request pending and staging held. -/
theorem witness_stopped :
  let q : StoRequest := { kind := .program, page := 64, download := 7 }
  let o : Op := { operation .program .busyWait with requester := .spooler, download := 7 }
  let s : State :=
    { onSpl { table := [{ book with stall := some 9 }], staging := [500, 501] } with
      sto := { op := some o, pending := ⟨none, some q, none⟩ } }
  s.linkOpen ∧ s.spl.find 7 = some { book with stall := some 9 } ∧ s.sto.op = some o ∧ s.sto.pending.spooler = some q ∧
    q.download = 7 ∧ s.spl.staging ≠ [] := by decide

theorem witness_phases : (let s := onSto { pending := ⟨some { kind := .read, page := 1 }, none, none⟩ }
    s.live = true ∧ s.sto.op = none ∧ s.pwr.power ≠ .deep ∧ s.pwr.deepWait = none ∧ s.pwr.cutoff = false ∧
      s.draining = false ∧ s.sto.pointer = .loader ∧ s.sto.pending.get .link = some { kind := .read, page := 1 }) ∧
    (∀ r ∈ [Requester.link, .spooler, .loader], base.sto.pending.get r = none) ∧
    (∀ g ∈ [Stage.readyWait, .busyWait, .sending, .final],
      (onSto { op := some (operation .read g) }).sto.op = some (operation .read g) ∧ (operation .read g).stage = g) ∧
    (operation .erase .final).kind ≠ .read ∧
    (let s := onSto { op := some (operation .read .sending), srdy := false }
    s.live = true ∧ s.sto.srdy = false ∧ (operation .read .sending).moved.length + 1 < 4 ∧
      ({ operation .read .sending with moved := List.replicate 3 ⟨true, none⟩ } : Op).moved.length + 1 = 4) ∧
    base.sto.srdy = true ∧ base.sto.op = none := by decide
/-- A strobe that is not stretched, one stretched for exactly 10 µs, and one a count longer; the arbiter held back. -/
theorem witness_stretch : (operation .read .sending).stretch = none ∧
    (let o : Op := { operation .read .sending with stretch := some 100 }
    (onSto { op := some o }).sto.op = some o ∧ o.overdue 140 = false ∧ o.overdue 141 = true) ∧
    (onPwr { deepWait := some .commanded }).pwr.deepWait ≠ none := by decide
/-- R153: SWAIT stretches a strobe from the time it would have ended, and fails it 10 µs, 40 counts, after that. -/
theorem test_stretch : ((operation .read .sending).transferOne 100 true).stretch = some 100 ∧
    ((operation .read .sending).transferOne 100 true).swaitDeadline 100 = 140 ∧
    (operation .read .sending).swaitDeadline 99 = 140 ∧
    (({ operation .read .sending with stretch := some 100 } : Op).transferOne 140 false).moved.length = 1 := by decide
theorem test_swaitTimeout :
    (match exec .swaitTimeout (onSto { op := some { operation .read .sending with stretch := some 7 } }) with
    | .next t => decide (t.clock = 47 ∧ t.sto.latest.link = some ⟨.read, 64, .timeout⟩ ∧ t.sto.timeouts.link = 1)
    | _ => false) = true := by decide
theorem witness_phases_data : (List.replicate 2048 (0#8 : Byte)).length = 2048 :=
  List.length_replicate
theorem witness_outcomes :
    (onLnk { processing := some ⟨0x80, 1, .storage⟩ }).lnk.processing = some ⟨0x80, 1, .storage⟩ ∧
    (operation .read .final).requester = .link ∧
    (let l : StorageLoad := ⟨0, 64, 1, 0⟩
    l.pageCount ≤ l.written + 1 ∧ ({ base with mem := { pool := [], storageLoad := some l } }).mem.storageLoad = some l) ∧
    (let l : StorageLoad := ⟨0, 64, 2, 0⟩
    let s : State := { base with mem := { pool := [], storageLoad := some l } }
    s.mem.storageLoad = some l ∧ l.written + 1 < l.pageCount ∧ s.sto.pending.loader = none) ∧
    (onSpl { table := [book] }).spl.find 7 = some book ∧ book.removal = false ∧ book.state ≠ .draining ∧
    book.state = .receiving ∧
    (let d : Download := { book with removal := true }
    let s : State := { onSpl { table := [d] } with lnk := { processing := some ⟨0x72, 9, .removal⟩ } }
    s.spl.find 7 = some d ∧ d.removal = true ∧ s.sto.pending.spooler = none ∧
      s.lnk.processing = some ⟨0x72, 9, .removal⟩) ∧
    (let d : Download := { book with state := .draining, runs := [(0, 1)] }
    d.state = .draining ∧ d.removal = false ∧ d.total ≤ d.committed + d.pageBytes 0) := by decide
/-- Two records with segments in staging, of which the second alone has its page whole; the round starts at the first. -/
theorem witness_round : let d : Download := { book with id := 8, start := 128, runs := [(0, 1)] }
    let s := onSpl { table := [book, d], staging := [500, 501], staged := [⟨8, 0, 500⟩, ⟨8, 1, 501⟩] }
    s.sto.has .spooler = false ∧ s.draining = false ∧ s.pwr.cutoff = false ∧ 1 < s.spl.table.length ∧
      s.spl.table[(s.spl.round + 1) % s.spl.table.length]? = some d ∧ d.state = .receiving ∧ d.removal = false ∧
      d.committed < d.total ∧ d.committed / 2048 = 0 ∧ d.segments = 2 ∧ d.lowest = 2 ∧
      (∀ i < 2, ∃ g ∈ s.spl.staged, g.id = d.id ∧ g.index = i) ∧
      (book.committed / 2048 * (2048 / book.size) ≤ 0 ∧ ¬(0 < book.lowest)) ∧ (base.spl.table = [] ∧ s.live = true) := by
  decide
theorem witness_storageMessages : base.linkOpen ∧ 524288 ≤ (524288#32 : U32).toNat ∧ (524287#32 : U32).toNat < 524288 ∧
    (524287#32 : U32).toNat % 64 ≠ 0 ∧ (64#32 : U32).toNat % 64 = 0 ∧ (onPwr { cutoff := true }).linkOpen ∧
    (∃ d ∈ (onSpl { table := [book] }).spl.table, d.state = .receiving ∧ d.start ≤ 64 ∧ 64 < d.start + d.pages) ∧
    ¬(∃ d ∈ base.spl.table, d.state = .receiving) := by decide

theorem witness_battery : base.pwr.window.length ≤ 4 ∧ [3500, 3500, 3500, 3500].length ≤ 4 ∧
    (onPwr { level := .low }).pwr.level = .low ∧ (onPwr { level := .critical }).pwr.level = .critical ∧
    base.pwr.power ≠ .deep ∧
    (let s := onPwr { power := .deep, level := .critical }
    s.pwr.power = .deep ∧ (s.batteryResult 3350).pwr.level = .critical ∧
      (({ s with pwr := { power := .deep } } : State).batteryResult 3350).pwr.level ≠ .critical) := by decide
theorem witness_deep : base.linkOpen ∧ base.pwr.cutoff = false ∧ (onPwr { cutoff := true }).linkOpen ∧
    book.state = .receiving ∧ (onPwr { idleTimer := some 480000000 }).pwr.idleTimer = some 480000000 ∧
    (let s := onPwr { power := .doze, deepWait := some .automatic, pendingWake := some .key }
    s.live = true ∧ s.pwr.cutoff = false ∧ s.pwr.deepWait ≠ none ∧ s.upd.rails = .off ∧ s.upd.work = false ∧
      s.sto.op = none ∧ s.pwr.level ≠ .critical ∧ s.pwr.pendingWake = some .key) ∧
    (let s : State :=
      { receiving book with
        lgt := { mode := .auto, decided := some ⟨20, 928⟩ }
        sns := { requests := ⟨true, false, false⟩ }
        pwr := { power := .doze, deepWait := some .commanded } }
    s.live = true ∧ s.pwr.cutoff = false ∧ s.upd.rails = .off ∧ s.upd.work = false ∧ s.sto.op = none ∧
      s.pwr.level ≠ .critical ∧ s.lgt.decided.isSome = true ∧ s.sns.requests.ambient = true ∧ s.rad.inFrame = true ∧
      s.pwr.pendingWake = none) := by decide
/-- The deep-idle timer's conditions, with the timer stopped and running, and with one condition missing. -/
theorem witness_idle : (let s := onPwr { power := .doze }
    s.pwr.power = .doze ∧ s.pwr.deepWait = none ∧ s.pwr.deepIdle ≠ 0 ∧
      (∀ d ∈ s.spl.table, d.state ≠ .receiving ∧ d.state ≠ .draining) ∧ s.upd.rails = .off ∧ s.lgt.mode = .off ∧
      s.pwr.level ≠ .critical ∧ s.pwr.cutoff = false ∧ s.pwr.idleTimer = none) ∧
    (onPwr { power := .doze, idleTimer := some 9 }).pwr.idleTimer = some 9 ∧
    ¬((onPwr { power := .doze, deepIdle := 0 }).pwr.deepIdle ≠ 0) ∧
    (let s : State :=
      { onLnk { processing := some ⟨0x04, 9, .softReset⟩ } with sto := { op := some (operation .read .final) } }
    s.pwr.cutoff = false ∧ s.draining = true ∧ s.sto.op ≠ none) ∧
    (base.draining = false ∧ base.pwr.deepWait = none) := by decide
theorem witness_wakes : ((onPwr { power := .deep }).supply = .on ∧ (onPwr { power := .deep }).pwr.power = .deep) ∧
    (onLnk { holdoff := some 4000 }).lnk.holdoff = some 4000 ∧ (onPwr { wakeTimer := some 9 }).pwr.wakeTimer = some 9 ∧
    ((onPwr { chargerFilter := some 9 }).pwr.chargerFilter = some 9 ∧ (onPwr {}).pwr.power = .active) ∧
    (onPwr { power := .cutoff, chargerFilter := some 9, chargerInput := true }).pwr.chargerInput = true ∧
    base.pwr.chargerInput ≠ true ∧ (base.pwr.power ≠ .deep ∧ base.linkOn = true) ∧
    (({ base with supply := .off }).supply ≠ .on ∧ ({ base with supply := .off }).linkOn = false) ∧
    86400 < (86401#32 : U32).toNat ∧ (86400#32 : U32).toNat ≤ 86400 := by decide
/-- The ends of the four ranges, and designations of none, slot 0 and an unknown slot. -/
theorem witness_powerSettings : base.linkOpen ∧
    (3000 ≤ 3000 ∧ 4200 ≤ 4200 ∧ 2800 ≤ 2800 ∧ 4100 ≤ 4100 ∧ 100 ≤ 100 ∧ 1000 ≤ 1000 ∧ (3600#16 : U16).toNat ≤ 3600) ∧
    (2801 < 3000 ∧ ¬(3000 ≤ (2999#16 : U16).toNat)) ∧ (15 < (16#8 : Byte).toNat ∧ (16#8 : Byte) ≠ 0xFF) ∧
    base.pwr.designation = none ∧ base.pwr.cutoff = false ∧
    (let x := (withSlot page).mem.slots[(0 : Fin 16)]
    x.state = .ready ∧ x.owner = .host ∧ x.width = 1280 ∧ x.height = 1600) ∧
    (onPwr { designation := some 15 }).pwr.designation = some 15 ∧
    (onPwr { designation := some 15 }).pwr.designation ≠ some 0 := by decide
theorem witness_cutoff :
    ((onPwr { graceTimer := some 40000000 }).pwr.graceTimer = some 40000000 ∧
      (onPwr { graceTimer := some 40000000 }).linkOpen) ∧ base.pwr.graceTimer = none ∧
    (base.upd.queue = [] ∧ base.sto.pending = ⟨none, none, none⟩ ∧ base.lnk.processing = none ∧ base.spl.table = [] ∧
      base.spl.staging = [] ∧ base.spl.staged = [] ∧ base.rad.waitingSegment = none ∧ base.lgt.decided = none ∧
      base.upd.holdTimer = none ∧ base.pwr.deepWait = none) ∧
    (let s : State :=
      { onPwr { power := .doze, deepWait := some .commanded } with
        sto := { pending := ⟨some { kind := .read, page := 1 }, none, none⟩ }
        lnk := { processing := some ⟨0x80, 9, .storage⟩ } }
    s.pwr.deepWait ≠ none ∧ s.sto.pending.link = some { kind := .read, page := 1 } ∧
      s.lnk.processing = some ⟨0x80, 9, .storage⟩ ∧ s.draining = false) ∧
    (let s : State := { base with pwr := { cutoff := true }, upd := { rails := .onIdle } }
    s.live = true ∧ s.pwr.sleepAsked = false ∧ s.upd.contextInUse = false ∧ s.pwr.designation = none ∧ s.upd.rails ≠ .off) ∧
    (let s := onPwr { cutoff := true, sleepAsked := true }
    s.live = true ∧ s.pwr.sleepAsked = true ∧ s.upd.rails = .off ∧ s.upd.work = false ∧ s.upd.queue = [] ∧
      s.sto.op = none ∧ s.draining = false) ∧
    (let s : State := { onPwr { cutoff := true } with lnk := { processing := some ⟨0x04, 9, .softReset⟩ } }
    s.live = true ∧ s.upd.contextInUse = false ∧ s.sto.op = none ∧ s.draining = true) ∧
    (let s : State := { onPwr { cutoff := true } with lnk := { processing := some ⟨0x04, 9, .softReset⟩ }
                                                      sto := { op := some (operation .read .final) } }
    s.pwr.sleepAsked = false ∧ s.draining = true ∧ s.sto.op ≠ none) := by decide
/-- What the shared operations of an event meet: a FREE context, rails off with work and without, rails in fall, a queue
with a status, a load with pages left, and a program of the spooler. -/
theorem witness_operations : base.upd.freeCtx = some 0 ∧ base.firstEligible = none ∧
    (let s := onUpd { freshWait := true }
    s.upd.rails = .off ∧ s.upd.work = true ∧ s.supply = .on ∧ s.pwr.power = .active) ∧
    (base.upd.rails = .off ∧ base.upd.work ≠ true) ∧ ((onUpd { rails := .falling 9 }).upd.rails ≠ .off) ∧
    (base.radioEn = true ∧ base.rad.sending = none ∧
      enqueueStatus (fun _ => false) base.rad.queue (statusOf 1) = [statusOf 1]) ∧
    (let l : StorageLoad := ⟨0, 64, 2, 1⟩
    let s : State := { base with mem := { pool := [], storageLoad := some l } }
    s.mem.storageLoad = some l ∧ l.written < l.pageCount ∧ s.sto.has .loader = false ∧ s.pwr.power ≠ .deep ∧
      s.draining = false ∧ s.pwr.cutoff = false) ∧ base.mem.storageLoad = none ∧
    (let q : StoRequest := { kind := .program, page := 64, download := 7 }
    q.kind = .program ∧ (onSpl { table := [book] }).spl.find q.download = some book) ∧
    (base.wav.adoptionWaiting = false ∧ base.upd.contextInUse = false ∧
      ({ base with wav := { adoptionWaiting := true } } : State).wav.adoptionWaiting = true) := by decide
/-- A sleep screen that is due, with none designated and with one that admission refuses; and reports still missing. -/
theorem witness_settle : (let s := onPwr { cutoff := true }
    s.pwr.cutoff = true ∧ s.pwr.sleepAsked = false ∧ s.upd.contextInUse = false ∧ s.draining = false ∧
      s.pwr.designation = none) ∧
    (let s := onPwr { cutoff := true, designation := some 0 }
    s.pwr.designation = some 0 ∧ s.judgeSubmission (fullPanel .power 0 .full false) = .error .noWaveform) ∧
    (let s : State := { onPwr { cutoff := true, sleepAsked := true } with upd := { rails := .onIdle } }
    s.pwr.cutoff = true ∧ s.draining = false ∧ s.upd.rails ≠ .off ∧ s.pwr.sleepAsked = true) ∧
    base.pwr.cutoff ≠ true := by
  exact ⟨by decide, ⟨rfl, rfl⟩, by decide, by decide⟩
/-- The gate free, with RADIO's ask alone, with both asks, passing, and held by PANEL; and HOLD by each of its causes. -/
theorem witness_gate :
    (let s : State := { onSpl { table := [book] } with pwr := { level := .low } }
    s.pwr.level ≠ .normal ∧ s.pwr.gate.holder = .none ∧ book.state = .receiving ∧ book.removal = false ∧
      s.upd.scanning = false ∧ s.upd.work = false) ∧
    (let s : State :=
      { onSpl { table := [book] } with
        pwr := { level := .low, gate := { holder := .radio } }
        upd := { queue := [request] }
        rad := { bufA := .assembling } }
    s.pwr.gate.holder = .radio ∧ s.rad.inFrame = true ∧
      State.firstEligible { s with pwr := { s.pwr with gate := { s.pwr.gate with holder := .none } } } = some request) ∧
    (let s : State := { onPwr { level := .low, gate := { holder := .panel } } with upd := { rails := .scanning 4 100 4000 0 } }
    s.pwr.gate.holder = .panel ∧ s.upd.scanning = true) ∧
    (let s : State :=
      { onPwr { level := .low, gate := { holder := .radio, renewed := true } } with
        upd := { contexts := contexts (.reserved request 4 plan 4) } }
    s.pwr.gate.renewed = true ∧ s.upd.work = true) ∧
    (Holder.radio ≠ base.pwr.gate.holder ∧ base.live = true ∧ ({ base with supply := .off }).live = false) := by decide
/-- The sleep screen of a designated slot is admitted in the cutoff sequence. -/
theorem witness_sleepScreen :
    ({ withSlot { page with owner := .sleep } with
        wav := { active := some table }
        pwr := { cutoff := true, designation := some 0 } } : State).judgeSubmission (fullPanel .power 0 .full false) =
      .ok ⟨1, 0, .power, 0, 0, 0, ⟨0, 0, 1280, 1600⟩, .full, none, false, false⟩ := by rfl

end Sys2Proof.Tests
end

