-- ==== Sys2Proof/Proofs/BlockAccounts.lean ====
section
/-! The picture memory's blocks: what `State.accounts` reads, and what the pool's operations do to it (R2, R3). -/
namespace Sys2Proof.Machine
open Sys2Proof

/-- An item of a list exchanged for another exchanges what the two contribute. -/
theorem flatMap_set_perm {α : Type} (f : α → List Nat) (l : List α) (i : Nat) (h : i < l.length) (x : α) :
    ((l.set i x).flatMap f ++ f l[i]).Perm (l.flatMap f ++ f x) := by
  induction l generalizing i with
  | nil => exact absurd h (Nat.not_lt_zero i)
  | cons y l ih =>
    refine List.perm_iff_count.2 fun b => ?_
    cases i with
    | zero =>
      simp only [List.set_cons_zero, List.getElem_cons_zero, List.flatMap_cons, List.count_append]
      omega
    | succ i =>
      have hrest := (ih i (Nat.lt_of_succ_lt_succ h)).count_eq b
      simp only [List.set_cons_succ, List.getElem_cons_succ, List.flatMap_cons, List.count_append] at hrest ⊢
      omega

/-- A slot's record replaced exchanges its blocks for the new record's. -/
theorem Mem.setSlot_heldBlocks (m : Mem) (i : Fin 16) (x : Slot) :
    ((m.setSlot i x).heldBlocks ++ m.slots[i].blocks).Perm (m.heldBlocks ++ x.blocks) := by
  simpa [Mem.heldBlocks, Mem.setSlot, Vector.toList_set] using
    flatMap_set_perm Slot.blocks m.slots.toList i (by simp) x

/-- What the accounts read of the state: the pool, the slots and the staging. -/
def accounted (pool : List Nat) (slots : Vector Slot 16) (staging : List Nat) : Prop :=
  (pool ++ slots.toList.flatMap Slot.blocks ++ staging).Perm (List.range' Config.shownBlocks Config.poolBlocks) ∧
    ∀ i : Fin 16, slots[i].state = .free → slots[i].blocks = []

theorem State.accounts_iff (s : State) : s.accounts ↔ accounted s.mem.pool s.mem.slots s.spl.staging := Iff.rfl

/-- The pool, the slots and the staging after a reset account for every block. -/
theorem accounted_reset : accounted (List.range' Config.shownBlocks Config.poolBlocks) (Vector.replicate 16 {}) [] := by
  refine ⟨?_, fun i _ => by simp⟩
  have hheld : (Vector.replicate 16 ({} : Slot)).toList.flatMap Slot.blocks = [] := by rfl
  rw [hheld, List.append_nil, List.append_nil]

/-- A slot's new record and a new pool keep the accounts where the record's blocks leave the pool and the old record's
join it. -/
theorem accounted_setSlot {pool pool' : List Nat} {slots : Vector Slot 16} {staging : List Nat} (i : Fin 16) (x : Slot)
    (hp : (pool' ++ x.blocks).Perm (pool ++ slots[i].blocks)) (hf : x.state = .free → x.blocks = [])
    (h : accounted pool slots staging) : accounted pool' (slots.set i x) staging := by
  obtain ⟨hperm, hfree⟩ := h
  refine ⟨?_, fun j hj => ?_⟩
  · have hslots := Mem.setSlot_heldBlocks { slots := slots } i x
    simp only [Mem.heldBlocks, Mem.setSlot, List.perm_iff_count, List.count_append] at hslots hp hperm ⊢
    exact fun b => by have := hslots b; have := hp b; have := hperm b; omega
  · by_cases hij : i = j
    · subst hij
      simp_all
    · have hne : (i : Nat) ≠ j := fun h => hij (Fin.ext h)
      simp only [Fin.getElem_fin, Vector.getElem_set_ne _ _ hne] at hj ⊢
      exact hfree j hj

/-- Every small move keeps the accounts (R2, R3). -/
theorem Move.accounts {s t : State} (m : Move s t) : s.accounts → t.accounts := by
  simp only [State.accounts_iff]
  intro h
  cases m with
  | slot i x hb hf =>
    exact accounted_setSlot i x (hb ▸ .refl _) (fun hx => by rw [hb]; exact h.2 i (hf hx)) h
  | free i => exact accounted_setSlot i {} (by simp) (fun _ => rfl) h
  | allocate i st w hgt hst hi hp =>
    refine accounted_setSlot i _ ?_ (fun hx => absurd hx hst) h
    rw [h.2 i hi, List.append_nil]
    exact List.perm_append_comm.trans (.of_eq (List.take_append_drop _ _))
  | spl p hs hb => exact hs ▸ h
  | takeStaging hp =>
    unfold State.takeStaging
    split
    · rename_i hnone
      obtain ⟨hperm, hfree⟩ := h
      refine ⟨?_, hfree⟩
      have hcut : (s.mem.pool.take s.spl.budget ++ s.mem.pool.drop s.spl.budget).Perm s.mem.pool :=
        .of_eq (List.take_append_drop _ _)
      simp only [hnone, List.append_nil, List.perm_iff_count, List.count_append] at hperm hcut ⊢
      exact fun b => by have := hperm b; have := hcut b; omega
    · exact h
  | returnStaging =>
    unfold State.returnStaging
    split
    · exact h
    · obtain ⟨hperm, hfree⟩ := h
      refine ⟨?_, hfree⟩
      simp only [List.append_nil, List.perm_iff_count, List.count_append] at hperm ⊢
      exact fun b => by have := hperm b; omega
  | lost => exact accounted_reset
  | drainEnd => exact accounted_reset
  | fullReset => exact accounted_reset
  | _ => exact h

/-- Every small move keeps the sparse memories canonical: writes and filters do, and a reset lists no byte. -/
theorem Move.canonical {s t : State} (m : Move s t) : s.canonical → t.canonical := by
  rintro ⟨hcells, hin, hact⟩
  cases m with
  | cells ws => exact ⟨Memory.wf_writeMany _ _ _ hcells, hin, hact⟩
  | wav w hw => exact ⟨hcells, hw ⟨hcells, hin, hact⟩⟩
  | takeStaging hp =>
    unfold State.takeStaging
    split <;> exact ⟨hcells, hin, hact⟩
  | returnStaging =>
    unfold State.returnStaging
    split <;> exact ⟨hcells, hin, hact⟩
  | lost => exact ⟨rfl, rfl, fun t ht => by cases ht⟩
  | drainEnd => exact ⟨Memory.wf_filter _ _ _ hcells, hin, hact⟩
  | fullReset => exact ⟨rfl, rfl, fun t ht => by cases ht⟩
  | _ => exact ⟨hcells, hin, hact⟩

/-- An invariant that every small move keeps, and that does not read the queue of commands, is kept by every step. -/
theorem step_keeps {P : State → Prop} (hmove : ∀ {s t}, Move s t → P s → P t)
    (hqueue : ∀ s rest, P s → P { s with pending := rest }) (s t : State) (hs : P s) (h : step s = .next t) : P t := by
  obtain hm | ⟨i, rest, -, hm⟩ := step_moves s t h
  · exact hm.keeps (fun _ _ => hmove) hs
  · exact hm.keeps (fun _ _ => hmove) (hqueue s rest hs)

end Sys2Proof.Machine

namespace Sys2Proof.Proofs
open Sys2Proof Sys2Proof.Machine

/-- Settles O11: each small move of a step keeps the accounts. -/
theorem stepKeepsTheBlockAccounts : Obligations.StepKeepsTheBlockAccounts :=
  step_keeps Move.accounts fun _ _ h => h

/-- Settles O13: each small move of a step keeps the canonical form. -/
theorem stepKeepsMemoriesCanonical : Obligations.StepKeepsMemoriesCanonical :=
  step_keeps Move.canonical fun _ _ h => h

/-- Settles O15: the slots and the staging hold nothing, so the pool accounts for every block; the rest is finite. -/
theorem resetMeetsTheInvariants : Obligations.ResetMeetsTheInvariants :=
  ⟨accounted_reset, ⟨by decide, by decide⟩, ⟨rfl, rfl, fun t ht => by cases ht⟩, by decide⟩

end Sys2Proof.Proofs
end

