-- ==== Sys2Proof/Proofs/MessagesWithTheLinkOpen.lean ====
section
/-! A host message while the link is open (R188, R189, R192), and how its operands read. -/
namespace Sys2Proof.Machine
open Sys2Proof

/-- In ACTIVE a complete frame returns nothing from DOZE. -/
theorem State.returnToActive_of_active (s : State) (h : s.pwr.power = .active) : s.returnToActive = s := by
  simp [State.returnToActive, h]

/-- A message that comes with the link open is carried out on an idle receiver. -/
theorem State.take_of_linkOpen {s : State} (h : s.linkOpen) (f : State → State) : s.take f = f s.newTransaction := by
  obtain ⟨hon, hpower, hproc, hrecv⟩ := h
  simp [State.take, State.atRise, hrecv, hon, hproc, State.returnToActive_of_active, hpower]

/-- The outcome of a message that comes with the link open. -/
theorem next_take_of_linkOpen {s : State} (h : s.linkOpen) (f : State → State) :
    (.next (s.take f) : Host.Outcome State Fault Refusal) = .next (f s.newTransaction) :=
  congrArg Host.Outcome.next (State.take_of_linkOpen h f)

/-- A refusal after `newTransaction` leaves what `State.refusedBy` says. -/
theorem State.newTransaction_refuse (s : State) (k t : Byte) (e : Status) :
    s.newTransaction.answer k t e = s.refusedBy k t e := rfl

/-- A change of MEM alone, answered. -/
theorem State.newTransaction_onMem_answer (s : State) (f : Mem → Mem) (k t : Byte) (e : Status) (b : List Byte) :
    (s.newTransaction.onMem f).answer k t e b = { s with mem := f s.mem, lnk := s.replied k t e b } := rfl

/-! ### Operands -/

@[simp] theorem slotByte_toNat (i : Fin 16) : (slotByte i).toNat = i := by
  simp only [slotByte, BitVec.toNat_ofNat]
  omega

@[simp] theorem slotOf_slotByte (i : Fin 16) : slotOf (slotByte i) = some i := by simp [slotOf]

theorem slotOf_eq_none {b : Byte} (h : 15 < b.toNat) : slotOf b = none := by
  simp only [slotOf, dif_neg (show ¬b.toNat < 16 by omega)]

theorem toNat_le_of_slotOf {b : Byte} {i : Fin 16} (h : slotOf b = some i) : b.toNat ≤ 15 :=
  Nat.le_of_not_lt fun hbig => nomatch (slotOf_eq_none hbig).symm.trans h

theorem formatOf_eq_none_iff (b : Byte) : formatOf b = none ↔ 1 < b.toNat := by
  match h : b.toNat with
  | 0 | 1 | n + 2 => simp [formatOf, h]

theorem endBehaviourOf_eq_none_iff (b : Byte) : endBehaviourOf b = none ↔ 1 < b.toNat := by
  match h : b.toNat with
  | 0 | 1 | n + 2 => simp [endBehaviourOf, h]

theorem goodSize_iff (w h : U16) :
    goodSize w h = true ↔ 1 ≤ w.toNat ∧ w.toNat ≤ 1280 ∧ 1 ≤ h.toNat ∧ h.toNat ≤ 1600 := by
  simp only [goodSize, Bool.and_eq_true, decide_eq_true_eq, and_assoc]
  rfl

end Sys2Proof.Machine
end

