-- ==== Sys2Proof/Proofs/SlotMessages.lean ====
section
/-! Open Image, Load Slot From Storage, Close Image and Free Slot (sections 1.3 and 1.4). -/
namespace Sys2Proof.Machine
open Sys2Proof

/-! ### What the four messages do to MEM -/

/-- The load result is cleared exactly where it names the slot (R17). -/
theorem Mem.clearResult_eq (m : Mem) (i : Fin 16) :
    m.clearResult i = { m with loadResult := m.loadResult.filter fun r => r.slot ≠ i } := by
  cases m with | mk cells pool slots linkLoad storageLoad loadResult =>
  cases loadResult with
  | none => rfl
  | some r => by_cases hr : r.slot = i <;> simp [Mem.clearResult, Option.filter, hr]

/-- The slot tests of Open Image and Load Slot From Storage pass exactly a FREE slot (R8 test 2). -/
theorem Slot.notFree_of_free {x : Slot} (h : x.state = .free) : x.notFree = none := by simp [Slot.notFree, h]

theorem Slot.notFree_of_busy {x : Slot} (h : x.state = .loadingLink ∨ x.state = .loadingStorage ∨ x.state = .releasing) :
    x.notFree = some .slotBusy := by
  obtain h | h | h := h <;> simp [Slot.notFree, h]

theorem Slot.notFree_of_ready {x : Slot} (h : x.state = .ready) :
    x.notFree = some (if 0 < x.pins then .slotPinned else .slotState) := by
  simp only [Slot.notFree, h]
  split <;> rfl

/-- Open Image's effect on MEM, written out (R8, R9, R17). -/
theorem Mem.openLink_eq (m : Mem) (p : OpenParams) :
    m.openLink p =
      { m with
        cells := Memory.writeMany 0xFF#8 m.cells (whitened (m.pool.take (blocksFor p.width p.height)))
        pool := m.pool.drop (blocksFor p.width p.height)
        slots :=
          m.slots.set p.slot
            { state := .loadingLink
              width := p.width
              height := p.height
              blocks := m.pool.take (blocksFor p.width p.height) }
        linkLoad := some { slot := p.slot, format := p.format, endBehaviour := p.endBehaviour }
        loadResult := m.loadResult.filter fun r => r.slot ≠ p.slot } := by
  simp [Mem.openLink, Mem.clearResult_eq, Mem.allocate, Mem.setSlot, Mem.putBytes, Config.pictureDefault]

/-- Load Slot From Storage's effect on MEM, written out (R15, R17). -/
theorem Mem.openLoad_eq (m : Mem) (p : LoadParams) :
    m.openLoad p =
      { m with
        pool := m.pool.drop (blocksFor p.width p.height)
        slots :=
          m.slots.set p.slot
            { state := .loadingStorage
              width := p.width
              height := p.height
              blocks := m.pool.take (blocksFor p.width p.height) }
        storageLoad := some { slot := p.slot, startPage := p.start, pageCount := blocksFor p.width p.height }
        loadResult := m.loadResult.filter fun r => r.slot ≠ p.slot } := by
  simp [Mem.openLoad, Mem.clearResult_eq, Mem.allocate, Mem.setSlot]

/-! ### Open Image -/

/-- Open Image's test 1 fails (R8). -/
abbrev badOpen (slot : Byte) (width height : U16) (format endBehaviour : Byte) : Prop :=
  15 < slot.toNat ∨ width.toNat = 0 ∨ 1280 < width.toNat ∨ height.toNat = 0 ∨ 1600 < height.toNat ∨
    1 < format.toNat ∨ 1 < endBehaviour.toNat

theorem openParams_of_bad {slot : Byte} {width height : U16} {format endBehaviour : Byte}
    (h : badOpen slot width height format endBehaviour) : openParams slot width height format endBehaviour = none := by
  unfold openParams
  split
  · rename_i i f e hi hf he
    have hslot : slot.toNat ≤ 15 := toNat_le_of_slotOf hi
    have hformat : ¬1 < format.toNat := by simp [← formatOf_eq_none_iff, hf]
    have hend : ¬1 < endBehaviour.toNat := by simp [← endBehaviourOf_eq_none_iff, he]
    refine if_neg fun hsize => ?_
    have := (goodSize_iff width height).mp hsize
    omega
  · rfl

theorem openParams_of_good {i : Fin 16} {width height : U16} {format endBehaviour : Byte} {f : Format}
    {e : EndBehaviour} (hw : 1 ≤ width.toNat) (hw' : width.toNat ≤ 1280) (hh : 1 ≤ height.toNat)
    (hh' : height.toNat ≤ 1600) (hf : formatOf format = some f) (he : endBehaviourOf endBehaviour = some e) :
    openParams (slotByte i) width height format endBehaviour = some ⟨i, width.toNat, height.toNat, f, e⟩ := by
  simp [openParams, hf, he, (goodSize_iff width height).mpr ⟨hw, hw', hh, hh'⟩]

theorem openParams_of_not_bad {i : Fin 16} {width height : U16} {format endBehaviour : Byte}
    (h : ¬badOpen (slotByte i) width height format endBehaviour) :
    ∃ f e, openParams (slotByte i) width height format endBehaviour = some ⟨i, width.toNat, height.toNat, f, e⟩ := by
  simp only [badOpen, not_or] at h
  obtain ⟨hi, hw, hw', hh, hh', hf, he⟩ := h
  obtain ⟨f, hf⟩ := Option.ne_none_iff_exists'.mp (mt (formatOf_eq_none_iff format).mp hf)
  obtain ⟨e, he⟩ := Option.ne_none_iff_exists'.mp (mt (endBehaviourOf_eq_none_iff endBehaviour).mp he)
  exact ⟨f, e, openParams_of_good (by omega) (by omega) (by omega) (by omega) hf he⟩

/-- Open Image's tests 2 to 4, on a FREE slot (R8). -/
theorem Mem.judgeOpen_of_free {m : Mem} {p : OpenParams} (h : m.slots[p.slot].state = .free) :
    m.judgeOpen p =
      if m.linkLoad.isSome then some .loadBusy
      else if m.pool.length < blocksFor p.width p.height then some .noMemory
      else none := by
  rw [Mem.judgeOpen, Slot.notFree_of_free h, Option.none_or]

/-- Open Image's test 2 refuses a slot that is not FREE (R8). -/
theorem Mem.judgeOpen_of_notFree {m : Mem} {p : OpenParams} {e : Status} (h : m.slots[p.slot].notFree = some e) :
    m.judgeOpen p = some e := by rw [Mem.judgeOpen, h, Option.some_or]

section
variable {s : State} {tag slot : Byte} {width height : U16} {format endBehaviour : Byte} {p : OpenParams}

theorem exec_openImage_bad (hopen : s.linkOpen) (hp : openParams slot width height format endBehaviour = none) :
    exec (.openImage tag slot width height format endBehaviour) s = .next (s.refusedBy 0x10#8 tag .badParam) := by
  refine (next_take_of_linkOpen hopen _).trans ?_
  simp only [doOpenImage, hp, State.newTransaction_refuse]

/-- An Open Image with parameters that read is refused where MEM's tests refuse it. -/
theorem exec_openImage_refused {e : Status} (hopen : s.linkOpen)
    (hp : openParams slot width height format endBehaviour = some p) (hjudge : s.mem.judgeOpen p = some e) :
    exec (.openImage tag slot width height format endBehaviour) s = .next (s.refusedBy 0x10#8 tag e) := by
  refine (next_take_of_linkOpen hopen _).trans ?_
  simp only [doOpenImage, hp, State.newTransaction_mem, hjudge, State.newTransaction_refuse]

/-- An Open Image that passes every test opens the link load. -/
theorem exec_openImage_opens (hopen : s.linkOpen)
    (hp : openParams slot width height format endBehaviour = some p) (hjudge : s.mem.judgeOpen p = none) :
    exec (.openImage tag slot width height format endBehaviour) s = .next
      { s with mem := s.mem.openLink p, lnk := s.replied 0x10#8 tag .ok [] } := by
  refine (next_take_of_linkOpen hopen _).trans ?_
  simp only [doOpenImage, hp, State.newTransaction_mem, hjudge, State.newTransaction_onMem_answer]

end

/-! ### Load Slot From Storage -/

/-- Load Slot From Storage's test 1 fails (R15). -/
abbrev badLoad (slot : Byte) (width height : U16) (start : U32) : Prop :=
  15 < slot.toNat ∨ width.toNat = 0 ∨ 1280 < width.toNat ∨ height.toNat = 0 ∨ 1600 < height.toNat ∨
    524287 < start.toNat

theorem loadParams_of_bad {slot : Byte} {width height : U16} {start : U32} (h : badLoad slot width height start) :
    loadParams slot width height start = none := by
  unfold loadParams
  split
  · rename_i i hi
    have hslot : slot.toNat ≤ 15 := toNat_le_of_slotOf hi
    refine if_neg fun htests => ?_
    simp only [Bool.and_eq_true, decide_eq_true_eq, goodSize_iff] at htests
    have hpage : start.toNat < 524288 := htests.2
    omega
  · rfl

theorem loadParams_of_good {i : Fin 16} {width height : U16} {start : U32} (hw : 1 ≤ width.toNat)
    (hw' : width.toNat ≤ 1280) (hh : 1 ≤ height.toNat) (hh' : height.toNat ≤ 1600) (hs : start.toNat < 524288) :
    loadParams (slotByte i) width height start = some ⟨i, width.toNat, height.toNat, start.toNat⟩ := by
  have hpage : start.toNat < Config.flashPages := hs
  simp [loadParams, (goodSize_iff width height).mpr ⟨hw, hw', hh, hh'⟩, hpage]

/-- Load Slot From Storage's test 2 (R15). -/
theorem Mem.judgeLoad_of_range {m : Mem} {p : LoadParams} (h : 524288 < p.start + blocksFor p.width p.height) :
    m.judgeLoad p = some .storageRange := if_pos h

/-- Load Slot From Storage's test 3 refuses a slot that is not FREE (R15). -/
theorem Mem.judgeLoad_of_notFree {m : Mem} {p : LoadParams} {e : Status}
    (h : p.start + blocksFor p.width p.height ≤ 524288) (hx : m.slots[p.slot].notFree = some e) :
    m.judgeLoad p = some e := by
  have hrange : ¬Config.flashPages < p.start + blocksFor p.width p.height := Nat.not_lt.mpr h
  rw [Mem.judgeLoad, if_neg hrange, hx, Option.some_or]

/-- Load Slot From Storage's tests 4 and 5, on a FREE slot (R15). -/
theorem Mem.judgeLoad_of_free {m : Mem} {p : LoadParams} (h : p.start + blocksFor p.width p.height ≤ 524288)
    (hx : m.slots[p.slot].state = .free) :
    m.judgeLoad p =
      if m.storageLoad.isSome then some .loadBusy
      else if m.pool.length < blocksFor p.width p.height then some .noMemory
      else none := by
  have hrange : ¬Config.flashPages < p.start + blocksFor p.width p.height := Nat.not_lt.mpr h
  rw [Mem.judgeLoad, if_neg hrange, Slot.notFree_of_free hx, Option.none_or]

/-- The loader asks STO for its next page where nothing holds it back (R16, R18). -/
theorem State.loaderNext_of_ready {s : State} {l : StorageLoad} (hl : s.mem.storageLoad = some l)
    (hmore : l.written < l.pageCount) (hfree : s.sto.has .loader = false) (hdeep : s.pwr.power ≠ .deep)
    (hdrain : s.draining = false) (hcut : s.pwr.cutoff = false) :
    s.loaderNext =
      { s with
        sto :=
          { s.sto with
            pending := { s.sto.pending with loader := some { kind := .read, page := l.startPage + l.written } } } } := by
  simp [State.loaderNext, hl, hmore, hfree, State.inDeep, hdeep, hdrain, State.stoPlace, hcut, State.onSto,
    PerRequester.set]

/-- A picture with a pixel needs a block. -/
theorem blocksFor_pos {w h : Nat} (hw : 1 ≤ w) (hh : 1 ≤ h) : 0 < blocksFor w h := by
  have hpixels : 1 ≤ w * h := Nat.mul_pos hw hh
  simp only [blocksFor, ceilDiv, Config.blockPixels]
  omega

section
variable {s : State} {tag slot : Byte} {width height : U16} {start : U32} {p : LoadParams}

theorem exec_loadSlot_bad (hopen : s.linkOpen) (hp : loadParams slot width height start = none) :
    exec (.loadSlotFromStorage tag slot width height start) s = .next (s.refusedBy 0x13#8 tag .badParam) := by
  refine (next_take_of_linkOpen hopen _).trans ?_
  simp only [doLoadSlot, hp, State.newTransaction_refuse]

theorem exec_loadSlot_refused {e : Status} (hopen : s.linkOpen) (hp : loadParams slot width height start = some p)
    (hjudge : s.mem.judgeLoad p = some e) :
    exec (.loadSlotFromStorage tag slot width height start) s = .next (s.refusedBy 0x13#8 tag e) := by
  refine (next_take_of_linkOpen hopen _).trans ?_
  simp only [doLoadSlot, hp, State.newTransaction_mem, hjudge, State.newTransaction_refuse]

/-- A Load Slot From Storage that passes every test opens the storage load; the loader and the arbiter act (R15, R16). -/
theorem exec_loadSlot_opens (hopen : s.linkOpen) (hp : loadParams slot width height start = some p)
    (hjudge : s.mem.judgeLoad p = none) :
    exec (.loadSlotFromStorage tag slot width height start) s = .next
      (State.loaderNext { s with mem := s.mem.openLoad p, lnk := s.replied 0x13#8 tag .ok [] }).stoArbitrate := by
  refine (next_take_of_linkOpen hopen _).trans ?_
  simp only [doLoadSlot, hp, State.newTransaction_mem, hjudge, State.newTransaction_onMem_answer]

end

/-! ### Close Image and Free Slot -/

section
variable {s : State} {tag : Byte} {i : Fin 16}

/-- Close Image closes the open load of a slot that is not RELEASING (R13). -/
theorem exec_closeImage_closes {l : LinkLoad} (hopen : s.linkOpen) (hl : s.mem.linkLoad = some l)
    (hstate : s.mem.slots[l.slot].state ≠ .releasing) :
    exec (.closeImage tag (slotByte l.slot)) s = .next
      { s with
        mem := s.mem.closeLink l
        lnk :=
          s.replied 0x12#8 tag .ok
            (u32 l.written ++ flag (l.written < s.mem.slots[l.slot].pixels) ++ flag l.overflow) } := by
  have hof : s.mem.linkLoadOf l.slot = some l := by simp [Mem.linkLoadOf, hl]
  refine (next_take_of_linkOpen hopen _).trans ?_
  simp only [doCloseImage, slotOf_slotByte, State.newTransaction_mem, hstate, hof, if_false,
    State.newTransaction_onMem_answer]
  rfl

theorem exec_closeImage_releasing (hopen : s.linkOpen) (hstate : s.mem.slots[i].state = .releasing) :
    exec (.closeImage tag (slotByte i)) s = .next (s.refusedBy 0x12#8 tag .slotBusy) := by
  refine (next_take_of_linkOpen hopen _).trans ?_
  simp only [doCloseImage, slotOf_slotByte, State.newTransaction_mem, hstate, if_true, State.newTransaction_refuse]

theorem exec_closeImage_notOpen (hopen : s.linkOpen) (hstate : s.mem.slots[i].state ≠ .releasing)
    (hnone : s.mem.linkLoadOf i = none) :
    exec (.closeImage tag (slotByte i)) s = .next (s.refusedBy 0x12#8 tag .slotState) := by
  refine (next_take_of_linkOpen hopen _).trans ?_
  simp only [doCloseImage, slotOf_slotByte, State.newTransaction_mem, hstate, hnone, if_false,
    State.newTransaction_refuse]

/-- Free Slot refuses where the slot's state, owner and pins do (R14). -/
theorem exec_freeSlot_refused {e : Status} (hopen : s.linkOpen) (hjudge : s.mem.slots[i].judgeFree = some e) :
    exec (.freeSlot tag (slotByte i)) s = .next (s.refusedBy 0x14#8 tag e) := by
  refine (next_take_of_linkOpen hopen _).trans ?_
  simp only [doFreeSlot, slotOf_slotByte, State.newTransaction_mem, hjudge, State.newTransaction_refuse]

/-- Free Slot frees the slot elsewhere, and aborts its link load (R14). -/
theorem exec_freeSlot_frees (hopen : s.linkOpen) (hjudge : s.mem.slots[i].judgeFree = none) :
    exec (.freeSlot tag (slotByte i)) s = .next
      { s with mem := s.mem.freeSlot i, lnk := s.replied 0x14#8 tag .ok [] } := by
  refine (next_take_of_linkOpen hopen _).trans ?_
  simp only [doFreeSlot, slotOf_slotByte, State.newTransaction_mem, hjudge, State.newTransaction_onMem_answer]

end

end Sys2Proof.Machine

namespace Sys2Proof.Proofs
open Sys2Proof Sys2Proof.Machine

/-- Settles O16: MEM's tests decide between the refusals and `Mem.openLink`. -/
theorem openImageOpensOrRefuses : Obligations.OpenImageOpensOrRefuses := by
  constructor
  · intro tag format endBehaviour i width height f e s hopen hw hw' hh hh' hf he hfree hlink hroom
    have hjudge : s.mem.judgeOpen ⟨i, width.toNat, height.toNat, f, e⟩ = none := by
      rw [Mem.judgeOpen_of_free hfree, hlink, if_neg (by simp)]
      exact if_neg (Nat.not_lt.mpr hroom)
    rw [exec_openImage_opens hopen (openParams_of_good hw hw' hh hh' hf he) hjudge, Mem.openLink_eq]
    rfl
  · intro tag slot format endBehaviour width height s hopen
    refine ⟨fun hbad => exec_openImage_bad hopen (openParams_of_bad hbad), ?_⟩
    rintro i rfl hgood
    obtain ⟨f, e, hp⟩ := openParams_of_not_bad hgood
    refine ⟨fun hbusy => exec_openImage_refused hopen hp (Mem.judgeOpen_of_notFree (Slot.notFree_of_busy hbusy)),
      fun hready hpins => exec_openImage_refused hopen hp (Mem.judgeOpen_of_notFree ?_),
      fun hready hpins => exec_openImage_refused hopen hp (Mem.judgeOpen_of_notFree ?_),
      fun hfree hload => exec_openImage_refused hopen hp ?_,
      fun hfree hload hroom => exec_openImage_refused hopen hp ?_⟩
    · rw [Slot.notFree_of_ready hready, if_pos hpins]
    · rw [Slot.notFree_of_ready hready, if_neg (by omega)]
    · rw [Mem.judgeOpen_of_free hfree, if_pos (Option.isSome_iff_ne_none.mpr hload)]
    · rw [Mem.judgeOpen_of_free hfree, hload, if_neg (by simp), if_pos hroom]

/-- Settles O19: MEM's tests decide between the refusals and `Mem.openLoad`, upon which the loader is free to ask. -/
theorem loadSlotOpensTheStorageLoad : Obligations.LoadSlotOpensTheStorageLoad := by
  constructor
  · intro tag i width height start s hopen hw hw' hh hh' hrange hfree hload hroom hhas hcut
    have hblocks := blocksFor_pos hw hh
    have hp := loadParams_of_good (i := i) hw hw' hh hh' (start := start) (by omega)
    have hjudge : s.mem.judgeLoad ⟨i, width.toNat, height.toNat, start.toNat⟩ = none := by
      rw [Mem.judgeLoad_of_free hrange hfree, hload, if_neg (by simp)]
      exact if_neg (Nat.not_lt.mpr hroom)
    have hactive : s.pwr.power ≠ .deep := by simp [hopen.2.1]
    rw [exec_loadSlot_opens hopen hp hjudge, Mem.openLoad_eq]
    refine congrArg (fun t : State => Host.Outcome.next t.stoArbitrate) ?_
    refine (State.loaderNext_of_ready rfl ?_ ?_ ?_ ?_ ?_).trans rfl
    · exact hblocks
    · exact hhas
    · exact hactive
    · rfl
    · exact hcut
  · intro tag slot width height start s hopen
    refine ⟨fun hbad => exec_loadSlot_bad hopen (loadParams_of_bad hbad), ?_⟩
    rintro i rfl hgood
    simp only [not_or] at hgood
    obtain ⟨hi, hw, hw', hh, hh', hstart⟩ := hgood
    have hp := loadParams_of_good (i := i) (width := width) (height := height) (start := start) (by omega) (by omega)
      (by omega) (by omega) (by omega)
    refine ⟨fun hrange => exec_loadSlot_refused hopen hp (Mem.judgeLoad_of_range hrange), fun hrange => ?_⟩
    refine ⟨fun hbusy => exec_loadSlot_refused hopen hp (Mem.judgeLoad_of_notFree hrange (Slot.notFree_of_busy hbusy)),
      fun hready hpins => exec_loadSlot_refused hopen hp (Mem.judgeLoad_of_notFree hrange ?_),
      fun hready hpins => exec_loadSlot_refused hopen hp (Mem.judgeLoad_of_notFree hrange ?_),
      fun hfree hload => exec_loadSlot_refused hopen hp ?_,
      fun hfree hload hroom => exec_loadSlot_refused hopen hp ?_⟩
    · rw [Slot.notFree_of_ready hready, if_pos hpins]
    · rw [Slot.notFree_of_ready hready, if_neg (by omega)]
    · rw [Mem.judgeLoad_of_free hrange hfree, if_pos (Option.isSome_iff_ne_none.mpr hload)]
    · rw [Mem.judgeLoad_of_free hrange hfree, hload, if_neg (by simp)]
      exact if_pos hroom

/-- Settles O21: by the open load for Close Image, by `Slot.judgeFree` for Free Slot. -/
theorem closeImageAndFreeSlot : Obligations.CloseImageAndFreeSlot := by
  refine ⟨?_, ?_, ?_, ?_⟩
  · intro tag l s hopen hl hstate
    exact exec_closeImage_closes hopen hl hstate
  · intro tag slot s hopen hslot
    have hnone := slotOf_eq_none hslot
    constructor <;> refine (next_take_of_linkOpen hopen _).trans ?_
    · simp only [doCloseImage, hnone, State.newTransaction_refuse]
    · simp only [doFreeSlot, hnone, State.newTransaction_refuse]
  · intro tag i s hopen
    refine ⟨fun hstate => exec_closeImage_releasing hopen hstate, fun hstate hother => ?_⟩
    refine exec_closeImage_notOpen hopen hstate ?_
    simpa [Mem.linkLoadOf, Option.filter_eq_none_iff] using hother
  · intro tag i s hopen
    refine ⟨fun hx => exec_freeSlot_frees hopen ?_, fun hx ho hp => exec_freeSlot_frees hopen ?_,
      fun hx => exec_freeSlot_refused hopen ?_, fun hx => exec_freeSlot_refused hopen ?_,
      fun hx ho => exec_freeSlot_refused hopen ?_, fun hx ho => exec_freeSlot_refused hopen ?_,
      fun hx ho hp => exec_freeSlot_refused hopen ?_⟩
    · rw [Slot.judgeFree, hx]
    · rw [Slot.judgeFree, hx, ho]
      exact if_neg (by omega)
    · rw [Slot.judgeFree, hx]
    · obtain hx | hx := hx <;> rw [Slot.judgeFree, hx]
    · rw [Slot.judgeFree, hx, ho]
    · rw [Slot.judgeFree, hx, ho]
    · rw [Slot.judgeFree, hx, ho]
      exact if_pos hp

end Sys2Proof.Proofs
end

