-- ==== Sys2Proof/Proofs/ImageDataFrames.lean ====
section
/-! The steps of an Image Data frame, and what a body byte does to the link load's picture (R10 to R12, R190, R41). -/
namespace Sys2Proof.Machine
open Sys2Proof

/-! ### The receiver through a frame -/

/-- A new transaction begins from a new transaction as from any state. -/
theorem State.newTransaction_newTransaction (s : State) : s.newTransaction.newTransaction = s.newTransaction := rfl

/-- A body byte of a stray frame is discarded (R12). -/
theorem State.imageByte_stray {s : State} {n : Nat} (h : s.lnk.receiver = .imageData (n + 1) true) (v : Byte) :
    s.imageByte v = { s with lnk := { s.lnk with receiver := .imageData n true } } := by
  simp [State.imageByte, h, State.onLnk]

/-- A body byte of an open load's frame is applied to it (R10). -/
theorem State.imageByte_load {s : State} {n : Nat} (h : s.lnk.receiver = .imageData (n + 1) false) (v : Byte) :
    s.imageByte v = { s with mem := s.mem.applyByte v, lnk := { s.lnk with receiver := .imageData n false } } := by
  simp [State.imageByte, h, State.onLnk, State.onMem]

/-- Each body byte counts down the bytes to come. -/
theorem State.imageByte_receiver {s : State} {n : Nat} {stray : Bool} (h : s.lnk.receiver = .imageData (n + 1) stray)
    (v : Byte) : (s.imageByte v).lnk.receiver = .imageData n stray := by
  cases stray
  · rw [State.imageByte_load h]
  · rw [State.imageByte_stray h]

/-- No byte of a discarded transaction is taken (R188, R190). -/
theorem State.imageByte_unheard {s : State} (h : s.lnk.receiver = .discarding ∨ s.lnk.receiver = .unheard) (v : Byte) :
    s.imageByte v = s := by
  obtain h | h := h <;> simp [State.imageByte, h]

/-- A cut leaves the open load, without its partly received byte (R11). -/
theorem State.imageCut_of_left {s : State} {n : Nat} {stray : Bool} (h : s.lnk.receiver = .imageData (n + 1) stray) :
    s.imageCut = (s.onMem Mem.dropHeld).newTransaction := by
  simp [State.imageCut, h]

theorem State.imageCut_of_unheard {s : State} (h : s.lnk.receiver = .discarding ∨ s.lnk.receiver = .unheard) :
    s.imageCut = s.newTransaction := by
  obtain h | h := h <;> simp [State.imageCut, h]

theorem State.imageEnd_of_whole {s : State} {stray : Bool} (h : s.lnk.receiver = .imageData 0 stray) :
    s.imageEnd = s.newTransaction.returnToActive := by
  simp [State.imageEnd, h]

theorem State.imageEnd_of_unheard {s : State} (h : s.lnk.receiver = .discarding ∨ s.lnk.receiver = .unheard) :
    s.imageEnd = s.newTransaction := by
  obtain h | h := h <;> simp [State.imageEnd, h]

/-- The header discards an overlong frame, and begins a body elsewhere (R12, R190). -/
theorem State.imageHeader_receiver (s : State) (n : Nat) :
    (s.imageHeader n).lnk.receiver = .discarding ∨ ∃ stray, (s.imageHeader n).lnk.receiver = .imageData n stray := by
  simp only [State.imageHeader, State.onLnk_lnk]
  split
  · exact .inl rfl
  · split
    · exact .inr ⟨false, rfl⟩
    · exact .inr ⟨true, rfl⟩

/-- Several body bytes count down together. -/
theorem State.imageBytes_receiver {stray : Bool} {k : Nat} (vs : List Byte) {s : State}
    (h : s.lnk.receiver = .imageData (vs.length + k) stray) :
    (vs.foldl State.imageByte s).lnk.receiver = .imageData k stray := by
  induction vs generalizing s with
  | nil => simpa using h
  | cons v vs ih =>
    refine ih (State.imageByte_receiver ?_ v)
    rw [h, List.length_cons, Nat.add_right_comm]

theorem State.imageBytes_discarding (vs : List Byte) {s : State} (h : s.lnk.receiver = .discarding) :
    vs.foldl State.imageByte s = s := by
  induction vs with
  | nil => rfl
  | cons v vs ih => rwa [List.foldl_cons, State.imageByte_unheard (.inl h)]

/-- The cut of a frame whose bytes fell short ends its transaction. -/
theorem State.imageCut_newTransaction (s : State) (n : Nat) (vs : List Byte) (hcut : vs.length < n) :
    let t := vs.foldl State.imageByte (s.imageHeader n)
    t.imageCut.newTransaction = t.imageCut := by
  intro t
  obtain h | ⟨stray, h⟩ := s.imageHeader_receiver n
  · have ht : t.lnk.receiver = .discarding := by
      rw [show t = s.imageHeader n from State.imageBytes_discarding vs h, h]
    rw [State.imageCut_of_unheard (.inl ht), State.newTransaction_newTransaction]
  · obtain ⟨k, rfl⟩ := Nat.exists_eq_add_of_lt hcut
    have ht : t.lnk.receiver = .imageData (k + 1) stray := State.imageBytes_receiver vs h
    rw [State.imageCut_of_left ht, State.newTransaction_newTransaction]

/-! ### Commands one after another -/

/-- A command carried out on what the ones before it left. -/
def thenExec (o : Host.Outcome State Fault Refusal) (i : Instr) : Host.Outcome State Fault Refusal :=
  match o with
  | .next t => exec i t
  | o => o

theorem thenExec_next (s : State) (i : Instr) : thenExec (.next s) i = exec i s := rfl

theorem foldl_thenExec_imageDataByte (vs : List Byte) (s : State) :
    (vs.map Instr.imageDataByte).foldl thenExec (.next s) = .next (vs.foldl State.imageByte s) := by
  induction vs generalizing s with
  | nil => rfl
  | cons v vs ih => exact ih (s.imageByte v)

/-- The port hears a transaction that began while it took transactions. -/
theorem State.hears_of {s : State} (hon : s.linkOn = true) (hrecv : s.lnk.receiver ≠ .unheard) : s.hears = true := by
  simp [State.hears, hon, hrecv]

theorem exec_imageDataHeader {s : State} (hears : s.hears = true) (n : U16) :
    exec (.imageDataHeader n) s = .next (s.newTransaction.imageHeader n.toNat) := by
  show Host.Outcome.next (if s.hears then _ else _) = _
  rw [if_pos hears]

/-- A write frame of kind 0x11 that is heard is an Image Data frame (R190). -/
theorem exec_writeFrame_image {s : State} (hon : s.linkOn = true) (hrecv : s.lnk.receiver ≠ .unheard)
    (tag lo hi : Byte) (rest : List Byte) :
    exec (.writeFrame (0x11#8 :: tag :: lo :: hi :: rest)) s =
      .next (s.newTransaction.imageFrame (un16 lo hi).toNat rest) := by
  show Host.Outcome.next (s.atRise _) = _
  simp [State.atRise, hrecv, hon, State.heardFrame, State.frame, kindReadReply, kindImageData]

theorem un16_eq (lo hi : Byte) : un16 lo hi = BitVec.ofNat 16 (lo.toNat + 256 * hi.toNat) := by
  apply BitVec.eq_of_toNat_eq
  simp only [un16, BitVec.toNat_append, BitVec.toNat_ofNat]
  rw [← Nat.shiftLeft_add_eq_or_of_lt lo.isLt, Nat.shiftLeft_eq]
  omega

theorem un16_toNat (lo hi : Byte) : (un16 lo hi).toNat = lo.toNat + 256 * hi.toNat := by
  rw [un16_eq, BitVec.toNat_ofNat]
  omega

end Sys2Proof.Machine

namespace Sys2Proof.Proofs
open Sys2Proof Sys2Proof.Machine

/-- Settles O17: by the receiver; a whole frame by the count of body bytes it still waits for. -/
theorem imageDataFrameSteps : Obligations.ImageDataFrameSteps := by
  intro s
  refine ⟨?_, ?_, ?_, ?_, ?_, ?_, ?_⟩
  · intro n hon hrecv answer
    have hanswer : answer = .next (s.newTransaction.imageHeader n.toNat) :=
      exec_imageDataHeader (State.hears_of hon hrecv) n
    simp only [hanswer, State.imageHeader, State.newTransaction_mem]
    refine ⟨fun hlong => ?_, fun hshort hload => ?_, fun hshort hload => ?_⟩
    · simp [State.onLnk, Config.maxBody, hlong]
    · simp [State.onLnk, Config.maxBody, Nat.not_lt.mpr hshort, Option.isSome_iff_ne_none, hload]
    · simp [State.onLnk, Config.maxBody, Nat.not_lt.mpr hshort, hload]
  · intro n v h
    exact congrArg Host.Outcome.next (State.imageByte_stray h v)
  · intro n stray l h hload
    refine congrArg Host.Outcome.next ((State.imageCut_of_left h).trans ?_)
    simp [State.onMem, Mem.dropHeld, hload, State.newTransaction, State.onLnk]
  · intro stray h hactive
    exact congrArg Host.Outcome.next
      ((State.imageEnd_of_whole h).trans (State.returnToActive_of_active _ hactive))
  · intro h n
    show Host.Outcome.next (if s.hears then _ else _) = _
    simp [State.hears, h]
  · intro h
    exact ⟨congrArg Host.Outcome.next (State.imageEnd_of_unheard h),
      congrArg Host.Outcome.next (State.imageCut_of_unheard h),
      fun v => congrArg Host.Outcome.next (State.imageByte_unheard h v)⟩
  · intro hon hrecv tag lo hi rest n
    show _ = List.foldl thenExec (.next s) _
    have hheader : exec (.imageDataHeader (BitVec.ofNat 16 n)) s = .next (s.newTransaction.imageHeader n) := by
      rw [← un16_eq, exec_imageDataHeader (State.hears_of hon hrecv), un16_toNat]
    rw [exec_writeFrame_image hon hrecv, un16_toNat]
    simp only [List.foldl_append, List.foldl_cons, List.foldl_nil, thenExec_next, hheader,
      foldl_thenExec_imageDataByte, State.imageFrame]
    split
    · rename_i hcut
      have hbytes : (rest.take n).length < n := Nat.lt_of_le_of_lt (List.length_take_le' n rest) hcut
      rw [State.imageCut_newTransaction _ _ _ hbytes]
      rfl
    · rfl

end Sys2Proof.Proofs
end

