-- ==== Sys2Proof/Proofs/ImageBytes.lean ====
section
/-! What a body byte does to the link load's picture (R10, R41). -/
namespace Sys2Proof.Machine
open Sys2Proof

/-! ### Two writes of one byte -/

/-- A write below every listed address puts its entry in front. -/
theorem Memory.write_below (d : Byte) (m : List Cell) (x : Nat) (v : Byte) (h : Memory.wfFrom d (x + 1) m = true) :
    Memory.write d m x v = if v = d then m else (x, v) :: m := by
  cases m with
  | nil => rfl
  | cons c m =>
    obtain ⟨a, b⟩ := c
    simp only [Memory.wfFrom, Bool.and_eq_true, decide_eq_true_eq] at h
    simp only [Memory.write, if_pos (show x < a by omega)]

/-- A second write of one byte hides the first. -/
theorem Memory.write_writeFrom (d : Byte) (m : List Cell) (lo x : Nat) (v w : Byte) (h : Memory.wfFrom d lo m = true) :
    Memory.write d (Memory.write d m x v) x w = Memory.write d m x w := by
  induction m generalizing lo with
  | nil =>
    by_cases hv : v = d <;> simp [Memory.write, hv]
  | cons c m ih =>
    obtain ⟨a, b⟩ := c
    simp only [Memory.wfFrom, Bool.and_eq_true, decide_eq_true_eq] at h
    obtain ⟨-, hrest⟩ := h
    obtain hlt | rfl | hgt := Nat.lt_trichotomy x a
    · by_cases hv : v = d <;> simp [Memory.write, hv, hlt]
    · by_cases hv : v = d <;> simp [Memory.write, hv, Memory.write_below d m x w hrest]
    · have hnlt : ¬x < a := by omega
      have hne : x ≠ a := by omega
      simp only [Memory.write, hnlt, hne, if_false, ih (a + 1) hrest]

theorem Memory.write_write (d : Byte) (m : List Cell) (x : Nat) (v w : Byte) (h : Memory.wf d m = true) :
    Memory.write d (Memory.write d m x v) x w = Memory.write d m x w :=
  Memory.write_writeFrom d m 0 x v w h

/-! ### Nibbles -/

/-- The even pixel is the high nibble (R10). -/
theorem putNibble_even {n : Nat} (h : n % 2 = 0) (b : Byte) (l : Level) : putNibble b n l = l ++ b.extractLsb' 0 4 :=
  if_pos h

/-- The odd pixel is the low nibble (R10). -/
theorem putNibble_odd {n : Nat} (h : n % 2 = 1) (b : Byte) (l : Level) : putNibble b n l = b.extractLsb' 4 4 ++ l :=
  if_neg (by omega)

@[simp] theorem high_append (l k : Level) : (l ++ k : Byte).extractLsb' 4 4 = l := by
  revert l k; decide

@[simp] theorem low_append (l k : Level) : (l ++ k : Byte).extractLsb' 0 4 = k := by
  revert l k; decide

@[simp] theorem append_nibbles (v : Byte) : (v.extractLsb' 4 4 ++ v.extractLsb' 0 4 : Byte) = v := by
  revert v; decide

/-- The pixel after an even one lies in the same byte (section 1.1). -/
theorem pixelAddr_succ {n : Nat} (h : n % 2 = 0) (blocks : List Nat) : pixelAddr blocks (n + 1) = pixelAddr blocks n := by
  have hblock : (n + 1) / Config.blockPixels = n / Config.blockPixels := by simp only [Config.blockPixels]; omega
  have hbyte : (n + 1) % Config.blockPixels / 2 = n % Config.blockPixels / 2 := by simp only [Config.blockPixels]; omega
  rw [pixelAddr, pixelAddr, hblock, hbyte]

/-! ### One level (R10) -/

/-- The load after a level was written at its cursor. -/
def LinkLoad.advanced (l : LinkLoad) : LinkLoad :=
  { l with cursor := l.cursor + 1, written := max l.written (l.cursor + 1) }

/-- The load after a level was written at pixel 0 by WRAP, in a picture of `size` pixels. -/
def LinkLoad.wrapped (l : LinkLoad) (size : Nat) : LinkLoad := { l with cursor := 1, written := max size 1 }

theorem LinkLoad.wrapped_of_pos {size : Nat} (h : 1 ≤ size) (l : LinkLoad) :
    l.wrapped size = { l with cursor := 1, written := size } := by
  rw [LinkLoad.wrapped, Nat.max_eq_left h]

/-- MEM with a byte written and the link load replaced. -/
def Mem.withPixel (m : Mem) (a : Nat) (v : Byte) (l : LinkLoad) : Mem :=
  { m with cells := Memory.write 0xFF#8 m.cells a v, linkLoad := some l }

/-- Writing a level at the cursor of a load: one byte, and the load moves on. -/
theorem Mem.putAtCursor_eq {m : Mem} {l : LinkLoad} {a : Nat} (ha : pixelAddr m.slots[l.slot].blocks l.cursor = some a)
    (v : Level) :
    m.putAtCursor l v =
      m.withPixel a (putNibble (Memory.read 0xFF#8 m.cells a) l.cursor v) l.advanced := by
  simp only [Mem.putAtCursor, Mem.putSlotLevel, ha]
  rfl

section
variable {m : Mem} {l : LinkLoad} {a : Nat} (hl : m.linkLoad = some l)
include hl

/-- A level inside the picture is written at the cursor. -/
theorem Mem.applyLevel_inside (hc : l.cursor < m.slots[l.slot].width * m.slots[l.slot].height)
    (ha : pixelAddr m.slots[l.slot].blocks l.cursor = some a) (v : Level) :
    m.applyLevel v =
      m.withPixel a (putNibble (Memory.read 0xFF#8 m.cells a) l.cursor v) l.advanced := by
  rw [← Mem.putAtCursor_eq ha]
  simp only [Mem.applyLevel, hl]
  exact if_pos hc

/-- At the picture's end STOP discards the level and sets the overflow flag. -/
theorem Mem.applyLevel_stop (hc : l.cursor = m.slots[l.slot].width * m.slots[l.slot].height)
    (he : l.endBehaviour = .stop) (v : Level) :
    m.applyLevel v = { m with linkLoad := some { l with overflow := true } } := by
  simp only [Mem.applyLevel, hl, he]
  exact if_neg (Nat.not_lt.mpr (Nat.le_of_eq hc.symm))

/-- At the picture's end WRAP goes on at pixel 0. -/
theorem Mem.applyLevel_wrap (hc : l.cursor = m.slots[l.slot].width * m.slots[l.slot].height)
    (he : l.endBehaviour = .wrap) (ha : pixelAddr m.slots[l.slot].blocks 0 = some a) (v : Level) :
    m.applyLevel v =
      m.withPixel a (v ++ (Memory.read 0xFF#8 m.cells a).extractLsb' 0 4)
        (l.wrapped (m.slots[l.slot].width * m.slots[l.slot].height)) := by
  rw [← putNibble_even (n := 0) rfl]
  refine Eq.trans ?_ (Mem.putAtCursor_eq
    (l := { l with cursor := 0, written := m.slots[l.slot].width * m.slots[l.slot].height }) ha v)
  simp only [Mem.applyLevel, hl, he]
  exact if_neg (Nat.not_lt.mpr (Nat.le_of_eq hc.symm))

end

/-! ### One byte (R10, R41) -/

/-- A load without a partly received byte drops none. -/
theorem Mem.dropHeld_of_none {m : Mem} (h : m.linkLoad.map LinkLoad.held = some none) : m.dropHeld = m := by
  obtain ⟨l, hl, hheld⟩ := Option.map_eq_some_iff.mp h
  cases m
  cases l
  simp_all [Mem.dropHeld]

/-- A byte of a P8 load applies its reduced level. -/
theorem Mem.applyByte_p8 {m : Mem} {l : LinkLoad} (hl : m.linkLoad = some l) (hf : l.format = .p8) (v : Byte) :
    m.applyByte v = (m.applyLevel (BitVec.ofNat 4 ((v.toNat * 15 + 128) / 256))).dropHeld := by
  simp only [Mem.applyByte, hl, hf]
  rfl

/-- A byte of a P4 load applies its high nibble, then its low one. -/
theorem Mem.applyByte_p4 {m : Mem} {l : LinkLoad} (hl : m.linkLoad = some l) (hf : l.format = .p4) (v : Byte) :
    m.applyByte v = ((m.applyLevel (v.extractLsb' 4 4)).applyLevel (v.extractLsb' 0 4)).dropHeld := by
  simp only [Mem.applyByte, hl, hf]
  rfl

theorem Mem.withPixel_linkLoad (m : Mem) (a : Nat) (v : Byte) (l : LinkLoad) :
    (m.withPixel a v l).linkLoad = some l := rfl

/-- A byte written and then its low nibble: one write of the byte so made. -/
theorem Mem.withPixel_low {m : Mem} (hwf : Memory.wf 0xFF#8 m.cells = true) (a : Nat) (b : Byte) (v : Level)
    (l k : LinkLoad) :
    (m.withPixel a b l).withPixel a
        ((Memory.read 0xFF#8 (m.withPixel a b l).cells a).extractLsb' 4 4 ++ v) k =
      m.withPixel a (b.extractLsb' 4 4 ++ v) k := by
  simp [Mem.withPixel, Memory.read_write _ _ _ _ _ hwf, Memory.write_write _ _ _ _ _ hwf]

/-- A byte written and then its high nibble: one write of the byte so made. -/
theorem Mem.withPixel_high {m : Mem} (hwf : Memory.wf 0xFF#8 m.cells = true) (a : Nat) (b : Byte) (v : Level)
    (l k : LinkLoad) :
    (m.withPixel a b l).withPixel a
        (v ++ (Memory.read 0xFF#8 (m.withPixel a b l).cells a).extractLsb' 0 4) k =
      m.withPixel a (v ++ b.extractLsb' 0 4) k := by
  simp [Mem.withPixel, Memory.read_write _ _ _ _ _ hwf, Memory.write_write _ _ _ _ _ hwf]

end Sys2Proof.Machine

namespace Sys2Proof.Proofs
open Sys2Proof Sys2Proof.Machine

/-- Settles O18: a byte applies one level or two, each inside the picture or at its end. -/
theorem imageByteWritesItsLevels : Obligations.ImageByteWritesItsLevels := by
  intro v n a l s hrecv hl hheld size next
  have hexec (m : Mem) (h : s.mem.applyByte v = m) : exec (.imageDataByte v) s = .next (next m) := by
    subst h
    exact congrArg Host.Outcome.next (State.imageByte_load hrecv v)
  have hdrop {m : Mem} (h : m.linkLoad.map LinkLoad.held = some l.held) : m.dropHeld = m :=
    Mem.dropHeld_of_none (hheld ▸ h)
  have hpixel := Mem.withPixel_linkLoad s.mem
  refine ⟨?_, ?_, ?_, ?_, ?_, ?_, ?_, ?_⟩
  · intro hf hc ha
    refine hexec _ ?_
    rw [Mem.applyByte_p8 hl hf, Mem.applyLevel_inside hl hc ha, hdrop rfl]
    rfl
  · intro hf heven hc ha hwf
    have ha' : pixelAddr s.mem.slots[l.slot].blocks l.advanced.cursor = some a := (pixelAddr_succ heven _).trans ha
    have hodd : l.advanced.cursor % 2 = 1 := by simp only [LinkLoad.advanced]; omega
    refine hexec _ ?_
    rw [Mem.applyByte_p4 hl hf, Mem.applyLevel_inside hl (by omega) ha, Mem.applyLevel_inside (hpixel _ _ _) hc ha', hdrop rfl,
      putNibble_even heven, putNibble_odd hodd, Mem.withPixel_low hwf, high_append, append_nibbles]
    simp [Mem.withPixel, LinkLoad.advanced, Nat.max_assoc]
  · intro b hf hodd hc ha hb
    have heven : l.advanced.cursor % 2 = 0 := by simp only [LinkLoad.advanced]; omega
    refine hexec _ ?_
    rw [Mem.applyByte_p4 hl hf, Mem.applyLevel_inside hl (by omega) ha,
      Mem.applyLevel_inside (hpixel _ _ l.advanced) hc hb, hdrop rfl, putNibble_odd hodd, putNibble_even heven]
    simp [Mem.withPixel, LinkLoad.advanced, Nat.max_assoc]
  · intro b hf he hc ha hb
    refine hexec _ ?_
    rw [Mem.applyByte_p4 hl hf, Mem.applyLevel_inside hl (by omega) ha,
      Mem.applyLevel_wrap (hpixel _ _ l.advanced) hc he hb, hdrop rfl]
    exact congrArg (Mem.withPixel _ b _) (LinkLoad.wrapped_of_pos (show 1 ≤ size by omega) _)
  · intro hf he hc ha hwf
    refine ⟨fun htwo => hexec _ ?_, fun hone => hexec _ ?_⟩
    · have ha' : pixelAddr s.mem.slots[l.slot].blocks 1 = some a := (pixelAddr_succ rfl _).trans ha
      rw [Mem.applyByte_p4 hl hf, Mem.applyLevel_wrap hl hc he ha,
        Mem.applyLevel_inside (hpixel _ _ (l.wrapped size)) htwo ha', hdrop rfl, putNibble_odd rfl,
        Mem.withPixel_low hwf, high_append, append_nibbles, LinkLoad.wrapped_of_pos (by omega), LinkLoad.advanced,
        Nat.max_eq_left htwo]
      rfl
    · rw [Mem.applyByte_p4 hl hf, Mem.applyLevel_wrap hl hc he ha,
        Mem.applyLevel_wrap (hpixel _ _ (l.wrapped size)) hone.symm he ha, hdrop rfl, Mem.withPixel_high hwf, low_append]
      have hmax : max (s.mem.slots[l.slot].width * s.mem.slots[l.slot].height) 1 = 1 :=
        Nat.max_eq_right (Nat.le_of_eq hone)
      simp only [Mem.withPixel, LinkLoad.wrapped, hmax]
  · intro hf he hc ha
    refine hexec _ ?_
    rw [Mem.applyByte_p4 hl hf, Mem.applyLevel_inside hl (by omega) ha,
      Mem.applyLevel_stop (hpixel _ _ l.advanced) hc he, hdrop rfl, ← hc]
    rfl
  · intro hf he hc ha
    refine hexec _ ?_
    rw [Mem.applyByte_p8 hl hf, Mem.applyLevel_wrap hl hc he ha, hdrop rfl, putNibble_even rfl]
    rfl
  · intro he hc
    refine hexec _ ?_
    have hagain := Mem.applyLevel_stop (m := { s.mem with linkLoad := some { l with overflow := true } }) rfl hc he
    obtain hf | hf : l.format = .p8 ∨ l.format = .p4 := by cases l.format <;> simp
    · rw [Mem.applyByte_p8 hl hf, Mem.applyLevel_stop hl hc he, hdrop rfl]
    · rw [Mem.applyByte_p4 hl hf, Mem.applyLevel_stop hl hc he, hagain, hdrop rfl]

end Sys2Proof.Proofs
end

