-- ==== Sys2Proof/Proofs/RetirementAndAdmission.lean ====
section
/-! Retirement and admission (sections 1.2, 3.1 and 3.5). -/
namespace Sys2Proof.Machine
open Sys2Proof

/-! ### The completion log (R63) -/

/-- Entries appended one after another leave the latest eight of all. -/
theorem foldl_appendLog {log : List (Nat × Retired)} (es : List (Nat × Retired)) (h : log.length ≤ 8) :
    es.foldl appendLog log = (log ++ es).drop (log.length + es.length - 8) := by
  induction es generalizing log with
  | nil => simp [show log.length - 8 = 0 by omega]
  | cons e es ih =>
    have hlen : (appendLog log e).length = min 8 (log.length + 1) := by
      simp only [appendLog, List.length_drop, List.length_append, List.length_singleton]
      omega
    have hdrop : appendLog log e ++ es = (log ++ e :: es).drop (log.length + 1 - 8) := by
      rw [appendLog, List.append_cons log e es, ← List.drop_append_of_le_length (l₁ := log ++ [e]) (by simp; omega)]
    rw [List.foldl_cons, ih (by omega), hdrop, List.drop_drop, hlen, List.length_cons]
    congr 1
    omega

/-! ### A retirement (R63, R6, R7) -/

section
variable (s : State) (r : Request) (o : Retired)

@[simp] theorem State.retire_mem : (s.retire r o).mem = s.mem.unpin r.slot := by
  simp only [State.retire]
  split <;> rfl

@[simp] theorem State.retire_upd : (s.retire r o).upd = { s.upd with log := appendLog s.upd.log (r.number, o) } := by
  simp only [State.retire]
  split <;> rfl

/-- A retirement leaves LNK but for the notice UPDATE_DONE, which it raises where the notify flag is set and the outcome
is not CANCELLED. -/
theorem State.retire_lnk_notified (h : r.notify = true ∧ o ≠ .cancelled) :
    (s.retire r o).lnk = { s.lnk with notices := s.lnk.notices ||| 0x0001#16 } := by
  obtain ⟨hnotify, ho⟩ := h
  have hout : o.notifies = true := by cases o <;> simp_all [Retired.notifies]
  simp only [State.retire, hnotify, hout]
  rfl

theorem State.retire_lnk_silent (h : r.notify = false ∨ o = .cancelled) : (s.retire r o).lnk = s.lnk := by
  have hboth : (r.notify && o.notifies) = false := by
    obtain h | rfl := h
    · rw [h, Bool.false_and]
    · rw [Retired.notifies, Bool.and_false]
  simp only [State.retire, hboth]
  rfl

end

/-- A pin released from a slot leaves the other slots. -/
theorem Mem.unpin_slots_ne (m : Mem) {i j : Fin 16} (h : i ≠ j) : (m.unpin i).slots[j] = m.slots[j] := by
  have hne : (i : Nat) ≠ j := fun he => h (Fin.ext he)
  unfold Mem.unpin
  split <;> simp [hne]

/-! ### Several retirements, one after another (R47, log entry 19) -/

theorem State.retireAll_cons (s : State) (q : Request) (qs : List Request) (o : Retired) :
    s.retireAll (q :: qs) o = (s.retire q o).retireAll qs o := rfl

/-- Of UPD, retirements change the completion log alone. -/
theorem State.retireAll_upd (qs : List Request) (o : Retired) (s : State) :
    (s.retireAll qs o).upd =
      { s.upd with log := (qs.map fun q => (q.number, o)).foldl appendLog s.upd.log } := by
  induction qs generalizing s with
  | nil => rfl
  | cons q qs ih => rw [State.retireAll_cons, ih, State.retire_upd, List.map_cons, List.foldl_cons]

/-- Retirements without a notify flag raise nothing. -/
theorem State.retireAll_lnk_silent (qs : List Request) (o : Retired) (s : State) (h : ∀ q ∈ qs, q.notify = false) :
    (s.retireAll qs o).lnk = s.lnk := by
  induction qs generalizing s with
  | nil => rfl
  | cons q qs ih =>
    obtain ⟨hq, hqs⟩ := List.forall_mem_cons.mp h
    rw [State.retireAll_cons, ih _ hqs, State.retire_lnk_silent s q o (.inl hq)]

/-- Retirements of which one has the notify flag set raise UPDATE_DONE, once or more alike. -/
theorem State.retireAll_lnk_notified (qs : List Request) {o : Retired} (ho : o ≠ .cancelled) (s : State)
    (h : ∃ q ∈ qs, q.notify = true) :
    (s.retireAll qs o).lnk = { s.lnk with notices := s.lnk.notices ||| 0x0001#16 } := by
  induction qs generalizing s with
  | nil => simp at h
  | cons q qs ih =>
    rw [State.retireAll_cons]
    by_cases hrest : ∃ q ∈ qs, q.notify = true
    · rw [ih _ hrest]
      by_cases hq : q.notify = true
      · simp [State.retire_lnk_notified s q o ⟨hq, ho⟩, BitVec.or_assoc]
      · rw [State.retire_lnk_silent s q o (.inl (by simpa using hq))]
    · have hq : q.notify = true := by simpa [hrest] using h
      rw [State.retireAll_lnk_silent _ _ _ (by simpa using hrest), State.retire_lnk_notified s q o ⟨hq, ho⟩]

/-- Retirements leave the slots that none of them names. -/
theorem State.retireAll_slots (qs : List Request) (o : Retired) (i : Fin 16) (s : State) (h : ∀ q ∈ qs, q.slot ≠ i) :
    (s.retireAll qs o).mem.slots[i] = s.mem.slots[i] := by
  induction qs generalizing s with
  | nil => rfl
  | cons q qs ih =>
    obtain ⟨hq, hqs⟩ := List.forall_mem_cons.mp h
    rw [State.retireAll_cons, ih _ hqs, State.retire_mem, Mem.unpin_slots_ne _ hq]

end Sys2Proof.Machine

namespace Sys2Proof.Proofs
open Sys2Proof Sys2Proof.Machine

/-- Settles O30: what a retirement leaves of UPD, of MEM and of LNK. -/
theorem retirementLogsUnpinsAndNotifies : Obligations.RetirementLogsUnpinsAndNotifies := by
  intro r o s hlog t x
  refine ⟨fun hshort => ?_, fun hfull => ?_, fun hlast => ?_, fun hmore => ?_, fun hraise => ?_, fun hsilent => ?_⟩
  · simp [t, appendLog, show s.upd.log.length - 7 = 0 by omega]
  · simp [t, appendLog, hfull, List.tail_append_of_ne_nil, List.ne_nil_of_length_eq_add_one hfull]
  · exact (State.retire_mem s r o).trans (if_pos hlast)
  · exact (State.retire_mem s r o).trans (if_neg hmore)
  · exact congrArg Lnk.notices (State.retire_lnk_notified s r o hraise)
  · exact congrArg Lnk.notices (State.retire_lnk_silent s r o hsilent)

/-- Settles O29: an admission is the pinned state, the retirements by induction on the superseded requests, and the
new request at the tail. -/
theorem admissionQueuesPinsAndSupersedes : Obligations.AdmissionQueuesPinsAndSupersedes := by
  intro r s gone kept new pinned retired t
  have hretired : retired = pinned.retireAll gone .superseded := rfl
  have ht : t = { retired with upd := { retired.upd with queue := retired.upd.queue ++ [new] } } := rfl
  have hupd := State.retireAll_upd gone .superseded pinned
  have hqueue : t = { retired with upd := { retired.upd with queue := kept ++ [new] } } := by
    rw [ht, hretired, hupd]
  refine ⟨hqueue, by rw [hqueue], by rw [hqueue, hretired, hupd], fun hlog => ?_, fun hraise => ?_, fun hsilent => ?_,
    fun i hi => ?_, fun hnone => ?_⟩
  · rw [hqueue, hretired, hupd]
    simp only
    rw [foldl_appendLog _ hlog, List.length_map]
  · rw [hqueue]
    exact State.retireAll_lnk_notified gone (by decide) pinned hraise
  · rw [hqueue]
    exact State.retireAll_lnk_silent gone _ pinned hsilent
  · rw [hqueue]
    refine (State.retireAll_slots gone _ i pinned hi).trans ?_
    by_cases h : i = r.slot
    · subst h
      simp [pinned]
    · have hne : (r.slot : Nat) ≠ i := fun he => h (Fin.ext he.symm)
      simp [pinned, h, hne]
  · have hkept : kept = s.upd.queue := List.filter_eq_self.mpr fun q hq =>
      (Bool.not_eq_true' _).mpr (Bool.eq_false_iff.mpr (List.filter_eq_nil_iff.mp hnone q hq))
    have hnew : new = r := if_neg (by simp [hnone])
    have hback : retired = pinned := by rw [hretired, hnone]; rfl
    rw [hqueue, hback, hkept, hnew]

end Sys2Proof.Proofs
end

