-- ==== Sys2Proof/Proofs/PageTurns.lean ====
section
/-! Page turns (sections 4.4 and 4.5). -/
namespace Sys2Proof.Machine
open Sys2Proof

/-- The cadence falls due: it is on, and the counter has reached it (R83). -/
abbrev Trn.due (t : Trn) : Prop := t.cadence ≠ 0 ∧ t.cadence ≤ t.cadenceCounter

/-- The slot that the current entry pushes off a full list (R85, R86). -/
theorem pushDrops_eq (current : Option Entry) (list : List Entry) (limit : Nat) :
    pushDrops current list limit =
      if current.isSome ∧ limit ≤ list.length then list.getLast?.map Entry.slot else none := by
  cases current <;> simp [pushDrops]

/-- RING_LOW is raised where the forward list is shorter than the low mark, which is then not 0 (R89). -/
theorem State.ringLow_eq (s : State) :
    s.ringLow = if s.trn.forward.length < s.trn.lowMark then s.raise .ringLow else s := by
  have hiff : (s.trn.lowMark ≠ 0 ∧ s.trn.forward.length < s.trn.lowMark) ↔ s.trn.forward.length < s.trn.lowMark :=
    ⟨And.right, fun h => ⟨by omega, h⟩⟩
  simp only [State.ringLow, hiff]

section
variable {s : State} {front : Entry} {rest : List Entry}

theorem State.forwardTurn_served {r : Request} (hlist : s.trn.forward = front :: rest)
    (hr : s.judgeTurn front.slot = .ok r) :
    s.forwardTurn =
      ((({ s.enterQueue r with trn := s.trn.moveForward front rest r.number } : State).dropSlot
        (pushDrops s.trn.current s.trn.backward 2)).ringLow).settle true := by
  simp only [State.forwardTurn, hlist, hr, State.onTrn, enterQueue_trn]

theorem State.backwardTurn_served {r : Request} (hlist : s.trn.backward = front :: rest)
    (hr : s.judgeTurn front.slot = .ok r) :
    s.backwardTurn =
      (({ s.enterQueue r with trn := s.trn.moveBackward front rest r.number } : State).dropSlot
        (pushDrops s.trn.current s.trn.forward 4)).settle true := by
  simp only [State.backwardTurn, hlist, hr, State.onTrn, enterQueue_trn]

theorem State.forwardTurn_empty (hlist : s.trn.forward = []) : s.forwardTurn = s.turnUnserved .forward .empty := by
  simp only [State.forwardTurn, hlist]

theorem State.backwardTurn_empty (hlist : s.trn.backward = []) :
    s.backwardTurn = s.turnUnserved .backward .empty := by
  simp only [State.backwardTurn, hlist]

theorem State.forwardTurn_refused {e : Status} (hlist : s.trn.forward = front :: rest)
    (he : s.judgeTurn front.slot = .error e) : s.forwardTurn = s.turnUnserved .forward (unservedReason e) := by
  simp only [State.forwardTurn, hlist, he]

theorem State.backwardTurn_refused {e : Status} (hlist : s.trn.backward = front :: rest)
    (he : s.judgeTurn front.slot = .error e) : s.backwardTurn = s.turnUnserved .backward (unservedReason e) := by
  simp only [State.backwardTurn, hlist, he]

end

/-- The turn's mode and its cadence obligation (R83). -/
theorem Trn.turnMode_eq (t : Trn) : t.turnMode = (if t.due then .full else .gray, decide t.due) := by
  unfold Trn.turnMode
  split <;> simp_all

/-- A test that refuses has passed where the outcome is a success. -/
theorem of_guard {ε α : Type} {p : Prop} [Decidable p] {e : ε} {x : Except ε α} {a : α}
    (h : (if p then .error e else x) = .ok a) : x = .ok a := by
  split at h
  · nomatch h
  · exact h

/-- An admitted submission whose operands all read is the request that R43 makes of them. -/
theorem State.judgeSubmission_ok {s : State} {b : Submission} {i : Fin 16} {m : Mode} {f : Option Nat} {n : Bool}
    {rect : Rect} {r : Request} (hslot : b.slot = some i) (hmode : b.mode = some m) (hforced : b.forced = some f)
    (hnotify : b.notify = some n) (hrect : clipRect b.x b.y b.w b.h = some rect) (h : s.judgeSubmission b = .ok r) :
    r = s.requestOf b i m f n rect := by
  simp only [State.judgeSubmission, hslot, hmode, hforced, hnotify, hrect] at h
  exact (Except.ok.inj (of_guard (of_guard (of_guard (of_guard (of_guard h)))))).symm

end Sys2Proof.Machine

namespace Sys2Proof.Proofs
open Sys2Proof Sys2Proof.Machine

/-- Settles O41: by the list a turn takes from, and what admission makes of its submission. -/
theorem turnsMoveThePlacesOrCount : Obligations.TurnsMoveThePlacesOrCount := by
  refine ⟨fun front rest r s hr => ⟨fun hlist => ?_, fun hlist => ?_⟩,
    fun s => ⟨State.forwardTurn_empty, State.backwardTurn_empty, fun front rest e why he hwhy => ?_⟩,
    fun i s => ⟨?_, fun r hr => ?_, State.ringLow_eq s, rfl, ?_⟩⟩
  · rw [State.forwardTurn_served hlist hr, pushDrops_eq]
    rfl
  · rw [State.backwardTurn_served hlist hr, pushDrops_eq]
    rfl
  · have hreason : unservedReason e = why := by
      obtain ⟨rfl, rfl⟩ | ⟨rfl, rfl⟩ | ⟨rfl, rfl⟩ := hwhy <;> rfl
    subst hreason
    exact ⟨fun hlist => State.forwardTurn_refused hlist he, fun hlist => State.backwardTurn_refused hlist he⟩
  · rw [State.judgeTurn, Trn.turnMode_eq]
    rfl
  · rw [State.judgeTurn, Trn.turnMode_eq] at hr
    exact State.judgeSubmission_ok rfl rfl rfl rfl rfl hr
  · simp only [State.dropSlot, State.onMem, Mem.drop]
    rfl

end Sys2Proof.Proofs
end

