-- ==== Sys2Proof/Proofs/StorageOutcomes.lean ====
section
/-! The end of a storage operation (R158), and the spooler's next request (R145). -/
namespace Sys2Proof.Machine
open Sys2Proof

/-! ### STO's record of an operation (R158) -/

/-- A counter that an event raises, wrapping at 65536. -/
def counted16 (event : Bool) (n : Nat) : Nat := if event then (n + 1) % 65536 else n

theorem PerRequester.set_get {α : Type} (p : PerRequester α) (r : Requester) : p.set r (p.get r) = p := by
  cases r <;> rfl

/-- A requester's counter after an event, where the model changes none without it. -/
theorem PerRequester.set_counted (p : PerRequester Nat) (r : Requester) (c : Prop) [Decidable c] :
    (if c then p.set r (wrap16 (p.get r + 1)) else p) = p.set r (counted16 c (p.get r)) := by
  by_cases h : c <;> simp [counted16, h, wrap16, PerRequester.set_get]

/-- The end of an operation is recorded, and counted with its outcome. -/
theorem Sto.finish_eq (t : Sto) (o : Op) (outcome : OpOutcome) :
    t.finish o outcome =
      { t with
        op := none
        latest := t.latest.set o.requester (some ⟨o.kind, o.page, outcome⟩)
        faults := t.faults.set o.requester (counted16 (outcome = .fault) (t.faults.get o.requester))
        timeouts := t.timeouts.set o.requester (counted16 (outcome = .timeout) (t.timeouts.get o.requester)) } := by
  simp only [Sto.finish, PerRequester.set_counted]

theorem State.stoEnd_link {s : State} {o : Op} (h : o.requester = .link) (outcome : OpOutcome) (data : List Byte) :
    s.stoEnd o outcome data = (s.onSto fun t => t.finish o outcome).linkDone o outcome data := by
  simp only [State.stoEnd, h]

theorem State.stoEnd_spooler {s : State} {o : Op} (h : o.requester = .spooler) (outcome : OpOutcome)
    (data : List Byte) :
    s.stoEnd o outcome data = (s.onSto fun t => t.finish o outcome).spoolerDone o outcome := by
  simp only [State.stoEnd, h]

theorem State.stoEnd_loader {s : State} {o : Op} (h : o.requester = .loader) (outcome : OpOutcome) (data : List Byte) :
    s.stoEnd o outcome data = (s.onSto fun t => t.finish o outcome).loaderDone outcome data := by
  simp only [State.stoEnd, h]

/-! ### The loader (R16 to R18) -/

section
variable {s : State} {l : StorageLoad} {data : List Byte}

theorem State.loaderDone_ok (hl : s.mem.storageLoad = some l) : s.loaderDone .ok data = s.pageRead l data := by
  simp only [State.loaderDone, hl]

theorem State.loaderDone_fault {outcome : OpOutcome} (hl : s.mem.storageLoad = some l) (ho : outcome ≠ .ok) :
    s.loaderDone outcome data = s.loadFault l := by
  cases outcome with
  | ok => exact absurd rfl ho
  | timeout => simp only [State.loaderDone, hl]
  | fault => simp only [State.loaderDone, hl]

/-- The last page makes the slot READY and ends the load (R16). -/
theorem State.pageRead_last (h : l.pageCount ≤ l.written + 1) :
    s.pageRead l data =
      { s with
        mem :=
          { s.mem with
            cells := Memory.writeMany 0xFF#8 s.mem.cells (s.mem.pageWrites s.mem.slots[l.slot] l.written data)
            slots := s.mem.slots.set l.slot { s.mem.slots[l.slot] with state := .ready, incomplete := false }
            storageLoad := none
            loadResult := some ⟨l.slot, false, l.pageCount, l.written + 1⟩ }
        lnk := { s.lnk with notices := s.lnk.notices ||| 0x0010#16 } } := by
  rw [State.pageRead, if_neg (Nat.not_lt.mpr h)]
  rfl

/-- Another page has the loader ask for the next one (R16). -/
theorem State.pageRead_more (h : l.written + 1 < l.pageCount) :
    s.pageRead l data =
      State.loaderNext
        { s with
          mem :=
            { s.mem with
              cells := Memory.writeMany 0xFF#8 s.mem.cells (s.mem.pageWrites s.mem.slots[l.slot] l.written data)
              storageLoad := some { l with written := l.written + 1 } } } := by
  rw [State.pageRead, if_pos h]
  rfl

/-- The loader that has no request with STO asks for its next page unless DEEP, a drain or the cutoff sequence holds it
back (R18, R21, R165). -/
theorem State.loaderNext_of_free (hl : s.mem.storageLoad = some l) (hmore : l.written < l.pageCount)
    (hfree : s.sto.has .loader = false) :
    s.loaderNext =
      { s with
        sto :=
          if s.pwr.power ≠ .deep ∧ s.draining = false ∧ s.pwr.cutoff = false then
            { s.sto with
              pending := { s.sto.pending with loader := some { kind := .read, page := l.startPage + l.written } } }
          else s.sto } := by
  by_cases hgo : s.pwr.power ≠ .deep ∧ s.draining = false ∧ s.pwr.cutoff = false
  · obtain ⟨hdeep, hdrain, hcut⟩ := hgo
    rw [State.loaderNext_of_ready hl hmore hfree hdeep hdrain hcut, if_pos ⟨hdeep, hdrain, hcut⟩]
  · rw [if_neg hgo]
    simp only [State.loaderNext, hl, State.stoPlace]
    split
    · rename_i hask
      obtain ⟨-, -, hdeep, hdrain⟩ := hask
      have hcut : s.pwr.cutoff = true := Bool.not_eq_false _ ▸ fun hcut =>
        hgo ⟨by simpa [State.inDeep] using hdeep, hdrain, hcut⟩
      rw [if_pos hcut]
    · rfl

end

/-! ### The spooler's outcomes (R146, R147) -/

theorem Spl.find_id {p : Spl} {id : Byte} {d : Download} (h : p.find id = some d) : d.id = id := by
  simpa [Spl.find] using List.find?_some h

/-- After a change that keeps ids, the record of the id changed is the record so changed. -/
theorem Spl.find_update {p : Spl} {id : Byte} {d : Download} {f : Download → Download} (hf : ∀ e, (f e).id = e.id)
    (h : p.find id = some d) : (p.update id f).find id = some (f d) := by
  have hid := Spl.find_id h
  have hsame : ((fun e : Download => decide (e.id = id)) ∘ fun e => if e.id = id then f e else e) =
      fun e => decide (e.id = id) := by
    funext e
    simp only [Function.comp]
    split <;> simp_all
  rw [Spl.find] at h
  rw [Spl.find, Spl.update, List.find?_map, hsame, h, Option.map_some, if_pos hid]

/-- Two changes of the records of one id are one change. -/
theorem Spl.update_update (p : Spl) (id : Byte) (f g : Download → Download) (hf : ∀ e, (f e).id = e.id) :
    (p.update id f).update id g = p.update id fun e => g (f e) := by
  simp only [Spl.update, List.map_map, Spl.mk.injEq, and_true]
  refine List.map_congr_left fun e _ => ?_
  simp only [Function.comp]
  split <;> simp_all

section
variable {s : State} {o : Op} {outcome : OpOutcome} {d : Download}

/-- A record whose removal waited goes with its request's end (R137). -/
theorem State.spoolerDone_removal (hd : s.spl.find o.download = some d) (hr : d.removal = true) :
    s.spoolerDone o outcome = s.finishRemoval o.download := by
  simp only [State.spoolerDone, hd, hr, if_true, Spl.find_id hd]

theorem State.withdrawFor_none (h : s.sto.pending.spooler = none) (id : Byte) : s.withdrawFor id = s := by
  simp only [State.withdrawFor, h]

theorem State.removeRecord_none (h : s.sto.pending.spooler = none) (id : Byte) :
    s.removeRecord id = { s with spl := s.spl.remove id } := by
  rw [State.removeRecord, State.withdrawFor_none h]
  rfl

theorem State.spoolerDone_erased (hd : s.spl.find o.download = some d) (hr : d.removal = false)
    (hk : o.kind = .erase) :
    s.spoolerDone o .ok =
      { s with spl := s.spl.update o.download fun d => { d with erased := d.erased + 1 } } := by
  simp only [State.spoolerDone, hd, hr, hk, Spl.find_id hd]
  rfl

theorem State.spoolerDone_programmed (hd : s.spl.find o.download = some d) (hr : d.removal = false)
    (hk : o.kind = .program) :
    s.spoolerDone o .ok =
      State.completeRecord { s with spl := s.spl.programmed o.download (o.page - d.start) } o.download := by
  simp only [State.spoolerDone, hd, hr, hk, Spl.find_id hd]
  rfl

/-- What a page program leaves of SPL (R146). -/
theorem Spl.programmed_eq {p : Spl} {id : Byte} {d : Download} (hd : p.find id = some d) (page : Nat) :
    p.programmed id page =
      { p.update id fun e => { e with committed := e.committed + e.pageBytes page } with
        staged := p.staged.filter fun g => !(g.id = id && (d.pageSegments page).contains g.index) } := by
  simp only [Spl.programmed, hd]

/-- The record of the program, after it. -/
theorem Spl.find_programmed {p : Spl} {id : Byte} {d : Download} (hd : p.find id = some d) (page : Nat) :
    (p.programmed id page).find id = some { d with committed := d.committed + d.pageBytes page } := by
  rw [Spl.programmed_eq hd]
  exact Spl.find_update (f := fun e => { e with committed := e.committed + e.pageBytes page }) (fun _ => rfl) hd

/-- The last page program completes its record with it (R147). -/
theorem Spl.complete_programmed {p : Spl} {id : Byte} {d : Download} (hd : p.find id = some d) (page : Nat) :
    ((p.programmed id page).update id fun e => { e with state := .complete }) =
      { p.update id fun e => { e with state := .complete, committed := e.committed + e.pageBytes page } with
        staged := p.staged.filter fun g => !(g.id = id && (d.pageSegments page).contains g.index) } := by
  have htwice := Spl.update_update p id (fun e => { e with committed := e.committed + e.pageBytes page })
    (fun e => { e with state := .complete }) fun _ => rfl
  rw [Spl.programmed_eq hd]
  simpa [Spl.update] using congrArg Spl.table htwice

theorem State.completeRecord_of_short (hd : s.spl.find o.download = some d)
    (h : ¬(d.state = .draining ∧ d.total ≤ d.committed)) : s.completeRecord o.download = s := by
  simp only [State.completeRecord, hd]
  exact if_neg h

theorem State.completeRecord_of_full (hd : s.spl.find o.download = some d)
    (h : d.state = .draining ∧ d.total ≤ d.committed) :
    s.completeRecord o.download =
      { s with
        spl := s.spl.update o.download fun d => { d with state := .complete }
        lnk := { s.lnk with notices := s.lnk.notices ||| 0x0040#16 } } := by
  simp only [State.completeRecord, hd]
  exact if_pos h

/-- A record that is neither locked nor SUSPENDED takes no storage fault (R146). -/
theorem State.spoolerDone_faultIgnored (hd : s.spl.find o.download = some d) (hr : d.removal = false)
    (ho : outcome ≠ .ok) (h : d.state = .complete ∨ d.state = .failed) : s.spoolerDone o outcome = s := by
  have hopen : (d.locked || decide (d.state = .suspended)) = false := by
    obtain h | h := h <;> simp [Download.locked, h]
  cases outcome with
  | ok => exact absurd rfl ho
  | timeout => simp [State.spoolerDone, hd, hr, hopen]
  | fault => simp [State.spoolerDone, hd, hr, hopen]

/-- Another record fails (R146). -/
theorem State.spoolerDone_fails (hd : s.spl.find o.download = some d) (hr : d.removal = false)
    (ho : outcome ≠ .ok) (h : d.state = .receiving ∨ d.state = .draining ∨ d.state = .suspended) :
    s.spoolerDone o outcome =
      s.failStorage o.download (if outcome = .fault then .storageFault else .storageTimeout) := by
  have hopen : (d.locked || decide (d.state = .suspended)) = true := by
    obtain h | h | h := h <;> simp [Download.locked, h]
  cases outcome with
  | ok => exact absurd rfl ho
  | timeout => simp [State.spoolerDone, hd, hr, hopen, Spl.find_id hd]
  | fault => simp [State.spoolerDone, hd, hr, hopen, Spl.find_id hd]

theorem State.failStorage_eq (h : s.sto.pending.spooler = none) (id : Byte) (why : DlFault) :
    s.failStorage id why =
      { s with
        spl :=
          { s.spl.update id fun e =>
              { e with state := .failed, fault := some why, runs := e.runsOfPages e.committedPages, stall := none } with
            staged := s.spl.staged.filter fun g => g.id ≠ id }
        lnk := { s.lnk with notices := s.lnk.notices ||| 0x0080#16 } } := by
  rw [State.failStorage, State.releaseRecord, State.withdrawFor_none]
  · rfl
  · exact h

end

/-! ### The spooler's next request (R145) -/

/-- A record's next page can be committed: it is RECEIVING or DRAINING without a removal pending, has bytes left, and
every segment of the page is in the first run and held in staging (R145). -/
def Spl.Committable (p : Spl) (d : Download) : Prop :=
  (d.state = .receiving ∨ d.state = .draining) ∧ d.removal = false ∧ d.committed < d.total ∧
    ∀ i, d.nextPage * (2048 / d.size) ≤ i → i < (d.nextPage + 1) * (2048 / d.size) → i < d.segments →
      i < d.lowest ∧ ∃ g ∈ p.staged, g.id = d.id ∧ g.index = i

theorem Download.mem_pageSegments (d : Download) (page i : Nat) :
    i ∈ d.pageSegments page ↔ page * (2048 / d.size) ≤ i ∧ i < (page + 1) * (2048 / d.size) ∧ i < d.segments := by
  have hper : d.perPage = 2048 / d.size := rfl
  simp only [Download.pageSegments, hper, List.mem_range'_1, Nat.succ_mul]
  omega

theorem Spl.committable_iff (p : Spl) (d : Download) : p.committable d d.nextPage = true ↔ p.Committable d := by
  simp [Spl.committable, Spl.Committable, Download.locked, Download.mem_pageSegments, and_assoc]

theorem Spl.nextOp_of_committable {p : Spl} {d : Download} (h : p.Committable d) :
    p.nextOp d =
      some
        { kind := if d.nextPage % 64 = 0 ∧ d.erased = d.nextPage / 64 then .erase else .program
          page := d.start + d.nextPage
          download := d.id } :=
  if_pos ((p.committable_iff d).mpr h)

theorem Spl.nextOp_of_not_committable {p : Spl} {d : Download} (h : ¬p.Committable d) : p.nextOp d = none :=
  if_neg (mt (p.committable_iff d).mp h)

/-- The place that the round looks at `k` places on (R145). -/
def Spl.placeAt (p : Spl) (k : Nat) : Nat := (p.round + k) % p.table.length

/-- The request that the round finds at a place of the table. -/
def Spl.requestAt (p : Spl) (k : Nat) : Option (Nat × StoRequest) :=
  p.table[k]?.bind fun d => (p.nextOp d).map fun r => (k, r)

theorem Spl.nextRequest_eq (p : Spl) :
    p.nextRequest = (List.range p.table.length).findSome? fun k => p.requestAt (p.placeAt k) := by
  simp only [Spl.nextRequest, Spl.roundOrder, List.findSome?_map]
  congr 1
  funext k
  simp only [Function.comp, Spl.requestAt, Spl.placeAt]
  cases p.table[(p.round + k) % p.table.length]? <;> rfl

theorem Spl.requestAt_eq_none {p : Spl} {k : Nat} (h : ∀ e, p.table[k]? = some e → ¬p.Committable e) :
    p.requestAt k = none := by
  rw [Spl.requestAt, Option.bind_eq_none_iff]
  intro e he
  rw [Spl.nextOp_of_not_committable (h e he), Option.map_none]

/-- The first place of the round that answers gives the next request. -/
theorem findSome?_range_first {α : Type} {f : Nat → Option α} {a : α} {k n : Nat} (hk : k < n) (ha : f k = some a)
    (hnone : ∀ j < k, f j = none) : (List.range n).findSome? f = some a := by
  induction n with
  | zero => omega
  | succ n ih =>
    rw [List.range_succ, List.findSome?_append]
    obtain hlt | rfl := Nat.lt_succ_iff_lt_or_eq.mp hk
    · rw [ih hlt, Option.some_or]
    · have hbefore : (List.range k).findSome? f = none := by
        rw [List.findSome?_eq_none_iff]
        exact fun j hj => hnone j (List.mem_range.mp hj)
      simp [hbefore, ha]

/-- The spooler's next request is for the first record of the round whose next page can be committed (R145). -/
theorem Spl.nextRequest_first {p : Spl} {k : Nat} {d : Download} (hk : k < p.table.length)
    (hd : p.table[p.placeAt k]? = some d) (hready : p.Committable d)
    (hbefore : ∀ j < k, ∀ e, p.table[p.placeAt j]? = some e → ¬p.Committable e) :
    p.nextRequest =
      some
        (p.placeAt k,
          { kind := if d.nextPage % 64 = 0 ∧ d.erased = d.nextPage / 64 then .erase else .program
            page := d.start + d.nextPage
            download := d.id }) := by
  rw [Spl.nextRequest_eq]
  refine findSome?_range_first hk ?_ fun j hj => Spl.requestAt_eq_none (hbefore j hj)
  rw [Spl.requestAt, hd, Option.bind_some, Spl.nextOp_of_committable hready, Option.map_some]

theorem Spl.nextRequest_none {p : Spl} (h : ∀ d ∈ p.table, ¬p.Committable d) : p.nextRequest = none := by
  rw [Spl.nextRequest_eq, List.findSome?_eq_none_iff]
  exact fun k _ => Spl.requestAt_eq_none fun e he => h e (List.mem_of_getElem? he)

/-- The spooler asks where it holds no request, and neither a drain nor the cutoff sequence holds it back. -/
theorem State.splNext_of_free {s : State} (hfree : s.sto.has .spooler = false) (hdrain : s.draining = false)
    (hcut : s.pwr.cutoff = false) :
    s.splNext =
      (s.spl.nextRequest.elim s fun kq =>
        { s with
          spl := { s.spl with round := kq.1 + 1 }
          sto := { s.sto with pending := { s.sto.pending with spooler := some kq.2 } } }) := by
  cases h : s.spl.nextRequest with
  | none => simp [State.splNext, hfree, hdrain, hcut, h]
  | some kq => simp [State.splNext, hfree, hdrain, hcut, h, State.onSpl, State.onSto, State.stoPlace, PerRequester.set]

theorem State.splNext_of_held {s : State} (h : s.sto.has .spooler = true ∨ s.draining = true ∨ s.pwr.cutoff = true) :
    s.splNext = s := by
  refine if_pos ?_
  simpa [or_assoc] using h

/-- Some record is RECEIVING or DRAINING. -/
theorem Spl.busy_iff (p : Spl) : p.busy = true ↔ ∃ d ∈ p.table, d.state = .receiving ∨ d.state = .draining := by
  simp [Spl.busy, Download.locked]

end Sys2Proof.Machine

namespace Sys2Proof.Proofs
open Sys2Proof Sys2Proof.Machine

/-- Settles O54: by the requester and the outcome; the spooler's request by the first place of the round that is ready. -/
theorem storageOutcomesReachTheirRequesters : Obligations.StorageOutcomesReachTheirRequesters := by
  intro s o outcome data bump finished done renewed
  have hdone : (s.onSto fun t => t.finish o outcome) = done :=
    congrArg (fun t => { s with sto := t }) (Sto.finish_eq s.sto o outcome)
  refine ⟨?_, ?_, ?_, ?_, ?_, ?_, ?_⟩
  · intro p hlink (hp : done.lnk.processing = some p)
    rw [State.stoEnd_link hlink, hdone, State.linkDone, hp]
    cases outcome <;> rfl
  · intro l hloader (hl : done.mem.storageLoad = some l) x ready
    rw [State.stoEnd_loader hloader, hdone]
    refine ⟨?_, ?_, ?_⟩
    · rintro rfl hlast
      exact (State.loaderDone_ok hl).trans (State.pageRead_last hlast)
    · rintro rfl hmore hnone
      have hfree : done.sto.has .loader = false := by simp [done, finished, Sto.has, PerRequester.get, hnone]
      refine (State.loaderDone_ok hl).trans ((State.pageRead_more hmore).trans ?_)
      refine (State.loaderNext_of_free rfl ?_ ?_).trans rfl
      · exact hmore
      · exact hfree
    · intro hfault
      exact State.loaderDone_fault hl hfault
  · intro d hspooler (hd : done.spl.find o.download = some d) hr (hnone : done.sto.pending.spooler = none)
    have hremove : done.removeRecord o.download = { done with spl := s.spl.remove o.download } :=
      State.removeRecord_none hnone o.download
    rw [State.stoEnd_spooler hspooler, hdone, State.spoolerDone_removal hd hr, State.finishRemoval, hremove]
    refine ⟨fun p hp hwork => ?_, fun hp => ?_⟩
    · rw [show ({ done with spl := s.spl.remove o.download } : State).lnk.processing = some p from hp]
      exact if_pos hwork
    · rw [show ({ done with spl := s.spl.remove o.download } : State).lnk.processing = none from hp]
  · intro d hspooler (hd : done.spl.find o.download = some d) hr
    rw [State.stoEnd_spooler hspooler, hdone]
    refine ⟨?_, ?_, ?_, ?_, ?_⟩
    · rintro rfl hk
      exact State.spoolerDone_erased hd hr hk
    · rintro rfl hk hshort
      have hfind := Spl.find_programmed hd (o.page - d.start)
      rw [State.spoolerDone_programmed hd hr hk, State.completeRecord_of_short hfind, Spl.programmed_eq hd]
      · rfl
      · show ¬(d.state = .draining ∧ d.total ≤ d.committed + d.pageBytes (o.page - d.start))
        intro hfull
        obtain hshort | hshort := hshort
        · exact hshort hfull.1
        · omega
    · rintro rfl hk hdraining hfull -
      have hfind := Spl.find_programmed hd (o.page - d.start)
      rw [State.spoolerDone_programmed hd hr hk, State.completeRecord_of_full hfind, Spl.complete_programmed hd]
      · rfl
      · exact ⟨hdraining, hfull⟩
    · intro hfault hstate
      exact State.spoolerDone_faultIgnored hd hr hfault hstate
    · intro hfault hstate (hnone : done.sto.pending.spooler = none)
      exact (State.spoolerDone_fails hd hr hfault hstate).trans (State.failStorage_eq hnone _ _)
  · intro hfree hdrain hcut places page ready
    rw [State.splNext_of_free hfree hdrain hcut]
    refine ⟨fun k d hk hd hready hbefore => ?_, fun hnone => ?_⟩
    · rw [Spl.nextRequest_first hk hd hready hbefore]
      rfl
    · rw [Spl.nextRequest_none hnone]
      rfl
  · exact State.splNext_of_held
  · intro examine follows
    refine ⟨fun hbusy => ?_, fun hidle => ?_⟩
    · have hstay : s.returnStaging = s := if_pos ((Spl.busy_iff _).mpr hbusy)
      simp only [State.spooler, hstay]
      rfl
    · have hback : ¬s.spl.busy = true := by
        rw [Spl.busy_iff]
        rintro ⟨d, hd, hstate⟩
        exact hstate.elim (hidle d hd).1 (hidle d hd).2
      simp only [State.spooler, State.returnStaging, hback]
      rfl

end Sys2Proof.Proofs
end

