-- ==== Sys2Proof/Proofs/WakesAndPowerSettings.lean ====
section
/-! Wakes, the charger and the power settings (sections 9.3 to 9.5). -/
namespace Sys2Proof.Machine
open Sys2Proof

/-! ### Wake sources (R173, R176) -/

/-- A wake source outside DEEP is noted where an entry waits, the first of several (R173). -/
theorem State.wakeBy_awake {s : State} (h : s.pwr.power ≠ .deep) (c : WakeCause) :
    s.wakeBy c =
      { s with
        pwr :=
          { s.pwr with
            pendingWake := if s.pwr.deepWait = none then s.pwr.pendingWake else s.pwr.pendingWake.or (some c) } } := by
  have hdeep : s.inDeep = false := by simp [State.inDeep, h]
  simp only [State.wakeBy, hdeep, State.noteWake, State.onPwr]
  cases hwait : s.pwr.deepWait <;> simp

theorem State.wakeBy_deep {s : State} (h : s.pwr.power = .deep) (c : WakeCause) : s.wakeBy c = s.leaveDeep .doze c := by
  simp [State.wakeBy, State.inDeep, h]

/-- The loader asks for nothing where it has no load, has a request with STO, or is held back (R18, R21, R165). -/
theorem State.loaderNext_of_held {s : State}
    (h : s.mem.storageLoad = none ∨ s.sto.has .loader = true ∨ s.pwr.power = .deep ∨ s.draining = true ∨
      s.pwr.cutoff = true) : s.loaderNext = s := by
  cases hl : s.mem.storageLoad with
  | none => simp only [State.loaderNext, hl]
  | some l =>
    simp only [State.loaderNext, hl, State.stoPlace]
    split
    · rename_i hask
      obtain ⟨-, hfree, hdeep, hdrain⟩ := hask
      have hawake : s.pwr.power ≠ .deep := by simpa [State.inDeep] using hdeep
      have hcut : s.pwr.cutoff = true := by simpa [hl, hfree, hdrain, hawake] using h
      exact if_pos hcut
    · rfl

/-- A fall of CS in DEEP wakes the part (R176). -/
theorem exec_csFallWake_deep {s : State} (hon : s.supply = .on) (hdeep : s.pwr.power = .deep) :
    exec .csFallWake s = .next
      (State.leaveDeep
        { s with lnk := { s.lnk with holdoff := some (s.clock + 4000), receiver := .unheard } } .active .host) := by
  show Host.Outcome.next (if s.live && s.inDeep then _ else _) = _
  rw [if_pos (by simp [State.live, State.inDeep, hon, hdeep])]
  rfl

/-- A fall of CS elsewhere begins a transaction (R195). -/
theorem exec_csFallWake_awake {s : State} (h : s.supply ≠ .on ∨ s.pwr.power ≠ .deep) :
    exec .csFallWake s = .next s.csFalls := by
  show Host.Outcome.next (if s.live && s.inDeep then _ else _) = _
  rw [if_neg]
  obtain h | h := h <;> simp [State.live, State.inDeep, h]

/-! ### The wake timer and the charger (R177, R178) -/

section
variable {s : State} {d : Nat}

/-- The wake timer's expiry, but for the wake (R177). -/
def State.wakeExpired (s : State) (d : Nat) : State :=
  { s with
    clock := max s.clock d
    pwr := { s.pwr with wakeTimer := none }
    lnk := { s.lnk with notices := s.lnk.notices ||| 0x2000#16 } }

theorem exec_wakeTimerExpiry (h : s.pwr.wakeTimer = some d) :
    exec .wakeTimerExpiry s = .next ((s.wakeExpired d).wakeBy .wakeTimer) := by
  show execWakeTimerExpiry s = _
  simp only [execWakeTimerExpiry, h]
  rfl

/-- The charger's change, but for the wake (R178, R181). -/
def State.chargerChanged (s : State) (d : Nat) : State :=
  { s with
    clock := max s.clock d
    pwr :=
      { s.pwr with
        chargerFilter := none
        charger := s.pwr.chargerInput
        graceTimer :=
          if s.pwr.level = .critical ∧ s.pwr.cutoff = false then
            if s.pwr.chargerInput = true then none else some (max s.clock d + 40000000)
          else s.pwr.graceTimer }
    lnk := { s.lnk with notices := s.lnk.notices ||| 0x0400#16 } }

/-- The grace timer after a change of the charger (R178, R181). -/
theorem State.graceAfterCharger_eq (s : State) (present : Bool) :
    s.graceAfterCharger present =
      if s.pwr.level = .critical ∧ s.pwr.cutoff = false then
        if present = true then none else some (s.clock + 40000000)
      else s.pwr.graceTimer := by
  cases hcut : s.pwr.cutoff <;> simp [State.graceAfterCharger, hcut, State.after, Config.graceTime, Config.perS]

theorem exec_chargerChange (h : s.pwr.chargerFilter = some d) (hpower : s.pwr.power ≠ .cutoff) :
    exec .chargerChange s = .next ((s.chargerChanged d).wakeBy .charger) := by
  show execChargerChange s = _
  simp only [execChargerChange, h, State.onPwr_pwr, State.reach_pwr, hpower, if_false, State.chargerAccepted,
    State.graceAfterCharger_eq]
  rfl

/-- In CUTOFF a charger that is present takes the part out (R185). -/
theorem exec_chargerChange_cutoff (h : s.pwr.chargerFilter = some d) (hpower : s.pwr.power = .cutoff)
    (hin : s.pwr.chargerInput = true) : exec .chargerChange s = .next (s.fullReset .cutoffExit) := by
  show execChargerChange s = _
  simp only [execChargerChange, h, State.onPwr_pwr, State.reach_pwr, hpower, hin, if_true]
  rfl

end

/-- A change of the charger's input runs the filter while it differs from the charger state (R178). -/
theorem exec_chargerInputChange {s : State} {present : Bool} (hon : s.supply = .on)
    (hinput : s.pwr.chargerInput ≠ present) :
    exec (.chargerInputChange present) s = .next
      { s with
        pwr :=
          { s.pwr with
            chargerInput := present
            chargerFilter := if present = s.pwr.charger then none else some (s.clock + 80000) } } := by
  have hfilter : (if s.supply = .on ∧ present ≠ s.pwr.charger then some (s.after Config.settleTime) else none) =
      if present = s.pwr.charger then none else some (s.clock + 80000) := by
    rw [hon]
    split <;> simp_all [State.after, Config.settleTime, Config.perMs]
  show execChargerInputChange present s = _
  rw [execChargerInputChange, if_neg hinput]
  simp only [State.onPwr, hfilter]

/-! ### Power Settings (R179, R180) -/

/-- The four values of Power Settings pass test 1 (R179). -/
abbrev GoodPower (low crit ceiling idle : Nat) : Prop :=
  3000 ≤ low ∧ low ≤ 4200 ∧ 2800 ≤ crit ∧ crit ≤ 4100 ∧ crit < low ∧ 100 ≤ ceiling ∧ ceiling ≤ 1000 ∧ idle ≤ 3600

theorem goodPower_iff (low crit ceiling idle : Nat) :
    goodPower low crit ceiling idle = true ↔ GoodPower low crit ceiling idle := by
  simp only [goodPower, GoodPower, Bool.and_eq_true, decide_eq_true_eq, and_assoc]

theorem designationOf_none : designationOf 0xFF#8 = some none := rfl

theorem designationOf_slotByte (i : Fin 16) : designationOf (slotByte i) = some (some i) := by
  have hne : slotByte i ≠ 0xFF#8 := by
    intro h
    have hval : (i : Nat) = 255 := by simpa using congrArg BitVec.toNat h
    omega
  simp [designationOf, hne]

theorem designationOf_bad {b : Byte} (h : 15 < b.toNat) (hne : b ≠ 0xFF#8) : designationOf b = none := by
  simp [designationOf, hne, slotOf_eq_none h]

/-- A designation that reads comes back as its byte. -/
theorem optSlotByte_designationOf {b : Byte} {d : Option (Fin 16)} (h : designationOf b = some d) :
    optSlotByte d = b := by
  by_cases hb : b = 0xFF#8
  · subst hb
    cases h
    rfl
  · simp only [designationOf, hb, if_false, slotOf, Option.map_eq_some_iff] at h
    obtain ⟨i, hi, rfl⟩ := h
    split at hi
    · cases hi
      exact BitVec.eq_of_toNat_eq (slotByte_toNat _)
    · cases hi

/-- MEM with the owner of a slot, if there is one, changed, and its page tag removed (R5, R180). -/
def Mem.owned (m : Mem) (o : Owner) : Option (Fin 16) → Mem
  | some i => m.setOwner i o none
  | none => m

theorem State.ownSlot_eq (s : State) (o : Owner) (d : Option (Fin 16)) :
    s.ownSlot o d = { s with mem := s.mem.owned o d } := by
  cases d <;> rfl

theorem State.newCeiling_eq (s : State) (c : Nat) :
    s.newCeiling c =
      { s with lgt := if s.pwr.level ≠ .normal ∧ c ≠ s.pwr.lowCeiling then s.lgt.announce c else s.lgt } := by
  unfold State.newCeiling
  split <;> rfl

/-- The slot named again as the sleep screen: given back and taken, it is taken (R180). -/
theorem Mem.owned_again (m : Mem) (i : Fin 16) :
    (m.owned .host (some i)).owned .sleep (some i) =
      { m with slots := m.slots.set i { m.slots[i] with owner := .sleep, tag := none } } := by
  simp [Mem.owned, Mem.setOwner, Mem.setSlot]

/-- Another slot named: the former one given back, and the new one taken (R180). -/
theorem Mem.owned_other (m : Mem) {d : Option (Fin 16)} {i : Fin 16} (h : d ≠ some i) :
    (m.owned .host d).owned .sleep (some i) =
      { m with slots := (m.owned .host d).slots.set i { m.slots[i] with owner := .sleep, tag := none } } := by
  cases d with
  | none => rfl
  | some j =>
    have hne : (j : Nat) ≠ i := fun he => h (congrArg some (Fin.ext he))
    simp [Mem.owned, Mem.setOwner, Mem.setSlot, hne]

/-- The tests of a slot that is not the sleep screen already (R180). -/
theorem State.judgeDesignation_other {s : State} {i : Fin 16} (h : s.pwr.designation ≠ some i) :
    s.judgeDesignation (some i) =
      if s.mem.slots[i].state = .releasing then some .slotBusy
      else if s.mem.slots[i].state ≠ .ready ∨ s.mem.slots[i].owner ≠ .host then some .slotState
      else if s.mem.slots[i].width ≠ 1280 ∨ s.mem.slots[i].height ≠ 1600 then some .notFullPanel
      else none :=
  if_neg h

section
variable {s : State} {tag slot : Byte} {low crit ceiling idle : U16} {d : Option (Fin 16)}

/-- What Power Settings stores, with the designation as given (R169, R179, R180). -/
def State.powerStored (s : State) (tag slot : Byte) (low crit ceiling idle : U16) (m : Mem) (d : Option (Fin 16)) : State :=
  { s with
    mem := m
    lgt := if s.pwr.level ≠ .normal ∧ ceiling.toNat ≠ s.pwr.lowCeiling then s.lgt.announce ceiling.toNat else s.lgt
    pwr :=
      { s.pwr with
        lowMv := low.toNat
        critMv := crit.toNat
        lowCeiling := ceiling.toNat
        deepIdle := idle.toNat
        designation := d }
    lnk := s.replied 0x93#8 tag .ok [slot] }

theorem exec_powerSettings (hopen : s.linkOpen) :
    exec (.powerSettings tag low crit ceiling idle slot) s =
      .next (doPowerSettings tag low crit ceiling idle slot s.newTransaction) :=
  next_take_of_linkOpen hopen _

/-- Power Settings' test 1 (R179). -/
theorem exec_powerSettings_bad (hopen : s.linkOpen)
    (h : designationOf slot = none ∨ ¬GoodPower low.toNat crit.toNat ceiling.toNat idle.toNat) :
    exec (.powerSettings tag low crit ceiling idle slot) s = .next (s.refusedBy 0x93#8 tag .badParam) := by
  rw [exec_powerSettings hopen, doPowerSettings]
  cases hd : designationOf slot with
  | none => rfl
  | some d =>
    rw [hd, ← goodPower_iff] at h
    simp only [Bool.not_eq_true, reduceCtorEq, false_or] at h
    simp only [h, if_true, State.newTransaction_refuse]

variable (hopen : s.linkOpen) (hd : designationOf slot = some d)
  (hgood : GoodPower low.toNat crit.toNat ceiling.toNat idle.toNat)
include hopen hd hgood

theorem exec_powerSettings_cutoff (hcut : s.pwr.cutoff = true) :
    exec (.powerSettings tag low crit ceiling idle slot) s = .next (s.refusedBy 0x93#8 tag .powerDown) := by
  rw [exec_powerSettings hopen]
  simp only [doPowerSettings, hd, (goodPower_iff _ _ _ _).mpr hgood, State.newTransaction_pwr, hcut, if_true,
    State.newTransaction_refuse]
  rfl

theorem exec_powerSettings_refused (hcut : s.pwr.cutoff = false) {e : Status} (he : s.judgeDesignation d = some e) :
    exec (.powerSettings tag low crit ceiling idle slot) s = .next (s.refusedBy 0x93#8 tag e) := by
  have he' : s.newTransaction.judgeDesignation d = some e := he
  rw [exec_powerSettings hopen]
  simp only [doPowerSettings, hd, (goodPower_iff _ _ _ _).mpr hgood, State.newTransaction_pwr, hcut, he',
    State.newTransaction_refuse]
  rfl

theorem exec_powerSettings_stored (hcut : s.pwr.cutoff = false) (he : s.judgeDesignation d = none) :
    exec (.powerSettings tag low crit ceiling idle slot) s = .next
      (s.powerStored tag slot low crit ceiling idle ((s.mem.owned .host s.pwr.designation).owned .sleep d) d) := by
  have he' : s.newTransaction.judgeDesignation d = none := he
  rw [exec_powerSettings hopen]
  simp only [doPowerSettings, hd, (goodPower_iff _ _ _ _).mpr hgood, State.newTransaction_pwr, hcut, he',
    optSlotByte_designationOf hd, State.storePower, State.designate, State.ownSlot_eq, State.newCeiling_eq]
  rfl

end

end Sys2Proof.Machine

namespace Sys2Proof.Proofs
open Sys2Proof Sys2Proof.Machine

/-- Settles O58: by the event; Power Settings by its tests in order. -/
theorem wakesChargerAndPowerSettings : Obligations.WakesChargerAndPowerSettings := by
  refine ⟨fun target cause s => rfl, fun s => ⟨fun l => State.loaderNext_of_ready, State.loaderNext_of_held⟩,
    fun s => exec_csFallWake_deep, fun s hawake => ?_, fun d s => ?_, fun present s hon hinput => ?_,
    fun tag s hopen => ⟨fun time => ?_, fun low crit ceiling idle slot => ?_⟩⟩
  · rw [exec_csFallWake_awake hawake]
    exact ⟨fun hlink => by simp [State.csFalls, State.onLnk, hlink],
      fun hlink => by simp [State.csFalls, State.onLnk, hlink]⟩
  · refine ⟨fun h => ?_, fun h hpower => ?_, fun h hpower => ?_, fun h hpower => ?_, fun h hpower => ?_,
      fun h => exec_chargerChange_cutoff h⟩
    · show execWakeHoldoffEnd s = _
      simp only [execWakeHoldoffEnd, h]
      rfl
    · rw [exec_wakeTimerExpiry h, State.wakeBy_awake (s := s.wakeExpired d) hpower]
      rfl
    · rw [exec_wakeTimerExpiry h, State.wakeBy_deep (s := s.wakeExpired d) hpower]
      rfl
    · have hcut : s.pwr.power ≠ .cutoff := by obtain hpower | hpower := hpower <;> simp [hpower]
      have hdeep : s.pwr.power ≠ .deep := by obtain hpower | hpower := hpower <;> simp [hpower]
      rw [exec_chargerChange h hcut, State.wakeBy_awake (s := s.chargerChanged d) hdeep]
      rfl
    · rw [exec_chargerChange h (by simp [hpower]), State.wakeBy_deep (s := s.chargerChanged d) hpower]
      rfl
  · exact exec_chargerInputChange hon hinput
  · have htake : exec (.wakeTimerSet tag time) s = .next (doWakeTimerSet tag time s.newTransaction) :=
      next_take_of_linkOpen hopen _
    rw [htake, doWakeTimerSet]
    refine ⟨fun hlong => ?_, fun hshort => ?_⟩
    · rw [if_pos hlong, State.newTransaction_refuse]
    · rw [if_neg (Nat.not_lt.mpr hshort)]
      rfl
  · refine ⟨fun hbad => exec_powerSettings_bad hopen ?_, fun hgood hslot hcut => ?_, fun hgood hcut => ⟨?_, ?_, ?_⟩⟩
    · obtain hbad | ⟨hbig, hne⟩ := hbad
      · exact .inr hbad
      · exact .inl (designationOf_bad hbig hne)
    · obtain ⟨d, hd⟩ : ∃ d, designationOf slot = some d := by
        obtain hsmall | rfl := hslot
        · have hlt : slot.toNat < 16 := by omega
          exact ⟨_, by rw [← BitVec.eq_of_toNat_eq (slotByte_toNat ⟨_, hlt⟩), designationOf_slotByte]⟩
        · exact ⟨none, rfl⟩
      exact exec_powerSettings_cutoff hopen hd hgood hcut
    · rintro rfl
      refine (exec_powerSettings_stored hopen designationOf_none hgood hcut rfl).trans ?_
      cases s.pwr.designation <;> rfl
    · rintro i rfl hsame
      have hjudge : s.judgeDesignation (some i) = none := if_pos hsame
      rw [exec_powerSettings_stored hopen (designationOf_slotByte i) hgood hcut hjudge, hsame, Mem.owned_again]
      rfl
    · rintro i rfl hother x
      have hd := designationOf_slotByte i
      have hjudge := State.judgeDesignation_other hother
      have hready (hx : x.state = .ready) (ho : x.owner = .host) :
          x.state ≠ .releasing ∧ ¬(x.state ≠ .ready ∨ x.owner ≠ .host) := by simp [hx, ho]
      refine ⟨fun hx => ?_, fun hx hstate => ?_, fun hx ho hsize => ?_, fun hx ho hw hh => ?_⟩
      · exact exec_powerSettings_refused hopen hd hgood hcut (hjudge.trans (if_pos hx))
      · exact exec_powerSettings_refused hopen hd hgood hcut (hjudge.trans ((if_neg hx).trans (if_pos hstate)))
      · obtain ⟨hbusy, hstate⟩ := hready hx ho
        exact exec_powerSettings_refused hopen hd hgood hcut
          (hjudge.trans ((if_neg hbusy).trans ((if_neg hstate).trans (if_pos hsize))))
      · obtain ⟨hbusy, hstate⟩ := hready hx ho
        have hsize : ¬(x.width ≠ 1280 ∨ x.height ≠ 1600) := by simp [hw, hh]
        have hpass := hjudge.trans ((if_neg hbusy).trans ((if_neg hstate).trans (if_neg hsize)))
        rw [exec_powerSettings_stored hopen hd hgood hcut hpass, Mem.owned_other _ hother]
        cases s.pwr.designation <;> rfl

end Sys2Proof.Proofs
end

