-- ==== Sys2Proof/Proofs/StatusRecords.lean ====
section
/-! The status messages and the layout of their records (11.6). -/
namespace Sys2Proof.Machine
open Sys2Proof

/-! ### A record's fields at their offsets -/

/-- A field of a record stands at the sum of the lengths before it; so does each part of it. -/
theorem flatten_subfield {fs : List (List Byte)} {ns : List Nat} (hlen : fs.map List.length = ns) (k : Nat)
    {f : List Byte} (hf : fs[k]? = some f) (j n : Nat) (hj : j + n ≤ f.length) :
    (fs.flatten.drop ((ns.take k).sum + j)).take n = (f.drop j).take n := by
  obtain ⟨hk, rfl⟩ := List.getElem?_eq_some_iff.mp hf
  have hbefore : (fs.take k).flatten.length = (ns.take k).sum := by
    rw [List.length_flatten, List.map_take, hlen]
  have hsplit : fs.flatten = (fs.take k).flatten ++ (fs[k] ++ (fs.drop (k + 1)).flatten) := by
    rw [← List.flatten_cons, ← List.drop_eq_getElem_cons hk, ← List.flatten_append, List.take_append_drop]
  rw [hsplit, ← List.drop_drop, ← hbefore, List.drop_left, List.drop_append_of_le_length (by omega),
    List.take_append_of_le_length (by rw [List.length_drop]; omega)]

theorem flatten_field {fs : List (List Byte)} {ns : List Nat} (hlen : fs.map List.length = ns) (k : Nat)
    {f : List Byte} (hf : fs[k]? = some f) {n : Nat} (hn : f.length = n) :
    (fs.flatten.drop (ns.take k).sum).take n = f := by
  subst hn
  simpa using flatten_subfield hlen k hf 0 f.length (by omega)

theorem flatten_length {fs : List (List Byte)} {ns : List Nat} (hlen : fs.map List.length = ns) :
    fs.flatten.length = ns.sum := by
  rw [List.length_flatten, hlen]

/-- The length of a list's items, each written in `w` bytes. -/
theorem flatMap_length {α : Type} {enc : α → List Byte} {w : Nat} (hw : ∀ a, (enc a).length = w) (l : List α) :
    (l.flatMap enc).length = w * l.length := by
  induction l with
  | nil => rfl
  | cons a l ih => rw [List.flatMap_cons, List.length_append, hw, ih, List.length_cons, Nat.mul_succ, Nat.add_comm]

/-- The item of a list whose items are written in `w` bytes each. -/
theorem flatMap_item {α : Type} {enc : α → List Byte} {w : Nat} (hw : ∀ a, (enc a).length = w) (rest : List Byte)
    {l : List α} {k : Nat} {a : α} (h : l[k]? = some a) :
    ((l.flatMap enc ++ rest).drop (w * k)).take w = enc a := by
  induction l generalizing k with
  | nil => simp at h
  | cons b l ih =>
    rw [List.flatMap_cons, List.append_assoc]
    cases k with
    | zero =>
      obtain rfl : b = a := by simpa using h
      rw [Nat.mul_zero, List.drop_zero, ← hw b, List.take_left]
    | succ k =>
      rw [Nat.mul_succ, Nat.add_comm, ← List.drop_drop, ← hw b, List.drop_left, hw b]
      exact ih (by simpa using h)

/-- What stands after such a list's items. -/
theorem flatMap_after {α : Type} {enc : α → List Byte} {w : Nat} (hw : ∀ a, (enc a).length = w) (rest : List Byte)
    {l : List α} {k : Nat} (h : l.length ≤ k) :
    (l.flatMap enc ++ rest).drop (w * k) = rest.drop (w * (k - l.length)) := by
  have hlen := flatMap_length hw l
  obtain ⟨j, rfl⟩ := Nat.exists_eq_add_of_le h
  rw [Nat.mul_add, ← List.drop_drop, ← hlen, List.drop_left, Nat.add_sub_cancel_left]

/-- The bytes after such a list's items, where the room for the items to come is filled with 0. -/
theorem flatMap_padding {α : Type} {enc : α → List Byte} {w : Nat} (hw : ∀ a, (enc a).length = w) {l : List α}
    {k p : Nat} (h : l.length ≤ k) (hp : w * (k - l.length) + w ≤ p) :
    ((l.flatMap enc ++ List.replicate p 0#8).drop (w * k)).take w = List.replicate w 0#8 := by
  rw [flatMap_after hw _ h, List.drop_replicate, List.take_replicate, Nat.min_eq_left (by omega)]

@[simp] theorem u8_length (n : Nat) : (u8 n).length = 1 := rfl
@[simp] theorem u16_length (n : Nat) : (u16 n).length = 2 := rfl
@[simp] theorem u32_length (n : Nat) : (u32 n).length = 4 := rfl
@[simp] theorem le32_length (v : U32) : (le32 v).length = 4 := rfl
@[simp] theorem flag_length (b : Bool) : (flag b).length = 1 := rfl

/-- A time still to run is reported in ms rounded upward, 0 for a timer that is stopped (log entry 9). -/
theorem State.remainingMs_eq (s : State) (t : Option Nat) :
    s.remainingMs t = (t.map fun d => (d - s.clock + 3999) / 4000).getD 0 := by
  cases t with
  | none => rfl
  | some d =>
    simp only [State.remainingMs, ceilDiv, Config.perMs, Option.map_some, Option.getD_some]
    omega

/-! ### The slot record -/

/-- The link load's part of a slot record (R19). -/
def linkField : Option LinkLoad → List Byte
  | some l => u8 l.format.code ++ u8 l.endBehaviour.code ++ u32 l.cursor ++ u32 l.written
  | none => List.replicate 10 0#8

/-- The storage load's part of a slot record (R19). -/
def loadField : Option StorageLoad → List Byte
  | some l => u32 l.startPage ++ u16 l.pageCount ++ u16 l.written
  | none => List.replicate 8 0#8

/-- The load result's part of a slot record (R17, R19). -/
def resultField : Option LoadResult → List Byte
  | some r => flag r.faulted ++ u16 r.written ++ flag r.faulted
  | none => List.replicate 4 0#8

/-- The fields of the slot record in their groups. -/
def Mem.slotFields (m : Mem) (i : Fin 16) : List (List Byte) :=
  [[slotByte i] ++ u8 m.slots[i].state.code ++ u16 m.slots[i].width ++ u16 m.slots[i].height ++
      u16 m.slots[i].blocks.length ++ u8 m.slots[i].owner.code ++ u8 m.slots[i].pins ++
      [flagsByte [m.slots[i].incomplete, m.slots[i].tag.isSome, (m.linkLoadOf i).isSome, (m.storageLoadOf i).isSome,
        (m.resultOf i).isSome, ((m.linkLoadOf i).map LinkLoad.overflow).getD false]],
    le32 (m.slots[i].tag.getD 0#32), linkField (m.linkLoadOf i), loadField (m.storageLoadOf i),
    resultField (m.resultOf i)]

theorem Mem.slotRecord_eq (m : Mem) (i : Fin 16) : m.slotRecord i = (m.slotFields i).flatten := by
  simp only [Mem.slotRecord, Mem.slotFields, List.flatten_cons, List.flatten_nil, List.append_nil, List.append_assoc]
  cases m.linkLoadOf i <;> cases m.storageLoadOf i <;> cases m.resultOf i <;> rfl

theorem Mem.slotFields_lengths (m : Mem) (i : Fin 16) : (m.slotFields i).map List.length = [11, 4, 10, 8, 4] := by
  have hlink : (linkField (m.linkLoadOf i)).length = 10 := by cases m.linkLoadOf i <;> rfl
  have hload : (loadField (m.storageLoadOf i)).length = 8 := by cases m.storageLoadOf i <;> rfl
  have hresult : (resultField (m.resultOf i)).length = 4 := by cases m.resultOf i <;> rfl
  simp [Mem.slotFields, hlink, hload, hresult]

/-! ### The download record and the spooler summary -/

/-- A received run in a download record. -/
def runField (r : Nat × Nat) : List Byte := u32 r.1 ++ u32 r.2

theorem runField_length (r : Nat × Nat) : (runField r).length = 8 := rfl

theorem runBytes_eq (runs : List (Nat × Nat)) :
    runBytes runs = runs.flatMap runField ++ List.replicate (8 * (8 - runs.length)) 0#8 := rfl

theorem runBytes_length {runs : List (Nat × Nat)} (h : runs.length ≤ 8) : (runBytes runs).length = 64 := by
  rw [runBytes_eq, List.length_append, flatMap_length runField_length, List.length_replicate]
  omega

/-- The fields of the download record in their groups. -/
def State.downloadFields (s : State) (d : Download) : List (List Byte) :=
  [d.id :: u8 d.state.code ++ u32 d.total ++ u16 d.size ++ u32 d.segments ++ u32 d.start ++ u32 d.pages,
    u32 d.committed ++ u16 d.erased, u8 (dlFaultCode d.fault),
    u16 d.discards ++ [flagsByte [d.stall.isSome, d.removal, d.locked]], u32 (s.remainingMs d.stall),
    u32 d.lowest ++ u8 d.runs.length, runBytes d.runs]

theorem State.downloadRecord_eq (s : State) (d : Download) : s.downloadRecord d = (s.downloadFields d).flatten := by
  simp [State.downloadRecord, State.downloadFields]

theorem State.downloadFields_lengths (s : State) {d : Download} (h : d.runs.length ≤ 8) :
    (s.downloadFields d).map List.length = [20, 6, 1, 3, 4, 5, 64] := by
  simp [State.downloadFields, runBytes_length h]

/-- The ids of the STATUS queue in the spooler summary, the unused ones 0. -/
def queueField (q : List StatusEntry) : List Byte :=
  (q.flatMap fun e => [e.id]) ++ List.replicate (4 - q.length) 0#8

theorem queueField_length {q : List StatusEntry} (h : q.length ≤ 4) : (queueField q).length = 4 := by
  rw [queueField, List.length_append, flatMap_length (w := 1) (fun _ => rfl), List.length_replicate]
  omega

theorem Buffer.bytes_length (b : Buffer) : b.bytes.length = 6 := by
  cases b <;> rfl

/-- The fields of the spooler summary in their groups. -/
def State.summaryFields (s : State) : List (List Byte) :=
  [u16 s.spl.budget ++ flag (!s.spl.staging.isEmpty) ++ u16 s.spl.freeBlocks ++ u16 s.spl.reserve,
    s.rad.bufA.bytes, s.rad.bufB.bytes, u8 s.rad.queue.length, queueField s.rad.queue,
    u8 s.rad.rate ++ u8 s.spl.stallTime ++ u16 s.spl.holdLimit]

theorem State.spoolerSummary_eq (s : State) : s.spoolerSummary = s.summaryFields.flatten := by
  simp [State.spoolerSummary, State.summaryFields, queueField, List.map_eq_flatMap]

theorem State.summaryFields_lengths {s : State} (h : s.rad.queue.length ≤ 4) :
    s.summaryFields.map List.length = [7, 6, 6, 1, 4, 4] := by
  simp [State.summaryFields, Buffer.bytes_length, queueField_length h]

/-! ### The power record -/

theorem windowBytes_length {w : List Nat} (h : w.length ≤ 4) : (windowBytes w).length = 8 := by
  rw [windowBytes, List.length_append, flatMap_length u16_length, List.length_replicate]
  omega

/-- The fields of the power record in their groups. -/
def State.powerFields (s : State) : List (List Byte) :=
  [u8 s.pwr.power.code ++ flag s.pwr.cutoff ++ u8 (deepKindCode s.pwr.deepWait) ++
      u8 (wakeCauseCode s.pwr.pendingWake) ++ u8 s.pwr.level.code ++ u16 s.pwr.filtered ++ u8 s.pwr.window.length,
    windowBytes s.pwr.window, u16 s.pwr.lowMv ++ u16 s.pwr.critMv ++ u16 s.pwr.lowCeiling ++ u16 s.pwr.deepIdle,
    [s.gateByte], [flagsByte [s.pwr.idleTimer.isSome, s.pwr.wakeTimer.isSome, s.pwr.graceTimer.isSome]],
    u32 (s.remainingMs s.pwr.idleTimer) ++ u32 (s.remainingMs s.pwr.wakeTimer) ++ u32 (s.remainingMs s.pwr.graceTimer),
    [optSlotByte s.pwr.designation] ++ flag s.pwr.charger ++ u8 (wakeCauseCode s.pwr.wakeCause) ++
      u8 s.pwr.resetCause.code]

theorem State.powerRecord_eq (s : State) : s.powerRecord = s.powerFields.flatten := by
  unfold State.powerRecord
  simp only [State.powerFields, List.flatten_cons, List.flatten_nil, List.append_nil, List.append_assoc]

theorem State.powerFields_lengths {s : State} (h : s.pwr.window.length ≤ 4) :
    s.powerFields.map List.length = [8, 8, 8, 1, 1, 12, 4] := by
  simp only [State.powerFields, List.map_cons, List.map_nil, List.length_append, List.length_singleton, u8_length,
    u16_length, u32_length, flag_length, windowBytes_length h]

/-- The gate byte is the holder's code with a bit for each of the other facts. -/
theorem State.gateByte_eq (s : State) :
    [s.gateByte] =
      u8 (s.pwr.gate.holder.code + (if s.gateApplies then 4 else 0) + (if s.pwr.gate.panelAsk then 8 else 0) +
        (if s.pwr.gate.radioAsk then 16 else 0) + if s.pwr.gate.passing then 32 else 0) := by
  simp only [State.gateByte, u8]
  generalize s.gateApplies = a, s.pwr.gate.panelAsk = b, s.pwr.gate.radioAsk = c, s.pwr.gate.passing = d
  cases s.pwr.gate.holder <;> revert a b c d <;> decide

theorem optSlotByte_eq (d : Option (Fin 16)) : optSlotByte d = (d.map slotByte).getD 0xFF#8 := by
  cases d <;> rfl

/-! ### The pool record -/

/-- Where every block is accounted for, the pool, the slots and the staging hold all but the shown image's (R2). -/
theorem State.accounts_length {s : State} (h : s.accounts) :
    s.mem.pool.length + s.mem.slotBlocks + s.spl.staging.length + 500 = 4096 := by
  obtain ⟨hperm, -⟩ := h
  have hlen := hperm.length_eq
  have hheld : s.mem.heldBlocks.length = s.mem.slotBlocks := by
    simp [Mem.heldBlocks, Mem.slotBlocks, List.length_flatMap]
  simp only [List.length_append, List.length_range', hheld, Config.poolBlocks] at hlen
  omega

end Sys2Proof.Machine
namespace Sys2Proof.Proofs
open Sys2Proof Sys2Proof.Machine

/-- Settles O22: each record is its groups of fields joined, and a field stands where the lengths before it end. -/
theorem statusMessagesReportAndChangeNothing : Obligations.StatusMessagesReportAndChangeNothing := by
  refine ⟨fun tag s hopen => ?_, fun tag s hopen => ?_, fun s i => ?_, fun s d hruns => ?_, fun s hqueue => ?_,
    fun s hwindow => ?_⟩
  · exact ⟨next_take_of_linkOpen hopen _, rfl, State.accounts_length⟩
  · have carried := next_take_of_linkOpen hopen
    refine ⟨fun i => ?_, carried _, carried _, carried _, carried _, carried _, fun id d hid hd => ?_,
      fun id hid hnone => ?_, carried _, carried _, fun slot hslot => ?_⟩
    · refine (carried _).trans ?_
      simp only [doSlotStatus, slotOf_slotByte]
      rfl
    · refine (carried _).trans ?_
      simp only [doDownloadStatus, hid, if_false, State.newTransaction_spl, hd]
      rfl
    · refine (carried _).trans ?_
      simp only [doDownloadStatus, hid, if_false, State.newTransaction_spl, hnone, State.newTransaction_refuse]
    · refine (carried _).trans ?_
      simp only [doSlotStatus, slotOf_eq_none hslot, State.newTransaction_refuse]
  · have hlen := s.mem.slotFields_lengths i
    rw [Mem.slotRecord_eq]
    refine ⟨flatten_length hlen, flatten_field hlen 0 rfl rfl, flatten_field hlen 1 rfl rfl, fun l hl => ?_,
      fun hl => ?_, fun l hl => ?_, fun hl => ?_, fun r hr => ?_, fun hr => ?_⟩
    · exact flatten_field hlen 2 (congrArg (fun x => some (linkField x)) hl) rfl
    · exact flatten_field hlen 2 (congrArg (fun x => some (linkField x)) hl) rfl
    · exact flatten_field hlen 3 (congrArg (fun x => some (loadField x)) hl) rfl
    · exact flatten_field hlen 3 (congrArg (fun x => some (loadField x)) hl) rfl
    · refine (flatten_field hlen 4 (congrArg (fun x => some (resultField x)) hr) rfl).trans ?_
      cases hfault : r.faulted <;> simp [resultField, hfault, flag, boolByte]
    · exact flatten_field hlen 4 (congrArg (fun x => some (resultField x)) hr) rfl
  · have hlen := s.downloadFields_lengths hruns
    rw [State.downloadRecord_eq]
    refine ⟨flatten_length hlen, flatten_field hlen 0 rfl rfl, flatten_field hlen 1 rfl rfl, ?_,
      flatten_field hlen 3 rfl rfl, fun e he => ?_, fun hnone => ?_, flatten_field hlen 5 rfl rfl,
      fun k a b hk => ?_, fun k hafter hk => ?_⟩
    · refine (flatten_field hlen 2 rfl rfl).trans ?_
      cases d.fault with
      | none => rfl
      | some f => cases f <;> rfl
    · refine (flatten_field hlen 4 rfl rfl).trans ?_
      rw [State.remainingMs_eq, he, Option.map_some, Option.getD_some]
    · refine (flatten_field hlen 4 rfl rfl).trans ?_
      rw [hnone]
      rfl
    · have hlast : k < d.runs.length := (List.getElem?_eq_some_iff.mp hk).1
      refine (flatten_subfield hlen 6 rfl (8 * k) 8 ?_).trans (flatMap_item runField_length _ hk)
      rw [runBytes_length hruns]
      omega
    · refine (flatten_subfield hlen 6 rfl (8 * k) 8 ?_).trans (flatMap_padding runField_length hafter ?_)
      · rw [runBytes_length hruns]
        omega
      · omega
  · have hlen := s.summaryFields_lengths hqueue
    rw [State.spoolerSummary_eq]
    refine ⟨flatten_length hlen, flatten_field hlen 0 rfl rfl, ?_, ?_, flatten_field hlen 3 rfl rfl,
      fun k e hk => ?_, fun k hafter hk => ?_, flatten_field hlen 5 rfl rfl⟩
    · refine (flatten_field hlen 1 rfl (Buffer.bytes_length _)).trans ?_
      cases s.rad.bufA <;> rfl
    · refine (flatten_field hlen 2 rfl (Buffer.bytes_length _)).trans ?_
      cases s.rad.bufB <;> rfl
    · have hlast : k < s.rad.queue.length := (List.getElem?_eq_some_iff.mp hk).1
      refine (flatten_subfield hlen 4 rfl k 1 ?_).trans ?_
      · rw [queueField_length hqueue]
        omega
      · simpa [queueField] using flatMap_item (enc := fun e : StatusEntry => [e.id]) (fun _ => rfl) _ hk
    · refine (flatten_subfield hlen 4 rfl k 1 ?_).trans ?_
      · rw [queueField_length hqueue]
        omega
      · have hpad := flatMap_padding (enc := fun e : StatusEntry => [e.id]) (w := 1) (p := 4 - s.rad.queue.length)
          (fun _ => rfl) hafter (by omega)
        simpa [queueField] using hpad
  · have hlen := State.powerFields_lengths hwindow
    rw [State.powerRecord_eq]
    refine ⟨flatten_length hlen, flatten_field hlen 0 rfl rfl, fun k v hk => ?_, fun k hafter hk => ?_,
      flatten_field hlen 2 rfl rfl, (flatten_field hlen 3 rfl rfl).trans s.gateByte_eq, flatten_field hlen 4 rfl rfl,
      ?_, ?_⟩
    · have hlast : k < s.pwr.window.length := (List.getElem?_eq_some_iff.mp hk).1
      refine (flatten_subfield hlen 1 rfl (2 * k) 2 ?_).trans (flatMap_item u16_length _ hk)
      rw [windowBytes_length hwindow]
      omega
    · refine (flatten_subfield hlen 1 rfl (2 * k) 2 ?_).trans (flatMap_padding u16_length hafter ?_)
      · rw [windowBytes_length hwindow]
        omega
      · omega
    · refine (flatten_field hlen 5 rfl rfl).trans ?_
      simp only [State.remainingMs_eq]
    · refine (flatten_field hlen 6 rfl rfl).trans ?_
      rw [optSlotByte_eq]

end Sys2Proof.Proofs
end

