-- ==== Sys2Proof/Proofs/PixelValues.lean ====
section
/-! The levels that P8 values are reduced to (R41). -/
namespace Sys2Proof.Machine
open Sys2Proof

theorem reduceP8_toNat (v : Byte) : (reduceP8 v).toNat = (v.toNat * 15 + 128) / 256 := by
  have hv : v.toNat < 256 := v.isLt
  simp only [reduceP8, BitVec.toNat_ofNat]
  omega

/-- QUICK shows the upper half of the levels white, the lower half black (R38). -/
theorem targetLevel_quick (l : Level) : targetLevel .quick none l = if l.toNat < 8 then 0#4 else 15#4 := by
  simp only [targetLevel, ← Nat.not_lt, ite_not]

/-- A pixel's level reads back from the byte that it was put into (R10). -/
theorem nibble_putNibble (b : Byte) (n : Nat) (l : Level) : nibble (putNibble b n l) n = l := by
  obtain h | h := Nat.mod_two_eq_zero_or_one n
  · rw [putNibble_even h, nibble, if_pos h, high_append]
  · rw [putNibble_odd h, nibble, if_neg (by omega), low_append]

/-- A pixel of a slot reads the level that was put into its byte. -/
theorem Mem.withPixel_slotLevel {m : Mem} (hwf : Memory.wf 0xFF#8 m.cells = true) {i : Fin 16} {n a : Nat}
    (ha : pixelAddr m.slots[i].blocks n = some a) (b : Byte) (v : Level) (l : LinkLoad) :
    (m.withPixel a (putNibble b n v) l).slotLevel i n = v := by
  have hread : (m.withPixel a (putNibble b n v) l).byteAt a = putNibble b n v :=
    (Memory.read_write _ _ _ _ _ hwf).trans (if_pos rfl)
  have haddr : pixelAddr (m.withPixel a (putNibble b n v) l).slots[i].blocks n = some a := ha
  simp only [Mem.slotLevel, haddr, hread, nibble_putNibble]

/-- A body byte of a P8 load inside the picture puts its reduced level at the cursor (R10, R41). -/
theorem Mem.applyByte_p8_inside {m : Mem} {l : LinkLoad} {a : Nat} (hl : m.linkLoad = some l) (hf : l.format = .p8)
    (hheld : l.held = none) (hc : l.cursor < m.slots[l.slot].width * m.slots[l.slot].height)
    (ha : pixelAddr m.slots[l.slot].blocks l.cursor = some a) (v : Byte) :
    m.applyByte v = m.withPixel a (putNibble (Memory.read 0xFF#8 m.cells a) l.cursor (reduceP8 v)) l.advanced := by
  rw [Mem.applyByte_p8 hl hf, Mem.applyLevel_inside hl hc ha, Mem.dropHeld_of_none]
  · rfl
  · exact congrArg some hheld

end Sys2Proof.Machine

namespace Sys2Proof.Proofs
open Sys2Proof Sys2Proof.Machine

/-- Settles O20: R41's table by the rounding, row by row; the slot's level by the byte that the loader writes. -/
theorem p8ValuesAreReducedToLevels : Obligations.P8ValuesAreReducedToLevels := by
  constructor
  · intro v
    have hlevel := reduceP8_toNat v
    refine ⟨hlevel, ?_, ?_⟩
    · simp only [hlevel, List.forall_mem_cons, List.not_mem_nil, false_imp_iff, implies_true, and_true]
      and_intros <;> omega
    · rw [targetLevel_quick]
      refine ite_congr (propext ?_) (fun _ => rfl) (fun _ => rfl)
      omega
  · intro v n a l s hrecv hl hf hheld hc ha hwf
    refine ⟨s.imageByte v, rfl, ?_⟩
    rw [State.imageByte_load hrecv, Mem.applyByte_p8_inside hl hf hheld hc ha]
    exact Mem.withPixel_slotLevel hwf ha _ _ _

end Sys2Proof.Proofs
end

