-- ==== Sys2Proof/Proofs/WaveformTables.lean ====
section
/-! The incoming table, its validation and its adoption (section 2.3). -/
namespace Sys2Proof.Machine
open Sys2Proof

/-! ### Consecutive bytes (R25) -/

/-- A run of bytes writes the first, and then the others from the next address onward. -/
theorem Memory.writeMany_run_cons (d : Byte) (m : List Cell) (start : Nat) (v : Byte) (vs : List Byte) :
    Memory.writeMany d m (Memory.run start (v :: vs)) =
      Memory.writeMany d (Memory.write d m start v) (Memory.run (start + 1) vs) := by
  have hrest : (vs.mapIdx fun i b => (start + (i + 1), b)) = Memory.run (start + 1) vs := by
    simp only [Memory.run, Nat.add_assoc, Nat.add_comm 1]
  simp only [Memory.run, List.mapIdx_cons, Memory.writeMany, List.foldl_cons, Nat.add_zero, hrest]

/-- Every address of a run lies within it. -/
theorem Memory.mem_run {start : Nat} {vs : List Byte} {w : Cell} (h : w ∈ Memory.run start vs) :
    start ≤ w.1 ∧ w.1 < start + vs.length := by
  obtain ⟨i, hi, rfl⟩ := List.mem_mapIdx.mp h
  exact ⟨Nat.le_add_right _ _, Nat.add_lt_add_left hi _⟩

/-- Outside a run every address reads as before. -/
theorem Memory.read_run_outside {d : Byte} {m : List Cell} (hwf : Memory.wf d m = true) {start a : Nat}
    {vs : List Byte} (ha : a < start ∨ start + vs.length ≤ a) :
    Memory.read d (Memory.writeMany d m (Memory.run start vs)) a = Memory.read d m a := by
  refine Memory.read_writeMany_other d m _ a hwf fun w hw => ?_
  have := Memory.mem_run hw
  omega

/-- Within a run every address reads its byte. -/
theorem Memory.read_run_inside {d : Byte} {m : List Cell} (hwf : Memory.wf d m = true) {start k : Nat}
    {vs : List Byte} {v : Byte} (hv : vs[k]? = some v) :
    Memory.read d (Memory.writeMany d m (Memory.run start vs)) (start + k) = v := by
  induction vs generalizing m start k with
  | nil => simp at hv
  | cons b vs ih =>
    have hwf' := Memory.wf_write d m start b hwf
    rw [Memory.writeMany_run_cons]
    cases k with
    | zero =>
      obtain rfl : b = v := by simpa using hv
      rw [Memory.read_run_outside hwf' (.inl (by omega)), Nat.add_zero, Memory.read_write d m _ _ _ hwf, if_pos rfl]
    | succ k =>
      rw [Nat.add_comm k, ← Nat.add_assoc]
      exact ih hwf' (by simpa using hv)

/-! ### Waveform Data (R26) -/

section
variable {s : State} {tag : Byte} {offset : U32} {data : List Byte}

theorem exec_waveformData_waiting (hopen : s.linkOpen) (hwait : s.wav.adoptionWaiting = true) :
    exec (.waveformData tag offset data) s = .next (s.refusedBy 0x20#8 tag .adoptionPending) := by
  refine (next_take_of_linkOpen hopen _).trans ?_
  simp only [doWaveformData, State.newTransaction_wav, hwait, if_true, State.newTransaction_refuse]

theorem exec_waveformData_bad (hopen : s.linkOpen) (hwait : s.wav.adoptionWaiting = false)
    (hbad : data = [] ∨ 92204 < offset.toNat + data.length) :
    exec (.waveformData tag offset data) s = .next (s.refusedBy 0x20#8 tag .badParam) := by
  have hstore : data = [] ∨ Config.tableBytes < offset.toNat + data.length := hbad
  refine (next_take_of_linkOpen hopen _).trans ?_
  simp only [doWaveformData, State.newTransaction_wav, hwait, hstore, if_true, Bool.false_eq_true, if_false,
    State.newTransaction_refuse]

/-- Waveform Data that passes R26's tests writes the incoming table. -/
theorem exec_waveformData_writes (hopen : s.linkOpen) (hwait : s.wav.adoptionWaiting = false)
    (hgood : ¬(data = [] ∨ 92204 < offset.toNat + data.length)) :
    exec (.waveformData tag offset data) s = .next
      { s with
        wav := s.wav.writeData offset.toNat data
        lnk := s.replied 0x20#8 tag .ok (u32 (max s.wav.incomingLen (offset.toNat + data.length))) } := by
  have hstore : ¬(data = [] ∨ Config.tableBytes < offset.toNat + data.length) := hgood
  refine (next_take_of_linkOpen hopen _).trans ?_
  simp only [doWaveformData, State.newTransaction_wav, hwait, hstore, Bool.false_eq_true, if_false]
  rfl

end

/-! ### The frames of a table, one after another (11.8) -/

theorem framesBefore_zero (t : List Cell) : framesBefore t 0 = 0 := rfl

theorem framesBefore_succ (t : List Cell) (e : Nat) : framesBefore t (e + 1) = framesBefore t e + tableF t e := by
  simp [framesBefore, List.range_succ]

theorem framesBefore_mono (t : List Cell) {d e : Nat} (h : d ≤ e) : framesBefore t d ≤ framesBefore t e := by
  induction h with
  | refl => exact Nat.le_refl _
  | step _ ih => exact Nat.le_trans ih (framesBefore_succ t _ ▸ Nat.le_add_right _ _)

/-- A frame of an entry stands among the frames before a later entry. -/
theorem frame_lt_framesBefore (t : List Cell) {d e j : Nat} (hj : j < tableF t d) (hde : d < e) :
    framesBefore t d + j < framesBefore t e := by
  have hnext := framesBefore_succ t d
  have hmono := framesBefore_mono t (show d + 1 ≤ e from hde)
  omega

/-- The frame that `locateFrame` finds stands `j` frames after the entry where the search began. -/
theorem locateFrame_spec (t : List Cell) {fuel e j : Nat} (h : framesBefore t e + j < framesBefore t (e + fuel)) :
    ∃ d k, locateFrame t fuel e j = (d, k) ∧ d < e + fuel ∧ k < tableF t d ∧
      framesBefore t d + k = framesBefore t e + j := by
  induction fuel generalizing e j with
  | zero => exact absurd h (by simp)
  | succ fuel ih =>
    have hnext := framesBefore_succ t e
    by_cases hj : j < tableF t e
    · exact ⟨e, j, if_pos hj, by omega, hj, rfl⟩
    · have hrest : framesBefore t (e + 1) + (j - tableF t e) < framesBefore t (e + 1 + fuel) := by
        rw [Nat.add_assoc, Nat.add_comm 1]
        omega
      obtain ⟨d, k, hfind, hd, hk, hsum⟩ := ih hrest
      exact ⟨d, k, (if_neg hj).trans hfind, by omega, hk, by omega⟩

/-- Two frames at one place of the sequence are one. -/
theorem frame_unique (t : List Cell) {d e j k : Nat} (hj : j < tableF t d) (hk : k < tableF t e)
    (h : framesBefore t d + j = framesBefore t e + k) : d = e ∧ j = k := by
  obtain hlt | rfl | hgt := Nat.lt_trichotomy d e
  · have := frame_lt_framesBefore t hj hlt
    omega
  · exact ⟨rfl, Nat.add_left_cancel h⟩
  · have := frame_lt_framesBefore t hk hgt
    omega

/-- A frame is located by its place in the sequence. -/
theorem locateFrame_frame (t : List Cell) {e k : Nat} (he : e < 24) (hk : k < tableF t e) :
    locateFrame t 24 0 (framesBefore t e + k) = (e, k) := by
  have hlt : framesBefore t 0 + (framesBefore t e + k) < framesBefore t (0 + 24) := by
    rw [framesBefore_zero, Nat.zero_add]
    exact frame_lt_framesBefore t hk he
  obtain ⟨d, j, hfind, -, hj, hsum⟩ := locateFrame_spec t hlt
  rw [framesBefore_zero, Nat.zero_add] at hsum
  obtain ⟨rfl, rfl⟩ := frame_unique t hj hk hsum
  exact hfind

/-! ### The symbols of a table (11.8) -/

/-- The byte, counted after the header, that holds pair `p` of frame `k` of entry `e`. -/
def symbolByte (t : List Cell) (e k p : Nat) : Nat := 64 * framesBefore t e + 64 * k + p / 4

theorem symbolIn_mod (byte q : Nat) : symbolIn byte (q % 4) = symbolIn byte q := by
  rw [symbolIn, symbolIn, Nat.mod_mod]

theorem tableSymbol_eq (t : List Cell) (e k p : Nat) :
    tableSymbol t e k p = symbolIn (tableByte t (44 + symbolByte t e k p)) (p % 4) := by
  rw [symbolIn_mod, tableSymbol, symbolByte]
  simp only [Nat.add_assoc]

theorem symbolByte_lt (t : List Cell) {e k p : Nat} (he : e < 24) (hk : k < tableF t e) (hp : p < 256) :
    symbolByte t e k p < 64 * framesAll t := by
  have hframe : framesBefore t e + k < framesAll t := frame_lt_framesBefore t hk he
  rw [symbolByte]
  omega

/-- Each byte after the header holds four pairs of one frame. -/
theorem symbolByte_surjective (t : List Cell) {j q : Nat} (hj : j < 64 * framesAll t) (hq : q < 4) :
    ∃ e k p, e < 24 ∧ k < tableF t e ∧ p < 256 ∧ symbolByte t e k p = j ∧ p % 4 = q := by
  have hlt : framesBefore t 0 + j / 64 < framesBefore t (0 + 24) := by
    have hall : framesBefore t (0 + 24) = framesAll t := rfl
    rw [framesBefore_zero, hall]
    omega
  obtain ⟨e, k, -, he, hk, hsum⟩ := locateFrame_spec t hlt
  rw [framesBefore_zero] at hsum
  refine ⟨e, k, j % 64 * 4 + q, by omega, hk, by omega, ?_, by omega⟩
  rw [symbolByte]
  omega

/-- Table order: by entry, then by frame, then by pair (R27 test 5). -/
def tableOrder (d j q e k p : Nat) : Prop := d < e ∨ (d = e ∧ (j < k ∨ (j = k ∧ q < p)))

/-- A symbol in an earlier byte, or earlier in the same one, comes first in table order. -/
theorem tableOrder_of_before (t : List Cell) {d j q e k p : Nat} (hk : k < tableF t e) (hq : q < 256) (hp : p < 256)
    (h : symbolByte t d j q < symbolByte t e k p ∨ (symbolByte t d j q = symbolByte t e k p ∧ q % 4 < p % 4)) :
    tableOrder d j q e k p := by
  simp only [symbolByte] at h
  obtain hlt | rfl | hgt := Nat.lt_trichotomy d e
  · exact .inl hlt
  · exact .inr ⟨rfl, by omega⟩
  · have := frame_lt_framesBefore t hk hgt
    omega

/-- No position after the header holds code 3. -/
theorem badSymbol_eq_none_iff (t : List Cell) :
    badSymbol t = none ↔ ∀ j q, j < 64 * framesAll t → q < 4 → symbolIn (tableByte t (44 + j)) q ≠ 3 := by
  simp only [badSymbol, Option.map_eq_none_iff, List.find?_eq_none, List.mem_range, List.any_eq_true, decide_eq_true_eq,
    not_exists, not_and]
  exact ⟨fun h j q hj hq => h j hj q hq, fun h j hj q hq => h j q hj hq⟩

/-- The first position that holds code 3: no earlier byte holds one, and no earlier symbol of that byte is one. -/
theorem badSymbol_eq_some {t : List Cell} {j q : Nat} (hj : j < 64 * framesAll t) (hq : q < 4)
    (hbad : symbolIn (tableByte t (44 + j)) q = 3)
    (hbytes : ∀ i < j, ∀ r < 4, symbolIn (tableByte t (44 + i)) r ≠ 3)
    (hsymbols : ∀ r < q, symbolIn (tableByte t (44 + j)) r ≠ 3) : badSymbol t = some (j, q) := by
  have hbyte :
      ((List.range (64 * framesAll t)).find? fun i =>
        (List.range 4).any fun r => symbolIn (tableByte t (44 + i)) r = 3) = some j := by
    refine List.find?_range_eq_some.mpr ⟨?_, List.mem_range.mpr hj, fun i hi => ?_⟩
    · exact List.any_eq_true.mpr ⟨q, List.mem_range.mpr hq, by simpa using hbad⟩
    · simpa only [Bool.not_eq_true', List.any_eq_false, List.mem_range, decide_eq_true_eq] using hbytes i hi
  have hsymbol : ((List.range 4).find? fun r => symbolIn (tableByte t (44 + j)) r = 3) = some q := by
    refine List.find?_range_eq_some.mpr ⟨by simpa using hbad, List.mem_range.mpr hq, fun r hr => ?_⟩
    simpa using hsymbols r hr
  rw [badSymbol, hbyte, Option.map_some, hsymbol, Option.getD_some]

/-- The first symbol of code 3 in table order is the one that validation finds (R27 test 5). -/
theorem badSymbol_of_first {t : List Cell} {e k p : Nat} (he : e < 24) (hk : k < tableF t e) (hp : p < 256)
    (hbad : tableSymbol t e k p = 3)
    (hfirst : ∀ d j q, d < 24 → j < tableF t d → q < 256 → tableOrder d j q e k p → tableSymbol t d j q ≠ 3) :
    badSymbol t = some (symbolByte t e k p, p % 4) := by
  have hbefore (i r : Nat) (hi : i < 64 * framesAll t) (hr : r < 4)
      (h : i < symbolByte t e k p ∨ (i = symbolByte t e k p ∧ r < p % 4)) :
      symbolIn (tableByte t (44 + i)) r ≠ 3 := by
    obtain ⟨d, j, q, hd, hj, hq, rfl, rfl⟩ := symbolByte_surjective t hi hr
    rw [← tableSymbol_eq]
    exact hfirst d j q hd hj hq (tableOrder_of_before t hk hq hp h)
  have hlt := symbolByte_lt t he hk hp
  refine badSymbol_eq_some hlt (by omega) ?_ (fun i hi r hr => ?_) (fun r hr => ?_)
  · rw [← tableSymbol_eq, hbad]
  · exact hbefore i r (by omega) hr (.inl hi)
  · exact hbefore _ r hlt (by omega) (.inr ⟨rfl, hr⟩)

/-! ### Validation (R27) -/

/-- R27's range of a frame count. -/
abbrev GoodCount (t : List Cell) (e : Nat) : Prop := 1 ≤ tableF t e ∧ tableF t e ≤ 60

/-- R27's range of a period. -/
abbrev GoodPeriod (t : List Cell) (b : Nat) : Prop := 100 ≤ tableP t b ∧ tableP t b ≤ 2500

/-- The first entry whose frame count is out of range (R27 test 2). -/
def badCount (t : List Cell) : Option Nat := (List.range 24).find? fun e => tableF t e < 1 ∨ 60 < tableF t e

/-- The first band whose period is out of range (R27 test 3). -/
def badPeriod (t : List Cell) : Option Nat := (List.range 8).find? fun b => tableP t b < 100 ∨ 2500 < tableP t b

theorem badCount_eq_none_iff (t : List Cell) : badCount t = none ↔ ∀ e < 24, GoodCount t e := by
  simp only [badCount, List.find?_eq_none, List.mem_range, decide_eq_true_eq, not_or, Nat.not_lt]

theorem badPeriod_eq_none_iff (t : List Cell) : badPeriod t = none ↔ ∀ b < 8, GoodPeriod t b := by
  simp only [badPeriod, List.find?_eq_none, List.mem_range, decide_eq_true_eq, not_or, Nat.not_lt]

theorem badCount_of_first {t : List Cell} {e : Nat} (he : e < 24) (hbad : ¬GoodCount t e)
    (hfirst : ∀ d < e, GoodCount t d) : badCount t = some e := by
  refine List.find?_range_eq_some.mpr ⟨?_, List.mem_range.mpr he, fun d hd => ?_⟩
  · exact decide_eq_true (by omega)
  · have := hfirst d hd
    simp only [Bool.not_eq_true', decide_eq_false_iff_not]
    omega

theorem badPeriod_of_first {t : List Cell} {b : Nat} (hb : b < 8) (hbad : ¬GoodPeriod t b)
    (hfirst : ∀ d < b, GoodPeriod t d) : badPeriod t = some b := by
  refine List.find?_range_eq_some.mpr ⟨?_, List.mem_range.mpr hb, fun d hd => ?_⟩
  · exact decide_eq_true (by omega)
  · have := hfirst d hd
    simp only [Bool.not_eq_true', decide_eq_false_iff_not]
    omega

section
variable {t : List Cell} {len : Nat}

theorem validate_short (h : len < 44) : validate t len = some { reason := .length } := if_pos h

theorem validate_badCount {e : Nat} (hlen : 44 ≤ len) (h : badCount t = some e) :
    validate t len = some { reason := .frameCount, mode := some (e / 8), band := some (e % 8) } := by
  rw [badCount] at h
  simp only [validate, if_neg (Nat.not_lt.mpr hlen), h]

theorem validate_badPeriod {b : Nat} (hlen : 44 ≤ len) (hcount : badCount t = none) (h : badPeriod t = some b) :
    validate t len = some { reason := .period, band := some b } := by
  rw [badCount] at hcount
  rw [badPeriod] at h
  simp only [validate, if_neg (Nat.not_lt.mpr hlen), hcount, h]

/-- Past the first three tests the exact length and the symbols decide. -/
theorem validate_of_header (hlen : 44 ≤ len) (hcount : badCount t = none) (hperiod : badPeriod t = none) :
    validate t len =
      if len ≠ 44 + 64 * framesAll t then some { reason := .length }
      else
        (badSymbol t).map fun b =>
          { reason := .symbol
            mode := some ((locateFrame t 24 0 (b.1 / 64)).1 / 8)
            band := some ((locateFrame t 24 0 (b.1 / 64)).1 % 8)
            pair := some (b.1 % 64 * 4 + b.2)
            frame := some (locateFrame t 24 0 (b.1 / 64)).2 } := by
  rw [badCount] at hcount
  rw [badPeriod] at hperiod
  simp only [validate, if_neg (Nat.not_lt.mpr hlen), hcount, hperiod]
  cases badSymbol t with
  | none => rfl
  | some b => rfl

/-- A table of the exact length is reported by its first symbol of code 3, with that symbol's place. -/
theorem validate_badSymbol {e k p : Nat} (hlen : 44 ≤ len) (hcount : badCount t = none) (hperiod : badPeriod t = none)
    (hexact : len = 44 + 64 * framesAll t) (he : e < 24) (hk : k < tableF t e) (hp : p < 256)
    (h : badSymbol t = some (symbolByte t e k p, p % 4)) :
    validate t len =
      some
        { reason := .symbol, mode := some (e / 8), band := some (e % 8), pair := some p, frame := some k } := by
  have hframe : symbolByte t e k p / 64 = framesBefore t e + k := by rw [symbolByte]; omega
  have hpair : symbolByte t e k p % 64 * 4 + p % 4 = p := by rw [symbolByte]; omega
  rw [validate_of_header hlen hcount hperiod, if_neg (fun h => h hexact), h, Option.map_some, hframe,
    locateFrame_frame t he hk, hpair]

/-- A table validates exactly where each of the five tests finds nothing. -/
theorem validate_eq_none_iff :
    validate t len = none ↔
      44 ≤ len ∧ badCount t = none ∧ badPeriod t = none ∧ len = 44 + 64 * framesAll t ∧ badSymbol t = none := by
  by_cases hlen : 44 ≤ len
  · cases hcount : badCount t with
    | some e => simp [validate_badCount hlen hcount]
    | none =>
      cases hperiod : badPeriod t with
      | some b => simp [validate_badPeriod hlen hcount hperiod]
      | none =>
        rw [validate_of_header hlen hcount hperiod]
        by_cases hexact : len = 44 + 64 * framesAll t <;> simp [hexact]
  · simp [validate_short (Nat.lt_of_not_le hlen), hlen]

end

/-! ### Waveform Commit and adoption (R27, R28) -/

/-- An adoption, written out: the incoming table becomes the active one, and WAVEFORM_ADOPTED is raised. -/
theorem State.adopt_eq (s : State) :
    s.adopt =
      { s with
        wav :=
          { s.wav with
            active := some s.wav.incoming
            incoming := []
            incomingLen := 0
            adoptionWaiting := false
            lastCommit := .adopted }
        lnk := { s.lnk with notices := s.lnk.notices ||| 0x0020#16 } } := rfl

theorem State.adoptIfStill_of_still {s : State} (hwait : s.wav.adoptionWaiting = true)
    (hfree : s.upd.contextInUse = false) : s.adoptIfStill = s.adopt := by
  simp only [State.adoptIfStill, hwait, hfree, Bool.not_false, Bool.and_true, if_true]

/-- No adoption takes place that does not wait, or while a context is in use. -/
theorem State.adoptIfStill_of_not {s : State} (h : s.wav.adoptionWaiting = false ∨ s.upd.contextInUse = true) :
    s.adoptIfStill = s := by
  obtain h | h := h <;> simp [State.adoptIfStill, h]

section
variable {s : State} {tag : Byte}

theorem exec_waveformCommit_pending (hopen : s.linkOpen) (hwait : s.wav.adoptionWaiting = true) :
    exec (.waveformCommit tag) s = .next (s.refusedBy 0x21#8 tag .adoptionPending) := by
  refine (next_take_of_linkOpen hopen _).trans ?_
  simp only [doWaveformCommit, State.newTransaction_wav, hwait, if_true, State.newTransaction_refuse]

theorem exec_waveformCommit_bad {f : CommitFault} (hopen : s.linkOpen) (hwait : s.wav.adoptionWaiting = false)
    (hbad : validate s.wav.incoming s.wav.incomingLen = some f) :
    exec (.waveformCommit tag) s = .next
      { s with wav := s.wav.refuse f, lnk := s.replied 0x21#8 tag .waveformBad f.bytes } := by
  refine (next_take_of_linkOpen hopen _).trans ?_
  simp only [doWaveformCommit, State.newTransaction_wav, hwait, hbad, Bool.false_eq_true, if_false]
  rfl

theorem exec_waveformCommit_waits (hopen : s.linkOpen) (hwait : s.wav.adoptionWaiting = false)
    (hgood : validate s.wav.incoming s.wav.incomingLen = none) (huse : s.upd.contextInUse = true) :
    exec (.waveformCommit tag) s = .next
      (State.settle
        { s with
          wav := { s.wav with adoptionWaiting := true, lastCommit := .waiting }
          lnk := s.replied 0x21#8 tag .ok [1#8] }
        true) := by
  refine (next_take_of_linkOpen hopen _).trans ?_
  simp only [doWaveformCommit, State.newTransaction_wav, State.newTransaction_upd, hwait, hgood, huse,
    Bool.false_eq_true, if_false, if_true]
  rfl

theorem exec_waveformCommit_adopts (hopen : s.linkOpen) (hwait : s.wav.adoptionWaiting = false)
    (hgood : validate s.wav.incoming s.wav.incomingLen = none) (huse : s.upd.contextInUse = false) :
    exec (.waveformCommit tag) s = .next
      (State.settle
        { s with
          wav := s.wav.adopt
          lnk := { s.replied 0x21#8 tag .ok [0#8] with notices := s.lnk.notices ||| 0x0020#16 } }
        true) := by
  refine (next_take_of_linkOpen hopen _).trans ?_
  simp only [doWaveformCommit, State.newTransaction_wav, State.newTransaction_upd, hwait, hgood, huse,
    Bool.false_eq_true, if_false]
  rfl

/-- WAVEFORM_ADOPTION in a part that runs. -/
theorem exec_waveformAdoption (hlive : s.live = true) (hwait : s.wav.adoptionWaiting = true)
    (hfree : s.upd.contextInUse = false) : exec .waveformAdoption s = .next (s.adopt.settle true) := by
  show Host.Outcome.next (if _ then _ else _) = _
  simp only [hlive, hwait, hfree, Bool.not_false, Bool.and_true, if_true]

end

end Sys2Proof.Machine

namespace Sys2Proof.Proofs
open Sys2Proof Sys2Proof.Machine

/-- Settles O23: by R26's tests in order, and by what a run of consecutive bytes reads as. -/
theorem waveformDataWritesTheIncomingTable : Obligations.WaveformDataWritesTheIncomingTable := by
  constructor
  · intro tag offset data s hopen
    refine ⟨exec_waveformData_waiting hopen, exec_waveformData_bad hopen, fun hwait hdata hroom => ?_⟩
    exact exec_waveformData_writes hopen hwait (not_or.mpr ⟨hdata, Nat.not_lt.mpr hroom⟩)
  · intro w offset data hwf
    exact ⟨fun k v hv => Memory.read_run_inside hwf hv, fun a ha => Memory.read_run_outside hwf ha⟩

/-- Settles O24: each test is a search, and the symbol that the last one finds is the first in table order. -/
theorem validTablesPassTheFiveTests : Obligations.ValidTablesPassTheFiveTests := by
  constructor
  · intro t len
    rw [validate_eq_none_iff, badCount_eq_none_iff, badPeriod_eq_none_iff, badSymbol_eq_none_iff]
  · intro t len goodCount goodPeriod fails
    refine ⟨validate_short, fun hlen => ⟨fun e he hbad hfirst => ?_, fun hcounts => ?_⟩⟩
    · exact validate_badCount hlen (badCount_of_first he hbad hfirst)
    have hcount := (badCount_eq_none_iff t).mpr hcounts
    refine ⟨fun b hb hbad hfirst => ?_, fun hperiods => ?_⟩
    · exact validate_badPeriod hlen hcount (badPeriod_of_first hb hbad hfirst)
    have hperiod := (badPeriod_eq_none_iff t).mpr hperiods
    refine ⟨fun hexact => ?_, fun hexact e k p he hk hp hbad hfirst => ?_⟩
    · exact (validate_of_header hlen hcount hperiod).trans (if_pos hexact)
    · exact validate_badSymbol hlen hcount hperiod hexact he hk hp (badSymbol_of_first he hk hp hbad hfirst)

/-- Settles O25: by validation, and by the contexts in use. -/
theorem waveformCommitAndWaitingAdoption : Obligations.WaveformCommitAndWaitingAdoption := by
  refine ⟨fun tag s hopen => ?_, fun s => State.adoptIfStill_of_not, fun s hwait hfree => ?_⟩
  · exact ⟨exec_waveformCommit_pending hopen, fun hwait f => exec_waveformCommit_bad hopen hwait,
      exec_waveformCommit_waits hopen, exec_waveformCommit_adopts hopen⟩
  · exact ⟨State.adoptIfStill_of_still hwait hfree, fun hlive => exec_waveformAdoption hlive hwait hfree⟩

end Sys2Proof.Proofs
end

