-- ==== Sys2Proof/Proofs/BandAndPlans.lean ====
section
/-! The temperature band (section 2.4), the freshness wait (R51, R52) and the update plan (section 2.5). -/
namespace Sys2Proof.Machine
open Sys2Proof

/-! ### The band of a reading (R33, R34) -/

/-- Counting the edges at or below a temperature stops at the first edge above it. -/
theorem edges_below_cons {t e : Int} {es : List Int} (h : ∀ x ∈ es, e ≤ x) (n : Nat) :
    n + ((e :: es).filter fun x => x ≤ t).length =
      if t < e then n else n + 1 + (es.filter fun x => x ≤ t).length := by
  by_cases ht : t < e
  · have hnone : (e :: es).filter (fun x => x ≤ t) = [] := by
      refine List.filter_eq_nil_iff.mpr fun x hx => ?_
      have hex : e ≤ x := (List.mem_cons.mp hx).elim (fun h => h ▸ Int.le_refl e) (h x)
      simp only [decide_eq_true_eq]
      omega
    rw [if_pos ht, hnone, List.length_nil, Nat.add_zero]
  · have hfirst : (e :: es).filter (fun x => x ≤ t) = e :: es.filter fun x => x ≤ t :=
      List.filter_cons_of_pos (decide_eq_true (Int.not_lt.mp ht))
    rw [if_neg ht, hfirst, List.length_cons]
    omega

/-- The raw band by its edges. -/
theorem rawBand_eq (t : Int) :
    rawBand t =
      if t < 50 then 0 else if t < 100 then 1 else if t < 150 then 2 else if t < 200 then 3
      else if t < 250 then 4 else if t < 300 then 5 else if t < 400 then 6 else 7 := by
  rw [rawBand, ← Nat.zero_add (List.length _), bandEdges]
  iterate 7 rw [edges_below_cons (by decide)]
  rfl

/-- A temperature lies below `e` tenths of a degree up to the count `c` (R33). -/
theorem tempOf_lt_iff {e : Int} {c : Nat} (hbelow : (c : Int) * 1000 < 4096 * (e + 250))
    (habove : 4096 * (e + 250) ≤ ((c : Int) + 1) * 1000) (count : Nat) : tempOf count < e ↔ count ≤ c := by
  simp only [tempOf]
  omega

section
variable {w : Wav} {t : Int}

theorem Wav.bandAfter_below (h : t < 0) : w.bandAfter t = 0 := if_pos h

theorem Wav.bandAfter_above (h : 500 ≤ t) : w.bandAfter t = 7 := by
  rw [Wav.bandAfter, if_neg (by omega), if_pos h]

/-- Inside the range the first reading sets the band, and a later one lowers it only past a whole degree (R34). -/
theorem Wav.bandAfter_inside (h : 0 ≤ t) (h' : t < 500) :
    w.bandAfter t = if w.firstTaken = false ∨ w.band ≤ rawBand t then rawBand t else rawBand (t + 10) := by
  rw [Wav.bandAfter, if_neg (by omega), if_neg (by omega)]
  by_cases hfirst : w.firstTaken = false <;> simp [hfirst]

end

/-! ### A reading that is handed on (R35, R36, R52) -/

/-- TEMP_RANGE is raised where a reading moves the range state to BELOW or to ABOVE (R35). -/
theorem Wav.rangeRaises_iff (w : Wav) (t : Int) :
    w.rangeRaises t = true ↔ (t < 0 ∧ w.range ≠ .below) ∨ (500 ≤ t ∧ w.range ≠ .above) := by
  by_cases hlow : t < 0
  · have hhigh : ¬500 ≤ t := by omega
    simp [Wav.rangeRaises, rangeOf, hlow, hhigh, @eq_comm _ w.range]
  · by_cases hhigh : 500 ≤ t
    · simp [Wav.rangeRaises, rangeOf, hlow, hhigh, @eq_comm _ w.range]
    · simp [Wav.rangeRaises, rangeOf, hlow, hhigh]

/-- WAV takes a PANEL_TEMP result that is not faulted, and LNK the notice that it may raise. -/
theorem State.takeTemperature_eq (s : State) :
    s.takeTemperature =
      if s.sns.records.panelTemp.fault = true then s
      else
        { s with
          wav := s.wav.takeReading s.sns.records.panelTemp.derived
          lnk :=
            { s.lnk with
              notices :=
                if s.wav.rangeRaises s.sns.records.panelTemp.derived then s.lnk.notices ||| 0x0800#16
                else s.lnk.notices } } := by
  cases hfault : s.sns.records.panelTemp.fault with
  | true => simp [State.takeTemperature, hfault]
  | false =>
    by_cases hraise : s.wav.rangeRaises s.sns.records.panelTemp.derived = true <;>
    · simp only [State.takeTemperature, hfault, hraise, Bool.false_eq_true, if_false, if_true]
      rfl

/-- Taking a reading leaves UPD. -/
theorem State.takeTemperature_upd (s : State) : s.takeTemperature.upd = s.upd := by
  rw [State.takeTemperature_eq]
  split <;> rfl

/-! ### The freshness check (R51) -/

theorem Sns.stale_iff (n : Sns) (nowMs : Nat) :
    n.stale nowMs = true ↔
      n.records.panelTemp.valid = false ∨
        60000 < (nowMs + 4294967296 - n.records.panelTemp.sampleTime) % 4294967296 := by
  simp [Sns.stale]

/-- The check of an examination falls due: the engine is idle and the temperature stale. -/
theorem State.checkDue_iff (s : State) (check : Bool) :
    (check && s.upd.idle && s.sns.stale s.nowMs) = true ↔
      check = true ∧ s.upd.scanning = false ∧ s.upd.contextInUse = false ∧
        (s.sns.records.panelTemp.valid = false ∨
          60000 < (s.nowMs + 4294967296 - s.sns.records.panelTemp.sampleTime) % 4294967296) := by
  rw [Bool.and_eq_true, Bool.and_eq_true, Sns.stale_iff, Upd.idle]
  simp [and_assoc]

section
variable {s : State} {r : Request} {check : Bool}

theorem State.examineOnce_none (h : s.firstEligible = none) : s.examineOnce check = none := by
  simp only [State.examineOnce, h]

theorem State.examineOnce_due (hr : s.firstEligible = some r)
    (hdue : (check && s.upd.idle && s.sns.stale s.nowMs) = true) : s.examineOnce check = some s.beginFreshWait := by
  simp only [State.examineOnce, hr, hdue, if_true]

theorem State.examineOnce_prepares (hr : s.firstEligible = some r)
    (hdue : (check && s.upd.idle && s.sns.stale s.nowMs) = false) :
    s.examineOnce check = some (s.beginPreparation r) := by
  simp only [State.examineOnce, hr, hdue, Bool.false_eq_true, if_false]

end

/-! ### The plan's mode (R39) -/

/-- The code of a mode in the table's entries (11.8). -/
theorem Mode.entry_eq (m : Mode) (b : Nat) :
    m.code * 8 + b = (match m with | .full => 0 | .gray => 8 | .quick => 16) + b := by
  cases m <;> rfl

theorem Spl.receiving_iff (p : Spl) : p.receiving = true ↔ ∃ d ∈ p.table, d.state = .receiving := by
  simp [Spl.receiving]

section
variable {m : Mode} {known low receiving : Bool} {f period hold : Nat}

theorem appliedMode_unknown (h : known = false) :
    appliedMode m known low receiving f period hold = (.full, decide (m ≠ .full), false) := if_pos h

theorem appliedMode_demotes (h : known = true)
    (hd : m = .full ∧ low = true ∧ receiving = true ∧ hold < (f * period + 99) / 100) :
    appliedMode m known low receiving f period hold = (.gray, false, true) := by
  rw [appliedMode, if_neg (by simp [h])]
  exact if_pos hd

theorem appliedMode_requested (h : known = true)
    (hd : ¬(m = .full ∧ low = true ∧ receiving = true ∧ hold < (f * period + 99) / 100)) :
    appliedMode m known low receiving f period hold = (m, false, false) := by
  rw [appliedMode, if_neg (by simp [h])]
  exact if_neg hd

end

/-- The mode that a request's plan applies, with the promoted and the demoted flag. -/
def State.applied (s : State) (r : Request) : Mode × Bool × Bool :=
  appliedMode r.mode s.upd.known (s.pwr.level ≠ .normal) s.spl.receiving (tableF (s.wav.active.getD []) s.wav.band)
    (tableP (s.wav.active.getD []) s.wav.band) s.spl.holdLimit

/-- A FULL request is to be demoted (R39). -/
abbrev State.Demotes (s : State) (r : Request) : Prop :=
  r.mode = .full ∧ s.pwr.level ≠ .normal ∧ (∃ d ∈ s.spl.table, d.state = .receiving) ∧
    s.spl.holdLimit <
      (tableF (s.wav.active.getD []) s.wav.band * tableP (s.wav.active.getD []) s.wav.band + 99) / 100

section
variable {s : State} {r : Request}

theorem State.applied_unknown (h : s.upd.known = false) : s.applied r = (.full, decide (r.mode ≠ .full), false) :=
  appliedMode_unknown h

theorem State.applied_demotes (h : s.upd.known = true) (hd : s.Demotes r) : s.applied r = (.gray, false, true) := by
  obtain ⟨hfull, hlow, hreceiving, hlong⟩ := hd
  exact appliedMode_demotes h ⟨hfull, decide_eq_true hlow, (Spl.receiving_iff _).mpr hreceiving, hlong⟩

theorem State.applied_requested (h : s.upd.known = true) (hd : ¬s.Demotes r) :
    s.applied r = (r.mode, false, false) := by
  refine appliedMode_requested h fun ⟨hfull, hlow, hreceiving, hlong⟩ => hd ?_
  exact ⟨hfull, of_decide_eq_true hlow, (Spl.receiving_iff _).mp hreceiving, hlong⟩

end

/-! ### The plan's active count (R40) -/

/-- A panel pixel's target differs from the level shown (R40). -/
abbrev Mem.Differs (m : Mem) (r : Request) (mode : Mode) (x y : Nat) : Prop :=
  m.targetAt r mode x y ≠ m.shownLevel (panelPixel x y)

theorem Mem.differing_eq (m : Mem) (r : Request) (mode : Mode) :
    m.differing r mode =
      ((List.range r.rect.h).map fun j =>
        (List.range r.rect.w).countP fun i => decide (m.Differs r mode (r.rect.x + i) (r.rect.y + j))).sum := by
  simp only [Mem.differing, List.countP_eq_length_filter]

/-- No pixel counts exactly where every pixel of the rectangle shows its target. -/
theorem Mem.differing_eq_zero_iff (m : Mem) (r : Request) (mode : Mode) :
    m.differing r mode = 0 ↔
      ∀ x y, r.rect.x ≤ x → x < r.rect.x + r.rect.w → r.rect.y ≤ y → y < r.rect.y + r.rect.h →
        ¬m.Differs r mode x y := by
  simp only [Mem.differing_eq, List.sum_eq_zero_iff_forall_eq_nat, List.forall_mem_map, List.countP_eq_zero,
    List.mem_range, decide_eq_true_eq]
  constructor
  · intro h x y hx hx' hy hy'
    have hpixel := h (y - r.rect.y) (by omega) (x - r.rect.x) (by omega)
    rwa [Nat.add_sub_cancel' hx, Nat.add_sub_cancel' hy] at hpixel
  · intro h j hj i hi
    exact h _ _ (Nat.le_add_right _ _) (by omega) (Nat.le_add_right _ _) (by omega)

section
variable (s : State) (r : Request)

theorem State.planFor_applied :
    ((s.planFor r).mode, (s.planFor r).promoted, (s.planFor r).demoted) = s.applied r := rfl

theorem State.planFor_active :
    (s.planFor r).active =
      if (s.planFor r).mode = .full then r.rect.w * r.rect.h else s.mem.differing r (s.planFor r).mode := by
  show (match (s.applied r).1 with | .full => _ | m => s.mem.differing r m) =
    if (s.applied r).1 = .full then _ else s.mem.differing r (s.applied r).1
  cases (s.applied r).1 <;> rfl

theorem State.planFor_empty_iff :
    (s.planFor r).empty = true ↔ (s.planFor r).mode ≠ .full ∧ (s.planFor r).active = 0 := by
  rw [show (s.planFor r).empty = (decide ((s.planFor r).mode ≠ .full) && decide ((s.planFor r).active = 0)) from rfl,
    Bool.and_eq_true, decide_eq_true_iff, decide_eq_true_iff]

end

end Sys2Proof.Machine

namespace Sys2Proof.Proofs
open Sys2Proof Sys2Proof.Machine

/-- Settles O26: the band by its edges, a result by its fault, and an examination by the freshness check. -/
theorem bandFollowsTheReading : Obligations.BandFollowsTheReading := by
  refine ⟨fun w t => ?_, fun count _ _ => ?_, fun s => ?_, ?_⟩
  · refine ⟨Wav.bandAfter_below, Wav.bandAfter_above, fun h h' hfirst => ?_, fun h h' hfirst hband => ?_,
      fun h h' hfirst hband => ?_, rfl⟩
    · exact (Wav.bandAfter_inside h h').trans (if_pos (.inl hfirst))
    · exact (Wav.bandAfter_inside h h').trans (if_pos (.inr hband))
    · exact (Wav.bandAfter_inside h h').trans (if_neg (by simp [hfirst, hband]))
  · rw [rawBand_eq]
    iterate 7 refine ite_congr (propext (tempOf_lt_iff (by decide) (by decide) count)) (fun _ => rfl) fun _ => ?_
    rfl
  · intro r raised taken
    have htaken : s.takeTemperature = taken := by
      rw [State.takeTemperature_eq]
      simp only [Wav.rangeRaises_iff]
      rfl
    have hupd : taken.upd = s.upd := htaken ▸ s.takeTemperature_upd
    refine ⟨fun hwait => ?_, fun hwait => ?_⟩
    · simp only [State.handTemperature, htaken, hwait, Bool.false_eq_true, if_false]
    · simp only [State.handTemperature, htaken, hwait, if_true, State.onUpd, hupd]
  · intro r check s hr stale
    refine ⟨fun hdue => ?_, fun hdue => ?_⟩
    · exact State.examineOnce_due hr ((s.checkDue_iff check).mpr hdue)
    · exact State.examineOnce_prepares hr (Bool.eq_false_iff.mpr (mt (s.checkDue_iff check).mp hdue))

/-- Settles O34: the mode by R39's cases, the active count by the mode. -/
theorem plansPromoteAndDemote : Obligations.PlansPromoteAndDemote := by
  intro r s p t long demotes
  refine ⟨fun hknown => ?_, fun hknown hd => ?_, fun hknown hd => ?_, fun hmode => ?_, fun hmode => ?_, rfl,
    congrArg (tableF t) (Mode.entry_eq _ _), rfl, rfl⟩
  · have happlied := (State.planFor_applied s r).trans (State.applied_unknown hknown)
    obtain ⟨hm, hpd⟩ := Prod.ext_iff.mp happlied
    obtain ⟨hp, hd⟩ := Prod.ext_iff.mp hpd
    exact ⟨hm, hd, by rw [show p.promoted = _ from hp, decide_eq_true_iff]⟩
  · have happlied := (State.planFor_applied s r).trans (State.applied_demotes hknown hd)
    simpa using happlied
  · have happlied := (State.planFor_applied s r).trans (State.applied_requested hknown hd)
    simpa using happlied
  · refine ⟨(State.planFor_active s r).trans (if_pos hmode), Bool.eq_false_iff.mpr fun hempty => ?_⟩
    exact ((State.planFor_empty_iff s r).mp hempty).1 hmode
  · have hactive : p.active = s.mem.differing r p.mode := (State.planFor_active s r).trans (if_neg hmode)
    have hempty : p.empty = true ↔ s.mem.differing r p.mode = 0 := by
      rw [State.planFor_empty_iff, hactive]
      exact and_iff_right hmode
    intro differs
    refine ⟨?_, hempty.trans (Mem.differing_eq_zero_iff s.mem r p.mode)⟩
    rw [hactive, Mem.differing_eq]
    rfl

end Sys2Proof.Proofs
end

