-- ==== Sys2Proof/Proofs/Preparations.lean ====
section
/-! Preparations and the examination of the queue (sections 3.2 and 3.3). -/
namespace Sys2Proof.Machine
open Sys2Proof

/-! ### A preparation begins (R53, R54) -/

theorem prepTime_eq (r : Rect) : prepTime r = (r.w * r.h + 511) / 512 * 4 := by
  rw [prepTime, ceilDiv, Nat.add_sub_assoc (by decide)]
  rfl

/-- The lowest FREE context is FREE. -/
theorem Upd.freeCtx_free {u : Upd} {i : Fin 8} (h : u.freeCtx = some i) : u.contexts[i] = .free := by
  rw [Upd.freeCtx] at h
  simpa using List.find?_some h

/-- A preparation that begins takes the FREE context, and its request leaves the queue. -/
theorem State.beginPreparation_eq {s : State} {i : Fin 8} (h : s.upd.freeCtx = some i) (r : Request) :
    s.beginPreparation r =
      { s with
        upd :=
          { s.upd with
            contexts :=
              s.upd.contexts.set i
                (.reserved r s.wav.band (s.planFor r) (s.clock + (r.rect.w * r.rect.h + 511) / 512 * 4))
            queue := s.upd.queue.filter fun q => q.serial ≠ r.serial } } := by
  simp only [State.beginPreparation, h, prepTime_eq]
  rfl

section
variable {s : State} {r : Request}

theorem exec_preparationBegin_none (h : s.firstEligible = none) : exec .preparationBegin s = .next s := by
  show Host.Outcome.next s.prepareNext = _
  simp only [State.prepareNext, h]

/-- No preparation begins where the freshness check is due (R51). -/
theorem exec_preparationBegin_stale (hr : s.firstEligible = some r)
    (hdue : (s.upd.idle && s.sns.stale s.nowMs) = true) : exec .preparationBegin s = .next s := by
  show Host.Outcome.next s.prepareNext = _
  simp only [State.prepareNext, hr, hdue, if_true]

theorem exec_preparationBegin_begins (hr : s.firstEligible = some r)
    (hdue : (s.upd.idle && s.sns.stale s.nowMs) = false) :
    exec .preparationBegin s = .next (s.beginPreparation r).railsFollow := by
  show Host.Outcome.next s.prepareNext = _
  simp only [State.prepareNext, hr, hdue, Bool.false_eq_true, if_false]

end

/-! ### An examination ends (R49) -/

/-- Where a request is eligible, a context is FREE and no freshness wait runs (R50 conditions 2 and 6). -/
theorem State.firstEligible_room {s : State} {r : Request} (h : s.firstEligible = some r) :
    (∃ i, s.upd.freeCtx = some i) ∧ s.upd.freshWait = false := by
  simp only [State.firstEligible, State.mayPrepare, Option.ite_none_right_eq_some, Bool.and_eq_true,
    Bool.not_eq_true'] at h
  obtain ⟨⟨⟨⟨⟨⟨⟨hctx, -⟩, -⟩, hfresh⟩, -⟩, -⟩, -⟩, -⟩ := h
  exact ⟨Option.isSome_iff_exists.mp hctx, hfresh⟩

/-- The steps that an examination can still take: one for each FREE context, and none in a freshness wait. -/
def State.room (s : State) : Nat :=
  if s.upd.freshWait then 0 else s.upd.contexts.toList.countP fun c => c = .free

theorem State.room_le (s : State) : s.room ≤ 8 := by
  unfold State.room
  split
  · exact Nat.zero_le 8
  · exact Nat.le_trans List.countP_le_length (Nat.le_of_eq Vector.length_toList)

/-- Without a freshness wait the contexts decide. -/
theorem State.room_of_fresh {s : State} (h : s.upd.freshWait = false) :
    s.room = s.upd.contexts.toList.countP fun c => c = .free := by
  rw [State.room, h]
  rfl

/-- A context taken is one FREE context fewer. -/
theorem Ctx.countP_free_set {contexts : Vector Ctx 8} {i : Fin 8} {c : Ctx} (hfree : contexts[i] = .free)
    (hc : c ≠ .free) :
    ((contexts.set i c).toList.countP fun c => c = .free) < contexts.toList.countP fun c => c = .free := by
  have hi : (i : Nat) < contexts.toList.length := by simp
  have hget : contexts.toList[(i : Nat)] = .free := by simpa using hfree
  have hpos : 0 < contexts.toList.countP fun c => c = .free :=
    List.countP_pos_iff.mpr ⟨_, List.getElem_mem hi, decide_eq_true hget⟩
  rw [Vector.toList_set, List.countP_set hi, hget]
  simp only [hc, decide_true, decide_false, if_true, Bool.false_eq_true, if_false]
  omega

/-- Each step of an examination leaves room for fewer. -/
theorem State.examineOnce_room {s t : State} {check : Bool} (h : s.examineOnce check = some t) : t.room < s.room := by
  cases hr : s.firstEligible with
  | none => simp [State.examineOnce_none hr] at h
  | some r =>
    obtain ⟨⟨i, hi⟩, hfresh⟩ := State.firstEligible_room hr
    have hfree := Upd.freeCtx_free hi
    rw [State.room_of_fresh hfresh]
    cases hdue : check && s.upd.idle && s.sns.stale s.nowMs with
    | true =>
      obtain rfl : s.beginFreshWait = t := by simpa [State.examineOnce_due hr hdue] using h
      exact Nat.zero_lt_of_lt (Ctx.countP_free_set hfree (c := .waiting r (s.planFor r)) (by simp))
    | false =>
      obtain rfl : s.beginPreparation r = t := by simpa [State.examineOnce_prepares hr hdue] using h
      rw [State.beginPreparation_eq hi]
      refine Nat.lt_of_le_of_lt (Nat.le_of_eq (State.room_of_fresh ?_)) (Ctx.countP_free_set hfree ?_)
      · exact hfresh
      · simp

theorem State.examineFor_none {s : State} {check : Bool} (h : s.examineOnce check = none) (n : Nat) :
    State.examineFor check n s = s := by
  cases n with
  | zero => rfl
  | succ n => simp only [State.examineFor, h]

theorem State.examineFor_some {s t : State} {check : Bool} (h : s.examineOnce check = some t) (n : Nat) :
    State.examineFor check (n + 1) s = State.examineFor check n t := by
  simp only [State.examineFor, h]

/-- An examination with as many steps as there is room for is over. -/
theorem State.examineFor_succ {n : Nat} {s : State} (check : Bool) (h : s.room ≤ n) :
    State.examineFor check (n + 1) s = State.examineFor check n s := by
  induction n generalizing s with
  | zero =>
    refine State.examineFor_none ?_ 1
    refine Option.eq_none_iff_forall_ne_some.mpr fun t ht => ?_
    have := State.examineOnce_room ht
    omega
  | succ n ih =>
    cases hstep : s.examineOnce check with
    | none => rw [State.examineFor_none hstep, State.examineFor_none hstep]
    | some t =>
      have hroom := State.examineOnce_room hstep
      rw [State.examineFor_some hstep, State.examineFor_some hstep]
      exact ih (by omega)

/-- An examination goes on from each of its steps as a new one (R49). -/
theorem State.examine_step {s t : State} {check : Bool} (h : s.examineOnce check = some t) :
    s.examine check = t.examine check :=
  (State.examineFor_some h 8).trans (State.examineFor_succ check t.room_le).symm

/-! ### A preparation ends (R55) -/

section
variable {s : State} {i : Fin 8} {r : Request} {band endsAt : Nat} {p : Plan}

theorem exec_preparationEnd (h : s.upd.contexts[i] = .reserved r band p endsAt) :
    exec (.preparationEnd i) s = .next (((s.reach endsAt).endPreparation i r p).settle true) := by
  show Host.Outcome.next _ = _
  simp only [h]

/-- A plan that is not empty makes its context WAITING. -/
theorem State.endPreparation_waits (h : p.empty = false) :
    s.endPreparation i r p =
      { s with upd := { s.upd with contexts := s.upd.contexts.set i (.waiting r p) } } := by
  simp only [State.endPreparation, h, Bool.false_eq_true, if_false]
  rfl

/-- An empty plan retires its request, and its context is FREE. -/
theorem State.endPreparation_empty (h : p.empty = true) :
    s.endPreparation i r p =
      State.adoptIfStill
        (State.retire { s with upd := { s.upd with contexts := s.upd.contexts.set i .free } } r .doneEmpty) := by
  simp only [State.endPreparation, h, if_true]
  rfl

end

end Sys2Proof.Machine

namespace Sys2Proof.Proofs
open Sys2Proof Sys2Proof.Machine

/-- Settles O33: by the first eligible request and the freshness check; an examination by the FREE contexts that each
step leaves; an end by its plan. -/
theorem preparationBeginsAndEnds : Obligations.PreparationBeginsAndEnds := by
  refine ⟨fun s => ⟨fun r i hr hi hdue => ?_, fun r hr hidle hstale => ?_, exec_preparationBegin_none⟩,
    fun r i s hi => State.beginPreparation_eq hi r,
    fun check s => ⟨State.examineOnce_none, fun h => State.examineFor_none h 9, fun t => State.examine_step⟩, ?_⟩
  · rw [exec_preparationBegin_begins hr hdue, State.beginPreparation_eq hi]
  · exact exec_preparationBegin_stale hr (by rw [hidle, hstale, Bool.and_self])
  · intro i r band endsAt p s hctx at_
    refine ⟨fun hempty => ?_, fun hempty => ?_⟩
    · rw [exec_preparationEnd hctx, State.endPreparation_waits hempty]
      rfl
    · rw [exec_preparationEnd hctx, State.endPreparation_empty hempty]
      rfl

end Sys2Proof.Proofs
end

