-- ==== Sys2Proof/Proofs/ShownImageAndPort.lean ====
section
/-! The shown image after a completion (R62, R38), and what the panel port sends (R24, R60). -/
namespace Sys2Proof.Machine
open Sys2Proof

/-! ### The writes of a completion -/

/-- Bytes written by a function of their addresses read as it says, and every other byte as before. -/
theorem Memory.read_writeMany_map {d : Byte} (f : Nat → Byte) (as : List Nat) {m : List Cell}
    (hwf : Memory.wf d m = true) (y : Nat) :
    Memory.read d (Memory.writeMany d m (as.map fun a => (a, f a))) y =
      if y ∈ as then f y else Memory.read d m y := by
  induction as generalizing m with
  | nil => rfl
  | cons a as ih =>
    have hwf' := Memory.wf_write d m a (f a) hwf
    have hrest := ih hwf'
    rw [Memory.read_write d m a y (f a) hwf] at hrest
    refine hrest.trans ?_
    by_cases hya : y = a
    · subst hya
      simp
    · simp [hya]

/-- A nibble of a byte of two levels is the level of that pixel. -/
theorem nibble_pair (f : Nat → Level) (n : Nat) : nibble (f (2 * (n / 2)) ++ f (2 * (n / 2) + 1)) n = f n := by
  obtain h | h := Nat.mod_two_eq_zero_or_one n
  · rw [nibble, if_pos h, high_append]
    congr 1
    omega
  · rw [nibble, if_neg (by omega), low_append]
    congr 1
    omega

section
variable {x : Nat} (hx : x < 1280) (y : Nat)
include hx

theorem panelPixel_column : panelPixel x y % Config.panelW = x := by
  simp only [panelPixel, Config.panelW]
  omega

theorem panelPixel_row : panelPixel x y / Config.panelW = y := by
  simp only [panelPixel, Config.panelW]
  omega

end

theorem Rect.has_iff (r : Rect) (x y : Nat) :
    r.has x y = true ↔ r.x ≤ x ∧ x < r.x + r.w ∧ r.y ≤ y ∧ y < r.y + r.h := by
  simp [Rect.has, and_assoc]

/-- Every pixel of a rectangle lies in the bytes of its rows. -/
theorem Rect.mem_shownBytes {r : Rect} {x y : Nat} (h : r.has x y = true) : panelPixel x y / 2 ∈ r.shownBytes := by
  obtain ⟨hx, hx', hy, hy'⟩ := (r.has_iff x y).mp h
  refine List.mem_flatMap.mpr ⟨y - r.y, List.mem_range.mpr (by omega), ?_⟩
  rw [Nat.add_sub_cancel' hy, List.mem_range'_1]
  simp only [panelPixel, Config.panelW]
  omega

/-- A completion gives every pixel of the panel its level after it: the target inside the rectangle, and outside it what
was shown (R62). -/
theorem Mem.complete_shownLevel {m : Mem} (hwf : Memory.wf 0xFF#8 m.cells = true) (r : Request) (mode : Mode)
    {x : Nat} (hx : x < 1280) (y : Nat) :
    (m.complete r mode).shownLevel (panelPixel x y) =
      if r.rect.has x y = true then m.targetAt r mode x y else m.shownLevel (panelPixel x y) := by
  have hlevel : m.completedLevel r mode (panelPixel x y) =
      if r.rect.has x y = true then m.targetAt r mode x y else m.shownLevel (panelPixel x y) := by
    rw [Mem.completedLevel, panelPixel_column hx, panelPixel_row hx]
  have hread : (m.complete r mode).byteAt (panelPixel x y / 2) = _ :=
    Memory.read_writeMany_map (fun a => m.completedLevel r mode (2 * a) ++ m.completedLevel r mode (2 * a + 1))
      r.rect.shownBytes hwf (panelPixel x y / 2)
  rw [Mem.shownLevel, hread]
  by_cases hin : panelPixel x y / 2 ∈ r.rect.shownBytes
  · rw [if_pos hin, nibble_pair (m.completedLevel r mode), hlevel]
  · rw [if_neg hin, if_neg (mt Rect.mem_shownBytes hin)]
    rfl

/-! ### The symbol of a pixel (R24, R60) -/

/-- The symbol that a context sends a pixel, where it is RUNNING and its rectangle has the pixel. -/
def State.ctxSymbol (s : State) (x y : Nat) : Ctx → Option Nat
  | .running r p k _ => if r.rect.has x y then some (s.driveSymbol r p k x y) else none
  | _ => none

theorem State.panelSymbol_eq (s : State) (x y : Nat) :
    s.panelSymbol x y = (s.upd.contexts.toList.findSome? (s.ctxSymbol x y)).getD 0 := rfl

/-- A context that does not run, or whose rectangle lies elsewhere, sends the pixel no symbol. -/
theorem State.ctxSymbol_none {s : State} {x y : Nat} {c : Ctx}
    (h : ∀ r p k j, c = .running r p k j → r.rect.has x y = false) : s.ctxSymbol x y c = none := by
  cases c with
  | running r p k j =>
    rw [State.ctxSymbol, h r p k j rfl]
    rfl
  | _ => rfl

/-- A search that only one place of a vector answers gives that answer. -/
theorem findSome?_unique {α β : Type} {n : Nat} {v : Vector α n} {f : α → Option β} {b : β} (i : Fin n)
    (hi : f v[i] = some b) (hothers : ∀ j : Fin n, j ≠ i → f v[j] = none) : v.toList.findSome? f = some b := by
  have hsome : ∃ c, v.toList.findSome? f = some c := by
    refine Option.isSome_iff_exists.mp (List.findSome?_isSome_iff.mpr ⟨v[i], ?_, by rw [hi]; rfl⟩)
    exact Vector.mem_toList_iff.mpr (Vector.getElem_mem i.isLt)
  obtain ⟨c, hc⟩ := hsome
  obtain ⟨a, ha, hfa⟩ := List.exists_of_findSome?_eq_some hc
  obtain ⟨j, hj, rfl⟩ := Vector.getElem_of_mem (Vector.mem_toList_iff.mp ha)
  by_cases hij : (⟨j, hj⟩ : Fin n) = i
  · subst hij
    rw [hc, ← hfa]
    exact hi
  · exact absurd (hothers ⟨j, hj⟩ hij) (by simp [hfa])

/-- A symbol of a table's sequence is one of four codes (11.8). -/
theorem symbolIn_lt (byte q : Nat) : symbolIn byte q < 4 := Nat.mod_lt _ (by decide)

theorem State.driveSymbol_lt (s : State) (r : Request) (p : Plan) (k x y : Nat) : s.driveSymbol r p k x y < 4 := by
  rw [State.driveSymbol]
  split
  · exact Nat.zero_lt_succ 3
  · exact symbolIn_lt _ _

theorem State.panelSymbol_lt (s : State) (x y : Nat) : s.panelSymbol x y < 4 := by
  rw [State.panelSymbol_eq]
  cases hfound : s.upd.contexts.toList.findSome? (s.ctxSymbol x y) with
  | none => exact Nat.zero_lt_succ 3
  | some q =>
    obtain ⟨c, -, hc⟩ := List.exists_of_findSome?_eq_some hfound
    cases c with
    | running r p k j =>
      obtain ⟨-, hq⟩ := Option.ite_none_right_eq_some.mp hc
      obtain rfl := Option.some.inj hq
      exact s.driveSymbol_lt r p k x y
    | _ => nomatch hc

/-- A pixel of no RUNNING context receives HOLD. -/
theorem State.panelSymbol_none {s : State} {x y : Nat}
    (h : ∀ (i : Fin 8) r p k j, s.upd.contexts[i] = .running r p k j → r.rect.has x y = false) :
    s.panelSymbol x y = 0 := by
  have hnone : s.upd.contexts.toList.findSome? (s.ctxSymbol x y) = none := by
    refine List.findSome?_eq_none_iff.mpr fun c hc => ?_
    obtain ⟨j, hj, rfl⟩ := Vector.getElem_of_mem (Vector.mem_toList_iff.mp hc)
    exact State.ctxSymbol_none (h ⟨j, hj⟩)
  rw [State.panelSymbol_eq, hnone]
  rfl

/-- A pixel of one RUNNING context receives what WAV gives it there. -/
theorem State.panelSymbol_running {s : State} {i : Fin 8} {r : Request} {p : Plan} {k j x y : Nat}
    (hi : s.upd.contexts[i] = .running r p k j) (hin : r.rect.has x y = true)
    (hothers : ∀ (i' : Fin 8) r' p' k' j', i' ≠ i → s.upd.contexts[i'] = .running r' p' k' j' →
      r'.rect.has x y = false) :
    s.panelSymbol x y = s.driveSymbol r p k x y := by
  have hsymbol : s.ctxSymbol x y s.upd.contexts[i] = some (s.driveSymbol r p k x y) := by
    rw [hi, State.ctxSymbol, if_pos hin]
  rw [State.panelSymbol_eq,
    findSome?_unique i hsymbol fun i' hne => State.ctxSymbol_none fun r' p' k' j' => hothers i' r' p' k' j' hne]
  rfl

/-- GRAY and QUICK hold a pixel that shows its target (R24). -/
theorem State.driveSymbol_hold {s : State} {r : Request} {p : Plan} {x y : Nat}
    (h : p.mode ≠ .full ∧ s.mem.targetAt r p.mode x y = s.mem.shownLevel (panelPixel x y)) (k : Nat) :
    s.driveSymbol r p k x y = 0 := if_pos h

/-- Elsewhere a pixel is driven by its pair's sequence (R24). -/
theorem State.driveSymbol_sequence {s : State} {r : Request} {p : Plan} {x y : Nat}
    (h : ¬(p.mode ≠ .full ∧ s.mem.targetAt r p.mode x y = s.mem.shownLevel (panelPixel x y))) (k : Nat) :
    s.driveSymbol r p k x y =
      tableSymbol (s.wav.active.getD []) (p.mode.code * 8 + p.band) k
        (16 * (s.mem.shownLevel (panelPixel x y)).toNat + (s.mem.targetAt r p.mode x y).toNat) := by
  rw [State.driveSymbol]
  refine (if_neg h).trans ?_
  rw [Nat.mul_comm 16]

/-! ### The frame on the port (R60) -/

/-- Four codes in a byte, the first in its upper two bits, read back. -/
theorem rowByte_symbol (s : State) (y k : Nat) {q : Nat} (hq : q < 4) :
    (s.rowByte y k).toNat / 4 ^ (3 - q) % 4 = s.panelSymbol (4 * k + q) y := by
  have h0 := s.panelSymbol_lt (4 * k) y
  have h1 := s.panelSymbol_lt (4 * k + 1) y
  have h2 := s.panelSymbol_lt (4 * k + 2) y
  have h3 := s.panelSymbol_lt (4 * k + 3) y
  have hbyte :
      (s.rowByte y k).toNat =
        64 * s.panelSymbol (4 * k) y + 16 * s.panelSymbol (4 * k + 1) y + 4 * s.panelSymbol (4 * k + 2) y +
          s.panelSymbol (4 * k + 3) y := by
    rw [State.rowByte, BitVec.toNat_ofNat]
    omega
  rw [hbyte]
  match q, hq with
  | 0, _ | 1, _ | 2, _ | 3, _ => simp only [Nat.reduceSub, Nat.reducePow, Nat.add_zero]; omega

theorem State.portRow_length (s : State) (y : Nat) : (s.portRow y).length = 321 := by simp [State.portRow]

theorem State.portRow_byte (s : State) (y : Nat) {k : Nat} (hk : k < 320) :
    (s.portRow y)[k]? = some (.byte (s.rowByte y k)) := by
  simp [State.portRow, List.getElem?_append, hk]

theorem State.portRow_ple (s : State) (y : Nat) : (s.portRow y)[320]? = some .ple := by
  simp [State.portRow]

theorem length_flatMap_range {α : Type} {f : Nat → List α} {w : Nat} (hw : ∀ y, (f y).length = w) (n : Nat) :
    ((List.range n).flatMap f).length = w * n := by
  induction n with
  | zero => rfl
  | succ n ih =>
    rw [List.range_succ, List.flatMap_append, List.flatMap_singleton, List.length_append, ih, hw, Nat.mul_succ]

/-- The items of a list of rows of one width. -/
theorem getElem?_flatMap_range {α : Type} {f : Nat → List α} {w : Nat} (hw : ∀ y, (f y).length = w) {n y k : Nat}
    (hy : y < n) (hk : k < w) : ((List.range n).flatMap f)[w * y + k]? = (f y)[k]? := by
  induction n with
  | zero => exact absurd hy (Nat.not_lt_zero y)
  | succ n ih =>
    have hlen := length_flatMap_range hw n
    rw [List.range_succ, List.flatMap_append, List.flatMap_singleton]
    obtain hlt | rfl := Nat.lt_succ_iff_lt_or_eq.mp hy
    · have hrow : w * (y + 1) ≤ w * n := Nat.mul_le_mul_left w hlt
      rw [Nat.mul_succ] at hrow
      rw [List.getElem?_append_left (by omega), ih hlt]
    · rw [List.getElem?_append_right (by omega), hlen, Nat.add_sub_cancel_left]

section
variable {s : State}

theorem State.portFrame_quiet (h : s.upd.scanning = false) : s.portFrame = [] := by
  rw [State.portFrame, h, Bool.and_false]
  rfl

theorem State.portFrame_scanning (hlive : s.live = true) (h : s.upd.scanning = true) :
    s.portFrame = .pfs :: (List.range 1600).flatMap s.portRow := by
  rw [State.portFrame, hlive, h]
  rfl

/-- Place `k` of row `y` in a frame. -/
theorem State.portFrame_row (hlive : s.live = true) (h : s.upd.scanning = true) {y k : Nat} (hy : y < 1600)
    (hk : k < 321) : s.portFrame[1 + 321 * y + k]? = (s.portRow y)[k]? := by
  rw [State.portFrame_scanning hlive h, show 1 + 321 * y + k = 321 * y + k + 1 by omega, List.getElem?_cons_succ]
  exact getElem?_flatMap_range s.portRow_length hy hk

theorem State.portFrame_length (hlive : s.live = true) (h : s.upd.scanning = true) :
    s.portFrame.length = 1 + 1600 * 321 := by
  rw [State.portFrame_scanning hlive h, List.length_cons, length_flatMap_range s.portRow_length]

end

end Sys2Proof.Machine

namespace Sys2Proof.Proofs
open Sys2Proof Sys2Proof.Machine

/-- Settles O37: by the bytes that a completion writes, and the pixel's nibble in its byte. -/
theorem completionShowsTheTargets : Obligations.CompletionShowsTheTargets := by
  intro m r mode x y hwf hx _ _ _ _
  have hlevel := Mem.complete_shownLevel hwf r mode hx y
  simp only [Rect.has_iff] at hlevel
  exact hlevel

/-- Settles O38: a pixel by the one context that runs there; the frame row by row. -/
theorem panelPortHoldsWhatDoesNotRun : Obligations.PanelPortHoldsWhatDoesNotRun := by
  refine ⟨fun s x y h => State.panelSymbol_none h, ?_, fun s => ⟨State.portFrame_quiet, fun hlive hscan => ?_⟩⟩
  · intro s i r p k j x y t hi hin hactive hothers shown target pair entry
    have hsymbol := State.panelSymbol_running hi hin hothers
    refine ⟨fun hhold => hsymbol.trans (State.driveSymbol_hold hhold k), fun hmoves => ?_⟩
    rw [hsymbol, State.driveSymbol_sequence hmoves, hactive, Mode.entry_eq]
    rfl
  · refine ⟨State.portFrame_length hlive hscan, ?_, fun y hy => ⟨?_, fun k hk => ⟨s.rowByte y k, ?_, ?_⟩⟩⟩
    · rw [State.portFrame_scanning hlive hscan]
      rfl
    · rw [State.portFrame_row hlive hscan hy (by decide), State.portRow_ple]
    · rw [State.portFrame_row hlive hscan hy (by omega), State.portRow_byte s y hk]
    · exact fun q => rowByte_symbol s y k

end Sys2Proof.Proofs
end

