-- ==== Sys2Proof/Proofs/FrameBoundaries.lean ====
section
/-! Frame boundaries and the completion of contexts (R59, R62). -/
namespace Sys2Proof.Machine
open Sys2Proof

/-! ### One completion (R62) -/

/-- A completion, written out. -/
theorem State.completeCtx_running {s : State} {i : Fin 8} {r : Request} {p : Plan} {frame joined : Nat}
    (h : s.upd.contexts[i] = .running r p frame joined) :
    s.completeCtx i =
      State.retire
        { s with
          mem := s.mem.complete r p.mode
          upd :=
            { s.upd with
              contexts := s.upd.contexts.set i .free
              known := s.upd.known || decide (p.mode = .full ∧ r.rect = ⟨0, 0, 1280, 1600⟩) } }
        r .done := by
  simp only [State.completeCtx, h, Bool.decide_and]
  rfl

/-- A context that does not run completes nothing. -/
theorem State.completeCtx_other {s : State} {i : Fin 8} (h : s.upd.contexts[i].isRunning = false) :
    s.completeCtx i = s := by
  rw [State.completeCtx]
  split
  · rename_i hctx
    simp [hctx, Ctx.isRunning] at h
  · rfl

theorem State.retire_wav (s : State) (r : Request) (o : Retired) : (s.retire r o).wav = s.wav := by
  simp only [State.retire]
  split <;> rfl

/-- Completions leave WAV. -/
theorem State.completeCtx_wav (s : State) (i : Fin 8) : (s.completeCtx i).wav = s.wav := by
  cases hctx : s.upd.contexts[i] with
  | running r p frame joined => rw [State.completeCtx_running hctx, State.retire_wav]
  | _ => rw [State.completeCtx_other (by rw [hctx]; rfl)]

theorem State.completeAll_wav (order : List (Fin 8)) (s : State) :
    (order.foldl State.completeCtx s).wav = s.wav := by
  induction order generalizing s with
  | nil => rfl
  | cons i order ih => rw [List.foldl_cons, ih, State.completeCtx_wav]

theorem exec_contextComplete {s : State} {i : Fin 8} {band period next count : Nat}
    (hrails : s.upd.rails = .scanning band period next count) (hended : s.upd.contexts[i].ended = true) :
    exec (.contextComplete i) s = .next ((s.reach next).completeCtx i).adoptIfStill := by
  show Host.Outcome.next _ = _
  simp only [hrails, hended, if_true]

/-! ### The order of completion (R62) -/

theorem Upd.mem_completing (u : Upd) (i : Fin 8) : i ∈ u.completing ↔ u.contexts[i].ended = true := by
  rw [u.completing_spec.1.mem_iff, List.mem_filter]
  exact and_iff_right (List.mem_finRange i)

/-- The contexts that complete are distinct. -/
theorem Upd.completing_nodup (u : Upd) : u.completing.Nodup :=
  u.completing_spec.1.nodup_iff.mpr ((List.nodup_finRange 8).filter _)

theorem Upd.completing_nil {u : Upd} (h : ∀ i : Fin 8, u.contexts[i].ended = false) : u.completing = [] :=
  List.eq_nil_iff_forall_not_mem.mpr fun i hi => Bool.false_ne_true ((h i).symm.trans ((u.mem_completing i).mp hi))

/-- One context comes before another: it joined first, or with it and its request was admitted first (R62). -/
abbrev Upd.Precedes (u : Upd) (i k : Fin 8) : Prop :=
  ∀ r p f j r' p' f' j', u.contexts[i] = .running r p f j → u.contexts[k] = .running r' p' f' j' →
    j < j' ∨ (j = j' ∧ r.serial < r'.serial)

theorem Ctx.running_of_ended {c : Ctx} (h : c.ended = true) : ∃ r p f j, c = .running r p f j := by
  cases c with
  | running r p f j => exact ⟨r, p, f, j, rfl⟩
  | _ => nomatch h

theorem Upd.not_before_of_precedes {u : Upd} {i k : Fin 8} (hi : u.contexts[i].ended = true)
    (hk : u.contexts[k].ended = true) (h : u.Precedes i k) : ¬u.contexts[k].before u.contexts[i] = true := by
  obtain ⟨r, p, f, j, hri⟩ := Ctx.running_of_ended hi
  obtain ⟨r', p', f', j', hrk⟩ := Ctx.running_of_ended hk
  have hplace := h r p f j r' p' f' j' hri hrk
  simp only [hri, hrk, Ctx.before, Ctx.place, Bool.or_eq_true, Bool.and_eq_true, decide_eq_true_eq]
  omega

/-- Of two items of an ordered list one comes before the other. -/
theorem pairwise_either {α : Type} {R : α → α → Prop} {l : List α} (h : l.Pairwise R) {a b : α} (ha : a ∈ l)
    (hb : b ∈ l) (hne : a ≠ b) : R a b ∨ R b a := by
  induction h with
  | nil => nomatch ha
  | cons hx _ ih =>
    obtain rfl | ha' := List.mem_cons.mp ha
    · exact .inl (hx b ((List.mem_cons.mp hb).resolve_left (Ne.symm hne)))
    · obtain rfl | hb' := List.mem_cons.mp hb
      · exact .inr (hx a ha')
      · exact ih ha' hb'

/-- Contexts in the order of R62 are those that complete, in the order in which they do. -/
theorem Upd.completing_eq {u : Upd} {order : List (Fin 8)} (hnodup : order.Nodup)
    (hmem : ∀ i : Fin 8, i ∈ order ↔ u.contexts[i].ended = true) (horder : order.Pairwise u.Precedes) :
    u.completing = order := by
  have hperm : u.completing.Perm order :=
    (List.perm_ext_iff_of_nodup u.completing_nodup hnodup).mpr fun i => (u.mem_completing i).trans (hmem i).symm
  have hnot {i k : Fin 8} (hi : i ∈ order) (hk : k ∈ order) (h : u.Precedes i k) :=
    Upd.not_before_of_precedes ((hmem i).mp hi) ((hmem k).mp hk) h
  have hbefore : order.Pairwise fun i k => u.contexts[i].before u.contexts[k] = true :=
    horder.imp_of_mem fun hi hk h => (Ctx.before_total _ _).resolve_right (hnot hi hk h)
  refine hperm.eq_of_pairwise (fun i k hi hk hik hki => ?_) u.completing_spec.2 hbefore
  have hi := hperm.mem_iff.mp hi
  refine Decidable.byContradiction fun hne => ?_
  obtain h | h := pairwise_either horder hi hk hne
  · exact hnot hi hk h hki
  · exact hnot hk hi h hik

/-! ### The boundary (R59) -/

/-- The contexts after a boundary: RUNNING ones advanced, WAITING ones joined (R59 steps 2 and 3). -/
def Upd.moved (u : Upd) (count : Nat) : Vector Ctx 8 := (u.contexts.map Ctx.advance).map (Ctx.join (count + 1))

theorem any_toList_iff {α : Type} {n : Nat} (v : Vector α n) (f : α → Bool) :
    v.toList.any f = true ↔ ∃ i : Fin n, f v[i] = true := by
  rw [Vector.any_toList, Vector.any_eq_true, Fin.exists_iff]
  rfl

theorem Ctx.moved_isRunning (c : Ctx) (n : Nat) : (c.advance.join n).isRunning = (c.isRunning || c.isWaiting) := by
  cases c <;> rfl

/-- After a boundary a context runs where it ran before or waited. -/
theorem Upd.moved_running_iff (u : Upd) (count : Nat) :
    (u.moved count).toList.any Ctx.isRunning = true ↔
      ∃ i : Fin 8, u.contexts[i].isRunning = true ∨ u.contexts[i].isWaiting = true := by
  rw [any_toList_iff]
  refine exists_congr fun i => ?_
  have hmoved : (u.moved count)[i] = u.contexts[i].advance.join (count + 1) := by simp [Upd.moved]
  rw [hmoved, Ctx.moved_isRunning, Bool.or_eq_true]

/-- What completions and a waiting adoption leave at a boundary (R59 step 1, R28). -/
def State.boundaryReady (s : State) : State := (s.upd.completing.foldl State.completeCtx s).adoptIfStill

section
variable {s : State} {band period next count : Nat}

/-- The scan goes on by one period while a context runs. -/
theorem State.boundary_goesOn (h : (s.boundaryReady.upd.moved count).toList.any Ctx.isRunning = true) :
    s.boundary band period next count =
      { s.boundaryReady with
        upd :=
          { s.boundaryReady.upd with
            rails := .scanning band period (next + period * 40) (count + 1)
            contexts := s.boundaryReady.upd.moved count } } := if_pos h

/-- The scan leaves SCANNING where none does. -/
theorem State.boundary_leaves (h : (s.boundaryReady.upd.moved count).toList.any Ctx.isRunning = false) :
    s.boundary band period next count =
      State.releaseGate
        { s.boundaryReady with
          upd := { s.boundaryReady.upd with rails := .onIdle, contexts := s.boundaryReady.upd.moved count }
          lgt := { s.boundaryReady.lgt with holdoff := 2 } } := if_neg (Bool.eq_false_iff.mp h)

theorem exec_frameBoundary (h : s.upd.rails = .scanning band period next count) :
    exec .frameBoundary s = .next (((s.reach next).boundary band period next count).settle true) := by
  show Host.Outcome.next _ = _
  simp only [h]

/-- Where no context completes and no adoption waits, a boundary's first steps do nothing. -/
theorem State.boundaryReady_of_none (h : ∀ i : Fin 8, s.upd.contexts[i].ended = false)
    (hwait : s.wav.adoptionWaiting = false) : s.boundaryReady = s := by
  rw [State.boundaryReady, Upd.completing_nil h]
  exact State.adoptIfStill_of_not (.inl hwait)

end

/-- A waiting adoption at a boundary, by what the completions leave (R28). -/
theorem State.adoptIfStill_eq {s t : State} (hwav : t.wav = s.wav) :
    t.adoptIfStill =
      if s.wav.adoptionWaiting = true ∧ t.upd.contextInUse = false then
        { t with
          wav :=
            { s.wav with
              active := some s.wav.incoming
              incoming := []
              incomingLen := 0
              adoptionWaiting := false
              lastCommit := .adopted }
          lnk := { t.lnk with notices := t.lnk.notices ||| 0x0020#16 } }
      else t := by
  rw [← hwav]
  split
  · rename_i h
    exact State.adoptIfStill_of_still h.1 h.2
  · rename_i h
    refine State.adoptIfStill_of_not ?_
    cases hwait : t.wav.adoptionWaiting with
    | false => exact .inl rfl
    | true => exact .inr (Bool.of_not_eq_false fun hfree => h ⟨hwait, hfree⟩)

end Sys2Proof.Machine

namespace Sys2Proof.Proofs
open Sys2Proof Sys2Proof.Machine

/-- Settles O36: a boundary by what its completions leave, these in the one order of R62. -/
theorem frameBoundaryAndContextCompletion : Obligations.FrameBoundaryAndContextCompletion := by
  refine ⟨?_, ?_, ?_⟩
  · intro band period next count s hrails hended hwait moved
    have hready : (s.reach next).boundaryReady = s.reach next := State.boundaryReady_of_none hended hwait
    have hrunning := s.upd.moved_running_iff count
    refine ⟨fun hmove => ?_, fun hnone => ?_⟩
    · rw [exec_frameBoundary hrails, State.boundary_goesOn, hready]
      · rfl
      · rw [hready]
        exact hrunning.mpr hmove
    · rw [exec_frameBoundary hrails, State.boundary_leaves, hready]
      · rfl
      · rw [hready]
        refine Bool.eq_false_iff.mpr fun h => ?_
        obtain ⟨i, hi⟩ := hrunning.mp h
        obtain ⟨hrun, hwaits⟩ := hnone i
        exact hi.elim (Bool.eq_false_iff.mp hrun) (Bool.eq_false_iff.mp hwaits)
  · intro i r p frame joined band period next count s hrails hctx hframe hwait
    have hended : s.upd.contexts[i].ended = true := by
      rw [hctx]
      exact decide_eq_true hframe
    have hctx' : (s.reach next).upd.contexts[i] = .running r p frame joined := hctx
    rw [exec_contextComplete hrails hended, State.completeCtx_running hctx', State.adoptIfStill_of_not]
    · rfl
    · rw [State.retire_wav]
      exact .inl hwait
  · intro order band period next count s hrails hnodup hmem horder completed done ready moved
    have hcompleted : completed = State.completeCtx := by
      funext t i
      cases hctx : t.upd.contexts[i] with
      | running r p frame joined =>
        simp only [completed, hctx, State.completeCtx_running hctx]
      | _ =>
        rw [State.completeCtx_other (by rw [hctx]; rfl)]
        simp only [completed, hctx]
    have horder' : (s.reach next).upd.completing = order := Upd.completing_eq hnodup hmem horder
    have hdone : done = order.foldl State.completeCtx (s.reach next) := by
      rw [← hcompleted]
      rfl
    have hwav : done.wav = s.wav := by
      rw [hdone, State.completeAll_wav]
      rfl
    have hready : (s.reach next).boundaryReady = ready := by
      rw [State.boundaryReady, horder', ← hdone]
      exact State.adoptIfStill_eq hwav
    refine ⟨fun hrun => ?_, fun hrun => ?_⟩
    · rw [exec_frameBoundary hrails, State.boundary_goesOn (hready ▸ hrun), hready]
      rfl
    · rw [exec_frameBoundary hrails, State.boundary_leaves (hready ▸ hrun), hready]
      rfl

end Sys2Proof.Proofs
end

