-- ==== Sys2Proof/Proofs/ListCapacities.lean ====
section
/-! The capacities of the part's lists (`State.bounded`) through each small move. -/
namespace Sys2Proof.Machine
open Sys2Proof

/-- Staging is taken by MEM and SPL alone. -/
theorem State.takeStaging_frame (s : State) :
    s.takeStaging = { s with mem := s.takeStaging.mem, spl := s.takeStaging.spl } := by
  unfold State.takeStaging
  split <;> rfl

/-- Staging returns by MEM and SPL alone. -/
theorem State.returnStaging_frame (s : State) :
    s.returnStaging = { s with mem := s.returnStaging.mem, spl := s.returnStaging.spl } := by
  unfold State.returnStaging
  split <;> rfl

/-- A state whose lists are as after a reset is within the capacities. -/
theorem State.bounded_of_empty {t : State} (hqueue : t.upd.queue = []) (hlog : t.upd.log = [])
    (hforward : t.trn.forward = []) (hbackward : t.trn.backward = []) (hstatus : t.rad.queue = []) (hspl : t.spl = {})
    (hwindow : t.pwr.window = []) : t.bounded := by
  rw [State.bounded, hqueue, hlog, hforward, hbackward, hstatus, hspl, hwindow]
  decide

/-- Every small move keeps the capacities: a block with lists brings its own bound, and a reset empties them. -/
theorem Move.bounded {s t : State} (m : Move s t) : s.bounded → t.bounded := by
  rintro ⟨hqueue, hlog, hforward, hbackward, hstatus, hspl, hwindow⟩
  cases m with
  | upd u hq hl => exact ⟨hq hqueue, hl hlog, hforward, hbackward, hstatus, hspl, hwindow⟩
  | trn u hf hb => exact ⟨hqueue, hlog, hf hforward, hb hbackward, hstatus, hspl, hwindow⟩
  | rad r hr => exact ⟨hqueue, hlog, hforward, hbackward, hr hstatus, hspl, hwindow⟩
  | spl p hs hb => exact ⟨hqueue, hlog, hforward, hbackward, hstatus, hb hspl, hwindow⟩
  | pwr p hw hc => exact ⟨hqueue, hlog, hforward, hbackward, hstatus, hspl, hw hwindow⟩
  | takeStaging hp =>
    rw [State.takeStaging_frame]
    exact ⟨hqueue, hlog, hforward, hbackward, hstatus, takeStaging_bounded s hspl, hwindow⟩
  | returnStaging =>
    rw [State.returnStaging_frame]
    exact ⟨hqueue, hlog, hforward, hbackward, hstatus, returnStaging_bounded s hspl, hwindow⟩
  | lost | drainEnd | fullReset => exact State.bounded_of_empty rfl rfl rfl rfl rfl rfl rfl
  | _ => exact ⟨hqueue, hlog, hforward, hbackward, hstatus, hspl, hwindow⟩

end Sys2Proof.Machine

namespace Sys2Proof.Proofs
open Sys2Proof Sys2Proof.Machine

/-- Settles O14: each small move of a step keeps the capacities. -/
theorem stepKeepsListsWithinCapacity : Obligations.StepKeepsListsWithinCapacity :=
  step_keeps Move.bounded fun _ _ h => h

end Sys2Proof.Proofs
end

