-- ==== Sys2Proof/Proofs/AdmissionAndEligibility.lean ====
section
/-! Clipping and the tests of admission (section 3.1), and the eligibility of a request (section 3.2). -/
namespace Sys2Proof.Machine
open Sys2Proof

/-! ### Clipping (R45) -/

/-- A clipped side holds the places of the side below the limit. -/
theorem mem_clipSide_iff (start : Int) (len limit p : Nat) :
    ((clipSide start len limit).1 ≤ p ∧ p < (clipSide start len limit).1 + (clipSide start len limit).2) ↔
      p < limit ∧ start ≤ p ∧ (p : Int) < start + len := by
  simp only [clipSide]
  omega

/-- A clipped side is empty exactly where the side has no place below the limit. -/
theorem clipSide_empty_iff (start : Int) (len limit : Nat) :
    (clipSide start len limit).2 = 0 ↔ ∀ p : Nat, p < limit → ¬(start ≤ p ∧ (p : Int) < start + len) := by
  have hmem := mem_clipSide_iff start len limit
  constructor
  · intro hempty p hp hin
    have := (hmem p).mpr ⟨hp, hin⟩
    omega
  · intro hnone
    refine Decidable.byContradiction fun hpos => ?_
    obtain ⟨hp, hin⟩ := (hmem (clipSide start len limit).1).mp (by omega)
    exact hnone _ hp hin

/-- A clipped rectangle is its two clipped sides. -/
theorem clipRect_eq_some {x y : Int} {w h : Nat} {r : Rect} (hr : clipRect x y w h = some r) :
    r = ⟨(clipSide x w 1280).1, (clipSide y h 1600).1, (clipSide x w 1280).2, (clipSide y h 1600).2⟩ := by
  simp only [clipRect, Option.ite_none_left_eq_some, Option.some.injEq] at hr
  exact hr.2.symm

theorem clipRect_eq_none_iff (x y : Int) (w h : Nat) :
    clipRect x y w h = none ↔ (clipSide x w 1280).2 = 0 ∨ (clipSide y h 1600).2 = 0 := by
  rw [clipRect]
  split
  · rename_i hempty
    exact iff_of_true rfl hempty
  · rename_i hfull
    exact iff_of_false (by simp only [reduceCtorEq, not_false_eq_true]) hfull

/-! ### The tests of admission (R44) -/

section
variable {s : State} {b : Submission}

theorem State.judgeSubmission_noWaveform (h : s.wav.active = none) : s.judgeSubmission b = .error .noWaveform := by
  simp [State.judgeSubmission, h]

theorem State.judgeSubmission_powerDown (h : s.wav.active ≠ none) (hcut : s.pwr.cutoff = true)
    (hb : b.origin ≠ .power) : s.judgeSubmission b = .error .powerDown := by
  simp [State.judgeSubmission, h, hcut, hb]

/-- R44 test 2 passes outside the cutoff sequence, and PWR's own submission in it. -/
theorem Submission.not_cutoff (h : s.pwr.cutoff = false ∨ b.origin = .power) :
    ¬(s.pwr.cutoff = true ∧ b.origin ≠ .power) := by
  obtain h | h := h <;> simp [h]

variable (hwave : s.wav.active ≠ none) (hpower : s.pwr.cutoff = false ∨ b.origin = .power)
include hwave hpower

/-- Past tests 1 and 2 the codes are judged (R44 test 3). -/
theorem State.judgeSubmission_badParam (h : b.slot = none ∨ b.mode = none ∨ b.forced = none ∨ b.notify = none) :
    s.judgeSubmission b = .error .badParam := by
  rw [State.judgeSubmission, if_neg (by simpa using hwave), if_neg (Submission.not_cutoff hpower)]
  split
  · simp_all
  · rfl

variable {i : Fin 16} {mode : Mode} {forced : Option Nat} {notify : Bool} (hslot : b.slot = some i)
  (hmode : b.mode = some mode) (hforced : b.forced = some forced) (hnotify : b.notify = some notify)
include hslot hmode hforced hnotify

/-- Past tests 1 to 3 the rectangle is clipped (R44 test 4). -/
theorem State.judgeSubmission_badRect (hrect : clipRect b.x b.y b.w b.h = none) :
    s.judgeSubmission b = .error .badRect := by
  rw [State.judgeSubmission, if_neg (by simpa using hwave), if_neg (Submission.not_cutoff hpower)]
  simp only [hslot, hmode, hforced, hnotify, hrect]

/-- With a rectangle the source slot is judged, then the queue (R44 tests 5 to 7). -/
theorem State.judgeSubmission_placed {r : Rect} (hrect : clipRect b.x b.y b.w b.h = some r) :
    s.judgeSubmission b =
      if s.mem.slots[i].state = .releasing then .error .slotBusy
      else if s.mem.slots[i].state ≠ .ready ∨ ¬ s.mem.slots[i].holdsWindow b.sx b.sy r then .error .badSource
      else if 16 ≤ s.upd.queue.length then .error .queueFull
      else .ok (s.requestOf b i mode forced notify r) := by
  rw [State.judgeSubmission, if_neg (by simpa using hwave), if_neg (Submission.not_cutoff hpower)]
  simp only [hslot, hmode, hforced, hnotify, hrect]

end

theorem Slot.holdsWindow_iff (x : Slot) (sx sy : Nat) (r : Rect) :
    x.holdsWindow sx sy r = true ↔ sx + r.w ≤ x.width ∧ sy + r.h ≤ x.height := by
  simp [Slot.holdsWindow]

/-! ### Eligibility (R50) -/

/-- Condition 1: no context in use and no request ahead shares a pixel with the request. -/
theorem Upd.clear_iff (u : Upd) (ahead : List Request) (r : Request) :
    u.clear ahead r = true ↔
      (∀ (i : Fin 8) (q : Request), u.contexts[i].request = some q → q.rect.meets r.rect = false) ∧
        ∀ q ∈ ahead, q.rect.meets r.rect = false := by
  simp only [Upd.clear, Bool.and_eq_true, List.all_eq_true, Bool.not_eq_true']
  refine and_congr_left' ⟨fun h i q hq => ?_, fun h c hc => ?_⟩
  · have hctx := h u.contexts[i] (by simp)
    rw [hq] at hctx
    exact (Bool.not_eq_true' _).mp hctx
  · obtain ⟨k, hk, rfl⟩ := Vector.mem_iff_getElem.mp (Vector.mem_toList_iff.mp hc)
    split
    · rename_i q hq
      exact (Bool.not_eq_true' _).mpr (h ⟨k, hk⟩ q hq)
    · rfl

/-- The first clear request of a queue is clear of those ahead of it, of which none is clear. -/
theorem Upd.firstClear_spec (u : Upd) {r : Request} (queue : List Request) {before : List Request}
    (h : u.firstClear before queue = some r) :
    ∃ ahead behind, queue = ahead ++ r :: behind ∧ u.clear (before ++ ahead) r = true ∧
      ∀ pre q post, ahead = pre ++ q :: post → u.clear (before ++ pre) q = false := by
  induction queue generalizing before with
  | nil => cases h
  | cons q rest ih =>
    rw [Upd.firstClear] at h
    split at h
    · rename_i hclear
      obtain rfl : q = r := Option.some.inj h
      exact ⟨[], rest, rfl, by simpa using hclear, by simp⟩
    · rename_i hnot
      obtain ⟨ahead, behind, rfl, hclear, hpassed⟩ := ih h
      refine ⟨q :: ahead, behind, rfl, by simpa using hclear, fun pre p post hsplit => ?_⟩
      cases pre with
      | nil =>
        obtain ⟨rfl, -⟩ := List.cons.inj hsplit
        simpa using hnot
      | cons p' pre =>
        obtain ⟨rfl, hrest⟩ := List.cons.inj hsplit
        simpa using hpassed pre p post hrest

/-- Conditions 2 to 7 hold where some request is eligible, and the request is the first clear one. -/
theorem State.firstEligible_iff (s : State) (r : Request) :
    s.firstEligible = some r ↔
      (s.mayPrepare = true ∧ s.gateAllows = true) ∧ s.upd.firstClear [] s.upd.queue = some r := by
  simp [State.firstEligible]

theorem State.mayPrepare_iff (s : State) :
    s.mayPrepare = true ↔
      s.upd.freeCtx.isSome = true ∧ s.bandAllows = true ∧ s.wav.adoptionWaiting = false ∧ s.upd.freshWait = false ∧
        s.pwr.power ≠ .deep ∧ s.pwr.deepWait = none := by
  simp [State.mayPrepare, State.inDeep, and_assoc]

/-- Condition 3 during a scan. -/
theorem State.bandAllows_scanning {s : State} {band period next count : Nat}
    (h : s.upd.rails = .scanning band period next count) : s.bandAllows = true ↔ s.wav.band = band := by
  simp [State.bandAllows, h]

/-- Condition 3 outside a scan. -/
theorem State.bandAllows_idle {s : State} (h : s.upd.scanning = false) (hband : s.bandAllows = true) (i : Fin 8)
    {b : Nat} (hb : s.upd.contexts[i].preparedBand = some b) : s.wav.band = b := by
  simp only [State.bandAllows] at hband
  split at hband
  · rename_i hrails
    simp [Upd.scanning, hrails] at h
  · have hctx := List.all_eq_true.mp hband s.upd.contexts[i] (by simp)
    rw [hb] at hctx
    simpa using hctx

end Sys2Proof.Machine

namespace Sys2Proof.Proofs
open Sys2Proof Sys2Proof.Machine

/-- Settles O27: side by side. -/
theorem clippingKeepsThePanelPixels : Obligations.ClippingKeepsThePanelPixels := by
  intro x y w h
  refine ⟨fun r hr px py => ?_, ?_⟩
  · have hx := mem_clipSide_iff x w 1280 px
    have hy := mem_clipSide_iff y h 1600 py
    rw [clipRect_eq_some hr, Rect.has_iff, ← and_assoc, hx, hy]
    constructor
    · rintro ⟨⟨hpx, hl, hr⟩, hpy, ht, hb⟩
      exact ⟨hpx, hpy, hl, hr, ht, hb⟩
    · rintro ⟨hpx, hpy, hl, hr, ht, hb⟩
      exact ⟨⟨hpx, hl, hr⟩, hpy, ht, hb⟩
  · rw [clipRect_eq_none_iff, clipSide_empty_iff, clipSide_empty_iff]
    constructor
    · rintro (hx | hy) px py hpx hpy ⟨hl, hr, ht, hb⟩
      · exact hx px hpx ⟨hl, hr⟩
      · exact hy py hpy ⟨ht, hb⟩
    · intro hnone
      refine Classical.or_iff_not_imp_left.mpr fun hx py hpy hin => hx fun px hpx hacross => ?_
      exact hnone px py hpx hpy ⟨hacross.1, hacross.2, hin⟩

/-- Settles O28: test by test. -/
theorem admissionTestsInOrder : Obligations.AdmissionTestsInOrder := by
  intro b s answer
  refine ⟨State.judgeSubmission_noWaveform, State.judgeSubmission_powerDown, fun hwave hpower =>
    ⟨State.judgeSubmission_badParam hwave hpower, ?_⟩⟩
  intro i mode forced notify hslot hmode hforced hnotify
  refine ⟨State.judgeSubmission_badRect hwave hpower hslot hmode hforced hnotify, ?_⟩
  intro r hrect x fits
  have hanswer := State.judgeSubmission_placed hwave hpower hslot hmode hforced hnotify hrect
  have hfits : x.holdsWindow b.sx b.sy r = true ↔ fits := Slot.holdsWindow_iff x b.sx b.sy r
  refine ⟨fun hx => hanswer.trans (if_pos hx), fun hx hbad => ?_, fun hx hfit hfull => ?_, fun hx hfit hroom => ?_⟩
  · exact hanswer.trans ((if_neg hx).trans (if_pos (hbad.imp_right (mt hfits.mp))))
  all_goals
    have hbusy : ¬x.state = .releasing := by simp [hx]
    have hsource : ¬(x.state ≠ .ready ∨ ¬x.holdsWindow b.sx b.sy r = true) := by simp [hx, hfits.mpr hfit]
    refine hanswer.trans ((if_neg hbusy).trans ((if_neg hsource).trans ?_))
  · exact if_pos hfull
  · exact if_neg (Nat.not_le.mpr hroom)

/-- Settles O32: conditions 2 to 7 are tested for the whole queue, and condition 1 along it. -/
theorem preparedRequestsAreEligible : Obligations.PreparedRequestsAreEligible := by
  intro r s h
  obtain ⟨⟨hmay, hgate⟩, hfirst⟩ := (s.firstEligible_iff r).mp h
  obtain ⟨hctx, hband, hadopt, hfresh, hdeep, hwait⟩ := s.mayPrepare_iff.mp hmay
  obtain ⟨ahead, behind, hqueue, hclear, hpassed⟩ := s.upd.firstClear_spec _ hfirst
  obtain ⟨hcontexts, hahead⟩ := (s.upd.clear_iff ahead r).mp hclear
  obtain ⟨i, hi⟩ := Option.isSome_iff_exists.mp hctx
  refine ⟨⟨ahead, behind, hqueue, hahead, hpassed⟩, hcontexts, ⟨i, Upd.freeCtx_free hi⟩,
    fun band period next count hrails => (State.bandAllows_scanning hrails).mp hband,
    fun hscan i b hb => State.bandAllows_idle hscan hband i hb, hadopt, ?_, hfresh, hdeep, hwait⟩
  simpa [State.gateAllows, State.gateApplies] using hgate

end Sys2Proof.Proofs
end

