-- ==== Sys2Proof/Proofs/UpdateMessages.lean ====
section
/-! Update Region, Cancel Update, Update Status and Panel Settings (sections 3.1 and 3.6). -/
namespace Sys2Proof.Machine
open Sys2Proof

/-- Some context holds a request of the number (R48). -/
theorem Upd.holdsNumber_iff (u : Upd) (number : Nat) :
    u.holdsNumber number = true ↔ ∃ (i : Fin 8) (r : Request), u.contexts[i].request = some r ∧ r.number = number := by
  simp only [Upd.holdsNumber, any_toList_iff, decide_eq_true_eq, Option.map_eq_some_iff]

section
variable {s : State} {tag : Byte} {number : U16}

/-- An Update Region is judged by admission (R44). -/
theorem exec_updateRegion (hopen : s.linkOpen) (slot mode forced notify : Byte) (x y w h sx sy : U16) :
    exec (.updateRegion tag slot mode forced notify x y w h sx sy) s =
      .next (s.newTransaction.submitRegion tag (linkSubmission slot mode forced notify x y w h sx sy)) :=
  next_take_of_linkOpen hopen _

theorem State.submitRegion_refused {b : Submission} {e : Status} (h : s.judgeSubmission b = .error e) :
    s.newTransaction.submitRegion tag b = s.refusedBy 0x30#8 tag e := by
  have hjudge : s.newTransaction.judgeSubmission b = .error e := h
  simp only [State.submitRegion, hjudge, State.newTransaction_refuse]

theorem State.submitRegion_admitted {b : Submission} {r : Request} (h : s.judgeSubmission b = .ok r) :
    s.newTransaction.submitRegion tag b =
      ((s.newTransaction.enterQueue r).answer 0x30#8 tag .ok
        (u16 r.number ++ u8 (s.upd.supersededBy r).length)).settle true := by
  have hjudge : s.newTransaction.judgeSubmission b = .ok r := h
  simp only [State.submitRegion, hjudge, State.newTransaction_upd]

theorem exec_cancelUpdate (hopen : s.linkOpen) :
    exec (.cancelUpdate tag number) s = .next (doCancelUpdate tag number s.newTransaction) :=
  next_take_of_linkOpen hopen _

theorem doCancelUpdate_zero : doCancelUpdate tag 0#16 s.newTransaction = s.refusedBy 0x31#8 tag .badParam := rfl

/-- A pending request is cancelled, and the queue examined (R48, R49). -/
theorem doCancelUpdate_pending {r : Request} (hne : number ≠ 0#16)
    (hr : (s.upd.queue.find? fun q => q.number = number.toNat) = some r) :
    doCancelUpdate tag number s.newTransaction =
      ((s.newTransaction.cancelRequest r).answer 0x31#8 tag .ok).settle true := by
  simp only [doCancelUpdate, hne, if_false, State.newTransaction_upd, hr]

/-- A number that is not pending is started or unknown (R48). -/
theorem doCancelUpdate_notPending (hne : number ≠ 0#16)
    (hnone : (s.upd.queue.find? fun q => q.number = number.toNat) = none) :
    doCancelUpdate tag number s.newTransaction =
      s.refusedBy 0x31#8 tag (if s.upd.holdsNumber number.toNat then .updateStarted else .unknownUpdate) := by
  simp only [doCancelUpdate, hne, if_false, State.newTransaction_upd, hnone, State.newTransaction_refuse]
  exact (apply_ite (s.refusedBy 0x31#8 tag) _ _ _).symm

theorem exec_updateStatus (hopen : s.linkOpen) :
    exec (.updateStatus tag number) s = .next (doUpdateStatus tag number s.newTransaction) :=
  next_take_of_linkOpen hopen _

theorem doUpdateStatus_zero : doUpdateStatus tag 0#16 s.newTransaction = s.refusedBy 0x32#8 tag .badParam := rfl

theorem doUpdateStatus_unknown (hne : number ≠ 0#16) (hnone : s.upd.found number.toNat = none) :
    doUpdateStatus tag number s.newTransaction = s.refusedBy 0x32#8 tag .unknownUpdate := by
  simp only [doUpdateStatus, hne, if_false, State.newTransaction_upd, hnone, State.newTransaction_refuse]

/-- What is found is reported (R65). -/
theorem doUpdateStatus_found {f : Found} (hne : number ≠ 0#16) (hf : s.upd.found number.toNat = some f) :
    doUpdateStatus tag number s.newTransaction = s.newTransaction.place (f.reply tag) := by
  simp only [doUpdateStatus, hne, if_false, State.newTransaction_upd, hf]

end

end Sys2Proof.Machine

namespace Sys2Proof.Proofs
open Sys2Proof Sys2Proof.Machine

/-- Settles O31: Update Region by admission, Cancel Update and Update Status by where the number is found. -/
theorem updateMessages : Obligations.UpdateMessages := by
  refine ⟨?_, ?_, ?_, ?_⟩
  · intro tag slot mode forced notify x y w h sx sy s hopen b answer free
    have hanswer : answer = .next (s.newTransaction.submitRegion tag b) := exec_updateRegion hopen ..
    refine ⟨fun e he => ?_, fun r hr => ?_⟩
    · rw [hanswer, State.submitRegion_refused he]
    · rw [hanswer, State.submitRegion_admitted hr]
      rfl
  · intro tag number s hopen answer found free
    have hanswer : answer = .next (doCancelUpdate tag number s.newTransaction) := exec_cancelUpdate hopen
    rw [hanswer]
    refine ⟨?_, fun hne r hr => ?_, fun hne hnone => ?_⟩
    · rintro rfl
      exact congrArg Host.Outcome.next doCancelUpdate_zero
    · rw [doCancelUpdate_pending hne hr]
      rfl
    · rw [doCancelUpdate_notPending hne hnone]
      refine ⟨fun hheld => ?_, fun hother => ?_⟩
      · rw [if_pos ((s.upd.holdsNumber_iff _).mpr hheld)]
      · rw [if_neg fun hheld => ?_]
        obtain ⟨i, r, hr, hnumber⟩ := (s.upd.holdsNumber_iff _).mp hheld
        exact hother i r hr hnumber
  · intro tag number s hopen answer
    have hanswer : answer = .next (doUpdateStatus tag number s.newTransaction) := exec_updateStatus hopen
    rw [hanswer]
    refine ⟨?_, fun hne hnone => ?_, fun hne f hf => ?_⟩
    · rintro rfl
      exact congrArg Host.Outcome.next doUpdateStatus_zero
    · rw [doUpdateStatus_unknown hne hnone]
    · rw [doUpdateStatus_found hne hf]
      rfl
  · intro tag hold s hopen
    have hexec : exec (.panelSettings tag hold) s = .next (doPanelSettings tag hold s.newTransaction) :=
      next_take_of_linkOpen hopen _
    rw [hexec, doPanelSettings]
    refine ⟨fun hgood => ?_, fun hlong => ?_⟩
    · rw [if_neg (Nat.not_lt.mpr hgood)]
      rfl
    · rw [if_pos hlong, State.newTransaction_refuse]

end Sys2Proof.Proofs
end

