-- ==== Sys2Proof/Proofs/RailsAndScanStart.lean ====
section
/-! The rails and the start of a scan (section 3.4). -/
namespace Sys2Proof.Machine
open Sys2Proof

/-! ### The terms of R56 to R58 -/

theorem State.permitsRise_iff (s : State) :
    s.permitsRise = true ↔ s.supply = .on ∧ (s.pwr.power = .active ∨ s.pwr.power = .doze) := by
  simp [State.permitsRise]

theorem Upd.railsOff_iff (u : Upd) : u.railsOff = true ↔ u.rails = .off := by simp [Upd.railsOff]

theorem Upd.onIdle_iff (u : Upd) : u.onIdle = true ↔ u.rails = .onIdle := by simp [Upd.onIdle]

theorem Upd.scanning_iff (u : Upd) :
    u.scanning = true ↔ ∃ band period next n, u.rails = .scanning band period next n := by
  cases h : u.rails <;> simp [Upd.scanning, h]

theorem Upd.anyWaiting_iff (u : Upd) : u.anyWaiting = true ↔ ∃ i : Fin 8, u.contexts[i].isWaiting = true :=
  any_toList_iff u.contexts Ctx.isWaiting

theorem State.live_iff (s : State) : s.live = true ↔ s.supply = .on ∧ s.pwr.power ≠ .cutoff := by simp [State.live]

theorem State.gateApplies_iff (s : State) : s.gateApplies = true ↔ s.pwr.level ≠ .normal := by simp [State.gateApplies]

theorem State.holdForced_iff (s : State) : s.holdForced = true ↔ s.pwr.deepWait ≠ none ∨ s.pwr.cutoff = true := by
  simp [State.holdForced]

/-- A scan may start in RAILS_ON_IDLE with a WAITING context, where the gate does not stop it (R58). -/
theorem State.mayScan_iff (s : State) :
    s.mayScan = true ↔
      s.upd.rails = .onIdle ∧ s.upd.anyWaiting = true ∧ (s.pwr.level = .normal ∨ s.pwr.gate.holder = .panel) := by
  simp [State.mayScan, Upd.onIdle, State.gateApplies, and_assoc]

/-- The plan that a scan latches is a WAITING context's. -/
theorem Upd.anyWaiting_of_waitingPlan {u : Upd} {p : Plan} (h : u.waitingPlan = some p) : u.anyWaiting = true := by
  obtain ⟨c, hc, hplan⟩ := List.exists_of_findSome?_eq_some h
  refine List.any_eq_true.mpr ⟨c, hc, ?_⟩
  cases c <;> simp_all [Ctx.isWaiting]

/-- A WAITING context is in use. -/
theorem Ctx.inUse_of_isWaiting {c : Ctx} (h : c.isWaiting = true) : c.inUse = true := by
  cases c with
  | waiting r p => rfl
  | _ => cases h

/-- A WAITING context is work. -/
theorem Upd.work_of_anyWaiting {u : Upd} (h : u.anyWaiting = true) : u.work = true := by
  obtain ⟨c, hc, hwaits⟩ := List.any_eq_true.mp h
  have hinUse : u.contextInUse = true := List.any_eq_true.mpr ⟨c, hc, Ctx.inUse_of_isWaiting hwaits⟩
  rw [Upd.work, hinUse, Bool.true_or]

/-- RAILEN (R56): a live part asserts it while the rails rise, idle on and scan. -/
theorem State.railen_iff (s : State) :
    s.railen = true ↔
      s.supply = .on ∧ s.pwr.power ≠ .cutoff ∧
        ((∃ e, s.upd.rails = .rising e) ∨ s.upd.rails = .onIdle ∨
          ∃ band period next n, s.upd.rails = .scanning band period next n) := by
  rw [State.railen, Bool.and_eq_true, State.live_iff, and_assoc]
  cases s.upd.rails <;> simp

/-! ### The rails move (R56, R57) -/

theorem State.rise_eq (s : State) :
    s.rise = { s with upd := { s.upd with rails := .rising (s.clock + 12000), holdTimer := none } } := rfl

theorem State.fall_eq (s : State) :
    s.fall = { s with upd := { s.upd with rails := .falling (s.clock + 8000), holdTimer := none } } := rfl

/-- The scan starts with the plan of a WAITING context (R58, R59). -/
theorem State.startScan_eq {s : State} {p : Plan} (h : s.upd.waitingPlan = some p) :
    s.startScan =
      { s with
        upd :=
          { s.upd with
            rails :=
              .scanning p.band (tableP (s.wav.active.getD []) p.band)
                (s.clock + tableP (s.wav.active.getD []) p.band * 40) 0
            contexts := s.upd.contexts.map (Ctx.join 0)
            holdTimer := none }
        lgt := s.lgt.cancelDecided } := by
  simp only [State.startScan, h]
  rfl

section
variable {s : State}

theorem exec_railRise (hoff : s.upd.rails = .off) (hwork : s.upd.work = true) (hpermit : s.permitsRise = true) :
    exec .railRise s = .next s.rise.idleFollow := by
  have hrise : (s.upd.railsOff && s.upd.work && s.permitsRise) = true := by
    simp [s.upd.railsOff_iff.mpr hoff, hwork, hpermit]
  exact congrArg Host.Outcome.next (if_pos hrise)

theorem exec_railsUp {e : Nat} (h : s.upd.rails = .rising e) :
    exec .railsUp s =
      .next (State.settle { s with clock := max s.clock e, upd := { s.upd with rails := .onIdle } } true) := by
  show execRailsUp s = _
  simp only [execRailsUp, h]
  rfl

theorem exec_railHoldExpiry {d : Nat} (h : s.upd.rails = .onIdle) (ht : s.upd.holdTimer = some d) :
    exec .railHoldExpiry s = .next (s.reach d).fall := by
  show execRailHoldExpiry s = _
  simp only [execRailHoldExpiry, h, ht]

theorem exec_railsOff {e : Nat} (h : s.upd.rails = .falling e) :
    exec .railsOff s =
      .next (State.settle { s with clock := max s.clock e, upd := { s.upd with rails := .off } } true) := by
  show execRailsOff s = _
  simp only [execRailsOff, h]
  rfl

theorem exec_scanStart (hlive : s.live = true) (hmay : s.mayScan = true) : exec .scanStart s = .next s.startScan := by
  have hstart : (s.live && s.mayScan) = true := by rw [hlive, hmay, Bool.and_self]
  exact congrArg Host.Outcome.next (if_pos hstart)

/-! ### What follows an event (R56 to R58) -/

theorem State.railsFollow_off (h : s.upd.rails = .off) :
    s.railsFollow = if s.upd.work && s.permitsRise then s.rise else s := by
  simp only [State.railsFollow, h]

/-- In RAILS_ON_IDLE a scan starts, or work and the hold timer decide. -/
theorem State.railsFollow_onIdle (h : s.upd.rails = .onIdle) :
    s.railsFollow =
      if s.mayScan then s.startScan
      else if s.upd.work then s.onUpd fun u => { u with holdTimer := none }
      else if s.holdForced then s.fall
      else if s.upd.holdTimer.isSome then s
      else if s.upd.holdTime = 0 then s.fall
      else s.onUpd fun u => { u with holdTimer := some (s.after (u.holdTime * Config.perMs)) } := by
  simp only [State.railsFollow, h]

theorem State.railsFollow_scans (h : s.mayScan = true) : s.railsFollow = s.startScan := by
  obtain ⟨hidle, -⟩ := s.mayScan_iff.mp h
  exact (State.railsFollow_onIdle hidle).trans (if_pos h)

/-- In RAILS_ON_IDLE the hold timer stops while the engine holds work. -/
theorem State.railsFollow_works (h : s.upd.rails = .onIdle) (hno : s.mayScan = false) (hwork : s.upd.work = true) :
    s.railsFollow = { s with upd := { s.upd with holdTimer := none } } := by
  rw [State.railsFollow_onIdle h, if_neg (Bool.eq_false_iff.mp hno), if_pos hwork]
  rfl

/-- In RAILS_ON_IDLE without work the rails fall, now or with the hold timer (R57). -/
theorem State.railsFollow_idle (h : s.upd.rails = .onIdle) (hwork : s.upd.work = false) :
    s.railsFollow =
      if s.holdForced then s.fall
      else if s.upd.holdTimer.isSome then s
      else if s.upd.holdTime = 0 then s.fall
      else { s with upd := { s.upd with holdTimer := some (s.clock + s.upd.holdTime * 4000) } } := by
  have hno : s.mayScan = false := by
    refine Bool.eq_false_iff.mpr fun hmay => ?_
    obtain ⟨-, hwaits, -⟩ := s.mayScan_iff.mp hmay
    exact Bool.eq_false_iff.mp hwork (Upd.work_of_anyWaiting hwaits)
  rw [State.railsFollow_onIdle h, if_neg (Bool.eq_false_iff.mp hno), if_neg (Bool.eq_false_iff.mp hwork)]
  rfl

theorem State.railsFollow_moving (hoff : s.upd.rails ≠ .off) (hidle : s.upd.rails ≠ .onIdle) : s.railsFollow = s := by
  cases h : s.upd.rails <;> simp_all [State.railsFollow]

end

end Sys2Proof.Machine

namespace Sys2Proof.Proofs
open Sys2Proof Sys2Proof.Machine

/-- Settles O35: by the state of the rails, and in RAILS_ON_IDLE by work and the hold timer. -/
theorem railsAndScanStart : Obligations.RailsAndScanStart := by
  refine ⟨fun s => ⟨fun hoff hwork hon hpower => ?_, fun e => exec_railsUp, fun d hidle htimer => ?_,
    fun e => exec_railsOff, s.railen_iff⟩, fun s hidle => ⟨fun hwork hno => ?_, fun hwork => ⟨fun hfall => ?_, ?_⟩⟩,
    fun check s => rfl, ?_, ?_⟩
  · exact exec_railRise hoff hwork (s.permitsRise_iff.mpr ⟨hon, hpower⟩)
  · exact exec_railHoldExpiry hidle htimer
  · refine State.railsFollow_works hidle (Bool.eq_false_iff.mpr fun hmay => ?_) hwork
    obtain ⟨-, hwaits, hgate⟩ := s.mayScan_iff.mp hmay
    obtain hquiet | ⟨hlow, hother⟩ := hno
    · exact Bool.eq_false_iff.mp hquiet hwaits
    · exact hgate.elim hlow hother
  · rw [State.railsFollow_idle hidle hwork]
    by_cases hforced : s.holdForced = true
    · exact if_pos hforced
    · obtain hwait | hcut | ⟨htimer, htime⟩ := hfall
      · exact absurd (s.holdForced_iff.mpr (.inl hwait)) hforced
      · exact absurd (s.holdForced_iff.mpr (.inr hcut)) hforced
      · rw [if_neg hforced, if_neg (by simp [htimer]), if_pos htime, State.fall_eq]
  · intro hwait hcut
    have hfree : ¬s.holdForced = true := by simp [State.holdForced_iff, hwait, hcut]
    rw [State.railsFollow_idle hidle hwork, if_neg hfree]
    refine ⟨fun htimer => if_pos (Option.isSome_iff_ne_none.mpr htimer), fun htimer htime => ?_⟩
    rw [if_neg (by simp [htimer]), if_neg htime]
  · intro p s hlive hidle hplan hgate period started
    have hmay := s.mayScan_iff.mpr ⟨hidle, Upd.anyWaiting_of_waitingPlan hplan, hgate⟩
    have hstarted : s.startScan = started := State.startScan_eq hplan
    exact ⟨(exec_scanStart hlive hmay).trans (congrArg _ hstarted), (State.railsFollow_scans hmay).trans hstarted⟩
  · intro s permitted
    have hrises : (s.upd.work && s.permitsRise) = true ↔ permitted := by
      rw [Bool.and_eq_true, State.permitsRise_iff]
    refine ⟨fun hoff hp => ?_, fun hoff hp => ?_, State.railsFollow_moving⟩
    · exact (State.railsFollow_off hoff).trans (if_pos (hrises.mpr hp))
    · exact (State.railsFollow_off hoff).trans (if_neg (mt hrises.mp hp))

end Sys2Proof.Proofs
end

