-- ==== Sys2Proof/Proofs/LoadGateAndHold.lean ====
section
/-! The load gate between the panel and the radio (R61, R144, R170, R171), and HOLD toward the radio module (R131). -/
namespace Sys2Proof.Machine
open Sys2Proof

/-! ### The asks (R61, R144) -/

theorem Spl.wantsGate_iff (p : Spl) :
    p.wantsGate = true ↔ ∃ d ∈ p.table, d.state = .receiving ∧ d.removal = false := by
  simp [Spl.wantsGate]

/-- The state with the load gate held by no one. -/
abbrev State.ungated (s : State) : State := { s with pwr := { s.pwr with gate := { s.pwr.gate with holder := .none } } }

/-- A gate that RADIO does not hold stops no preparation (R50 condition 5), so the first eligible request with it is the
first clear one. -/
theorem State.firstEligible_ungated (s : State) :
    s.ungated.firstEligible = if s.mayPrepare then s.upd.firstClear [] s.upd.queue else none := by
  have hallows : s.ungated.gateAllows = true := by simp [State.gateAllows]
  rw [State.firstEligible, hallows, Bool.and_true]
  rfl

/-- RADIO's holding alone keeps a request from preparation (R61). -/
theorem State.gateBlocks_iff (s : State) :
    s.gateBlocks = true ↔
      s.pwr.level ≠ .normal ∧ s.pwr.gate.holder = .radio ∧ ∃ r, s.ungated.firstEligible = some r := by
  rw [State.firstEligible_ungated, ← Option.isSome_iff_exists]
  cases hmay : s.mayPrepare <;> simp [State.gateBlocks, State.gateAllows, State.gateApplies, hmay, and_assoc]

/-- The engine asks for the gate (R61). -/
abbrev State.PanelAsks (s : State) : Prop :=
  s.upd.scanning = true ∨ (s.upd.rails = .onIdle ∧ ∃ i : Fin 8, s.upd.contexts[i].isWaiting = true) ∨
    (s.pwr.level ≠ .normal ∧ s.pwr.gate.holder = .radio ∧ ∃ r, s.ungated.firstEligible = some r) ∨
    (s.pwr.gate.renewed = true ∧ s.upd.work = true)

theorem State.panelAsks_iff (s : State) : s.panelAsks = true ↔ s.PanelAsks := by
  rw [State.panelAsks, Bool.or_eq_true, Bool.or_eq_true, Bool.or_eq_true, Bool.and_eq_true, Bool.and_eq_true,
    Upd.onIdle_iff, Upd.anyWaiting_iff, State.gateBlocks_iff, or_assoc, or_assoc]

/-! ### The gate after asks, releases and grants (R170, R171) -/

/-- The engine gives the gate back at the end of an event (R61). -/
abbrev State.PanelFrees (s : State) (release : Bool) : Prop :=
  release = true ∧ s.upd.scanning = false ∧ s.upd.work = false

section
variable {s : State} {release : Bool}

theorem State.heldAfterRelease_free
    (h : s.pwr.gate.holder = .none ∨ (s.pwr.gate.holder = .panel ∧ s.PanelFrees release) ∨
      (s.pwr.gate.holder = .radio ∧ s.spl.wantsGate = false)) : s.heldAfterRelease release = .none := by
  obtain h | ⟨h, hrelease, hscan, hwork⟩ | ⟨h, hwants⟩ := h
  · simp [State.heldAfterRelease, h]
  · simp [State.heldAfterRelease, h, hrelease, hscan, hwork]
  · simp [State.heldAfterRelease, h, hwants]

theorem State.heldAfterRelease_radio (h : s.pwr.gate.holder = .radio) (hwants : s.spl.wantsGate = true) :
    s.heldAfterRelease release = .radio := by
  simp [State.heldAfterRelease, h, hwants]

theorem State.heldAfterRelease_panel (h : s.pwr.gate.holder = .panel) (hkeeps : ¬s.PanelFrees release) :
    s.heldAfterRelease release = .panel := by
  have hno : ¬(release && !s.upd.scanning && !s.upd.work) = true := by simpa [and_assoc] using hkeeps
  simp only [State.heldAfterRelease, h]
  exact if_neg hno

/-- The gate does not apply at a NORMAL battery level (R170). -/
theorem State.gateAfter_normal (h : s.pwr.level = .normal) : s.gateAfter release = {} := by
  have hno : ¬s.gateApplies = true := by simp [State.gateApplies_iff, h]
  rw [State.gateAfter, if_neg hno]

variable (hlow : s.pwr.level ≠ .normal)
include hlow

/-- A gate that no one holds goes to PANEL if it asks, else to RADIO (R170). -/
theorem State.gateAfter_free (h : s.heldAfterRelease release = .none) :
    s.gateAfter release =
      if s.panelAsks then ⟨.panel, true, s.spl.wantsGate, false, false⟩
      else if s.spl.wantsGate then ⟨.radio, false, true, false, s.stillRenewed release⟩
      else ⟨.none, false, false, false, s.stillRenewed release⟩ := by
  rw [State.gateAfter, if_pos (s.gateApplies_iff.mpr hlow)]
  simp only [h]

/-- PANEL keeps the gate until it releases it. -/
theorem State.gateAfter_panel (h : s.heldAfterRelease release = .panel) :
    s.gateAfter release = ⟨.panel, true, s.spl.wantsGate, false, false⟩ := by
  rw [State.gateAfter, if_pos (s.gateApplies_iff.mpr hlow)]
  simp only [h]

/-- RADIO passes the gate to a panel ask, at once or with the end of the frame in assembly (R171). -/
theorem State.gateAfter_radio (h : s.heldAfterRelease release = .radio) :
    s.gateAfter release =
      if s.panelAsks then
        if s.rad.inFrame then ⟨.radio, true, s.spl.wantsGate, true, s.stillRenewed release⟩
        else ⟨.panel, true, s.spl.wantsGate, false, false⟩
      else ⟨.radio, false, s.spl.wantsGate, false, s.stillRenewed release⟩ := by
  rw [State.gateAfter, if_pos (s.gateApplies_iff.mpr hlow)]
  simp only [h]

end

/-! ### The gate is changed, and released at a scan's end -/

section
variable {s : State} {g : Gate}

theorem State.withGate_same (h : g.holder = s.pwr.gate.holder) :
    s.withGate g = { s with pwr := { s.pwr with gate := g } } := if_pos h

/-- A change of holder has a WAITING segment examined (R142). -/
theorem State.withGate_other (h : g.holder ≠ s.pwr.gate.holder) :
    s.withGate g = State.spooler { s with pwr := { s.pwr with gate := g } } true := if_neg h

theorem State.releaseGate_panel (h : s.pwr.gate.holder = .panel) :
    s.releaseGate =
      s.withGate
        (if s.spl.wantsGate then ⟨.radio, false, true, false, true⟩ else ⟨.none, false, false, false, true⟩) := if_pos h

end

/-! ### HOLD (R131) -/

/-- One segment waits while another is assembled. -/
theorem Rad.heldUp_iff (r : Rad) :
    (r.inFrame && r.waitingSegment.isSome) = true ↔
      ∃ g, (r.bufA = .waiting g ∧ r.bufB = .assembling) ∨ (r.bufB = .waiting g ∧ r.bufA = .assembling) := by
  cases ha : r.bufA <;> cases hb : r.bufB <;> simp [Rad.inFrame, Rad.waitingSegment, ha, hb]

/-- A live part has its radio off in DEEP alone (R126). -/
theorem State.radioEn_of_live {s : State} (h : s.live = true) : s.radioEn = false ↔ s.pwr.power = .deep := by
  obtain ⟨hon, hpower⟩ := s.live_iff.mp h
  cases hp : s.pwr.power <;> simp_all [State.radioEn]

theorem State.hold_iff {s : State} (h : s.live = true) :
    s.hold = true ↔
      (∃ g, (s.rad.bufA = .waiting g ∧ s.rad.bufB = .assembling) ∨
        (s.rad.bufB = .waiting g ∧ s.rad.bufA = .assembling)) ∨
      (s.pwr.level ≠ .normal ∧ s.pwr.gate.holder ≠ .radio) ∨ s.spl.wantsGate = false ∨ s.pwr.power = .deep ∨
      s.pwr.cutoff = true ∨ s.pwr.gate.passing = true ∨ s.draining = true := by
  rw [State.hold, h, Bool.true_and]
  simp only [Bool.or_eq_true, Rad.heldUp_iff]
  simp only [or_assoc, Bool.and_eq_true, State.gateApplies_iff, Bool.not_eq_true',
    State.radioEn_of_live h, decide_eq_true_eq]

end Sys2Proof.Machine

namespace Sys2Proof.Proofs
open Sys2Proof Sys2Proof.Machine

/-- Settles O60: by who holds the gate once it is released, and by the asks. -/
theorem loadGateAndHold : Obligations.LoadGateAndHold := by
  refine ⟨?_, fun g s => ⟨State.withGate_same, State.withGate_other, fun release => rfl⟩,
    fun s => ⟨fun h => if_neg h, ?_, ?_⟩, fun s => ⟨fun hdead => ?_, fun hlive => ?_⟩⟩
  · intro release s g panel again radio frees free
    have hpanel : s.panelAsks = true ↔ panel := s.panelAsks_iff
    have hradio : s.spl.wantsGate = true ↔ radio := s.spl.wantsGate_iff
    have hsilent : s.spl.wantsGate = false ↔ ¬radio := by rw [← hradio, Bool.not_eq_true]
    refine ⟨State.gateAfter_normal, fun hlow => ⟨fun hfree => ?_, fun hheld hr => ?_, fun hheld hkeeps => ?_⟩⟩
    · have hg : g = _ := State.gateAfter_free hlow (s := s) (release := release)
        (State.heldAfterRelease_free (hfree.imp_right (.imp_right (.imp_right hsilent.mpr))))
      rw [hg]
      refine ⟨fun hp hr => ?_, fun hp hr => ?_, fun hp hr => ?_, fun hp hr => ?_⟩
      · rw [if_pos (hpanel.mpr hp), hradio.mpr hr]
      · rw [if_pos (hpanel.mpr hp), hsilent.mpr hr]
      · rw [if_neg (mt hpanel.mp hp), if_pos (hradio.mpr hr)]
        rfl
      · rw [if_neg (mt hpanel.mp hp), if_neg (mt hradio.mp hr)]
        rfl
    · have hg : g = _ := State.gateAfter_radio hlow (s := s) (release := release)
        (State.heldAfterRelease_radio hheld (hradio.mpr hr))
      rw [hg, hradio.mpr hr]
      refine ⟨fun hp => ?_, fun hp hframe => ?_, fun hp hframe => ?_⟩
      · exact if_neg (mt hpanel.mp hp)
      · exact (if_pos (hpanel.mpr hp)).trans (if_pos hframe)
      · exact (if_pos (hpanel.mpr hp)).trans (if_neg (by simp [hframe]))
    · have hg : g = _ := State.gateAfter_panel hlow (s := s) (release := release)
        (State.heldAfterRelease_panel hheld hkeeps)
      rw [hg]
      exact ⟨fun hr => by rw [hradio.mpr hr], fun hr => by rw [hsilent.mpr hr]⟩
  · intro hheld hr
    rw [State.releaseGate_panel hheld, if_pos (s.spl.wantsGate_iff.mpr hr)]
  · intro hheld hno
    rw [State.releaseGate_panel hheld, if_neg (mt s.spl.wantsGate_iff.mp (by simpa using hno))]
  · simp only [State.hold, hdead, Bool.false_and]
  · have hquiet : s.spl.wantsGate = false ↔ ∀ d ∈ s.spl.table, d.state = .receiving → d.removal = true := by
      rw [← Bool.not_eq_true, Spl.wantsGate_iff]
      simp
    rw [State.hold_iff hlive, hquiet]

end Sys2Proof.Proofs
end

