-- ==== Sys2Proof/Proofs/SoftReset.lean ====
section
/-! Soft Reset: the beginning of its drain and the end of it (sections 3.7, 9.7 and 10.4). -/
namespace Sys2Proof.Machine
open Sys2Proof

theorem State.draining_iff (s : State) :
    s.draining = true ↔ ∃ p, s.lnk.processing = some p ∧ p.work = .softReset := by
  cases h : s.lnk.processing <;> simp [State.draining, h]

theorem State.drained_iff (s : State) :
    s.drained = true ↔ s.draining = true ∧ s.upd.contextInUse = false ∧ s.sto.op = none := by
  simp [State.drained, and_assoc]

/-- The taking of a Soft Reset, but for the queue and for what follows in the event (R201, R76, R151). -/
theorem exec_softReset {s : State} (hopen : s.linkOpen) (tag : Byte) :
    exec (.softReset tag) s = .next
      ((State.cancelPending
        { s with
          lnk := { s.lnk with receiver := .idle, processing := some ⟨0x04#8, tag, .softReset⟩ }
          trn := { s.trn with longPress := none }
          sto := { s.sto with pending := { s.sto.pending with spooler := none } }
          spl := { s.spl with table := s.spl.table.map fun d => { d with stall := none } } }).settle true) :=
  next_take_of_linkOpen hopen _

section
variable {s : State}

/-- A drain that is over ends (R202). -/
theorem State.drainProgress_over {p : Processing} (hp : s.lnk.processing = some p) (h : s.drained = true) :
    s.drainProgress = s.drainEnd p.tag := by
  simp only [State.drainProgress, hp, h, if_true]

theorem State.drainProgress_of_not (h : s.drained = false) : s.drainProgress = s := by
  cases hp : s.lnk.processing <;> simp [State.drainProgress, hp, h]

/-- A drain that is over ends first among what follows an event. -/
theorem State.progress_drained (h : s.drained = true) : s.progress = s.drainProgress := if_pos h

end

end Sys2Proof.Machine

namespace Sys2Proof.Proofs
open Sys2Proof Sys2Proof.Machine

/-- Settles O10: by whether the drain is over. -/
theorem softResetDrainsAndResets : Obligations.SoftResetDrainsAndResets := by
  refine ⟨fun tag s hopen => exec_softReset hopen tag, ?_, fun s hnot => ?_⟩
  · intro tag s hp hctx hop ended
    have hover : s.drained = true := s.drained_iff.mpr ⟨s.draining_iff.mpr ⟨_, hp, rfl⟩, hctx, hop⟩
    have hended : s.drainProgress = ended := by
      rw [State.drainProgress_over hp hover]
      rfl
    exact ⟨congrArg Host.Outcome.next hended, (State.progress_drained hover).trans hended⟩
  · refine congrArg Host.Outcome.next (State.drainProgress_of_not (Bool.eq_false_iff.mpr fun hover => ?_))
    obtain ⟨hdrain, hctx, hop⟩ := s.drained_iff.mp hover
    obtain ⟨p, hp, -⟩ := s.draining_iff.mp hdrain
    obtain hnone | hused | hbusy := hnot
    · simp [hp] at hnone
    · simp [hctx] at hused
    · exact hbusy hop

end Sys2Proof.Proofs
end

