-- ==== Sys2Proof/Proofs/CutoffSequence.lean ====
section
/-! The cutoff sequence from its beginning to CUTOFF (section 9.6). -/
namespace Sys2Proof.Machine
open Sys2Proof

/-! ### What begins the sequence (R181, R182) -/

section
variable {s : State} {tag : Byte}

theorem exec_graceTimerExpiry {d : Nat} (h : s.pwr.graceTimer = some d) (hcut : s.pwr.cutoff = false) :
    exec .graceTimerExpiry s = .next (State.startCutoff { s with clock := max s.clock d }) := by
  show execGraceTimerExpiry s = _
  simp only [execGraceTimerExpiry, h, State.reach_pwr, hcut, Bool.false_eq_true, if_false]
  rfl

theorem exec_shutdownNow (hopen : s.linkOpen) :
    exec (.shutdownNow tag) s = .next (doShutdownNow tag s.newTransaction) := next_take_of_linkOpen hopen _

/-- Shutdown Now is refused in the cutoff sequence and where no grace timer runs (R182). -/
theorem doShutdownNow_eq :
    doShutdownNow tag s.newTransaction =
      if s.pwr.cutoff then s.refusedBy 0x92#8 tag .powerDown
      else if s.pwr.graceTimer.isNone then s.refusedBy 0x92#8 tag .noGrace
      else State.startCutoff { s with lnk := s.replied 0x92#8 tag .ok [] } := rfl

end

/-! ### The steps of the beginning (R183) -/

/-- The light and PWR's timers as the sequence begins. -/
def State.cutoffBegun (s : State) : State :=
  { s.abandonDeep with
    lgt := s.abandonDeep.lgt.forceOff
    pwr := { s.abandonDeep.pwr with cutoff := true, sleepAsked := false, graceTimer := none } }

/-- The records suspended, and what SPL does upon it. -/
def State.cutoffSpooled (s : State) : State :=
  (s.cutoffBegun.suspendAll .power).spooler (s.cutoffBegun.spl.wakesWaiting (s.cutoffBegun.suspendAll .power).spl)

/-- The queue cancelled, STO's requests withdrawn, and a Soft Reset abandoned. -/
def State.cutoffFreed (s : State) : State :=
  (s.cutoffSpooled.onUpd fun u => { u with freshWait := false }).cancelPending.withdrawStorage.abandonSoftReset

/-- A hold timer that runs expires last, and what follows an event follows (R57). -/
theorem State.startCutoff_eq (s : State) :
    s.startCutoff =
      State.settle
        (if s.cutoffFreed.upd.rails = .onIdle ∧ s.cutoffFreed.upd.holdTimer ≠ none then s.cutoffFreed.fall
        else s.cutoffFreed)
        true := by
  have hsteps : s.startCutoff =
      State.settle
        (if s.cutoffFreed.upd.onIdle && s.cutoffFreed.upd.holdTimer.isSome then s.cutoffFreed.fall
        else s.cutoffFreed)
        true := rfl
  rw [hsteps]
  simp only [Bool.and_eq_true, Upd.onIdle_iff, Option.isSome_iff_ne_none]

section
variable {s : State}

theorem State.abandonDeep_none (h : s.pwr.deepWait = none) :
    s.abandonDeep = { s with pwr := { s.pwr with deepWait := none, pendingWake := none, idleTimer := none } } :=
  if_neg (by simp [h])

/-- A DEEP entry that waits is abandoned with an examination and the arbiter (R164, R173). -/
theorem State.abandonDeep_waiting (h : s.pwr.deepWait ≠ none) :
    s.abandonDeep =
      (State.engine
        { s with pwr := { s.pwr with deepWait := none, pendingWake := none, idleTimer := none } } true).stoArbitrate :=
  if_pos (Option.isSome_iff_ne_none.mpr h)

theorem State.abandonSoftReset_draining (h : s.draining = true) :
    s.abandonSoftReset = { s with lnk := { s.lnk with processing := none } } := if_pos h

theorem State.abandonSoftReset_other (h : s.draining = false) : s.abandonSoftReset = s := if_neg (by simp [h])

/-- A storage message that is withdrawn is answered (R162, R165). -/
theorem State.withdrawStorage_answers {q : StoRequest} {p : Processing} (hq : s.sto.pending.link = some q)
    (hp : s.lnk.processing = some p) :
    s.withdrawStorage = (s.onSto Sto.withdrawAll).answer p.kind p.tag .powerDown (u32 q.page) := by
  simp only [State.withdrawStorage, hq, hp]

theorem State.withdrawStorage_silent (h : s.sto.pending.link = none ∨ s.lnk.processing = none) :
    s.withdrawStorage = s.onSto Sto.withdrawAll := by
  cases hq : s.sto.pending.link <;> cases hp : s.lnk.processing <;> simp_all [State.withdrawStorage]

/-- The pages that a record keeps at its suspension (R149). -/
theorem State.programFor_eq (s : State) (id : Byte) :
    s.programFor id =
      match s.sto.op with
      | some o => decide (o.requester = .spooler ∧ o.download = id ∧ o.kind = .program)
      | none => false := by
  cases h : s.sto.op <;> simp [State.programFor, h, Bool.and_assoc]

/-- A withdrawal reads and changes STO alone. -/
theorem State.withdrawFor_eq (s : State) (id : Byte) :
    s.withdrawFor id =
      { s with
        sto :=
          match s.sto.pending.spooler with
          | some q =>
            if q.download = id then { s.sto with pending := { s.sto.pending with spooler := none } } else s.sto
          | none => s.sto } := by
  cases h : s.sto.pending.spooler with
  | none => simp only [State.withdrawFor, h]
  | some q =>
    simp only [State.withdrawFor, h]
    split <;> rfl

end

/-- A record suspended with its first `kept` pages in its runs (R149). -/
def Download.suspended (d : Download) (why : DlFault) (kept : Nat) : Download :=
  { d with state := .suspended, fault := some why, runs := d.runsOfPages kept, stall := none }

/-- A suspension: the record keeps the pages committed and the one in program, and leaves staging and STO (R149). -/
theorem State.suspend_eq (s : State) (id : Byte) (why : DlFault) :
    s.suspend id why =
      { s with
        spl :=
          { s.spl with
            table :=
              s.spl.table.map fun d =>
                if d.id = id then d.suspended why (d.committedPages + if s.programFor id then 1 else 0) else d
            staged := s.spl.staged.filter fun g => g.id ≠ id }
        sto := (s.withdrawFor id).sto } := by
  have hkept (d : Download) (hd : d.id = id) :
      d.suspended why (s.keptPages d) = d.suspended why (d.committedPages + if s.programFor id then 1 else 0) := by
    rw [State.keptPages, hd]
  have htable :
      (s.spl.table.map fun d => if d.id = id then d.suspended why (s.keptPages d) else d) =
        s.spl.table.map fun d =>
          if d.id = id then d.suspended why (d.committedPages + if s.programFor id then 1 else 0) else d :=
    List.map_congr_left fun d _ => ite_congr rfl (hkept d) fun _ => rfl
  rw [← htable, State.suspend, State.releaseRecord, State.withdrawFor_eq, State.withdrawFor_eq]
  rfl

/-! ### A beginning that has nothing to stop -/

section
variable {s : State}

theorem State.stoArbitrate_cutoff (hcut : s.pwr.cutoff = true) : s.stoArbitrate = s := by
  have hno : ¬s.stoMayStart = true := by simp [State.stoMayStart, hcut]
  exact if_neg hno

theorem State.returnStaging_empty (hstaging : s.spl.staging = []) (hstaged : s.spl.staged = []) :
    s.returnStaging = s := by
  unfold State.returnStaging
  split
  · rfl
  · rw [hstaging, List.append_nil, ← hstaging, ← hstaged]

/-- In the cutoff sequence SPL without staging and with no segment to examine does nothing. -/
theorem State.spooler_cutoff (hcut : s.pwr.cutoff = true) (hstaging : s.spl.staging = [])
    (hstaged : s.spl.staged = []) : s.spooler false = s := by
  have hnext : s.splNext = s := State.splNext_of_held (.inr (.inr hcut))
  simp only [State.spooler, State.returnStaging_empty hstaging hstaged, hnext, Bool.false_eq_true, if_false,
    State.stoArbitrate_cutoff hcut]

theorem Spl.wakesWaiting_self {p : Spl} (h : p.table = []) : p.wakesWaiting p = false := by
  simp [Spl.wakesWaiting, h]

theorem State.cutoffSpooled_quiet (htable : s.cutoffBegun.spl.table = []) (hstaging : s.cutoffBegun.spl.staging = [])
    (hstaged : s.cutoffBegun.spl.staged = []) : s.cutoffSpooled = s.cutoffBegun := by
  have hsuspended : s.cutoffBegun.suspendAll .power = s.cutoffBegun := by
    rw [State.suspendAll, htable]
    rfl
  rw [State.cutoffSpooled, hsuspended, Spl.wakesWaiting_self htable]
  exact State.spooler_cutoff rfl hstaging hstaged

theorem State.cancelPending_nil (h : s.upd.queue = []) : s.cancelPending = s := by
  rw [State.cancelPending, h]
  show { s with upd := { s.upd with queue := [] } } = s
  rw [← h]

theorem State.withdrawStorage_none (hsto : s.sto.pending = ⟨none, none, none⟩) : s.withdrawStorage = s := by
  rw [State.withdrawStorage_silent (.inl (by rw [hsto]))]
  show { s with sto := { s.sto with pending := ⟨none, none, none⟩ } } = s
  rw [← hsto]

theorem Lgt.forceOff_undecided {l : Lgt} (h : l.decided = none) :
    l.forceOff =
      { l with
        mode := .off
        lastMode := if l.mode = .off then l.lastMode else l.mode
        target := {}
        clamped := {}
        pending := {}
        latched := {} } := by
  have hcancel : l.cancelDecided = l := by simp only [Lgt.cancelDecided, h]
  rw [Lgt.forceOff, hcancel]

end

/-- Where no DEEP entry, request, record or Soft Reset stands, the beginning stops the light and PWR's timers alone. -/
theorem State.cutoffFreed_quiet {s : State} (hdeep : s.pwr.deepWait = none) (hqueue : s.upd.queue = [])
    (hsto : s.sto.pending = ⟨none, none, none⟩) (hproc : s.lnk.processing = none) (htable : s.spl.table = [])
    (hstaging : s.spl.staging = []) (hstaged : s.spl.staged = []) (hdecided : s.lgt.decided = none) :
    s.cutoffFreed =
      { s with
        lgt :=
          { s.lgt with
            mode := .off
            lastMode := if s.lgt.mode = .off then s.lgt.lastMode else s.lgt.mode
            target := {}
            clamped := {}
            pending := {}
            latched := {} }
        upd := { s.upd with freshWait := false }
        pwr :=
          { s.pwr with
            cutoff := true
            sleepAsked := false
            deepWait := none
            pendingWake := none
            idleTimer := none
            graceTimer := none } } := by
  have habandoned := State.abandonDeep_none hdeep
  have hspooled : s.cutoffSpooled = s.cutoffBegun := by
    refine State.cutoffSpooled_quiet ?_ ?_ ?_ <;> rw [State.cutoffBegun, habandoned]
    · exact htable
    · exact hstaging
    · exact hstaged
  rw [State.cutoffFreed, hspooled, State.cutoffBegun, habandoned, State.cancelPending_nil, State.withdrawStorage_none,
    State.abandonSoftReset_other, Lgt.forceOff_undecided]
  · rfl
  · exact hdecided
  · simp [State.draining, hproc]
  · exact hsto
  · exact hqueue

/-! ### The sleep screen (R184) -/

theorem State.sleepDue_iff (s : State) :
    s.sleepDue = true ↔
      s.pwr.cutoff = true ∧ s.pwr.sleepAsked = false ∧ s.upd.contextInUse = false ∧
        (s.draining = false ∨ s.sto.op ≠ none) := by
  cases hctx : s.upd.contextInUse <;> cases hdrain : s.draining <;>
    simp [State.sleepDue, State.drained, hctx, hdrain, and_assoc, Option.isSome_iff_ne_none]

/-- The report has been acted on (R184). -/
def State.asked (s : State) : State := { s with pwr := { s.pwr with sleepAsked := true } }

section
variable {s : State} {i : Fin 16} {r : Request}

theorem State.sleepRequest_undesignated (h : s.pwr.designation = none) : s.sleepRequest = none := by
  simp only [State.sleepRequest, h]

theorem State.sleepRequest_ok (h : s.pwr.designation = some i)
    (hr : s.judgeSubmission (fullPanel .power i .full false) = .ok r) : s.sleepRequest = some r := by
  simp only [State.sleepRequest, h, hr]
  rfl

theorem State.sleepRequest_error {e : Status} (h : s.pwr.designation = some i)
    (he : s.judgeSubmission (fullPanel .power i .full false) = .error e) : s.sleepRequest = none := by
  simp only [State.sleepRequest, h, he]
  rfl

/-- Admission does not read whether the report has been acted on. -/
theorem State.asked_judgeSubmission (s : State) (b : Submission) :
    s.asked.judgeSubmission b = s.judgeSubmission b := rfl

theorem State.asked_sleepRequest (s : State) : s.asked.sleepRequest = s.sleepRequest := by
  simp only [State.sleepRequest, State.asked_judgeSubmission]
  rfl

/-- The sleep screen is submitted where admission takes it (R70, R184). -/
theorem State.submitSleep_eq (s : State) : s.submitSleep = s.sleepRequest.elim s.asked s.asked.enterQueue := by
  rw [← State.asked_sleepRequest]
  show (match s.asked.sleepRequest with | none => s.asked | some r => s.asked.enterQueue r) = _
  cases s.asked.sleepRequest <;> simp only [Option.elim_none, Option.elim_some]

theorem State.sleepScreen_eq (s : State) :
    s.sleepScreen = s.sleepRequest.elim s.asked fun r => (s.asked.enterQueue r).engine true := by
  rw [← State.asked_sleepRequest]
  show (match s.asked.sleepRequest with | none => s.asked | some r => (s.asked.enterQueue r).engine true) = _
  cases s.asked.sleepRequest <;> simp only [Option.elim_none, Option.elim_some]

theorem State.settle_due (h : s.sleepDue = true) (check : Bool) :
    s.settle check = (s.submitSleep.engine check).progress := by
  rw [State.settle, if_pos h]

theorem State.settle_notDue (h : ¬s.sleepDue = true) (check : Bool) : s.settle check = (s.engine check).progress := by
  rw [State.settle, if_neg h]

end

/-! ### The reports, and CUTOFF (R184, R185) -/

/-- Every report of the sequence has been made. -/
theorem State.cutoffDue_iff (s : State) :
    s.cutoffDue = true ↔
      s.pwr.cutoff = true ∧ s.pwr.sleepAsked = true ∧ s.upd.rails = .off ∧ s.upd.work = false ∧ s.upd.queue = [] ∧
        s.sto.op = none ∧ s.draining = false := by
  cases hctx : s.upd.contextInUse <;> cases hop : s.sto.op <;>
    simp [State.cutoffDue, State.drained, Upd.railsOff, Upd.work, hctx, hop, and_assoc]

/-- The part enters CUTOFF once every report has been made. -/
def State.reported (s : State) : State := if s.cutoffDue then s.enterCutoff else s

section
variable {s : State}

theorem State.not_drained (h : s.draining = false ∨ s.upd.contextInUse = true ∨ s.sto.op ≠ none) :
    ¬s.drained = true := by
  rw [State.drained_iff]
  rintro ⟨hdrain, hctx, hop⟩
  obtain h | h | h := h
  · simp [hdrain] at h
  · simp [hctx] at h
  · exact h hop

theorem State.progress_cutoff (hcut : s.pwr.cutoff = true) (h : ¬s.drained = true) : s.progress = s.cutoffProgress := by
  rw [State.progress, if_neg h, if_pos hcut]

theorem State.cutoffProgress_due (h : s.sleepDue = true) : s.cutoffProgress = s.sleepScreen.reported := by
  rw [State.cutoffProgress, if_pos h]
  rfl

theorem State.cutoffProgress_notDue (h : ¬s.sleepDue = true) : s.cutoffProgress = s.reported := by
  rw [State.cutoffProgress, if_neg h]
  rfl

theorem exec_sleepScreenRequest_due (hlive : s.live = true) (h : s.sleepDue = true) :
    exec .sleepScreenRequest s = .next s.cutoffProgress :=
  congrArg Host.Outcome.next (if_pos (by rw [hlive, h, Bool.and_self]))

theorem exec_sleepScreenRequest_notDue (h : s.sleepDue = false) : exec .sleepScreenRequest s = .next s :=
  congrArg Host.Outcome.next (if_neg (by simp [h]))

theorem exec_cutoffEntry_due (hlive : s.live = true) (h : s.cutoffDue = true) :
    exec .cutoffEntry s = .next s.enterCutoff :=
  congrArg Host.Outcome.next (if_pos (by rw [hlive, h, Bool.and_self]))

theorem exec_cutoffEntry_notDue (h : s.cutoffDue = false) : exec .cutoffEntry s = .next s :=
  congrArg Host.Outcome.next (if_neg (by simp [h]))

/-- The state of every block is lost at CUTOFF; the input pins keep their levels (R185). -/
theorem State.enterCutoff_eq (s : State) :
    s.enterCutoff =
      { clock := s.clock
        freeUsed := s.freeUsed
        sns := { powered := false }
        lgt := { nextBoundary := none }
        trn := { keys := s.trn.keys.map fun k => { input := k.input } }
        sto := { srdy := s.sto.srdy }
        lnk := { receiver := s.lnk.receiver.abandoned }
        pwr :=
          { power := .cutoff
            chargerInput := s.pwr.chargerInput
            chargerFilter := if s.pwr.chargerInput then some (s.clock + 80000) else none }
        pending := s.pending } := by
  rw [State.enterCutoff, State.lost]
  simp only [true_and]
  rfl

/-- In CUTOFF nothing is driven (R185). -/
theorem State.outputsOff_of_cutoff (h : s.pwr.power = .cutoff) : s.outputsOff := by
  simp [State.outputsOff, State.ready, State.attn, State.railen, State.radioEn, State.hold, State.ledw, State.ledc,
    State.lineOn, State.live, h]

theorem State.linkOn_of_cutoff (h : s.pwr.power = .cutoff) : s.linkOn = false := by simp [State.linkOn, h]

end

end Sys2Proof.Machine

namespace Sys2Proof.Proofs
open Sys2Proof Sys2Proof.Machine

/-- Settles O59: by what begins the sequence, by its steps, and by the reports that it waits for. -/
theorem cutoffSequenceRunsToCutoff : Obligations.CutoffSequenceRunsToCutoff := by
  refine ⟨fun s => ⟨fun d => exec_graceTimerExpiry, fun hopen tag => ?_⟩, ?_, ?_, ?_, ?_, ?_, ?_, ?_, ?_⟩
  · rw [exec_shutdownNow hopen, doShutdownNow_eq]
    refine ⟨fun hcut => ?_, fun hcut hgrace => ?_, fun hcut hgrace => ?_⟩
    · rw [if_pos hcut]
    · rw [if_neg (by simp [hcut]), if_pos (by simp [hgrace])]
    · rw [if_neg (by simp [hcut]), if_neg (by simpa using hgrace)]
  · intro s begun held spooled cancelled freed
    have hheld : held = s.cutoffBegun.suspendAll .power := rfl
    have hspooled : spooled = s.cutoffSpooled := by
      rw [State.cutoffSpooled, ← hheld]
      rfl
    have hfreed : freed = s.cutoffFreed := by
      rw [State.cutoffFreed, ← hspooled]
      rfl
    rw [State.startCutoff_eq, ← hfreed, State.fall_eq]
  · intro s alone
    refine ⟨State.abandonDeep_none, State.abandonDeep_waiting, rfl, State.abandonSoftReset_draining,
      State.abandonSoftReset_other, fun q p => State.withdrawStorage_answers, State.withdrawStorage_silent, rfl, ?_⟩
    intro id why programs
    rw [State.suspend_eq, State.withdrawFor_eq, State.programFor_eq]
    rfl
  · intro s hdeep hqueue hsto hproc htable hstaging hstaged hwaits hdecided htimer
    rw [State.startCutoff_eq, State.cutoffFreed_quiet hdeep hqueue hsto hproc htable hstaging hstaged hdecided]
    exact congrArg (State.settle · true) (if_neg fun h => h.2 htimer)
  · intro check s due asked
    refine ⟨fun hnot => State.settle_notDue (mt s.sleepDue_iff.mp hnot) check, fun hdue => ?_⟩
    rw [State.settle_due (s.sleepDue_iff.mpr hdue), State.submitSleep_eq]
    refine ⟨fun hnone => ?_, fun i hi => ⟨fun r hr => ?_, fun e he => ?_⟩⟩
    · rw [State.sleepRequest_undesignated hnone, Option.elim_none]
      rfl
    · rw [State.sleepRequest_ok hi hr, Option.elim_some]
      rfl
    · rw [State.sleepRequest_error hi he, Option.elim_none]
      rfl
  · intro s reported
    refine ⟨s.cutoffDue_iff, fun p hp hwork hctx hop => ?_, fun hcut hopen hnot hasked => ?_⟩
    · have hover : s.drained = true := s.drained_iff.mpr ⟨s.draining_iff.mpr ⟨p, hp, hwork⟩, hctx, hop⟩
      rw [State.progress_drained hover, State.drainProgress_over hp hover]
    · have hdue : ¬s.sleepDue = true := by
        rw [State.sleepDue_iff]
        rintro ⟨-, hquiet, hfree, -⟩
        obtain hasked | hasked := hasked
        · simp [hquiet] at hasked
        · simp [hfree] at hasked
      rw [State.progress_cutoff hcut (State.not_drained hopen), State.cutoffProgress_notDue hdue, State.reported,
        if_neg (mt s.cutoffDue_iff.mp hnot)]
  · intro s hlive hcut hquiet hctx hopen asked reported
    have hdue : s.sleepDue = true := s.sleepDue_iff.mpr ⟨hcut, hquiet, hctx, hopen⟩
    have hprogress : s.progress = s.cutoffProgress :=
      State.progress_cutoff hcut (State.not_drained (hopen.imp_right .inr))
    rw [hprogress]
    refine ⟨exec_sleepScreenRequest_due hlive hdue, ?_⟩
    rw [State.cutoffProgress_due hdue, State.sleepScreen_eq]
    refine ⟨fun hnone => ?_, fun i hi => ⟨fun r hr => ?_, fun e he => ?_⟩⟩
    · rw [State.sleepRequest_undesignated hnone, Option.elim_none]
      rfl
    · rw [State.sleepRequest_ok hi hr, Option.elim_some]
      rfl
    · rw [State.sleepRequest_error hi he, Option.elim_none]
      rfl
  · intro s hlive hcut hctx hop hdrain
    have hover : s.drained = true := s.drained_iff.mpr ⟨hdrain, hctx, hop⟩
    exact ⟨exec_sleepScreenRequest_notDue (by simp [State.sleepDue, hover]),
      exec_cutoffEntry_notDue (by simp [State.cutoffDue, hover])⟩
  · intro s hlive hcut hasked hrails hwork hqueue hop hdrain gone
    have hdue : s.cutoffDue = true := s.cutoffDue_iff.mpr ⟨hcut, hasked, hrails, hwork, hqueue, hop, hdrain⟩
    have hgone : s.enterCutoff = gone := s.enterCutoff_eq
    have hquiet : ¬s.sleepDue = true := by simp [State.sleepDue, hasked]
    refine ⟨(exec_cutoffEntry_due hlive hdue).trans (congrArg _ hgone), ?_, State.outputsOff_of_cutoff rfl,
      State.linkOn_of_cutoff rfl⟩
    rw [State.progress_cutoff hcut (State.not_drained (.inl hdrain)), State.cutoffProgress_notDue hquiet,
      State.reported, if_pos hdue, hgone]

end Sys2Proof.Proofs
end

