-- ==== Sys2Proof/Proofs/KeysAndPresses.lean ====
section
/-! Keys: the debounce, the captures and what an accepted press does (sections 4.1, 4.2 and 6.3). -/
namespace Sys2Proof.Machine
open Sys2Proof

/-! ### One key's record -/

@[simp] theorem PerKey.get_set {α : Type} (p : PerKey α) (k : Key) (a : α) : (p.set k a).get k = a := by
  cases k <;> rfl

@[simp] theorem PerKey.set_set {α : Type} (p : PerKey α) (k : Key) (a b : α) : (p.set k a).set k b = p.set k b := by
  cases k <;> rfl

/-- One key's record replaced. -/
def State.withKey (s : State) (k : Key) (r : KeyRec) : State :=
  { s with trn := { s.trn with keys := s.trn.keys.set k r } }

theorem State.onKey_eq (s : State) (k : Key) (f : KeyRec → KeyRec) :
    (s.onTrn fun t => t.onKey k f) = s.withKey k (f (s.trn.keys.get k)) := rfl

@[simp] theorem State.withKey_get (s : State) (k : Key) (r : KeyRec) : (s.withKey k r).trn.keys.get k = r :=
  PerKey.get_set ..

@[simp] theorem State.withKey_withKey (s : State) (k : Key) (r q : KeyRec) :
    (s.withKey k r).withKey k q = s.withKey k q := by simp [State.withKey]

/-- A soft reset's drain is LNK's, and no key moves it. -/
@[simp] theorem State.withKey_draining (s : State) (k : Key) (r : KeyRec) : (s.withKey k r).draining = s.draining := rfl

/-! ### The debounce (R71) -/

section
variable {s : State} {k : Key} {d : Nat}

/-- A change of a key's input while the debounce runs (R71). -/
theorem exec_keyInputChange {pressed : Bool} (hlive : s.live = true) (hinput : (s.trn.keys.get k).input ≠ pressed) :
    exec (.keyInputChange k pressed) s = .next
      (s.withKey k ((s.trn.keys.get k).inputMoves pressed (s.clock + 80000))) := by
  show execKeyInputChange k pressed s = _
  simp only [execKeyInputChange, if_neg hinput, hlive, if_true]
  rfl

/-- The settle timer of a press expires: the press is accepted (R71). -/
theorem exec_keyPress (hlive : s.live = true) (hsettling : (s.trn.keys.get k).debounce = .pressSettling)
    (htimer : (s.trn.keys.get k).settle = some d) : exec (.keyPress k) s = .next ((s.reach d).pressAccepted k) := by
  show execKeyPress k s = _
  simp only [execKeyPress, hsettling, htimer, hlive, if_true]

/-- The settle timer of a release expires: the release is accepted (R71). -/
theorem exec_keyRelease (hlive : s.live = true) (hsettling : (s.trn.keys.get k).debounce = .releaseSettling)
    (htimer : (s.trn.keys.get k).settle = some d) :
    exec (.keyRelease k) s = .next ((s.reach d).releaseAccepted k) := by
  show execKeyRelease k s = _
  simp only [execKeyRelease, hsettling, htimer, hlive, if_true]

theorem exec_powerLongPress (hlive : s.live = true) (htimer : s.trn.longPress = some d) :
    exec .powerLongPress s = .next ((s.reach d).powerKey .long) := by
  show execPowerLongPress s = _
  simp only [execPowerLongPress, htimer, hlive, if_true]

end

/-- A key's record once its press is accepted, but for the capture (R71). -/
def KeyRec.pressed (r : KeyRec) : KeyRec := { r with debounce := .pressed, settle := none }

/-- A key's record once its release is accepted (R71). -/
def KeyRec.released (r : KeyRec) : KeyRec := { r with debounce := .released, settle := none }

section
variable {s : State} {k : Key}

/-- In the drain of a soft reset a press only moves the debounce (R76). -/
theorem State.pressAccepted_draining (h : s.draining = true) :
    s.pressAccepted k = s.withKey k (s.trn.keys.get k).pressed := if_pos h

/-- A release that ends no press of POWER only moves the debounce (R71). -/
theorem State.releaseAccepted_other (h : k ≠ .power ∨ s.trn.longPress = none) :
    s.releaseAccepted k = s.withKey k (s.trn.keys.get k).released := by
  refine if_neg fun ⟨hk, htimer⟩ => ?_
  have hruns : s.trn.longPress ≠ none := Option.isSome_iff_ne_none.mp htimer
  exact h.elim (· hk) hruns

/-- A release of POWER with the long-press timer running is a SHORT press (R74). -/
theorem State.releaseAccepted_short (hk : k = .power) (h : s.trn.longPress ≠ none) :
    s.releaseAccepted k = (s.withKey k (s.trn.keys.get k).released).powerKey .short :=
  if_pos ⟨hk, Option.isSome_iff_ne_none.mpr h⟩

end

/-! ### The capture, and the report to PWR (R72, R76) -/

/-- A press is accepted and captured (R72). -/
def State.captured (s : State) (k : Key) : State := s.withKey k ((s.trn.keys.get k).pressed.capture s.nowMs)

/-- A press is reported to PWR: it starts the deep-idle timer again, and is a wake source (R76, R173, R174). -/
def State.pressReported (s : State) : State := s.idleRestart.wakeBy .key

/-- Outside a soft reset's drain a press is captured, then reported, then acted on (R72, R76). -/
theorem State.pressAccepted_eq {s : State} (h : s.draining = false) (k : Key) :
    s.pressAccepted k = (s.captured k).pressReported.keyAction k := by
  simp only [State.pressAccepted, State.onKey_eq, State.withKey_draining, h, State.withKey_get,
    State.withKey_withKey]
  rfl

/-- A running deep-idle timer starts again from the full time (R174). -/
theorem State.idleRestart_eq (s : State) :
    s.idleRestart =
      { s with
        pwr := { s.pwr with idleTimer := s.pwr.idleTimer.map fun _ => s.clock + s.pwr.deepIdle * 4000000 } } := by
  cases h : s.pwr.idleTimer <;> simp [State.idleRestart, State.onPwr, State.after, Config.perS, h]

/-- In DEEP the report takes the part to DOZE; while a DEEP entry waits, the first wake is kept (R173, R176). -/
theorem State.pressReported_eq (s : State) :
    s.pressReported =
      if s.pwr.power = .deep then s.idleRestart.leaveDeep .doze .key
      else
        { s.idleRestart with
          pwr :=
            { s.idleRestart.pwr with
              pendingWake :=
                if s.pwr.deepWait = none then s.pwr.pendingWake else s.pwr.pendingWake.or (some .key) } } := by
  split
  · exact State.wakeBy_deep (s := s.idleRestart) ‹_› .key
  · exact State.wakeBy_awake (s := s.idleRestart) ‹_› .key

/-- In ACTIVE the report changes nothing: no DEEP entry waits, and the deep-idle timer does not run. -/
theorem State.pressReported_active {s : State} (hactive : s.pwr.power = .active) (hwait : s.pwr.deepWait = none)
    (htimer : s.pwr.idleTimer = none) : s.pressReported = s := by
  rw [State.pressReported_eq, if_neg (by simp [hactive]), if_pos hwait, State.idleRestart_eq, htimer, Option.map_none,
    ← htimer]

/-! ### The key's action (R74, R75, R77, R116) -/

section
variable {s : State}

/-- A press of POWER starts the long-press timer (R74). -/
theorem State.keyAction_power :
    s.keyAction .power = { s with trn := { s.trn with longPress := some (s.clock + 12000000) } } := rfl

/-- A press of LIGHT toggles the light outside the cutoff sequence, and raises LIGHT_KEY (R75, R124). -/
theorem State.keyAction_light :
    s.keyAction .light =
      State.idleFollow
        { s with
          lgt := if s.pwr.cutoff = true then s.lgt else s.lgt.toggle
          lnk := { s.lnk with notices := s.lnk.notices ||| 0x8000#16 } } := by
  show State.lightKey s = _
  unfold State.lightKey
  split <;> rfl

/-- A press of a turn key routed to REPORT raises KEY_REPORT (R77). -/
theorem State.keyAction_report {k : Key}
    (h : (k = .forward ∧ s.trn.forwardRouting = .report) ∨ (k = .backward ∧ s.trn.backwardRouting = .report)) :
    s.keyAction k = { s with lnk := { s.lnk with notices := s.lnk.notices ||| 0x0004#16 } } := by
  obtain ⟨rfl, h⟩ | ⟨rfl, h⟩ := h <;> exact if_neg (by simp [h])

theorem State.keyAction_forwardTurn (h : s.trn.forwardRouting = .turns) : s.keyAction .forward = s.forwardTurn :=
  if_pos h

theorem State.keyAction_backwardTurn (h : s.trn.backwardRouting = .turns) : s.keyAction .backward = s.backwardTurn :=
  if_pos h

/-- In ACTIVE the deep-idle timer stays stopped (R174). -/
theorem State.idleFollow_active (hactive : s.pwr.power = .active) (htimer : s.pwr.idleTimer = none) :
    s.idleFollow = s := by
  have hstopped : s.idleAfter = s.pwr.idleTimer := by simp [State.idleAfter, State.mayIdle, hactive, htimer]
  rw [State.idleFollow, hstopped]
  rfl

theorem State.keyAction_light_active (hactive : s.pwr.power = .active) (hcut : s.pwr.cutoff = false)
    (htimer : s.pwr.idleTimer = none) :
    s.keyAction .light =
      { s with lgt := s.lgt.toggle, lnk := { s.lnk with notices := s.lnk.notices ||| 0x8000#16 } } := by
  rw [State.keyAction_light, hcut]
  exact State.idleFollow_active hactive htimer

end

/-- A toggle from a mode that is not OFF: no brightness is in use in OFF, and no duty to clamp (R116). -/
theorem Lgt.toggle_on {l : Lgt} (h : l.mode ≠ .off) :
    l.toggle = { l with lastMode := l.mode, mode := .off, target := ⟨0, 0⟩, clamped := ⟨0, 0⟩ } := by
  have htarget : splitDuty 0 l.mix = ⟨0, 0⟩ := by simp [splitDuty]
  have hclamped : (⟨0, 0⟩ : Duty).clampTo l.ceiling = ⟨0, 0⟩ := if_neg (Nat.not_lt_zero _)
  unfold Lgt.toggle
  split
  · contradiction
  · simp only [Lgt.retarget, Lgt.inUse, htarget, hclamped]

/-- A toggle from OFF brings the last mode back (R116). -/
theorem Lgt.toggle_off {l : Lgt} (h : l.mode = .off) :
    l.toggle = Lgt.retarget { l with mode := l.lastMode, firstSample := true } := by
  simp only [Lgt.toggle, h]

end Sys2Proof.Machine

namespace Sys2Proof.Proofs
open Sys2Proof Sys2Proof.Machine

/-- Settles O39: the press is captured and reported, and then each key has its action; in ACTIVE the report changes
nothing. -/
theorem acceptedPressActsByItsKey : Obligations.AcceptedPressActsByItsKey := by
  refine ⟨?_, fun l => ⟨Lgt.toggle_on, Lgt.toggle_off⟩⟩
  · intro k d s hlive hdrain hsettling htimer now r captured answer
    have hcaptured : (s.reach d).captured k = captured := rfl
    have hanswer : answer = .next (captured.pressReported.keyAction k) := by
      rw [← hcaptured, ← State.pressAccepted_eq (s := s.reach d) hdrain]
      exact exec_keyPress hlive hsettling htimer
    refine ⟨fun hactive hcut hwait hidle => ?_, ?_⟩
    · have hquiet : captured.pressReported = captured := State.pressReported_active hactive hwait hidle
      have hacts {t : State} (h : captured.keyAction k = t) : answer = .next t := by rw [hanswer, hquiet, h]
      refine ⟨?_, ?_, fun hroute => hacts (State.keyAction_report hroute), ?_, ?_⟩
      · rintro rfl
        exact hacts State.keyAction_power
      · rintro rfl
        exact hacts (State.keyAction_light_active hactive hcut hidle)
      · rintro rfl hroute
        exact hacts (State.keyAction_forwardTurn hroute)
      · rintro rfl hroute
        exact hacts (State.keyAction_backwardTurn hroute)
    · intro restarted reported
      have hrestarted : captured.idleRestart = restarted := State.idleRestart_eq captured
      have hreported : captured.pressReported = reported := by
        rw [State.pressReported_eq, hrestarted]
      have hacts {t : State} (h : reported.keyAction k = t) : answer = .next t := by rw [hanswer, hreported, h]
      clear_value reported
      refine ⟨?_, ?_, ?_, ?_⟩
      · rintro rfl
        exact hacts State.keyAction_power
      · rintro rfl
        exact hacts State.keyAction_light
      · rintro rfl
        exact ⟨fun hroute => hacts (State.keyAction_report (.inl ⟨rfl, hroute⟩)),
          fun hroute => hacts (State.keyAction_forwardTurn hroute)⟩
      · rintro rfl
        exact ⟨fun hroute => hacts (State.keyAction_report (.inr ⟨rfl, hroute⟩)),
          fun hroute => hacts (State.keyAction_backwardTurn hroute)⟩

/-- Settles O40: by the debounce state at a change of the input, and by the timer that expires. -/
theorem keyDebounceAndReleases : Obligations.KeyDebounceAndReleases := by
  refine ⟨?_, fun k d s hlive hdrain hsettling htimer => ?_,
    fun k d s hlive => ⟨fun hsettling htimer => ?_, fun htimer => ?_⟩⟩
  · intro k pressed s hlive hinput r becomes answer
    have hanswer : answer = becomes (r.inputMoves pressed (s.clock + 80000)) := exec_keyInputChange hlive hinput
    rw [hanswer]
    refine ⟨?_, ?_, ?_, ?_⟩
    all_goals
      rintro hstate rfl
      simp only [KeyRec.inputMoves, hstate]
  · rw [exec_keyPress hlive hsettling htimer, State.pressAccepted_draining (s := s.reach d) hdrain]
    rfl
  · rw [exec_keyRelease hlive hsettling htimer]
    refine ⟨fun hother => ?_, fun hk hruns => ?_⟩
    · rw [State.releaseAccepted_other (s := s.reach d) hother]
      rfl
    · rw [State.releaseAccepted_short (s := s.reach d) hk hruns]
      rfl
  · rw [exec_powerLongPress hlive htimer]
    rfl

end Sys2Proof.Proofs
end

