-- ==== Sys2Proof/Proofs/TurnMessages.lean ====
section
/-! Turn Push, Turn Withdraw, Turn Sync, Turn Settings and Key Status (sections 4.1 and 4.3). -/
namespace Sys2Proof.Machine
open Sys2Proof

/-! ### Operands -/

theorem turnListOf_eq_none_iff (b : Byte) : turnListOf b = none ↔ 1 < b.toNat := by
  match h : b.toNat with
  | 0 | 1 | n + 2 => simp [turnListOf, h]

theorem routingOf_eq_none_iff (b : Byte) : routingOf b = none ↔ 1 < b.toNat := by
  match h : b.toNat with
  | 0 | 1 | n + 2 => simp [routingOf, h]

/-- No slot id is the byte of an absent one. -/
theorem slotByte_ne_absent (i : Fin 16) : slotByte i ≠ 0xFF#8 := by
  intro h
  simpa [h, designationOf_none] using designationOf_slotByte i

theorem TurnList.limit_eq (l : TurnList) : l.limit = if l = .forward then 4 else 2 := by cases l <;> rfl

theorem TurnList.code_eq (l : TurnList) : u8 l.code = [if l = .forward then 0#8 else 1#8] := by cases l <;> rfl

/-! ### The slot that a place of TRN takes (R79 tests 2 to 4) -/

theorem Slot.fullPanel_iff (x : Slot) : x.fullPanel = true ↔ x.width = 1280 ∧ x.height = 1600 := by
  simp only [Slot.fullPanel, Bool.and_eq_true, decide_eq_true_eq]
  rfl

section
variable {x : Slot}

theorem Slot.judgeTake_releasing (h : x.state = .releasing) : x.judgeTake = some .slotBusy := if_pos h

theorem Slot.judgeTake_state (hnot : x.state ≠ .releasing) (h : x.state ≠ .ready ∨ x.owner ≠ .host) :
    x.judgeTake = some .slotState :=
  (if_neg hnot).trans (if_pos h)

/-- A READY slot of the host's is judged by its size. -/
theorem Slot.judgeTake_ready (hstate : x.state = .ready) (howner : x.owner = .host) :
    x.judgeTake = if x.fullPanel = false then some .notFullPanel else none := by
  simp [Slot.judgeTake, hstate, howner]

theorem Slot.judgeTake_small (hstate : x.state = .ready) (howner : x.owner = .host)
    (hsize : x.width ≠ 1280 ∨ x.height ≠ 1600) : x.judgeTake = some .notFullPanel := by
  have hsmall : x.fullPanel = false := by
    rw [← Bool.not_eq_true, Slot.fullPanel_iff, Decidable.not_and_iff_not_or_not]
    exact hsize
  rw [Slot.judgeTake_ready hstate howner, if_pos hsmall]

theorem Slot.judgeTake_ok (hstate : x.state = .ready) (howner : x.owner = .host) (hw : x.width = 1280)
    (hh : x.height = 1600) : x.judgeTake = none := by
  have hfull : x.fullPanel = true := x.fullPanel_iff.mpr ⟨hw, hh⟩
  rw [Slot.judgeTake_ready hstate howner, if_neg (by simp [hfull])]

end

section
variable {s : State} {tag slot list : Byte} {pageTag : U32} {i : Fin 16} {l : TurnList}

/-! ### Turn Push (R79) -/

theorem exec_turnPush (hopen : s.linkOpen) :
    exec (.turnPush tag slot list pageTag) s = .next (doTurnPush tag slot list pageTag s.newTransaction) :=
  next_take_of_linkOpen hopen _

/-- Turn Push's test 1 (R79). -/
theorem doTurnPush_bad (h : slotOf slot = none ∨ turnListOf list = none) :
    doTurnPush tag slot list pageTag s.newTransaction = s.refusedBy 0x40#8 tag .badParam := by
  unfold doTurnPush
  split
  · simp_all
  · rfl

/-- Turn Push's tests 2 to 4, which are the slot's (R79). -/
theorem doTurnPush_refused {e : Status} (hl : turnListOf list = some l) (he : s.mem.slots[i].judgeTake = some e) :
    doTurnPush tag (slotByte i) list pageTag s.newTransaction = s.refusedBy 0x40#8 tag e := by
  simp only [doTurnPush, slotOf_slotByte, hl, State.newTransaction_mem, he, State.newTransaction_refuse]

/-- Turn Push's test 5, and the push (R79). -/
theorem doTurnPush_taken (hl : turnListOf list = some l) (he : s.mem.slots[i].judgeTake = none) :
    doTurnPush tag (slotByte i) list pageTag s.newTransaction =
      if l.limit ≤ (s.trn.list l).length then s.refusedBy 0x40#8 tag .listFull
      else
        { s with
          mem := s.mem.setOwner i .turn (some pageTag)
          trn := s.trn.setList l (s.trn.list l ++ [⟨i, pageTag⟩])
          lnk := s.replied 0x40#8 tag .ok [BitVec.ofNat 8 ((s.trn.list l).length + 1)] } := by
  simp only [doTurnPush, slotOf_slotByte, hl, State.newTransaction_mem, he]
  rfl

/-! ### Turn Withdraw (R80) -/

theorem exec_turnWithdraw (hopen : s.linkOpen) :
    exec (.turnWithdraw tag slot) s = .next (doTurnWithdraw tag slot s.newTransaction) :=
  next_take_of_linkOpen hopen _

theorem doTurnWithdraw_bad (h : slotOf slot = none) :
    doTurnWithdraw tag slot s.newTransaction = s.refusedBy 0x41#8 tag .badParam := by
  simp only [doTurnWithdraw, h, State.newTransaction_refuse]

theorem doTurnWithdraw_releasing (h : s.mem.slots[i].state = .releasing) :
    doTurnWithdraw tag (slotByte i) s.newTransaction = s.refusedBy 0x41#8 tag .slotBusy := by
  simp only [doTurnWithdraw, slotOf_slotByte, State.newTransaction_mem, h, if_true, State.newTransaction_refuse]

theorem doTurnWithdraw_unlisted (h : s.mem.slots[i].state ≠ .releasing) (hnone : s.trn.listed i = none) :
    doTurnWithdraw tag (slotByte i) s.newTransaction = s.refusedBy 0x41#8 tag .slotState := by
  simp only [doTurnWithdraw, slotOf_slotByte, State.newTransaction_mem, h, if_false, State.newTransaction_trn, hnone,
    State.newTransaction_refuse]

/-- A listed slot leaves its list, and its owner is the host (R80). -/
theorem doTurnWithdraw_listed {e : Entry} (h : s.mem.slots[i].state ≠ .releasing)
    (he : s.trn.listed i = some (l, e)) :
    doTurnWithdraw tag (slotByte i) s.newTransaction =
      { s with
        mem := s.mem.setOwner i .host none
        trn := s.trn.setList l ((s.trn.list l).filter fun e => e.slot ≠ i)
        lnk := s.replied 0x41#8 tag .ok (u8 l.code ++ le32 e.tag) } := by
  simp only [doTurnWithdraw, slotOf_slotByte, State.newTransaction_mem, h, if_false, State.newTransaction_trn, he]
  rfl

/-! ### Turn Sync (R81) -/

/-- MEM once the slot that was current is the host's (R81). -/
def State.currentGiven (s : State) : Mem := s.mem.owned .host (s.trn.current.map Entry.slot)

/-- The state that an accepted Turn Sync leaves (R81). -/
def State.synced (s : State) (tag : Byte) (m : Mem) (c : Option Entry) : State :=
  { s with mem := m, trn := { s.trn with current := c, position := 0 }, lnk := s.replied 0x42#8 tag .ok [] }

theorem State.releaseCurrent_eq (s : State) : s.releaseCurrent = { s with mem := s.currentGiven } := by
  cases h : s.trn.current <;> simp only [State.releaseCurrent, State.currentGiven, h] <;> rfl

/-- A change of owner is one slot's alone. -/
theorem Mem.owned_other_slot (m : Mem) (o : Owner) {d : Option (Fin 16)} {i : Fin 16} (h : d ≠ some i) :
    (m.owned o d).slots[i] = m.slots[i] := by
  cases d with
  | none => rfl
  | some j =>
    have hne : (j : Nat) ≠ i := fun he => h (congrArg some (Fin.ext he))
    simp [Mem.owned, Mem.setOwner, hne]

theorem exec_turnSync (hopen : s.linkOpen) :
    exec (.turnSync tag slot pageTag) s = .next (doTurnSync tag slot pageTag s.newTransaction) :=
  next_take_of_linkOpen hopen _

theorem doTurnSync_bad (hne : slot ≠ 0xFF#8) (h : slotOf slot = none) :
    doTurnSync tag slot pageTag s.newTransaction = s.refusedBy 0x42#8 tag .badParam := by
  simp only [doTurnSync, hne, if_false, h, State.newTransaction_refuse]

theorem doTurnSync_none :
    doTurnSync tag 0xFF#8 pageTag s.newTransaction = s.synced tag s.currentGiven none := by
  rw [doTurnSync, if_pos rfl, State.releaseCurrent_eq]
  rfl

theorem doTurnSync_slot :
    doTurnSync tag (slotByte i) pageTag s.newTransaction = s.newTransaction.syncSlot tag i pageTag := by
  simp only [doTurnSync, slotByte_ne_absent, if_false, slotOf_slotByte]

theorem State.syncSlot_releasing (h : s.mem.slots[i].state = .releasing) :
    s.newTransaction.syncSlot tag i pageTag = s.refusedBy 0x42#8 tag .slotBusy := if_pos h

/-- The current slot named again keeps its place (R81). -/
theorem State.syncSlot_again (h : s.mem.slots[i].state ≠ .releasing)
    (hcurrent : s.trn.current.map Entry.slot = some i) :
    s.newTransaction.syncSlot tag i pageTag =
      s.synced tag (s.mem.setOwner i .turn (some pageTag)) (some ⟨i, pageTag⟩) :=
  (if_neg h).trans (if_pos hcurrent)

section
variable (h : s.mem.slots[i].state ≠ .releasing) (hother : s.trn.current.map Entry.slot ≠ some i)
include h hother

/-- Another slot is judged as Turn Push judges it (R81). -/
theorem State.syncSlot_refused {e : Status} (he : s.mem.slots[i].judgeTake = some e) :
    s.newTransaction.syncSlot tag i pageTag = s.refusedBy 0x42#8 tag e := by
  refine (if_neg h).trans ((if_neg hother).trans ?_)
  simp only [State.newTransaction_mem, he, State.newTransaction_refuse]

/-- Another slot that passes takes the place of the one that was current (R81). -/
theorem State.syncSlot_other (he : s.mem.slots[i].judgeTake = none) :
    s.newTransaction.syncSlot tag i pageTag =
      s.synced tag (s.currentGiven.setSlot i { s.mem.slots[i] with owner := .turn, tag := some pageTag })
        (some ⟨i, pageTag⟩) := by
  rw [← Mem.owned_other_slot s.mem .host hother]
  refine (if_neg h).trans ((if_neg hother).trans ?_)
  simp only [State.newTransaction_mem, he, State.releaseCurrent_eq]
  rfl

end

end

/-! ### Turn Settings (R82) -/

section
variable {s : State} {tag k low f b : Byte} {rf rb : Routing}

theorem exec_turnSettings (hopen : s.linkOpen) :
    exec (.turnSettings tag k low f b) s = .next (doTurnSettings tag k low f b s.newTransaction) :=
  next_take_of_linkOpen hopen _

theorem doTurnSettings_unknown (h : routingOf f = none ∨ routingOf b = none) :
    doTurnSettings tag k low f b s.newTransaction = s.refusedBy 0x43#8 tag .badParam := by
  unfold doTurnSettings
  split
  · simp_all
  · rfl

theorem doTurnSettings_eq (hf : routingOf f = some rf) (hb : routingOf b = some rb) :
    doTurnSettings tag k low f b s.newTransaction =
      if 32 < k.toNat ∨ 4 < low.toNat then s.refusedBy 0x43#8 tag .badParam
      else
        { s with
          trn :=
            { s.trn with
              cadence := k.toNat
              lowMark := low.toNat
              forwardRouting := rf
              backwardRouting := rb }
          lnk := s.replied 0x43#8 tag .ok [] } := by
  simp only [doTurnSettings, hf, hb]
  rfl

end

end Sys2Proof.Machine

namespace Sys2Proof.Proofs
open Sys2Proof Sys2Proof.Machine

/-- Settles O42: test 1 by the operands; the rest by the tests of the slot, its list and the current slot. -/
theorem turnPushWithdrawAndSync : Obligations.TurnPushWithdrawAndSync := by
  refine ⟨fun tag slot list pageTag s hopen => ⟨fun hbad => ?_, fun hbad => ⟨?_, fun hne => ?_⟩⟩, ?_, ?_, ?_⟩
  · have hbad' : slotOf slot = none ∨ turnListOf list = none :=
      hbad.imp slotOf_eq_none (turnListOf_eq_none_iff list).mpr
    rw [exec_turnPush hopen, doTurnPush_bad hbad']
  · rw [exec_turnWithdraw hopen, doTurnWithdraw_bad (slotOf_eq_none hbad)]
  · rw [exec_turnSync hopen, doTurnSync_bad hne (slotOf_eq_none hbad)]
  · intro tag list i l pageTag s hopen hl x es limit answer
    have hanswer : answer = .next (doTurnPush tag (slotByte i) list pageTag s.newTransaction) := exec_turnPush hopen
    have hlimit : l.limit = limit := l.limit_eq
    rw [hanswer]
    refine ⟨fun hx => ?_, fun hnot hx => ?_, fun hx ho hsize => ?_, fun hx ho hw hh hfull => ?_,
      fun hx ho hw hh hroom => ?_⟩
    · rw [doTurnPush_refused hl (Slot.judgeTake_releasing hx)]
    · rw [doTurnPush_refused hl (Slot.judgeTake_state hnot hx)]
    · rw [doTurnPush_refused hl (Slot.judgeTake_small hx ho hsize)]
    · rw [doTurnPush_taken hl (Slot.judgeTake_ok hx ho hw hh), hlimit, if_pos hfull]
    · rw [doTurnPush_taken hl (Slot.judgeTake_ok hx ho hw hh), hlimit, if_neg (Nat.not_le.mpr hroom)]
      rfl
  · intro tag i s hopen answer
    have hanswer : answer = .next (doTurnWithdraw tag (slotByte i) s.newTransaction) := exec_turnWithdraw hopen
    rw [hanswer]
    refine ⟨fun hx => ?_, fun hx hnone => ?_, fun hx l e he => ?_⟩
    · rw [doTurnWithdraw_releasing hx]
    · rw [doTurnWithdraw_unlisted hx hnone]
    · rw [doTurnWithdraw_listed hx he, TurnList.code_eq]
      rfl
  · intro tag pageTag s hopen given synced
    have hgiven : s.currentGiven = { s.mem with slots := given s.mem.slots } := by
      simp only [given, State.currentGiven]
      cases s.trn.current <;> rfl
    refine ⟨?_, ?_⟩
    · rw [exec_turnSync hopen, doTurnSync_none, hgiven]
      rfl
    · intro i x answer
      have hanswer : answer = .next (s.newTransaction.syncSlot tag i pageTag) :=
        (exec_turnSync hopen).trans (congrArg Host.Outcome.next doTurnSync_slot)
      rw [hanswer]
      refine ⟨fun hx => ?_, fun hx hcurrent => ?_, fun hother => ?_⟩
      · rw [State.syncSlot_releasing hx]
      · rw [State.syncSlot_again hx (Option.map_eq_some_iff.mpr hcurrent)]
        rfl
      · have hother' : s.trn.current.map Entry.slot ≠ some i := by simpa [Option.map_eq_some_iff] using hother
        have hready (hx : x.state = .ready) : x.state ≠ .releasing := by simp [hx]
        refine ⟨fun hnot hx => ?_, fun hx ho hsize => ?_, fun hx ho hw hh => ?_⟩
        · rw [State.syncSlot_refused hnot hother' (Slot.judgeTake_state hnot hx)]
        · rw [State.syncSlot_refused (hready hx) hother' (Slot.judgeTake_small hx ho hsize)]
        · rw [State.syncSlot_other (hready hx) hother' (Slot.judgeTake_ok hx ho hw hh), hgiven]
          rfl

/-- Settles O43: the routings read or they do not, and then the numbers are in range or not. -/
theorem turnSettingsAndKeyStatus : Obligations.TurnSettingsAndKeyStatus := by
  intro tag k low f b s hopen
  refine ⟨fun rf rb hf hb hk hlow => ?_, fun hbad => ?_, next_take_of_linkOpen hopen _⟩
  · rw [exec_turnSettings hopen, doTurnSettings_eq hf hb, if_neg (by omega)]
  · rw [exec_turnSettings hopen]
    cases hf : routingOf f with
    | none => rw [doTurnSettings_unknown (.inl hf)]
    | some rf =>
      cases hb : routingOf b with
      | none => rw [doTurnSettings_unknown (.inr hb)]
      | some rb =>
        have hf' : ¬1 < f.toNat := by simp [← routingOf_eq_none_iff, hf]
        have hb' : ¬1 < b.toNat := by simp [← routingOf_eq_none_iff, hb]
        rw [doTurnSettings_eq hf hb, if_pos (by omega)]

end Sys2Proof.Proofs
end

