-- ==== Sys2Proof/Proofs/Ticks.lean ====
section
/-! A step on an empty queue (log entries 1 and 3). -/
namespace Sys2Proof.Machine
open Sys2Proof

/-- On an empty queue a step is the tick. -/
theorem step_of_empty {s : State} (h : s.pending = []) : step s = .next s.tick := by simp only [step, h]

end Sys2Proof.Machine

namespace Sys2Proof.Proofs
open Sys2Proof Sys2Proof.Machine

/-- Settles O2: by whether the part is supplied and out of reset, where alone a tick counts. -/
theorem emptyQueueIsOneTick : Obligations.EmptyQueueIsOneTick := by
  intro s hempty
  rw [step_of_empty hempty]
  exact ⟨fun hon => congrArg Host.Outcome.next (if_pos hon), fun hoff => congrArg Host.Outcome.next (if_neg hoff)⟩

end Sys2Proof.Proofs
end

