-- ==== Sys2Proof/Proofs/SensorConverter.lean ====
section
/-! The sensor converter: conversions and their results (sections 5.1 and 5.2), the timers and the messages (section
5.3), and the ambient filter (section 6.4). -/
namespace Sys2Proof.Machine
open Sys2Proof

/-! ### The arbiter (R93, R98) -/

section
variable {n : Sns} {c : Channel}

theorem Sns.choice_ambient (h : n.requests.ambient = true) : n.choice = some .ambient := if_pos h

theorem Sns.choice_panelTemp (ha : n.requests.ambient = false) (h : n.requests.panelTemp = true) :
    n.choice = some .panelTemp := by simp [Sns.choice, ha, h]

theorem Sns.choice_battery (ha : n.requests.ambient = false) (hp : n.requests.panelTemp = false)
    (h : n.requests.battery = true) : n.choice = some .battery := by simp [Sns.choice, ha, hp, h]

theorem Sns.choice_none (ha : n.requests.ambient = false) (hp : n.requests.panelTemp = false)
    (hb : n.requests.battery = false) : n.choice = none := by simp [Sns.choice, ha, hp, hb]

/-- The channel chosen goes into conversion where the powered converter is free. -/
theorem Sns.arbitrate_starts (hpowered : n.powered = true) (hfree : n.converting = none) (hc : n.choice = some c)
    (now : Nat) :
    n.arbitrate now =
      { n with
        converting := some (c, now + if n.lastChannel = some c then 56 else 72)
        lastChannel := some c } := by
  simp only [Sns.arbitrate, hpowered, hfree, hc, and_self, if_true]
  rfl

theorem Sns.arbitrate_none (hc : n.choice = none) (now : Nat) : n.arbitrate now = n := by
  simp only [Sns.arbitrate, hc, ite_self]

end

/-- The arbiter acts at the time of the state. -/
def State.arbitrated (s : State) : State := { s with sns := s.sns.arbitrate s.clock }

theorem exec_conversionStart {s : State} (hlive : s.live = true) : exec .conversionStart s = .next s.arbitrated :=
  congrArg Host.Outcome.next (if_pos hlive)

/-- CONVERSION_START with a channel chosen (R93, R98). -/
theorem exec_conversionStart_starts {s : State} {c : Channel} (hlive : s.live = true) (hpowered : s.sns.powered = true)
    (hfree : s.sns.converting = none) (hc : s.sns.choice = some c) :
    exec .conversionStart s = .next
      { s with
        sns :=
          { s.sns with
            converting := some (c, s.clock + if s.sns.lastChannel = some c then 56 else 72)
            lastChannel := some c } } := by
  rw [exec_conversionStart hlive, State.arbitrated, Sns.arbitrate_starts hpowered hfree hc]

/-! ### The end of a conversion (R95, R96) -/

@[simp] theorem PerChannel.get_set {α : Type} (p : PerChannel α) (c : Channel) (a : α) : (p.set c a).get c = a := by
  cases c <;> rfl

theorem Result.after_good {c : Channel} {count : Nat} (h : faultedCount c count = false) (r : Result) (ms : Nat) :
    r.after c count ms =
      { raw := count, derived := derivedOf c count, sampleTime := ms, valid := true, fault := false } := by
  simp only [Result.after, h, Bool.false_eq_true, if_false]

theorem Result.after_faulted {c : Channel} {count : Nat} (h : faultedCount c count = true) (r : Result) (ms : Nat) :
    r.after c count ms = { r with raw := count, fault := true } := if_pos h

theorem faultedCount_panelTemp (count : Nat) : faultedCount .panelTemp count = true ↔ count = 0 ∨ count = 4095 := by
  simp [faultedCount]

/-- A conversion has ended in the converter at `e`, its record now `r` (R95 steps 1 to 3). -/
def State.converted (s : State) (c : Channel) (e : Nat) (r : Result) : State :=
  { s with
    clock := max s.clock e
    sns :=
      { s.sns with
        records := s.sns.records.set c r
        requests := s.sns.requests.set c false
        ambientLatest := if c = .ambient then none else s.sns.ambientLatest
        converting := none } }

section
variable {s : State} {c : Channel} {e : Nat} {count : Count}

/-- The result of a conversion that has no fault, at its time. -/
def State.resultOf (s : State) (c : Channel) (e count : Nat) : Result :=
  { raw := count
    derived := derivedOf c count
    sampleTime := max s.clock e / 4000 % 4294967296
    valid := true
    fault := false }

/-- A conversion's end: the record, the notice of a fault that is new, the result's users, the arbiter (R95). -/
theorem exec_conversionEnd (h : s.sns.converting = some (c, e)) :
    exec (.conversionEnd count) s = .next
      (let r := (s.sns.records.get c).after c count.toNat (max s.clock e / 4000 % 4294967296)
      let t := s.converted c e r
      ((if r.fault && !(s.sns.records.get c).fault then t.raise .sensorFault else t).handOver c).arbitrated) := by
  show execConversionEnd count s = _
  simp only [execConversionEnd, h, State.endConversion, Sns.finish, State.onSns_sns, State.reach_sns,
    PerChannel.get_set]
  rfl

theorem exec_conversionEnd_good (h : s.sns.converting = some (c, e)) (hgood : faultedCount c count.toNat = false) :
    exec (.conversionEnd count) s = .next
      ((s.converted c e (s.resultOf c e count.toNat)).handOver c).arbitrated := by
  rw [exec_conversionEnd h, Result.after_good hgood]
  rfl

/-- A fault that stands already raises nothing more (R96). -/
theorem exec_conversionEnd_faulted (h : s.sns.converting = some (c, e)) (hbad : faultedCount c count.toNat = true)
    (hold : (s.sns.records.get c).fault = true) :
    exec (.conversionEnd count) s = .next
      ((s.converted c e { s.sns.records.get c with raw := count.toNat, fault := true }).handOver c).arbitrated := by
  rw [exec_conversionEnd h, Result.after_faulted hbad]
  simp only [hold, Bool.not_true, Bool.and_false, Bool.false_eq_true, if_false]

/-- A fault that is new raises SENSOR_FAULT (R96). -/
theorem exec_conversionEnd_newFault (h : s.sns.converting = some (c, e)) (hbad : faultedCount c count.toNat = true)
    (hnew : (s.sns.records.get c).fault = false) :
    exec (.conversionEnd count) s = .next
      (((s.converted c e { s.sns.records.get c with raw := count.toNat, fault := true }).raise
        .sensorFault).handOver c).arbitrated := by
  rw [exec_conversionEnd h, Result.after_faulted hbad]
  simp only [hnew, Bool.not_false, Bool.and_self, if_true]

end

/-! ### The ambient filter (R120 to R122) -/

/-- LGT with `a` as the filtered ambient after a sample, in AUTO with the targets it gives (R120, R122). -/
def Lgt.sampled (l : Lgt) (a : Nat) : Lgt :=
  let t : Lgt :=
    { l with
      filtered := some a
      firstSample := false
      taken := (l.taken + 1) % 65536
      skipRun := 0
      stale := false
      auto := l.curve.at_ (2 * a) }
  if l.mode = .auto then
    let target := splitDuty (l.curve.at_ (2 * a)) l.mix
    { t with target := target, clamped := target.clampTo l.ceiling }
  else t

section
variable {l : Lgt} {raw a : Nat}

/-- The first sample is the filtered ambient (R121). -/
theorem Lgt.filter_first (h : l.filtered = none ∨ l.firstSample = true) :
    l.filter raw = { l with filtered := some raw, firstSample := false } := by
  cases hf : l.filtered with
  | none => simp only [Lgt.filter, hf]
  | some a =>
    have hfirst : l.firstSample = true := by simpa [hf] using h
    simp only [Lgt.filter, hf, hfirst, if_true]

/-- A quarter of a rise is added, and a quarter of a fall taken away, each rounded down (R121). -/
theorem add_tdiv_four (a raw : Nat) :
    ((a : Int) + ((raw : Int) - a).tdiv 4).toNat = if a ≤ raw then a + (raw - a) / 4 else a - (a - raw) / 4 := by
  split
  · rw [Int.tdiv_eq_ediv_of_nonneg (by omega)]
    omega
  · rw [← Int.neg_sub, Int.neg_tdiv, Int.tdiv_eq_ediv_of_nonneg (by omega)]
    omega

theorem Lgt.filter_next (hf : l.filtered = some a) (hfirst : l.firstSample = false) :
    l.filter raw =
      { l with filtered := some (if a ≤ raw then a + (raw - a) / 4 else a - (a - raw) / 4), firstSample := false } := by
  simp only [Lgt.filter, hf, hfirst, add_tdiv_four, Bool.false_eq_true, if_false]

/-- A sample is taken as the filter leaves it. -/
theorem Lgt.sample_eq (h : l.filter raw = { l with filtered := some a, firstSample := false }) :
    l.sample raw = l.sampled a := by
  rw [Lgt.sample, h]
  by_cases hmode : l.mode = .auto <;> simp only [Lgt.reauto, Lgt.sampled, hmode, if_true, if_false] <;> rfl

end

/-! ### The timers and the miss (R99, R100, R103) -/

section
variable {s : State} {d : Nat}

theorem Sns.ambientWaits_of {n : Sns} (h : n.requests.ambient = true) (hc : ∀ e, n.converting ≠ some (.ambient, e)) :
    n.ambientWaits = true := by
  cases hn : n.converting with
  | none => simp [Sns.ambientWaits, h, hn]
  | some p =>
    obtain ⟨c, e⟩ := p
    have hother : c ≠ .ambient := fun hamb => hc e (by rw [hn, hamb])
    simp [Sns.ambientWaits, h, hn, hother]

theorem exec_ambientMiss (h : s.sns.ambientLatest = some d) (hwaits : s.sns.ambientWaits = true) :
    exec .ambientMiss s = .next (((s.reach d).onSns Sns.miss).onLgt Lgt.missed) := by
  show execAmbientMiss s = _
  simp only [execAmbientMiss, h, hwaits, if_true]

theorem exec_panelTempTimerExpiry (h : s.sns.panelTimer = some d) :
    exec .panelTempTimerExpiry s = .next
      { s with
        clock := max s.clock d
        sns :=
          Sns.arbitrate
            { s.sns with
              panelTimer := some (max s.clock d + s.sns.period * 4000000)
              requests := { s.sns.requests with panelTemp := true } }
            (max s.clock d) } := by
  show execPanelTempTimerExpiry s = _
  simp only [execPanelTempTimerExpiry, h]
  rfl

theorem exec_batteryTimerExpiry (h : s.sns.batteryTimer = some d) :
    exec .batteryTimerExpiry s = .next
      { s with
        clock := max s.clock d
        sns :=
          Sns.arbitrate
            { s.sns with
              powered := true
              batteryTimer := if s.pwr.power = .deep then none else some (max s.clock d + 4000000)
              requests := { s.sns.requests with battery := true } }
            (max s.clock d) } := by
  have hdeep : (s.reach d).inDeep = decide (s.pwr.power = .deep) := rfl
  show execBatteryTimerExpiry s = _
  simp only [execBatteryTimerExpiry, h, hdeep, decide_eq_true_eq]
  rfl

end

/-! ### The messages (R101, R104) -/

theorem boolOf_bad {b : Byte} (h : 1 < b.toNat) : boolOf b = none := by
  have hzero : b ≠ 0#8 := by rintro rfl; simp at h
  have hone : b ≠ 1#8 := by rintro rfl; simp at h
  simp only [boolOf, hzero, hone, if_false]

section
variable {s : State} {tag fresh period : Byte}

theorem exec_readSensors (hopen : s.linkOpen) :
    exec (.readSensors tag fresh) s = .next (doReadSensors tag fresh s.newTransaction) :=
  next_take_of_linkOpen hopen _

theorem exec_sensorSettings (hopen : s.linkOpen) :
    exec (.sensorSettings tag period) s = .next (doSensorSettings tag period s.newTransaction) :=
  next_take_of_linkOpen hopen _

theorem doReadSensors_bad (h : 1 < fresh.toNat) : doReadSensors tag fresh s = s.answer 0x50#8 tag .badParam := by
  simp only [doReadSensors, boolOf_bad h]

end

end Sys2Proof.Machine

namespace Sys2Proof.Proofs
open Sys2Proof Sys2Proof.Machine

/-- Settles O44: by the request that the arbiter chooses, by the channel and the count of the conversion that ends, and
by the sample that LGT's filter takes. -/
theorem conversionsStartAndEnd : Obligations.ConversionsStartAndEnd := by
  refine ⟨?_, fun count e s => ⟨fun h => ?_, fun h => ?_, fun h hlow hhigh => ?_,
    fun h hcount => ⟨fun hold => ?_, fun hnew => ?_⟩, ?_⟩⟩
  · intro s hlive hpowered hfree starts q
    have hstarts {c : Channel} (hc : s.sns.choice = some c) : exec .conversionStart s = starts c :=
      exec_conversionStart_starts hlive hpowered hfree hc
    refine ⟨fun ha => hstarts (Sns.choice_ambient ha), fun ha hp => hstarts (Sns.choice_panelTemp ha hp),
      fun ha hp hb => hstarts (Sns.choice_battery ha hp hb), fun ha hp hb => ?_⟩
    rw [exec_conversionStart hlive, State.arbitrated, Sns.arbitrate_none (Sns.choice_none ha hp hb)]
  · exact exec_conversionEnd_good (c := .ambient) h rfl
  · exact exec_conversionEnd_good (c := .battery) h rfl
  · have hgood : faultedCount .panelTemp count.toNat = false := by
      rw [Bool.eq_false_iff, Ne, faultedCount_panelTemp]
      omega
    exact exec_conversionEnd_good (c := .panelTemp) h hgood
  · exact exec_conversionEnd_faulted (c := .panelTemp) h ((faultedCount_panelTemp _).mpr hcount) hold
  · exact exec_conversionEnd_newFault (c := .panelTemp) h ((faultedCount_panelTemp _).mpr hcount) hnew
  · intro raw l sampled follows
    refine ⟨fun hfirst => Lgt.sample_eq (Lgt.filter_first hfirst), fun a ha hnext => ?_⟩
    have hsample := Lgt.sample_eq (Lgt.filter_next (raw := raw) ha hnext)
    exact ⟨fun hle => by rw [hsample, if_pos hle]; rfl, fun hlt => by rw [hsample, if_neg (by omega)]; rfl⟩

/-- Settles O45: by the event, and the two messages by their operand. -/
theorem sensorTimersAndMessages : Obligations.SensorTimersAndMessages := by
  refine fun d s => ⟨fun h hreq hconv => ?_, exec_panelTempTimerExpiry, exec_batteryTimerExpiry,
    fun hopen tag fresh => ⟨?_, ?_, fun hbad => ?_⟩, fun hopen tag period => ⟨fun hne => ?_, ?_⟩⟩
  · exact exec_ambientMiss h (Sns.ambientWaits_of hreq hconv)
  · rintro rfl
    exact exec_readSensors hopen
  · rintro rfl
    exact exec_readSensors hopen
  · rw [exec_readSensors hopen, doReadSensors_bad hbad, State.newTransaction_refuse]
  · rw [exec_sensorSettings hopen, doSensorSettings, if_neg hne]
    rfl
  · rintro rfl
    exact exec_sensorSettings hopen

end Sys2Proof.Proofs
end

