-- ==== Sys2Proof/Proofs/BatteryLevel.lean ====
section
/-! The battery level and what moves with it (sections 9.1 and 9.6), and the battery wake in DEEP (R103, R176). -/
namespace Sys2Proof.Machine
open Sys2Proof

/-! ### The window (R167) -/

/-- A result joins the window; where four stand there, the oldest leaves. -/
theorem Pwr.join_eq {p : Pwr} (h : p.window.length ≤ 4) (mv : Nat) :
    p.join mv =
      { p with window := if p.window.length < 4 then p.window ++ [mv] else p.window.tail ++ [mv] } := by
  rw [Pwr.join]
  split
  · have hnone : p.window.length + 1 - 4 = 0 := by omega
    rw [hnone, List.drop_zero]
  · have hone : p.window.length + 1 - 4 = 1 := by omega
    have hfull : 1 ≤ p.window.length := by omega
    rw [hone, List.drop_append_of_le_length hfull, List.drop_one]

/-! ### What goes with a change of level (R168, R169, R181) -/

/-- The notices after a change of level (R168). -/
def Lnk.noticesFor (l : Lnk) (before after : BatteryLevel) : U16 :=
  if after = .critical ∧ before ≠ .critical then l.notices ||| 0x0200#16
  else if after = .low ∧ before ≠ .low then l.notices ||| 0x0100#16
  else l.notices

theorem State.raiseOpt_levelNotice (s : State) (before after : BatteryLevel) :
    s.raiseOpt (levelNotice before after) = { s with lnk := { s.lnk with notices := s.lnk.noticesFor before after } } := by
  cases before <;> cases after <;> rfl

/-- LGT after a change of level, with the ceiling that may be announced (R169). -/
def State.lightFor (s : State) (before after : BatteryLevel) : Lgt :=
  if before = .normal ∧ after ≠ .normal then s.lgt.announce s.pwr.lowCeiling
  else if before = .low ∧ after = .normal then s.lgt.announce 1000
  else s.lgt

theorem State.announce_ceilingFor (s : State) (before after : BatteryLevel) :
    s.announce (s.pwr.ceilingFor before after) = { s with lgt := s.lightFor before after } := by
  cases before <;> cases after <;> rfl

/-- The grace timer runs from the change to CRITICAL without a charger, and stops with the level (R181). -/
theorem State.graceFor_eq (s : State) (before after : BatteryLevel) :
    s.graceFor before after =
      if after ≠ .critical then none
      else if before = .critical ∨ s.pwr.charger = true then s.pwr.graceTimer
      else some (s.clock + 40000000) := by
  rw [State.graceFor, ite_not]
  rfl

theorem State.levelChange_eq (s : State) (after : BatteryLevel) :
    s.levelChange after =
      { s with
        pwr :=
          { s.pwr with
            level := after
            graceTimer :=
              if after ≠ .critical then none
              else if s.pwr.level = .critical ∨ s.pwr.charger = true then s.pwr.graceTimer
              else some (s.clock + 40000000) }
        lgt := s.lightFor s.pwr.level after
        lnk := { s.lnk with notices := s.lnk.noticesFor s.pwr.level after } } := by
  simp only [State.levelChange, State.raiseOpt_levelNotice, State.announce_ceilingFor, State.graceFor_eq]
  rfl

/-! ### A result is handed to PWR (R95, R103, R176) -/

section
variable {s : State}

theorem State.handBattery_awake (h : s.pwr.power ≠ .deep) :
    s.handBattery = (s.batteryResult s.sns.records.battery.derived.toNat).settle true := by
  have hawake : s.inDeep = false := decide_eq_false h
  simp only [State.handBattery, hawake, Bool.false_eq_true, if_false]

/-- A battery wake that finds the level CRITICAL takes the part out of DEEP. -/
theorem State.handBattery_wakes (h : s.pwr.power = .deep)
    (hlevel : (s.batteryResult s.sns.records.battery.derived.toNat).pwr.level = .critical) :
    s.handBattery =
      ((s.batteryResult s.sns.records.battery.derived.toNat).leaveDeep .doze .critical).settle true := by
  have hdeep : s.inDeep = true := decide_eq_true h
  simp only [State.handBattery, hdeep, hlevel, if_true]

/-- Any other battery wake ends with the converter powered down and the timer started again. -/
theorem State.handBattery_sleeps (h : s.pwr.power = .deep)
    (hlevel : (s.batteryResult s.sns.records.battery.derived.toNat).pwr.level ≠ .critical) :
    s.handBattery =
      ((s.batteryResult s.sns.records.battery.derived.toNat).onSns fun n => n.endBatteryWake s.clock).settle true := by
  have hdeep : s.inDeep = true := decide_eq_true h
  simp only [State.handBattery, hdeep, hlevel, if_true, if_false]

end

/-- A result leaves SNS as it is. -/
theorem State.batteryResult_sns (s : State) (mv : Nat) : (s.batteryResult mv).sns = s.sns := by
  rw [State.batteryResult, State.levelChange_eq]
  rfl

end Sys2Proof.Machine

namespace Sys2Proof.Proofs
open Sys2Proof Sys2Proof.Machine

/-- Settles O56: by the level, by the window and the change of level, and by the power state that the result finds. -/
theorem batteryResultsMoveTheLevel : Obligations.BatteryResultsMoveTheLevel := by
  refine ⟨fun p v => ⟨?_, ?_, ?_⟩, ?_, fun s => State.handBattery_awake, fun s hdeep => ?_, rfl⟩
  iterate 3 exact fun hlevel => by simp only [Pwr.judged, hlevel]
  · intro mv s hlen window before after
    have hjoin : (s.onPwr fun p => p.join mv) = { s with pwr := { s.pwr with window := window } } :=
      congrArg (fun p => { s with pwr := p }) (Pwr.join_eq hlen mv)
    rw [State.batteryResult, hjoin, State.levelChange_eq]
    rfl
  · refine ⟨State.handBattery_wakes hdeep, fun hlevel => ?_⟩
    rw [State.handBattery_sleeps hdeep hlevel, State.onSns, State.batteryResult_sns]
    rfl

end Sys2Proof.Proofs
end

