-- ==== Sys2Proof/Proofs/DozeAndDeep.lean ====
section
/-! Entering DOZE and DEEP: the deep-idle timer, the wait for a DEEP entry, and the entry (sections 9.3 and 10.4). -/
namespace Sys2Proof.Machine
open Sys2Proof

/-! ### The deep-idle timer (R174) -/

/-- The conditions under which the deep-idle timer runs. -/
abbrev State.MayIdle (s : State) : Prop :=
  s.pwr.power = .doze ∧ s.pwr.deepWait = none ∧ s.pwr.deepIdle ≠ 0 ∧
    (∀ d ∈ s.spl.table, d.state ≠ .receiving ∧ d.state ≠ .draining) ∧ s.upd.rails = .off ∧ s.lgt.mode = .off ∧
    s.pwr.level ≠ .critical ∧ s.pwr.cutoff = false

theorem Spl.busy_eq_false_iff (p : Spl) :
    p.busy = false ↔ ∀ d ∈ p.table, d.state ≠ .receiving ∧ d.state ≠ .draining := by
  simp [← Bool.not_eq_true, Spl.busy_iff]

theorem State.mayIdle_iff (s : State) : s.mayIdle = true ↔ s.MayIdle := by
  simp only [State.mayIdle, Bool.and_eq_true, Bool.not_eq_true', decide_eq_true_eq, Spl.busy_eq_false_iff,
    Upd.railsOff, and_assoc]

section
variable {s : State}

theorem State.idleFollow_stops (h : ¬s.MayIdle) :
    s.idleFollow = { s with pwr := { s.pwr with idleTimer := none } } := by
  have hstops : s.idleAfter = none := if_neg (by rwa [State.mayIdle_iff])
  rw [State.idleFollow, hstops]
  rfl

theorem State.idleFollow_runsOn {d : Nat} (h : s.MayIdle) (ht : s.pwr.idleTimer = some d) : s.idleFollow = s := by
  have hkept : s.idleAfter = s.pwr.idleTimer := by
    rw [State.idleAfter, if_pos (s.mayIdle_iff.mpr h), ht]
  rw [State.idleFollow, hkept]
  rfl

theorem State.idleFollow_starts (h : s.MayIdle) (ht : s.pwr.idleTimer = none) :
    s.idleFollow = { s with pwr := { s.pwr with idleTimer := some (s.clock + s.pwr.deepIdle * 4000000) } } := by
  have hstarts : s.idleAfter = some (s.clock + s.pwr.deepIdle * 4000000) := by
    rw [State.idleAfter, if_pos (s.mayIdle_iff.mpr h), ht]
    rfl
  rw [State.idleFollow, hstarts]
  rfl

/-- A timer that is stopped stays so where a condition fails. -/
theorem State.idleFollow_stopped (h : ¬s.MayIdle) (ht : s.pwr.idleTimer = none) : s.idleFollow = s := by
  rw [State.idleFollow_stops h, ← ht]

/-- Once the timer has followed its conditions, it follows them no further. -/
theorem State.idleFollow_idleFollow (s : State) : s.idleFollow.idleFollow = s.idleFollow := by
  by_cases h : s.MayIdle
  · cases ht : s.pwr.idleTimer with
    | some d => rw [State.idleFollow_runsOn h ht, State.idleFollow_runsOn h ht]
    | none =>
      rw [State.idleFollow_starts h ht]
      exact State.idleFollow_runsOn (d := s.clock + s.pwr.deepIdle * 4000000) h rfl
  · rw [State.idleFollow_stops h]
    exact State.idleFollow_stopped h rfl

end

/-! ### What leaves ACTIVE (R172 to R174) -/

section
variable {s : State} {tag : Byte}

theorem exec_enterDoze (hopen : s.linkOpen) :
    exec (.enterDoze tag) s = .next
      (if s.pwr.cutoff then s.refusedBy 0x90#8 tag .powerDown
      else State.idleFollow { s with pwr := { s.pwr with power := .doze }, lnk := s.replied 0x90#8 tag .ok [] }) :=
  next_take_of_linkOpen hopen _

theorem exec_enterDeep (hopen : s.linkOpen) :
    exec (.enterDeep tag) s = .next
      (if s.pwr.cutoff then s.refusedBy 0x91#8 tag .powerDown
      else if s.spl.busy then s.refusedBy 0x91#8 tag .downloadActive
      else State.beginDeepWait { s with lnk := s.replied 0x91#8 tag .ok [] } .commanded) :=
  next_take_of_linkOpen hopen _

theorem exec_deepIdleTimerExpiry {d : Nat} (h : s.pwr.idleTimer = some d) :
    exec .deepIdleTimerExpiry s = .next ((s.reach d).beginDeepWait .automatic) := by
  show execDeepIdleTimerExpiry s = _
  simp only [execDeepIdleTimerExpiry, h]

end

/-! ### The wait for the entry (R173, R201) -/

section
variable {s : State}

theorem State.deepReady_iff (s : State) :
    s.deepReady = true ↔
      s.pwr.deepWait ≠ none ∧ s.upd.rails = .off ∧ s.upd.work = false ∧ s.sto.op = none ∧ s.pwr.level ≠ .critical := by
  simp only [State.deepReady, Upd.railsOff, Bool.and_eq_true, Bool.not_eq_true', decide_eq_true_eq,
    Option.isSome_iff_ne_none, Option.isNone_iff_eq_none, and_assoc]

theorem State.deepProgress_waits (h : ¬s.deepReady = true) : s.deepProgress = s := if_neg h

theorem State.deepProgress_enters (h : s.deepReady = true) (hwake : s.pwr.pendingWake = none) :
    s.deepProgress = s.enterDeep := by
  simp only [State.deepProgress, h, hwake, if_true]

theorem State.deepProgress_wakes {c : WakeCause} (h : s.deepReady = true) (hwake : s.pwr.pendingWake = some c) :
    s.deepProgress = s.enterDeep.leaveDeep .doze c := by
  simp only [State.deepProgress, h, hwake, if_true]

/-- A drain that goes on keeps the rest waiting (R201). -/
theorem State.progress_draining (hcut : s.pwr.cutoff = false) (hdrain : s.draining = true) (h : ¬s.drained = true) :
    s.progress = s := by
  rw [State.progress, if_neg h, if_neg (by simp [hcut]), if_pos hdrain]

theorem State.progress_deep (hcut : s.pwr.cutoff = false) (hdrain : s.draining = false) :
    s.progress = s.deepProgress.idleFollow := by
  rw [State.progress, if_neg (State.not_drained (.inl hdrain)), if_neg (by simp [hcut]), if_neg (by simp [hdrain])]

theorem exec_deepEntry (hlive : s.live = true) (hcut : s.pwr.cutoff = false) :
    exec .deepEntry s = .next s.deepProgress :=
  congrArg Host.Outcome.next (if_pos (by simp [hlive, hcut]))

theorem exec_deepEntry_waits (h : ¬s.deepReady = true) : exec .deepEntry s = .next s :=
  congrArg Host.Outcome.next ((ite_congr rfl (fun _ => State.deepProgress_waits h) fun _ => rfl).trans (ite_self s))

end

/-! ### The entry, block by block (R175) -/

/-- A decided placement is cancelled and counts as skipped (R119). -/
theorem Lgt.cancelDecided_eq (l : Lgt) :
    l.cancelDecided =
      { l with
        skipRun := if l.decided.isSome then min 255 (l.skipRun + 1) else l.skipRun
        stale := l.stale || (l.decided.isSome && decide (8 ≤ min 255 (l.skipRun + 1)))
        skipped := if l.decided.isSome then (l.skipped + 1) % 65536 else l.skipped
        decided := none } := by
  cases h : l.decided with
  | some q => simp only [Lgt.cancelDecided, h]; rfl
  | none =>
    simp only [Lgt.cancelDecided, h, Option.isSome_none, Bool.false_eq_true, if_false, Bool.false_and, Bool.or_false]
    rw [← h]

/-- LGT at the entry: the light off, the counter stopped, and an AMBIENT request still with SNS missed (R106, R120,
R123). -/
def Lgt.asleep (l : Lgt) (asked : Bool) : Lgt :=
  let once := if l.decided.isSome then min 255 (l.skipRun + 1) else l.skipRun
  let run := if asked then min 255 (once + 1) else once
  { l with
    mode := .off
    lastMode := if l.mode = .off then l.lastMode else l.mode
    target := {}
    clamped := {}
    pending := {}
    latched := {}
    nextBoundary := none
    index := 0
    rampTaken := false
    holdoff := 0
    decided := none
    skipRun := run
    stale := l.stale || (l.decided.isSome && decide (8 ≤ once)) || (asked && decide (8 ≤ run))
    skipped := if l.decided.isSome then (l.skipped + 1) % 65536 else l.skipped }

theorem State.lightDeep_eq (s : State) :
    s.lightDeep = { s with lgt := s.lgt.asleep s.sns.requests.ambient } := by
  have hstale : (s.lgt.decided.isSome && decide (8 ≤ min 255 (s.lgt.skipRun + 1))) =
      (s.lgt.decided.isSome &&
        decide (8 ≤ if s.lgt.decided.isSome then min 255 (s.lgt.skipRun + 1) else s.lgt.skipRun)) := by
    cases s.lgt.decided.isSome <;> rfl
  cases h : s.sns.requests.ambient <;>
  · simp only [State.lightDeep, State.onLgt, h, Lgt.asleep, Lgt.enterDeep, Lgt.forceOff, Lgt.cancelDecided_eq, hstale]
    simp [Lgt.missed]

/-- The download table once a frame in assembly has been discarded (R150); whose count rises is open (log entry 12). -/
def State.cutTable (s : State) : List Download :=
  match s.rad.inFrame, Config.idOfCutFrame s.freeUsed with
  | true, some i => s.spl.table.map fun d => if d.id = i then { d with discards := (d.discards + 1) % 65536 } else d
  | _, _ => s.spl.table

/-- RAD at the entry (R150). -/
theorem State.radDeep_eq (s : State) :
    s.radDeep =
      { s with
        freeUsed := if s.rad.inFrame then s.freeUsed + 1 else s.freeUsed
        spl := { s.spl with table := s.cutTable }
        rad := { s.rad with bufA := .empty, bufB := .empty, queue := [], sending := none } } := by
  have hrate (b : Buffer) : (s.rad.settleAssembling b).rate = s.rad.rate := by
    unfold Rad.settleAssembling
    split
    · rfl
    · split <;> rfl
  cases hframe : s.rad.inFrame with
  | false => simp [State.radDeep, State.cutFrame, State.cutTable, State.onRad, hframe]
  | true =>
    cases hid : Config.idOfCutFrame s.freeUsed <;>
      simp [State.radDeep, State.cutFrame, State.cutTable, State.onRad, hframe, hid, hrate, State.countDiscard,
        State.onSpl, Spl.update, wrap16]

/-- The entry to DEEP, block by block. -/
theorem State.enterDeep_eq (s : State) :
    s.enterDeep =
      { s with
        freeUsed := if s.rad.inFrame then s.freeUsed + 1 else s.freeUsed
        spl := { s.spl with table := s.cutTable }
        lgt := s.lgt.asleep s.sns.requests.ambient
        sns := s.sns.enterDeep s.clock
        rad := { s.rad with bufA := .empty, bufB := .empty, queue := [], sending := none }
        sto := s.sto.withdrawAll
        lnk := { s.lnk with receiver := s.lnk.receiver.abandoned }
        pwr :=
          { s.pwr with
            power := .deep
            deepWait := none
            pendingWake := none
            wakeCause := none
            idleTimer := none
            gate := {} } } := by
  simp only [State.enterDeep, State.lightDeep_eq, State.radDeep_eq]
  rfl

/-- In DEEP the deep-idle timer stays stopped. -/
theorem State.enterDeep_idleFollow (s : State) : s.enterDeep.idleFollow = s.enterDeep := by
  rw [State.enterDeep_eq]
  exact State.idleFollow_stopped (fun h => nomatch h.1) rfl

/-- Leaving DEEP ends with the deep-idle timer. -/
theorem State.leaveDeep_idleFollow (s : State) (target : Power) (c : WakeCause) :
    (s.leaveDeep target c).idleFollow = s.leaveDeep target c :=
  State.idleFollow_idleFollow _

end Sys2Proof.Machine

namespace Sys2Proof.Proofs
open Sys2Proof Sys2Proof.Machine

/-- Settles O57: by what leaves ACTIVE, by the deep-idle timer's conditions, and by whether the waiting entry can
complete. -/
theorem dozeAndDeepEntry : Obligations.DozeAndDeepEntry := by
  refine ⟨?_, fun d s h => exec_deepIdleTimerExpiry h, fun s => ?_, fun s hcut => ⟨fun hdrain hbusy => ?_,
    fun hdrain hwaits => ?_⟩, ?_⟩
  · intro tag s hopen waits
    rw [exec_enterDoze hopen, exec_enterDeep hopen]
    refine ⟨fun hcut => ⟨?_, ?_⟩, fun hcut => ?_⟩
    · rw [if_pos hcut]
    · rw [if_pos hcut]
    · have hgoes : ¬s.pwr.cutoff = true := by simp [hcut]
      rw [if_neg hgoes, if_neg hgoes]
      refine ⟨rfl, fun hbusy => ?_, fun hfree => ?_⟩
      · rw [if_pos (s.spl.busy_iff.mpr hbusy)]
      · rw [if_neg (Bool.eq_false_iff.mp (s.spl.busy_eq_false_iff.mpr hfree))]
        rfl
  · exact ⟨State.idleFollow_stops, fun h => ⟨fun d => State.idleFollow_runsOn h, State.idleFollow_starts h⟩⟩
  · exact State.progress_draining hcut hdrain (State.not_drained (.inr hbusy))
  · have hnot : ¬s.deepReady = true := by
      rw [State.deepReady_iff]
      rintro ⟨hwait, hoff, hwork, hop, hlevel⟩
      simp [hwait, hoff, hwork, hop, hlevel] at hwaits
    rw [State.progress_deep hcut hdrain, State.deepProgress_waits hnot]
    exact ⟨rfl, exec_deepEntry_waits hnot⟩
  · intro s hlive hcut hwait hoff hwork hop hlevel once run asleep
    have hready : s.deepReady = true := s.deepReady_iff.mpr ⟨hwait, hoff, hwork, hop, hlevel⟩
    have hasleep : s.enterDeep = asleep := s.enterDeep_eq
    rw [← hasleep, exec_deepEntry hlive hcut]
    refine ⟨fun hwake => ⟨?_, fun hdrain => ?_⟩, fun c hwake => ⟨?_, fun hdrain => ?_⟩⟩
    · rw [State.deepProgress_enters hready hwake]
    · rw [State.progress_deep hcut hdrain, State.deepProgress_enters hready hwake, State.enterDeep_idleFollow]
    · rw [State.deepProgress_wakes hready hwake]
    · rw [State.progress_deep hcut hdrain, State.deepProgress_wakes hready hwake, State.leaveDeep_idleFollow]

end Sys2Proof.Proofs
end

