-- ==== Sys2Proof/Proofs/LightDuties.lean ====
section
/-! The light's ceiling through each small move (R110), the split, the clamp and the ramp of its duties (section 6.2),
and the two lines (section 6.1). -/
namespace Sys2Proof.Machine
open Sys2Proof

/-! ### The ceiling law (R110, R113, R179) -/

/-- LGT and PWR as a reset leaves them are within the ceiling, whatever the counter's next boundary. -/
theorem State.lightSafe_of_reset {t : State} {next : Option Nat} (hlgt : t.lgt = { nextBoundary := next })
    (hlow : t.pwr.lowCeiling = ({} : Pwr).lowCeiling) : t.lightSafe := by
  rw [State.lightSafe, hlgt, hlow]
  exact ⟨⟨Nat.le_refl _, Nat.zero_le _, Nat.zero_le _⟩, by decide⟩

/-- Every small move keeps the ceiling law: LGT and PWR bring their own bound, and a reset puts the light out. -/
theorem Move.lightSafe {s t : State} (m : Move s t) : s.lightSafe → t.lightSafe := by
  rintro ⟨hlight, hlow⟩
  cases m with
  | lgt l hl => exact ⟨hl ⟨hlight, hlow⟩, hlow⟩
  | pwr p hw hc => exact ⟨hlight, hc hlow⟩
  | takeStaging hp =>
    rw [State.takeStaging_frame]
    exact ⟨hlight, hlow⟩
  | returnStaging =>
    rw [State.returnStaging_frame]
    exact ⟨hlight, hlow⟩
  | lost | drainEnd | fullReset => exact State.lightSafe_of_reset rfl rfl
  | _ => exact ⟨hlight, hlow⟩

/-! ### The split (R111) -/

/-- The warm share, halves rounded up, is within the brightness. -/
theorem warmShare_le {b m : Nat} (h : m ≤ 100) : (b * m + 50) / 100 ≤ b := by
  have hmul : b * m ≤ b * 100 := Nat.mul_le_mul_left b h
  omega

theorem splitDuty_sum {b m : Nat} (h : m ≤ 100) : (splitDuty b m).sum = b := Nat.add_sub_cancel' (warmShare_le h)

/-! ### The clamp (R112) -/

theorem Duty.clampTo_fits {d : Duty} {c : Nat} (h : d.sum ≤ c) : d.clampTo c = d := if_neg (Nat.not_lt.mpr h)

theorem Duty.clampTo_exceeds {d : Duty} {c : Nat} (h : c < d.sum) :
    d.clampTo c = ⟨d.warm * c / d.sum, d.cool * c / d.sum⟩ := if_pos h

/-- A sum's quotient is at most one above the sum of the quotients (core Lean has no such lemma). -/
theorem add_div_le_div_add_div_succ (a b : Nat) {w : Nat} (hw : 0 < w) : (a + b) / w ≤ a / w + b / w + 1 := by
  have ha : a < a / w * w + w := Nat.lt_div_mul_add hw
  have hb : b < b / w * w + w := Nat.lt_div_mul_add hw
  refine Nat.le_of_lt_succ ((Nat.div_lt_iff_lt_mul hw).mpr ?_)
  simp only [Nat.succ_eq_add_one, Nat.add_mul, Nat.one_mul]
  omega

/-- The two floors lose at most one thousandth of the ceiling. -/
theorem Duty.le_clampTo_sum {d : Duty} {c : Nat} (h : c < d.sum) : c ≤ (d.clampTo c).sum + 1 := by
  have hpos : 0 < d.sum := Nat.zero_lt_of_lt h
  calc c = (d.warm * c + d.cool * c) / d.sum := by
        rw [← Nat.add_mul]
        exact (Nat.mul_div_cancel_left c hpos).symm
    _ ≤ d.warm * c / d.sum + d.cool * c / d.sum + 1 := add_div_le_div_add_div_succ _ _ hpos
    _ = (d.clampTo c).sum + 1 := by
        rw [Duty.clampTo_exceeds h]
        rfl

/-! ### The ramp (R114) -/

theorem rampToward_up {duty target : Nat} (step : Nat) (h : duty ≤ target) :
    rampToward duty target step = min target (duty + step) := by
  unfold rampToward
  split <;> omega

theorem rampToward_down {duty target : Nat} (step : Nat) (h : target ≤ duty) :
    rampToward duty target step = max target (duty - step) := by
  unfold rampToward
  split <;> omega

/-! ### The lines (R109) -/

section
variable {s : State}

/-- The counter's value is the count since a boundary. -/
theorem State.pwmCount_of {b count : Nat} (hb : s.lgt.nextBoundary = some b) (hcount : count < 1000)
    (hclock : s.clock % 1000 = (b + count) % 1000) : s.pwmCount = some count := by
  simp only [State.pwmCount, hb, Config.pwmPeriod, Option.map_some, Option.some.injEq]
  omega

/-- A running counter drives a line on below its latched duty. -/
theorem State.lineOn_iff {count : Nat} (hlive : s.live = true) (hcount : s.pwmCount = some count) (duty : Nat) :
    s.lineOn duty = true ↔ count < duty := by
  simp only [State.lineOn, hlive, hcount, Bool.true_and, decide_eq_true_eq]

/-- Nothing drives a line while the part does not run or its counter is stopped. -/
theorem State.lineOn_off (h : s.live = false ∨ s.lgt.nextBoundary = none) (duty : Nat) : s.lineOn duty = false := by
  rcases h with hdead | hstopped
  · simp only [State.lineOn, hdead, Bool.false_and]
  · simp only [State.lineOn, State.pwmCount, hstopped, Option.map_none, Bool.and_false]

end

end Sys2Proof.Machine

namespace Sys2Proof.Proofs
open Sys2Proof Sys2Proof.Machine

/-- Settles O12: each small move of a step keeps the light within its ceiling. -/
theorem stepKeepsTheLightWithinItsCeiling : Obligations.StepKeepsTheLightWithinItsCeiling :=
  step_keeps Move.lightSafe fun _ _ h => h

/-- Settles O47: the split, the clamp, the two lines by whether they are driven, and the ramp by its direction. -/
theorem dutiesAreClampedAndRamped : Obligations.DutiesAreClampedAndRamped := by
  refine ⟨fun b m _ hm => ⟨rfl, splitDuty_sum hm⟩, fun d c => ⟨d.clampTo_sum c, Duty.clampTo_fits, fun hexceeds =>
    ⟨Duty.clampTo_exceeds hexceeds, Duty.le_clampTo_sum hexceeds⟩⟩, fun s => ⟨?_, fun hoff => ?_⟩, fun l => ?_⟩
  · intro b count hlive hb hcount hclock
    have hpwm := State.pwmCount_of hb hcount hclock
    exact ⟨State.lineOn_iff hlive hpwm _, State.lineOn_iff hlive hpwm _⟩
  · exact ⟨State.lineOn_off hoff _, State.lineOn_off hoff _⟩
  · exact ⟨fun duty target => ⟨rampToward_up l.step, rampToward_down l.step⟩, rfl, l.ramp_sum⟩

end Sys2Proof.Proofs
end

