-- ==== Sys2Proof/Proofs/LightPeriods.lean ====
section
/-! Period boundaries, and the ambient opportunity that falls at one (sections 6.1, 6.2 and 6.4). -/
namespace Sys2Proof.Machine
open Sys2Proof

/-! ### The boundary (R110) -/

/-- The pending duties after the ramp step that the boundary to `index` takes, if one is due (R110 step 1). -/
def Lgt.dutiesAt (l : Lgt) (index : Nat) : Duty :=
  if index % 8 = 0 ∧ l.rampTaken = false then l.ramp.pending else l.pending

theorem Lgt.rampAt_eq (l : Lgt) (index : Nat) : l.rampAt index = { l with pending := l.dutiesAt index } := by
  unfold Lgt.rampAt Lgt.dutiesAt
  split <;> rfl

/-- LGT once the boundary at `b` has taken its ramp step and latched (R110 steps 1 and 2). -/
def Lgt.latchedAt (l : Lgt) (b : Nat) : Lgt :=
  { l with
    pending := l.dutiesAt ((l.index + 1) % 64)
    rampTaken := false
    latched := l.dutiesAt ((l.index + 1) % 64)
    index := (l.index + 1) % 64
    nextBoundary := some (b + 1000) }

theorem Lgt.boundary_eq (l : Lgt) (scanning : Bool) (b : Nat) :
    l.boundary scanning b =
      if (l.index + 1) % 64 = 0 ∧ l.mode ≠ .off then (l.latchedAt b).opportunity scanning b else l.latchedAt b := by
  simp only [Lgt.boundary, Lgt.rampAt_eq]
  rfl

section
variable {s : State} {b : Nat}

theorem State.periodBoundary_eq (h : s.lgt.nextBoundary = some b) :
    s.periodBoundary = { s with clock := max s.clock b, lgt := s.lgt.boundary s.upd.scanning b } := by
  simp only [State.periodBoundary, h]
  rfl

theorem exec_periodBoundary (h : s.lgt.nextBoundary = some b) :
    exec .periodBoundary s = .next { s with clock := max s.clock b, lgt := s.lgt.boundary s.upd.scanning b } :=
  congrArg Host.Outcome.next (State.periodBoundary_eq h)

theorem Lgt.opportunityDue_iff (l : Lgt) : l.opportunityDue = true ↔ (l.index + 1) % 64 = 0 ∧ l.mode ≠ .off := by
  simp only [Lgt.opportunityDue, Bool.and_eq_true, decide_eq_true_eq]

/-- AMBIENT_OPPORTUNITY is the boundary where one falls (log entry 5). -/
theorem exec_ambientOpportunity (hindex : (s.lgt.index + 1) % 64 = 0) (hmode : s.lgt.mode ≠ .off) :
    exec .ambientOpportunity s = exec .periodBoundary s :=
  congrArg Host.Outcome.next (if_pos (s.lgt.opportunityDue_iff.mpr ⟨hindex, hmode⟩))

theorem Lgt.rampDue_iff (l : Lgt) : l.rampDue = true ↔ (l.index + 1) % 8 = 0 ∧ l.rampTaken = false := by
  simp only [Lgt.rampDue, Bool.and_eq_true, decide_eq_true_eq, Bool.not_eq_true']

/-- RAMP_TICK takes the step of the coming boundary (log entry 5). -/
theorem exec_rampTick (h : s.lgt.nextBoundary = some b) (hindex : (s.lgt.index + 1) % 8 = 0)
    (htaken : s.lgt.rampTaken = false) :
    exec .rampTick s = .next { s with clock := max s.clock b, lgt := { s.lgt.ramp with rampTaken := true } } := by
  show execRampTick s = _
  simp only [execRampTick, h, s.lgt.rampDue_iff.mpr ⟨hindex, htaken⟩, if_true]
  rfl

end

/-! ### The ambient opportunity (R119) -/

section
variable {l : Lgt} {start : Nat}

theorem Lgt.opportunity_scanning : l.opportunity true start = l.skip := rfl

theorem Lgt.opportunity_holdoff (h : 0 < l.holdoff) :
    l.opportunity false start = { l.skip with holdoff := l.holdoff - 1 } := by
  simp only [Lgt.opportunity, Bool.false_eq_true, if_false, h, if_true]

theorem Lgt.opportunity_dark (hnone : l.holdoff = 0) (h : 908 < l.latched.max) :
    l.opportunity false start = l.skip := by
  simp only [Lgt.opportunity, Bool.false_eq_true, if_false, hnone, Nat.lt_irrefl, h, if_true]

theorem Lgt.opportunity_decides (hnone : l.holdoff = 0) (h : l.latched.max ≤ 908) :
    l.opportunity false start = { l with decided := some ⟨start + (l.latched.max + 20), start + 928⟩ } := by
  simp only [Lgt.opportunity, Bool.false_eq_true, if_false, hnone, Nat.lt_irrefl, Nat.not_lt.mpr h]

end

/-- A decided placement joins SNS's set (R119). -/
theorem exec_ambientRequest {s : State} {p : Placement} (h : s.lgt.decided = some p) :
    exec .ambientRequest s = .next
      { s with
        clock := max s.clock p.placeAt
        lgt := { s.lgt with decided := none }
        sns := s.sns.requestAmbient p.latest (max s.clock p.placeAt) } := by
  show execAmbientRequest s = _
  simp only [execAmbientRequest, h]
  rfl

end Sys2Proof.Machine

namespace Sys2Proof.Proofs
open Sys2Proof Sys2Proof.Machine

/-- Settles O46: the boundary and the two rows that divide it, the opportunity by R119's cases, and the placement. -/
theorem periodBoundaryRampsLatchesAndSamples : Obligations.PeriodBoundaryRampsLatchesAndSamples := by
  refine ⟨fun b s hb => ?_, fun l start => ?_, fun p s => exec_ambientRequest⟩
  · intro l index stepped duties after boundary
    have hboundary : exec .periodBoundary s = boundary := by
      rw [exec_periodBoundary hb, Lgt.boundary_eq]
      rfl
    exact ⟨hboundary, fun hindex hmode => (exec_ambientOpportunity hindex hmode).trans hboundary, exec_rampTick hb⟩
  · exact ⟨Lgt.opportunity_scanning, Lgt.opportunity_holdoff, Lgt.opportunity_dark, Lgt.opportunity_decides⟩

end Sys2Proof.Proofs
end

