-- ==== Sys2Proof/Proofs/LightMessages.lean ====
section
/-! Light Set, Light Curve and Light Ramp (section 6.3), and the auto curve (section 6.4). -/
namespace Sys2Proof.Machine
open Sys2Proof

/-! ### Light Set (R115) -/

theorem lightModeOf_eq_none_iff (b : Byte) : lightModeOf b = none ↔ 2 < b.toNat := by
  match h : b.toNat with
  | 0 | 1 | 2 | n + 3 => simp [lightModeOf, h]

/-- A light mode is reported by the code it was carried in. -/
theorem u8_code_of_lightModeOf {b : Byte} {md : LightMode} (h : lightModeOf b = some md) : u8 md.code = [b] := by
  have hcode : md.code = b.toNat := by
    match hb : b.toNat with
    | 0 | 1 | 2 =>
      simp only [lightModeOf, hb, Option.some.injEq] at h
      subst h
      rfl
    | n + 3 => simp [lightModeOf, hb] at h
  rw [u8, hcode, BitVec.ofNat_toNat, BitVec.setWidth_eq]

/-- LGT with Light Set's operands stored and its mode taken (R115). -/
theorem Lgt.set_eq (l : Lgt) (md : LightMode) (b m : Nat) :
    l.set md b m =
      Lgt.retarget
        { l with
          manual := b
          mix := m
          mode := md
          lastMode := if md = .off then l.lastMode else md
          firstSample := l.firstSample || decide (md ≠ .off ∧ l.mode = .off) } := by
  cases md <;> simp [Lgt.set]

theorem Lgt.set_mode (l : Lgt) (md : LightMode) (b m : Nat) : (l.set md b m).mode = md := by
  rw [Lgt.set_eq]
  rfl

/-- The reply to Light Set carries the mode as it came, the targets and the clamped targets (R115). -/
theorem Lgt.setBody_of {l : Lgt} {b : Byte} {md : LightMode} (h : lightModeOf b = some md) (hmode : l.mode = md) :
    l.setBody = b :: (l.target.bytes ++ l.clamped.bytes) := by
  rw [Lgt.setBody, hmode, u8_code_of_lightModeOf h, List.append_assoc, List.singleton_append]

section
variable {s : State} {tag mode mix : Byte} {brightness : U16}

theorem exec_lightSet (hopen : s.linkOpen) :
    exec (.lightSet tag mode brightness mix) s = .next (doLightSet tag mode brightness mix s.newTransaction) :=
  next_take_of_linkOpen hopen _

theorem doLightSet_bad (h : 2 < mode.toNat ∨ 1000 < brightness.toNat ∨ 100 < mix.toNat) :
    doLightSet tag mode brightness mix s.newTransaction = s.refusedBy 0x60#8 tag .badParam := by
  unfold doLightSet
  split
  · rfl
  · rename_i md hmd
    have hmode : ¬2 < mode.toNat := fun hbig => nomatch ((lightModeOf_eq_none_iff mode).mpr hbig).symm.trans hmd
    exact if_pos (h.resolve_left hmode)

theorem doLightSet_powerDown (hmode : mode.toNat ≤ 2) (hb : brightness.toNat ≤ 1000) (hm : mix.toNat ≤ 100)
    (hcut : s.pwr.cutoff = true) :
    doLightSet tag mode brightness mix s.newTransaction = s.refusedBy 0x60#8 tag .powerDown := by
  unfold doLightSet
  split
  · rename_i hnone
    exact absurd ((lightModeOf_eq_none_iff mode).mp hnone) (Nat.not_lt.mpr hmode)
  · rw [if_neg (by omega)]
    exact if_pos hcut

theorem doLightSet_taken {md : LightMode} (hmode : lightModeOf mode = some md) (hb : brightness.toNat ≤ 1000)
    (hm : mix.toNat ≤ 100) (hcut : s.pwr.cutoff = false) :
    doLightSet tag mode brightness mix s.newTransaction =
      let l := s.lgt.set md brightness.toNat mix.toNat
      { s with lgt := l, lnk := s.replied 0x60#8 tag .ok (mode :: (l.target.bytes ++ l.clamped.bytes)) } := by
  have hgood : ¬(1000 < brightness.toNat ∨ 100 < mix.toNat) := by omega
  have hbody := Lgt.setBody_of hmode (s.lgt.set_mode md brightness.toNat mix.toNat)
  simp only [doLightSet, hmode, hgood, hcut, Bool.false_eq_true, if_false, State.onLgt_lgt, State.newTransaction_pwr,
    State.newTransaction_lgt, hbody]
  rfl

end

/-! ### Light Curve (R117) -/

theorem Curve.valid_iff (c : Curve) :
    c.valid = true ↔
      (c.p0.lux < c.p1.lux ∧ c.p1.lux < c.p2.lux ∧ c.p2.lux < c.p3.lux) ∧
        c.p3.lux ≤ 8190 ∧ c.p0.b ≤ 1000 ∧ c.p1.b ≤ 1000 ∧ c.p2.b ≤ 1000 ∧ c.p3.b ≤ 1000 := by
  simp only [Curve.valid, List.all_cons, List.all_nil, Bool.and_true, Bool.and_eq_true, decide_eq_true_eq]
  omega

section
variable {l : Lgt}

/-- Without a filtered ambient that is fresh, a curve is only stored (R117). -/
theorem Lgt.setCurve_stored (h : l.filtered = none ∨ l.stale = true) (c : Curve) :
    l.setCurve c = { l with curve := c } := by
  refine if_neg fun hfresh => ?_
  obtain ⟨hfiltered, hstale⟩ := hfresh
  rcases h with hnone | hold
  · simp [hnone] at hfiltered
  · simp [hold] at hstale

/-- A curve gives the filtered ambient a new auto brightness, which the targets follow in AUTO (R117, R122). -/
theorem Lgt.setCurve_applied {a : Nat} (ha : l.filtered = some a) (hstale : l.stale = false) (c : Curve) :
    l.setCurve c =
      if l.mode = .auto then Lgt.retarget { l with curve := c, auto := c.at_ (2 * a) }
      else { l with curve := c, auto := c.at_ (2 * a) } := by
  simp only [Lgt.setCurve, Lgt.reauto, ha, hstale, Option.isSome_some, and_self, if_true]

end

section
variable {s : State} {tag step : Byte} {lux0 b0 lux1 b1 lux2 b2 lux3 b3 : U16}

/-- A valid curve is taken, and any other is refused (R117). -/
theorem exec_lightCurve (hopen : s.linkOpen) :
    let c : Curve :=
      ⟨⟨lux0.toNat, b0.toNat⟩, ⟨lux1.toNat, b1.toNat⟩, ⟨lux2.toNat, b2.toNat⟩, ⟨lux3.toNat, b3.toNat⟩⟩
    exec (.lightCurve tag lux0 b0 lux1 b1 lux2 b2 lux3 b3) s = .next
      (if c.valid = true then { s with lgt := s.lgt.setCurve c, lnk := s.replied 0x61#8 tag .ok [] }
      else s.refusedBy 0x61#8 tag .badParam) :=
  next_take_of_linkOpen hopen _

/-! ### Light Ramp (R117) -/

theorem exec_lightRamp (hopen : s.linkOpen) :
    exec (.lightRamp tag step) s = .next
      (if step = 0#8 ∨ 100 < step.toNat then s.refusedBy 0x62#8 tag .badParam
      else { s with lgt := { s.lgt with step := step.toNat }, lnk := s.replied 0x62#8 tag .ok [] }) :=
  next_take_of_linkOpen hopen _

end

/-! ### The auto curve (R122) -/

/-- The brightness of a lux on the segment between two points, rounded toward minus infinity (R122). -/
def Point.segment (p q : Point) (lux : Nat) : Nat :=
  ((p.b : Int) + ((lux : Int) - p.lux) * ((q.b : Int) - p.b) / ((q.lux : Int) - p.lux)).toNat

theorem Curve.at_eq (c : Curve) (lux : Nat) :
    c.at_ lux =
      if lux < c.p0.lux then c.p0.b
      else if c.p3.lux ≤ lux then c.p3.b
      else if lux < c.p1.lux then c.p0.segment c.p1 lux
      else if lux < c.p2.lux then c.p1.segment c.p2 lux
      else c.p2.segment c.p3 lux := rfl

/-- Between two neighbouring points of an ascending curve its value is on their segment. -/
theorem Curve.at_eq_segment {c : Curve} {lux : Nat} {p q : Point} (h01 : c.p0.lux < c.p1.lux)
    (h12 : c.p1.lux < c.p2.lux) (h23 : c.p2.lux < c.p3.lux)
    (hpq : (p = c.p0 ∧ q = c.p1) ∨ (p = c.p1 ∧ q = c.p2) ∨ (p = c.p2 ∧ q = c.p3)) (hp : p.lux ≤ lux)
    (hq : lux < q.lux) : c.at_ lux = p.segment q lux := by
  have hlow : ¬lux < c.p0.lux := by
    rcases hpq with ⟨rfl, rfl⟩ | ⟨rfl, rfl⟩ | ⟨rfl, rfl⟩ <;> omega
  have hhigh : ¬c.p3.lux ≤ lux := by
    rcases hpq with ⟨rfl, rfl⟩ | ⟨rfl, rfl⟩ | ⟨rfl, rfl⟩ <;> omega
  rw [Curve.at_eq, if_neg hlow, if_neg hhigh]
  rcases hpq with ⟨rfl, rfl⟩ | ⟨rfl, rfl⟩ | ⟨rfl, rfl⟩
  · rw [if_pos hq]
  · rw [if_neg (by omega), if_pos hq]
  · rw [if_neg (by omega), if_neg (by omega)]

/-- The floor of a negative quotient is the quotient rounded up, negated. -/
theorem neg_ediv_eq_neg_ceil (n : Nat) {w : Nat} (hw : 0 < w) : -(n : Int) / w = -((n + (w - 1)) / w : Nat) := by
  have hle := Nat.div_mul_le_self (n + (w - 1)) w
  have hlt := Nat.lt_div_mul_add (a := n + (w - 1)) hw
  rw [Int.ediv_eq_iff_of_pos (by omega), Int.neg_mul, ← Int.natCast_mul]
  omega

section
variable {p q : Point} {lux : Nat}

theorem Point.segment_rising (hp : p.lux ≤ lux) (hq : lux < q.lux) (hb : p.b ≤ q.b) :
    p.segment q lux = p.b + (lux - p.lux) * (q.b - p.b) / (q.lux - p.lux) := by
  have hpq : p.lux ≤ q.lux := Nat.le_of_lt (Nat.lt_of_le_of_lt hp hq)
  rw [Point.segment, ← Int.natCast_sub hp, ← Int.natCast_sub hb, ← Int.natCast_sub hpq, ← Int.natCast_mul,
    ← Int.natCast_ediv, ← Int.natCast_add, Int.toNat_natCast]

theorem Point.segment_falling (hp : p.lux ≤ lux) (hq : lux < q.lux) (hb : q.b < p.b) :
    p.segment q lux = p.b - ((lux - p.lux) * (p.b - q.b) + (q.lux - p.lux - 1)) / (q.lux - p.lux) := by
  have hpq : p.lux < q.lux := Nat.lt_of_le_of_lt hp hq
  have hfall : (q.b : Int) - p.b = -(p.b - q.b : Nat) := by omega
  rw [Point.segment, ← Int.natCast_sub hp, ← Int.natCast_sub (Nat.le_of_lt hpq), hfall, Int.mul_neg,
    ← Int.natCast_mul, neg_ediv_eq_neg_ceil _ (Nat.sub_pos_of_lt hpq)]
  omega

end

end Sys2Proof.Machine

namespace Sys2Proof.Proofs
open Sys2Proof Sys2Proof.Machine

/-- Settles O48: the messages by their tests in order, the curve by where the lux lies and by the segment's slope. -/
theorem lightMessagesSetOrRefuse : Obligations.LightMessagesSetOrRefuse := by
  refine fun tag s hopen => ⟨fun mode mix brightness => ?_, fun lux0 b0 lux1 b1 lux2 b2 lux3 b3 => ?_,
    fun step => ⟨fun hlow hhigh => ?_, fun hbad => ?_, fun c lux h01 h12 h23 => ?_⟩⟩
  · intro answer
    have hanswer : answer = .next (doLightSet tag mode brightness mix s.newTransaction) := exec_lightSet hopen
    rw [hanswer]
    refine ⟨fun hbad => ?_, fun hmode hb hm hcut => ?_, fun md hmode hb hm hcut => ?_⟩
    · rw [doLightSet_bad hbad]
    · rw [doLightSet_powerDown hmode hb hm hcut]
    · rw [doLightSet_taken hmode hb hm hcut, Lgt.set_eq]
      cases md <;> rfl
  · intro answer c ascending fits
    have hanswer : answer = .next
        (if c.valid = true then { s with lgt := s.lgt.setCurve c, lnk := s.replied 0x61#8 tag .ok [] }
        else s.refusedBy 0x61#8 tag .badParam) := exec_lightCurve hopen
    rw [hanswer]
    refine ⟨fun hbad => ?_, fun hasc hfits hstored => ?_, fun hasc hfits a ha hstale => ?_⟩
    · rw [if_neg fun hvalid => hbad (c.valid_iff.mp hvalid)]
    · rw [if_pos (c.valid_iff.mpr ⟨hasc, hfits⟩), Lgt.setCurve_stored hstored]
    · rw [if_pos (c.valid_iff.mpr ⟨hasc, hfits⟩), Lgt.setCurve_applied ha hstale]
  · have hgood : ¬(step = 0#8 ∨ 100 < step.toNat) := by bv_omega
    rw [exec_lightRamp hopen, if_neg hgood]
  · rw [exec_lightRamp hopen, if_pos (hbad.imp_left BitVec.eq_of_toNat_eq)]
  · refine ⟨fun hlow => ?_, fun hhigh => ?_, fun p q hpq hp hq => ?_⟩
    · rw [Curve.at_eq, if_pos hlow]
    · rw [Curve.at_eq, if_neg (by omega), if_pos hhigh]
    · rw [Curve.at_eq_segment h01 h12 h23 hpq hp hq]
      exact ⟨Point.segment_rising hp hq, Point.segment_falling hp hq⟩

end Sys2Proof.Proofs
end

