-- ==== Sys2Proof/Proofs/RadioFrames.lean ====
section
/-! Frames of the radio link: their CRC, the buffer they are assembled in, and the STATUS frames (section 7.1). -/
namespace Sys2Proof.Machine
open Sys2Proof

/-! ### The CRC (R127) -/

/-- A further byte goes through the register. -/
theorem crc_concat (bytes : List Byte) (b : Byte) : crc (bytes ++ [b]) = crcByte (crc bytes) b := by
  rw [crc, List.foldl_append]
  rfl

/-- The register after the digits 1 to 9, digit by digit. -/
theorem crc_digits : crc [0x31#8, 0x32#8, 0x33#8, 0x34#8, 0x35#8, 0x36#8, 0x37#8, 0x38#8, 0x39#8] = 0x29B1#16 := by
  have h1 : crcByte 0xFFFF#16 0x31#8 = 0xC782#16 := by decide
  have h2 : crcByte 0xC782#16 0x32#8 = 0x3DBA#16 := by decide
  have h3 : crcByte 0x3DBA#16 0x33#8 = 0x5BCE#16 := by decide
  have h4 : crcByte 0x5BCE#16 0x34#8 = 0x5349#16 := by decide
  have h5 : crcByte 0x5349#16 0x35#8 = 0x4560#16 := by decide
  have h6 : crcByte 0x4560#16 0x36#8 = 0x2EF4#16 := by decide
  have h7 : crcByte 0x2EF4#16 0x37#8 = 0x7718#16 := by decide
  have h8 : crcByte 0x7718#16 0x38#8 = 0xA12B#16 := by decide
  have h9 : crcByte 0xA12B#16 0x39#8 = 0x29B1#16 := by decide
  rw [crc]
  simp only [List.foldl, h1, h2, h3, h4, h5, h6, h7, h8, h9]

/-- The layout of a STATUS frame (11.9). -/
theorem StatusEntry.bytes_eq {e : StatusEntry} {code : Byte} (hcode : u8 e.result.code = [code]) :
    let body := [3#8, e.id] ++ le32 (BitVec.ofNat 32 e.lowest) ++ le32 (BitVec.ofNat 32 e.last) ++ [code]
    e.bytes = 0xA5#8 :: body ++ le16 (crc body) := by
  rw [StatusEntry.bytes, hcode]
  rfl

theorem goodFrame_eq_false {kind id : Byte} {index : U32} {payload : List Byte} {check : U16}
    (h : check ≠ crc (radioFrameBytes kind id index payload)) : goodFrame kind id index payload check = false := by
  rw [goodFrame, decide_eq_false h, Bool.and_false]

/-- A frame whose payload fits is good with the CRC of its own bytes. -/
theorem goodFrame_of_crc {payload : List Byte} (h : payload.length ≤ 2048) (kind id : Byte) (index : U32) :
    goodFrame kind id index payload (crc (radioFrameBytes kind id index payload)) = true := by
  simp [goodFrame, h]

/-! ### The buffer in assembly (R128, R130) -/

theorem State.radioEn_iff (s : State) :
    s.radioEn = true ↔ s.supply = .on ∧ (s.pwr.power = .active ∨ s.pwr.power = .doze) := by
  simp [State.radioEn]

/-- The buffer in assembly becomes `b`. -/
def Rad.assembled (r : Rad) (b : Buffer) : Rad :=
  if r.bufA = .assembling then { r with bufA := b } else { r with bufB := b }

/-- Within a frame the buffer that is not A is B. -/
theorem Rad.settleAssembling_of_inFrame {r : Rad} (h : r.inFrame = true) (b : Buffer) :
    r.settleAssembling b = r.assembled b := by
  by_cases hA : r.bufA = .assembling
  · simp [Rad.settleAssembling, Rad.assembled, hA]
  · have hB : r.bufB = .assembling := by simpa [Rad.inFrame, hA] using h
    simp [Rad.settleAssembling, Rad.assembled, hA, hB]

/-- The records after a discard of one of the id's frames (R129, R130). -/
def Spl.countDiscard (p : Spl) (id : Byte) : Spl :=
  { p with table := p.table.map fun d => if d.id = id then { d with discards := (d.discards + 1) % 65536 } else d }

section
variable {s : State}

theorem exec_frameStart (hon : s.radioEn = true) (hhunt : s.rad.inFrame = false) :
    exec .frameStart s = .next { s with rad := s.rad.claim } :=
  congrArg Host.Outcome.next (if_pos (by simp [hon, hhunt]))

/-- A gap is a receive fault (R129). -/
theorem exec_gap (f : RxFault) (id : Option Byte) : exec (.gap id) s = exec (.receiveFault f id) s := rfl

variable {id : Byte} {index : U32} {payload : List Byte} {check : U16}

theorem exec_dataFrame_bad (h : check ≠ crc (radioFrameBytes 0x01#8 id index payload)) (f : RxFault) :
    exec (.dataFrame id index payload check) s = exec (.receiveFault f (some id)) s := by
  refine congrArg Host.Outcome.next (ite_congr rfl (fun _ => if_neg ?_) fun _ => rfl)
  rw [goodFrame_eq_false h]
  exact Bool.false_ne_true

theorem exec_abortFrame_bad (h : check ≠ crc (radioFrameBytes 0x02#8 id index payload)) (f : RxFault) :
    exec (.abortFrame id index payload check) s = exec (.receiveFault f (some id)) s := by
  refine congrArg Host.Outcome.next (ite_congr rfl (fun _ => if_neg ?_) fun _ => rfl)
  rw [goodFrame_eq_false h]
  exact Bool.false_ne_true

variable (hon : s.radioEn = true) (hframe : s.rad.inFrame = true)
include hon hframe

theorem State.receiving_of_inFrame : s.receiving = true := by
  rw [State.receiving, hon, hframe, Bool.and_self]

/-- A receive fault discards the frame in assembly (R129). -/
theorem exec_receiveFault (f : RxFault) (id : Option Byte) :
    exec (.receiveFault f id) s =
      .next
        (State.afterRadio s.spl
          { s with rad := s.rad.assembled .empty, spl := id.elim s.spl s.spl.countDiscard }) := by
  refine congrArg Host.Outcome.next ((if_pos (State.receiving_of_inFrame hon hframe)).trans ?_)
  rw [← Rad.settleAssembling_of_inFrame hframe]
  cases id <;> rfl

end

/-! ### The STATUS queue and its transmitter (R132) -/

section
variable {s : State}

theorem State.transmit_sends {e : StatusEntry} {rest : List StatusEntry} (hon : s.radioEn = true)
    (hidle : s.rad.sending = none) (hqueue : s.rad.queue = e :: rest) :
    s.transmit = { s with rad := { s.rad with sending := some e.bytes, queue := rest } } := by
  simp only [State.transmit, hon, hidle, hqueue, and_self, if_true]
  rfl

theorem State.transmit_empty (hqueue : s.rad.queue = []) : s.transmit = s := by
  simp only [State.transmit, hqueue, ite_self]

theorem State.transmit_held (h : s.radioEn = false ∨ s.rad.sending ≠ none) : s.transmit = s := by
  refine if_neg ?_
  rintro ⟨hon, hidle⟩
  obtain hoff | hbusy := h
  · simp [hoff] at hon
  · exact hbusy hidle

theorem Spl.lowestOf_eq (p : Spl) (id : Byte) : p.lowestOf id = ((p.find id).map Download.lowest).getD 0 := by
  cases h : p.find id <;> simp [Spl.lowestOf, h]

/-- A status joins the queue, and the transmitter follows (R132, R204). -/
theorem State.status_eq (s : State) (id : Byte) (index : Nat) (result : SegResult) :
    s.status id index result =
      State.transmit
        { s with
          rad :=
            { s.rad with
              queue :=
                enqueueStatus (fun i => (s.spl.find i).isSome) s.rad.queue
                  ⟨id, ((s.spl.find id).map Download.lowest).getD 0, index, result⟩ } } := by
  rw [← Spl.lowestOf_eq]
  rfl

theorem exec_statusFrameSent {f : List Byte} (h : s.rad.sending = some f) :
    exec .statusFrameSent s = .next (State.transmit { s with rad := { s.rad with sending := none } }) :=
  congrArg Host.Outcome.next (if_pos (by simp [h]))

end

section
variable {known : Byte → Bool} {queue : List StatusEntry} {e : StatusEntry}

theorem enqueueStatus_replaces (h : ∃ q ∈ queue, q.id = e.id) :
    enqueueStatus known queue e = queue.map fun q => if q.id = e.id then e else q :=
  if_pos (by simpa using h)

variable (hnew : ∀ q ∈ queue, q.id ≠ e.id)
include hnew

theorem enqueueStatus_new :
    enqueueStatus known queue e =
      if queue.length < 4 then queue ++ [e]
      else if known e.id then
        if queue.any fun q => !known q.id then (queue.eraseP fun q => !known q.id) ++ [e] else queue
      else queue :=
  if_neg (by simpa using hnew)

/-- The oldest entry whose id names no record gives its place up. -/
theorem enqueueStatus_displaces {pre post : List StatusEntry} {q : StatusEntry} (hfull : 4 ≤ queue.length)
    (hknown : known e.id = true) (hqueue : queue = pre ++ q :: post) (hpre : ∀ x ∈ pre, known x.id = true)
    (hq : known q.id = false) : enqueueStatus known queue e = pre ++ post ++ [e] := by
  have hany : (queue.any fun q => !known q.id) = true := by simp [hqueue, hq]
  have herase : (queue.eraseP fun q => !known q.id) = pre ++ post := by
    rw [hqueue, List.eraseP_append_right _ (by simpa using hpre), List.eraseP_cons_of_pos (by simp [hq])]
  rw [enqueueStatus_new hnew, if_neg (by omega), if_pos hknown, if_pos hany, herase]

theorem enqueueStatus_dropped (hfull : 4 ≤ queue.length)
    (h : known e.id = false ∨ ∀ q ∈ queue, known q.id = true) : enqueueStatus known queue e = queue := by
  rw [enqueueStatus_new hnew, if_neg (by omega)]
  obtain hunknown | hall := h
  · rw [if_neg (by simp [hunknown])]
  · rw [if_neg (c := (queue.any fun q => !known q.id) = true) (by simpa using hall), ite_self]

end

end Sys2Proof.Machine

namespace Sys2Proof.Proofs
open Sys2Proof Sys2Proof.Machine

/-- Settles O49: the register byte by byte, the STATUS frame by its result, and the frames by their checks. -/
theorem radioFramesCarryTheCrc : Obligations.RadioFramesCarryTheCrc := by
  refine ⟨rfl, crc_concat, ?_, ?_, fun id index payload check s _ _ _ =>
    ⟨fun h => exec_dataFrame_bad h _, fun h => exec_abortFrame_bad h _⟩⟩
  · rw [crc_digits]
    decide
  · intro e result check
    have hcode : u8 e.result.code = [result] := by
      simp only [result]
      cases e.result <;> rfl
    rw [StatusEntry.bytes_eq hcode]
    exact ⟨rfl, rfl, rfl, rfl, rfl, rfl, rfl, rfl⟩

/-- Settles O50: the assembly buffers by the receiver's state, the transmitter by its queue, and the queue by what the
id names. -/
theorem radioFramesStartFaultAndReport : Obligations.RadioFramesStartFaultAndReport := by
  refine ⟨State.radioEn_iff, fun s hon => ⟨?_, ?_, ?_, ?_, ?_⟩, ?_, fun known queue e =>
    ⟨enqueueStatus_replaces, fun hnew hroom => ?_, fun hnew hfull hknown pre q post => ?_, enqueueStatus_dropped⟩⟩
  · intro hhunt hA
    rw [exec_frameStart hon hhunt, Rad.claim, if_pos hA]
  · intro hhunt hA hB
    rw [exec_frameStart hon hhunt, Rad.claim, if_neg hA, if_pos hB]
  · intro hframe freed counted f
    have hfault (id : Option Byte) := exec_receiveFault hon hframe f id
    exact ⟨hfault none, (exec_gap f none).trans (hfault none), fun i =>
      ⟨hfault (some i), (exec_gap f (some i)).trans (hfault (some i))⟩⟩
  · intro e rest hqueue sent
    refine ⟨fun hidle => ?_, fun f hbusy => ?_⟩
    · exact congrArg Host.Outcome.next (State.transmit_sends hon hidle hqueue)
    · exact (exec_statusFrameSent hbusy).trans (congrArg Host.Outcome.next (State.transmit_sends hon rfl hqueue))
  · intro f hbusy hqueue
    exact (exec_statusFrameSent hbusy).trans (congrArg Host.Outcome.next (State.transmit_empty hqueue))
  · intro id index result s lowest queue
    rw [State.status_eq]
    exact ⟨fun e rest hon hidle hqueue => State.transmit_sends hon hidle hqueue, fun h => State.transmit_held h⟩
  · rw [enqueueStatus_new hnew, if_pos hroom]
  · exact enqueueStatus_displaces hnew hfull hknown

end Sys2Proof.Proofs
end

