-- ==== Sys2Proof/Proofs/SegmentsAndAborts.lean ====
section
/-! Segments and ABORT frames of a download, and a segment that waits (section 7.3). -/
namespace Sys2Proof.Machine
open Sys2Proof

/-! ### Received runs (R133, R141) -/

theorem inRuns_cons (a b : Nat) (rest : List (Nat × Nat)) (j : Nat) :
    inRuns ((a, b) :: rest) j = true ↔ (a ≤ j ∧ j ≤ b) ∨ inRuns rest j = true := by
  simp [inRuns]

/-- An index that joins the runs adds itself and nothing else (R141). -/
theorem inRuns_addRun (i : Nat) {runs : List (Nat × Nat)} (h : ∀ r ∈ runs, r.1 ≤ r.2) (j : Nat) :
    inRuns (addRun i runs) j = true ↔ j = i ∨ inRuns runs j = true := by
  induction runs with
  | nil =>
    rw [addRun, inRuns_cons]
    simp only [inRuns, List.any_nil, Bool.false_eq_true, or_false]
    omega
  | cons r rest ih =>
    obtain ⟨a, b⟩ := r
    obtain ⟨hab, hrest⟩ := List.forall_mem_cons.mp h
    have hab : a ≤ b := hab
    simp only [addRun]
    split
    · grind [inRuns_cons]
    split
    · grind [inRuns_cons]
    split
    · grind [inRuns_cons]
    split
    · cases rest with
      | nil => grind [inRuns_cons]
      | cons q more =>
        obtain ⟨c, e⟩ := q
        have hce : c ≤ e := hrest _ List.mem_cons_self
        simp only
        split
        · grind [inRuns_cons]
        · grind [inRuns_cons]
    · rw [inRuns_cons, ih hrest, inRuns_cons, or_left_comm]

/-- Runs are trimmed where one of them lies within none of the new ones. -/
theorem trimmed_iff (before after : List (Nat × Nat)) :
    trimmed before after = true ↔ ∃ r ∈ before, ∀ q ∈ after, ¬(q.1 ≤ r.1 ∧ r.2 ≤ q.2) := by
  simp [trimmed]

/-! ### A record's last missing segment (R147) -/

section
variable (d : Download) (i stallAt : Nat)

/-- The record once the index has joined its runs and the stall timer has restarted. -/
abbrev Download.joined : Download := { d with runs := addRun i d.runs, stall := some stallAt }

theorem Download.accept_more (h : (d.joined i stallAt).lowest ≠ d.segments) :
    d.accept i stallAt = d.joined i stallAt := if_neg h

theorem Download.accept_last (h : (d.joined i stallAt).lowest = d.segments) :
    d.accept i stallAt = { d.joined i stallAt with state := .draining, stall := none } := if_pos h

theorem Download.accept_runs : (d.accept i stallAt).runs = addRun i d.runs := by
  by_cases h : (d.joined i stallAt).lowest = d.segments
  · rw [d.accept_last i stallAt h]
  · rw [d.accept_more i stallAt h]

end

/-! ### Room in staging (R135, R141) -/

/-- The segments of a record's lowest page. -/
theorem Download.mem_lowestPage (d : Download) (i : Nat) :
    i ∈ d.pageSegments d.lowestPage ↔
      d.lowest / (2048 / d.size) * (2048 / d.size) ≤ i ∧
        i < d.lowest / (2048 / d.size) * (2048 / d.size) + 2048 / d.size ∧ i < d.segments := by
  rw [Download.mem_pageSegments, Nat.succ_mul]
  rfl

theorem Spl.hasRoom_iff (p : Spl) (d : Download) (i : Nat) :
    p.hasRoom d i = true ↔
      (i ∈ d.pageSegments d.lowestPage ∧ 0 < p.freeBlocks) ∨
        (i ∉ d.pageSegments d.lowestPage ∧ p.reserve < p.freeBlocks) := by
  by_cases h : i ∈ d.pageSegments d.lowestPage <;> simp [Spl.hasRoom, h]

/-- What holds of a number below `m` is counted among the first `n` as among the first `min n m`. -/
theorem countP_range_below (q : Nat → Bool) (n m : Nat) :
    (List.range n).countP (fun j => decide (j < m) && q j) = (List.range (min n m)).countP q := by
  induction n with
  | zero => simp
  | succ n ih =>
    by_cases h : n < m
    · rw [show min (n + 1) m = min n m + 1 by omega, List.range_succ, List.range_succ, List.countP_append,
        List.countP_append, ih, show min n m = n by omega]
      simp [h]
    · rw [show min (n + 1) m = min n m by omega, List.range_succ, List.countP_append, ih]
      simp [h]

theorem Download.shortfall_eq (d : Download) :
    let first := d.lowest / (2048 / d.size) * (2048 / d.size)
    d.shortfall =
      (List.range (2048 / d.size)).countP fun j => decide (first + j < d.segments) && !inRuns d.runs (first + j) := by
  intro first
  have hbelow (j : Nat) : decide (first + j < d.segments) = decide (j < d.segments - first) := by
    simp only [decide_eq_decide]
    omega
  have hpage : d.pageSegments d.lowestPage =
      (List.range (min (2048 / d.size) (d.segments - first))).map (first + ·) := List.range'_eq_map_range ..
  simp only [hbelow]
  rw [countP_range_below (fun j => !inRuns d.runs (first + j)), Download.shortfall, hpage,
    ← List.countP_eq_length_filter, List.countP_map]
  rfl

/-! ### The tests of R140, in order -/

/-- RADIO's gate lets the segments of the radio in (R130, R144, R170). -/
abbrev State.Admits (s : State) : Prop := s.pwr.level = .normal ∨ s.pwr.gate.holder = .radio

theorem State.not_admits_iff (s : State) : ¬s.Admits ↔ s.gateApplies = true ∧ s.pwr.gate.holder ≠ .radio := by
  rw [State.gateApplies_iff, not_or]

/-- The segment's record takes segments, and its index and length are right: tests 1 to 3 pass. -/
structure State.Fits (s : State) (g : Segment) (d : Download) : Prop where
  find : s.spl.find g.id = some d
  receiving : d.state = .receiving
  kept : d.removal = false
  admits : s.Admits
  index : g.index < d.segments
  length : g.payload.length = d.payloadLength g.index

/-- Tests 4 to 6 pass too: the segment is new, within the window, and its index can join the runs. -/
structure State.Joins (s : State) (g : Segment) (d : Download) : Prop extends s.Fits g d where
  fresh : inRuns d.runs g.index = false
  window : g.index < d.lowest + 64
  joins : touchesRun d.runs g.index = true ∨ d.runs.length < 8

section
variable {s : State} {g : Segment} {d : Download}

theorem State.judge_unknown (hnone : s.spl.find g.id = none) : s.judge g = .result .refused := by
  simp only [State.judge, hnone]

theorem State.judge_closed (hd : s.spl.find g.id = some d) (h : d.state ≠ .receiving ∨ d.removal = true) :
    s.judge g = .result .refused := by
  simp only [State.judge, hd]
  exact if_pos (by simpa using h)

/-- A record that takes segments: the gate, and then the tests from the third on. -/
theorem State.judge_open (hd : s.spl.find g.id = some d) (hstate : d.state = .receiving) (hkept : d.removal = false) :
    s.judge g =
      if s.gateApplies ∧ s.pwr.gate.holder ≠ .radio then .result .held
      else if d.segments ≤ g.index || g.payload.length ≠ d.payloadLength g.index then .result .badRange
      else if inRuns d.runs g.index then .result .duplicate
      else if d.lowest + 64 ≤ g.index then .result .outOfWindow
      else if !touchesRun d.runs g.index && 8 ≤ d.runs.length then .result .gapLimit
      else if !s.spl.hasRoom d g.index then .waits
      else s.spl.freeBlock.elim .waits (.stores d) := by
  have hopen : ¬(d.state ≠ .receiving || d.removal) = true := by simp [hstate, hkept]
  simp only [State.judge, hd]
  rw [if_neg hopen]
  cases s.spl.freeBlock <;> rfl

theorem State.judge_held (hd : s.spl.find g.id = some d) (hstate : d.state = .receiving) (hkept : d.removal = false)
    (h : ¬s.Admits) : s.judge g = .result .held := by
  rw [State.judge_open hd hstate hkept, if_pos (s.not_admits_iff.mp h)]

theorem State.judge_badRange (hd : s.spl.find g.id = some d) (hstate : d.state = .receiving)
    (hkept : d.removal = false) (hadmits : s.Admits)
    (h : d.segments ≤ g.index ∨ g.payload.length ≠ d.payloadLength g.index) : s.judge g = .result .badRange := by
  rw [State.judge_open hd hstate hkept, if_neg (mt s.not_admits_iff.mpr (not_not_intro hadmits)),
    if_pos (by simpa using h)]

/-- A segment that fits its record is judged by what has been received of the record. -/
theorem State.Fits.judge (h : s.Fits g d) :
    s.judge g =
      if inRuns d.runs g.index then .result .duplicate
      else if d.lowest + 64 ≤ g.index then .result .outOfWindow
      else if !touchesRun d.runs g.index && 8 ≤ d.runs.length then .result .gapLimit
      else if !s.spl.hasRoom d g.index then .waits
      else s.spl.freeBlock.elim .waits (.stores d) := by
  have hrange : ¬(decide (d.segments ≤ g.index) || decide (g.payload.length ≠ d.payloadLength g.index)) = true := by
    simp [h.index, h.length]
  rw [State.judge_open h.find h.receiving h.kept, if_neg (mt s.not_admits_iff.mpr (not_not_intro h.admits)),
    if_neg hrange]

theorem State.Fits.judge_duplicate (h : s.Fits g d) (hdup : inRuns d.runs g.index = true) :
    s.judge g = .result .duplicate := by
  rw [h.judge, if_pos hdup]

theorem State.Fits.judge_outOfWindow (h : s.Fits g d) (hnew : inRuns d.runs g.index = false)
    (hfar : d.lowest + 64 ≤ g.index) : s.judge g = .result .outOfWindow := by
  rw [h.judge, if_neg (Bool.eq_false_iff.mp hnew), if_pos hfar]

theorem State.Fits.judge_gapLimit (h : s.Fits g d) (hnew : inRuns d.runs g.index = false)
    (hnear : g.index < d.lowest + 64) (hapart : touchesRun d.runs g.index = false) (hfull : 8 ≤ d.runs.length) :
    s.judge g = .result .gapLimit := by
  rw [h.judge, if_neg (Bool.eq_false_iff.mp hnew), if_neg (Nat.not_le.mpr hnear), if_pos (by simp [hapart, hfull])]

/-- A segment that can join the runs is judged by the room in staging. -/
theorem State.Joins.judge (h : s.Joins g d) :
    s.judge g = if !s.spl.hasRoom d g.index then .waits else s.spl.freeBlock.elim .waits (.stores d) := by
  have hruns : ¬(!touchesRun d.runs g.index && decide (8 ≤ d.runs.length)) = true := by
    obtain htouch | hfew := h.joins
    · simp [htouch]
    · simp [hfew]
  rw [h.toFits.judge, if_neg (Bool.eq_false_iff.mp h.fresh), if_neg (Nat.not_le.mpr h.window), if_neg hruns]

theorem State.Joins.judge_waits (h : s.Joins g d) (hfull : s.spl.hasRoom d g.index = false) : s.judge g = .waits := by
  rw [h.judge, hfull]
  rfl

theorem State.Joins.judge_stores (h : s.Joins g d) (hroom : s.spl.hasRoom d g.index = true) {b : Nat}
    (hb : s.spl.freeBlock = some b) : s.judge g = .stores d b := by
  rw [h.judge, hroom, hb]
  rfl

end

/-! ### What a verdict does (R140, R142) -/

theorem State.outcome_of_ne_held {r : SegResult} (h : r ≠ .held) (s : State) (g : Segment) :
    s.outcome g r = s.status g.id g.index r := if_neg h

/-- An accepted segment stands in its block and in the runs of its record (R140 test 8). -/
theorem State.store_eq (s : State) (g : Segment) (b : Nat) :
    s.store g b =
      State.status
        { s with
          mem := { s.mem with cells := Memory.writeMany 0xFF#8 s.mem.cells (Memory.run (b * 2048) g.payload) }
          spl :=
            { s.spl with
              table :=
                s.spl.table.map fun e =>
                  if e.id = g.id then e.accept g.index (s.clock + s.spl.stallTime * 4000000) else e
              staged := s.spl.staged ++ [⟨g.id, g.index, b⟩] } }
        g.id g.index .accepted := rfl

/-- The state without the frame in assembly (R130). -/
abbrev State.frameFreed (s : State) : State := { s with rad := s.rad.assembled .empty }

section
variable {s : State} {g : Segment} (hframe : s.rad.inFrame = true)
include hframe

theorem State.onRad_freed : (s.onRad fun r => r.settleAssembling .empty) = s.frameFreed :=
  congrArg (fun r => { s with rad := r }) (Rad.settleAssembling_of_inFrame hframe _)

theorem State.takeSegment_notAdmitted (h : ¬s.Admits) :
    s.takeSegment g = (s.frameFreed.countDiscard g.id).status g.id g.index .held := by
  rw [← State.onRad_freed hframe]
  exact if_pos (s.not_admits_iff.mp h)

variable (hadmits : s.Admits)
include hadmits

theorem State.takeSegment_result {r : SegResult} (hj : s.judge g = .result r) (hr : r ≠ .held) :
    s.takeSegment g = s.frameFreed.status g.id g.index r := by
  rw [State.takeSegment, if_neg (mt s.not_admits_iff.mpr (not_not_intro hadmits)), State.onRad_freed hframe]
  simp only [hj]
  exact State.outcome_of_ne_held hr _ g

theorem State.takeSegment_stores {d : Download} {b : Nat} (hj : s.judge g = .stores d b) :
    s.takeSegment g = s.frameFreed.store g b := by
  rw [State.takeSegment, if_neg (mt s.not_admits_iff.mpr (not_not_intro hadmits)), State.onRad_freed hframe]
  simp only [hj]

theorem State.takeSegment_overrun (hj : s.judge g = .waits) (hwaits : s.rad.waitingSegment ≠ none) :
    s.takeSegment g = (s.frameFreed.countDiscard g.id).status g.id g.index .overrun := by
  rw [State.takeSegment, if_neg (mt s.not_admits_iff.mpr (not_not_intro hadmits)), State.onRad_freed hframe]
  simp only [hj]
  exact if_pos (Option.isSome_iff_ne_none.mpr hwaits)

theorem State.takeSegment_waits (hj : s.judge g = .waits) (hnone : s.rad.waitingSegment = none) :
    s.takeSegment g = { s with rad := s.rad.assembled (.waiting g) } := by
  rw [State.takeSegment, if_neg (mt s.not_admits_iff.mpr (not_not_intro hadmits)),
    ← Rad.settleAssembling_of_inFrame hframe]
  simp only [hj, hnone]
  rfl

end

section
variable {s : State} {g : Segment}

/-- The buffers without the WAITING segment. -/
def Rad.cleared (r : Rad) (g : Segment) : Rad :=
  if r.bufA = .waiting g then { r with bufA := .empty } else { r with bufB := .empty }

theorem Rad.clearWaiting_of_waiting {r : Rad} (h : r.waitingSegment = some g) : r.clearWaiting = r.cleared g := by
  cases hA : r.bufA <;> cases hB : r.bufB <;> simp_all [Rad.waitingSegment, Rad.clearWaiting, Rad.cleared]

theorem State.examineWaiting_draining (hdrain : s.draining = true) : s.examineWaiting = s := if_pos hdrain

variable (hwaiting : s.rad.waitingSegment = some g) (hdrain : s.draining = false)
include hwaiting hdrain

/-- The state without the WAITING segment. -/
abbrev State.waitingFreed (s : State) (g : Segment) : State := { s with rad := s.rad.cleared g }

theorem State.examineWaiting_waits (hj : s.judge g = .waits) : s.examineWaiting = s := by
  rw [State.examineWaiting, if_neg (Bool.eq_false_iff.mp hdrain)]
  simp only [hwaiting, hj]

theorem State.examineWaiting_result {r : SegResult} (hj : s.judge g = .result r) :
    s.examineWaiting = (s.waitingFreed g).outcome g r := by
  rw [State.examineWaiting, if_neg (Bool.eq_false_iff.mp hdrain)]
  simp only [hwaiting, hj, State.onRad, Rad.clearWaiting_of_waiting hwaiting]

theorem State.examineWaiting_stores {d : Download} {b : Nat} (hj : s.judge g = .stores d b) :
    s.examineWaiting = (s.waitingFreed g).store g b := by
  rw [State.examineWaiting, if_neg (Bool.eq_false_iff.mp hdrain)]
  simp only [hwaiting, hj, State.onRad, Rad.clearWaiting_of_waiting hwaiting]

end

/-! ### ABORT frames (R143) -/

/-- STO without a pending request for the record (R159). -/
def Sto.withdrawnFor (t : Sto) (id : Byte) : Sto :=
  match t.pending.spooler with
  | some q => if q.download = id then { t with pending := { t.pending with spooler := none } } else t
  | none => t

theorem State.withdrawFor_sto (s : State) (id : Byte) : (s.withdrawFor id).sto = s.sto.withdrawnFor id :=
  congrArg State.sto (s.withdrawFor_eq id)

/-- A record that leaves acceptance takes its staged segments and its pending request with it. -/
theorem State.releaseRecord_eq (s : State) (id : Byte) (f : Download → Download) :
    s.releaseRecord id f =
      { s with
        spl :=
          { s.spl with
            table := s.spl.table.map fun d => if d.id = id then { f d with stall := none } else d
            staged := s.spl.staged.filter fun g => g.id ≠ id }
        sto := s.sto.withdrawnFor id } := by
  rw [State.releaseRecord, State.withdrawFor_eq]
  rfl

/-- A record failed by an ABORT frame, with its first `kept` pages in its runs (R143). -/
def Download.aborted (d : Download) (kept : Nat) : Download :=
  { d with state := .failed, fault := some .radioAbort, runs := d.runsOfPages kept, stall := none }

theorem State.abort_eq (s : State) (id : Byte) :
    s.abort id =
      { s with
        spl :=
          { s.spl with
            table :=
              s.spl.table.map fun d =>
                if d.id = id then d.aborted (d.committedPages + if s.programFor id then 1 else 0) else d
            staged := s.spl.staged.filter fun g => g.id ≠ id }
        sto := s.sto.withdrawnFor id
        lnk := { s.lnk with notices := s.lnk.notices ||| 0x0080#16 } } := by
  have hkept (d : Download) (hd : d.id = id) :
      d.aborted (s.keptPages d) = d.aborted (d.committedPages + if s.programFor id then 1 else 0) := by
    rw [State.keptPages, hd]
  have htable :
      (s.spl.table.map fun d => if d.id = id then d.aborted (s.keptPages d) else d) =
        s.spl.table.map fun d =>
          if d.id = id then d.aborted (d.committedPages + if s.programFor id then 1 else 0) else d :=
    List.map_congr_left fun d _ => ite_congr rfl (hkept d) fun _ => rfl
  rw [← htable, State.abort, State.releaseRecord_eq]
  rfl

section
variable {s : State} {id : Byte} {d : Download}

theorem State.takeAbort_unknown (hnone : s.spl.find id = none) (index : Nat) :
    s.takeAbort id index = s.status id index .refused := by
  simp only [State.takeAbort, hnone]

theorem State.takeAbort_refused (hd : s.spl.find id = some d)
    (h : d.state = .complete ∨ d.state = .failed ∨ d.removal = true) (index : Nat) :
    s.takeAbort id index = s.status id index .refused := by
  have hclosed : ¬d.abortable = true := by
    obtain h | h | h := h <;> simp [Download.abortable, h]
  simp only [State.takeAbort, hd, if_neg hclosed]

theorem State.takeAbort_aborts (hd : s.spl.find id = some d)
    (h : d.state = .receiving ∨ d.state = .draining ∨ d.state = .suspended) (hkept : d.removal = false) (index : Nat) :
    s.takeAbort id index = (s.abort id).status id index .aborted := by
  have hopen : d.abortable = true := by
    simpa [Download.abortable, hkept, or_assoc] using h
  simp only [State.takeAbort, hd, if_pos hopen]

end

/-! ### Complete frames (R130, R151) -/

section
variable {s : State} {id : Byte} {index : U32} {payload : List Byte} (hon : s.radioEn = true)
  (hframe : s.rad.inFrame = true) (hlength : payload.length ≤ 2048)
include hon hframe hlength

theorem exec_dataFrame_good (hdrain : s.draining = false) :
    exec (.dataFrame id index payload (crc (radioFrameBytes 0x01#8 id index payload))) s =
      .next (State.afterRadio s.spl (s.takeSegment ⟨id, index.toNat, payload⟩)) := by
  refine congrArg Host.Outcome.next ((if_pos (State.receiving_of_inFrame hon hframe)).trans ?_)
  rw [if_pos (goodFrame_of_crc hlength ..), if_neg (Bool.eq_false_iff.mp hdrain)]

theorem exec_abortFrame_good (hdrain : s.draining = false) :
    exec (.abortFrame id index payload (crc (radioFrameBytes 0x02#8 id index payload))) s =
      .next (State.afterRadio s.spl (s.frameFreed.takeAbort id index.toNat)) := by
  refine congrArg Host.Outcome.next ((if_pos (State.receiving_of_inFrame hon hframe)).trans ?_)
  rw [if_pos (goodFrame_of_crc hlength ..), ← State.onRad_freed hframe]
  exact if_neg (Bool.eq_false_iff.mp hdrain)

theorem exec_dataFrame_draining (hdrain : s.draining = true) :
    exec (.dataFrame id index payload (crc (radioFrameBytes 0x01#8 id index payload))) s =
      .next (State.afterRadio s.spl s.frameFreed) := by
  refine congrArg Host.Outcome.next ((if_pos (State.receiving_of_inFrame hon hframe)).trans ?_)
  rw [if_pos (goodFrame_of_crc hlength ..), if_pos hdrain, State.onRad_freed hframe]

theorem exec_abortFrame_draining (hdrain : s.draining = true) :
    exec (.abortFrame id index payload (crc (radioFrameBytes 0x02#8 id index payload))) s =
      .next (State.afterRadio s.spl s.frameFreed) := by
  refine congrArg Host.Outcome.next ((if_pos (State.receiving_of_inFrame hon hframe)).trans ?_)
  rw [if_pos (goodFrame_of_crc hlength ..), ← State.onRad_freed hframe]
  exact if_pos hdrain

end

/-! ### The events of R142 -/

/-- What became of one record: removed, no longer RECEIVING, its runs trimmed, or its lowest page changed. -/
theorem Download.wakesWaiting_iff (d : Download) (after : Option Download) :
    d.wakesWaiting after = true ↔
      after = none ∨
        ∃ e, after = some e ∧
          ((d.state = .receiving ∧ e.state ≠ .receiving) ∨
            (∃ r ∈ d.runs, ∀ q ∈ e.runs, ¬(q.1 ≤ r.1 ∧ r.2 ≤ q.2)) ∨ d.lowestPage ≠ e.lowestPage) := by
  cases after with
  | none => simp [Download.wakesWaiting]
  | some e => simp [Download.wakesWaiting, trimmed_iff, or_assoc]

theorem Spl.wakesWaiting_iff (before after : Spl) :
    before.wakesWaiting after = true ↔
      before.freeBlocks < after.freeBlocks ∨ ∃ d ∈ before.table, d.wakesWaiting (after.find d.id) = true := by
  simp [Spl.wakesWaiting]

end Sys2Proof.Machine

namespace Sys2Proof.Proofs
open Sys2Proof Sys2Proof.Machine

/-- Settles O51: a fresh segment and a WAITING one by the same verdicts, an ABORT frame by its record, then staging's
room, the events of R142, and what follows. -/
theorem segmentsAreJudgedInOrder : Obligations.SegmentsAreJudgedInOrder := by
  refine ⟨fun id index payload s hon hframe hlength hdrain => ?_, fun id index payload s hon hframe hlength hdrain =>
    ⟨exec_dataFrame_draining hon hframe hlength hdrain, exec_abortFrame_draining hon hframe hlength hdrain⟩,
    fun p d i stallAt => ?_, fun g s hwaiting => ?_, fun before after => ?_, fun s t o outcome data => ⟨rfl, rfl⟩⟩
  · intro covered n becomes free discarded abort data told admitted programs withdrawn
    let g : Segment := ⟨id, n, payload⟩
    have htake {t : State} (h : s.takeSegment g = t) : data = .next (State.afterRadio s.spl t) :=
      h ▸ exec_dataFrame_good hon hframe hlength hdrain
    have htakeAbort {t : State} (h : s.frameFreed.takeAbort id n = t) : abort = .next (State.afterRadio s.spl t) :=
      h ▸ exec_abortFrame_good hon hframe hlength hdrain
    refine ⟨fun hout => htake (State.takeSegment_notAdmitted hframe hout), fun hin hnone =>
      htake (State.takeSegment_result hframe hin (State.judge_unknown hnone) nofun), fun d hd hin => ?_, ?_⟩
    · have hresult {r : SegResult} (hj : s.judge g = .result r) (hr : r ≠ .held) : data = told free r :=
        htake (State.takeSegment_result hframe hin hj hr)
      refine ⟨fun hclosed => hresult (State.judge_closed hd hclosed) nofun, fun hstate hkept =>
        ⟨fun hbad => hresult (State.judge_badRange hd hstate hkept hin hbad) nofun, fun hindex hfits => ?_⟩⟩
      have hf : s.Fits g d := ⟨hd, hstate, hkept, hin, hindex, hfits⟩
      refine ⟨fun hdup => hresult (hf.judge_duplicate hdup) nofun,
        fun hnew hfar => hresult (hf.judge_outOfWindow hnew hfar) nofun,
        fun hnew hnear hapart hfull => hresult (hf.judge_gapLimit hnew hnear hapart hfull) nofun,
        fun hnew hnear hjoins => ?_⟩
      have hjoin : s.Joins g d := ⟨hf, hnew, hnear, hjoins⟩
      exact ⟨fun hfull hnone => htake (State.takeSegment_waits hframe hin (hjoin.judge_waits hfull) hnone),
        fun hfull hwaits => htake (State.takeSegment_overrun hframe hin (hjoin.judge_waits hfull) hwaits),
        fun hroom b hb =>
          htake ((State.takeSegment_stores hframe hin (hjoin.judge_stores hroom hb)).trans (State.store_eq ..))⟩
    · refine ⟨fun hnone => htakeAbort (State.takeAbort_unknown (s := s.frameFreed) hnone n), fun d hd =>
        ⟨fun hclosed => htakeAbort (State.takeAbort_refused (s := s.frameFreed) hd hclosed n), fun hopen hkept => ?_⟩⟩
      have hprograms : s.frameFreed.programFor id = programs := s.programFor_eq id
      refine (htakeAbort (State.takeAbort_aborts (s := s.frameFreed) hd hopen hkept n)).trans ?_
      rw [State.abort_eq, hprograms]
      rfl
  · intro perPage first inLowest free
    refine ⟨?_, rfl, d.shortfall_eq, fun hruns j => ?_, d.accept_more i stallAt, d.accept_last i stallAt⟩
    · rw [Spl.hasRoom_iff, Download.mem_lowestPage]
      rfl
    · obtain ⟨-, hordered, -⟩ := hruns
      rw [Download.accept_runs, inRuns_addRun i hordered]
  · intro free discarded told
    refine ⟨State.examineWaiting_draining, fun hdrain => ?_⟩
    have hresult {r : SegResult} (hj : s.judge g = .result r) (hr : r ≠ .held) : told free r :=
      (State.examineWaiting_result hwaiting hdrain hj).trans (State.outcome_of_ne_held hr _ g)
    refine ⟨fun hnone => hresult (State.judge_unknown hnone) nofun, fun d hd =>
      ⟨fun hclosed => hresult (State.judge_closed hd hclosed) nofun, fun hstate hkept =>
        ⟨fun hout => ?_, fun hin =>
          ⟨fun hbad => hresult (State.judge_badRange hd hstate hkept hin hbad) nofun, fun hindex hfits => ?_⟩⟩⟩⟩
    · exact State.examineWaiting_result hwaiting hdrain (State.judge_held hd hstate hkept (not_or.mpr hout))
    · have hf : s.Fits g d := ⟨hd, hstate, hkept, hin, hindex, hfits⟩
      refine ⟨fun hdup => hresult (hf.judge_duplicate hdup) nofun,
        fun hnew hfar => hresult (hf.judge_outOfWindow hnew hfar) nofun,
        fun hnew hnear hapart hfull => hresult (hf.judge_gapLimit hnew hnear hapart hfull) nofun,
        fun hnew hnear hjoins => ?_⟩
      have hjoin : s.Joins g d := ⟨hf, hnew, hnear, hjoins⟩
      exact ⟨fun hfull => State.examineWaiting_waits hwaiting hdrain (hjoin.judge_waits hfull),
        fun hroom b hb =>
          (State.examineWaiting_stores hwaiting hdrain (hjoin.judge_stores hroom hb)).trans (State.store_eq ..)⟩
  · simp only [Spl.wakesWaiting_iff, Download.wakesWaiting_iff]

end Sys2Proof.Proofs
end

