-- ==== Sys2Proof/Proofs/DownloadMessages.lean ====
section
/-! The download messages, Spool Settings, and the stall timer (sections 7.2 and 7.4). -/
namespace Sys2Proof.Machine
open Sys2Proof

/-! ### Staging (R135) -/

theorem State.canCarry_iff (s : State) (d : Download) :
    s.canCarry d = true ↔
      (s.spl.staging = [] → s.spl.budget ≤ s.mem.pool.length ∧ s.spl.reserve + d.shortfall ≤ s.spl.budget) ∧
        (s.spl.staging ≠ [] → s.spl.reserve + d.shortfall ≤ s.spl.freeBlocks) := by
  by_cases h : s.spl.staging = [] <;> simp [State.canCarry, h]

/-- Staging is taken from the pool's front where none is held. -/
theorem State.takeStaging_eq (s : State) :
    s.takeStaging =
      { s with
        mem := { s.mem with pool := if s.spl.staging = [] then s.mem.pool.drop s.spl.budget else s.mem.pool }
        spl :=
          { s.spl with
            staging := if s.spl.staging = [] then s.mem.pool.take s.spl.budget else s.spl.staging } } := by
  by_cases h : s.spl.staging = [] <;> simp [State.takeStaging, h]

theorem State.returnStaging_idle {s : State} (h : ∀ d ∈ s.spl.table, d.state ≠ .receiving ∧ d.state ≠ .draining) :
    s.returnStaging =
      { s with
        mem := { s.mem with pool := s.mem.pool ++ s.spl.staging }
        spl := { s.spl with staging := [], staged := [] } } := by
  refine if_neg fun hbusy => ?_
  obtain ⟨d, hd, hstate⟩ := s.spl.busy_iff.mp hbusy
  exact hstate.elim (h d hd).1 (h d hd).2

/-! ### The stall timer (R148) -/

theorem exec_stallTimerExpiry {s : State} {id : Byte} {d : Download} {e : Nat} (hd : s.spl.find id = some d)
    (he : d.stall = some e) :
    exec (.stallTimerExpiry id) s =
      .next
        (State.afterRadio s.spl
          ((State.suspend { s with clock := max s.clock e } id .stall).raise .downloadFault)) := by
  refine congrArg Host.Outcome.next ?_
  simp only [hd, he]
  rfl

/-! ### The tests of Download Arm (R134) -/

theorem goodArm_iff (id : Byte) (total size start : Nat) :
    goodArm id total size start = true ↔
      id ≠ 0#8 ∧ 1 ≤ total ∧ total ≤ 1073741824 ∧ size ∈ [256, 512, 1024, 2048] ∧ start % 64 = 0 ∧ start < 524288 := by
  simp only [goodArm, segmentSizes, Bool.and_eq_true, decide_eq_true_eq, List.contains_iff_mem, and_assoc]
  rfl

theorem Download.overlaps_iff (d e : Download) :
    d.overlaps e = true ↔ d.start < e.start + e.pages ∧ e.start < d.start + d.pages := by
  simp [Download.overlaps]

section
variable {s : State} {d : Download}

theorem State.judgeArm_exists (h : s.spl.find d.id ≠ none) : s.judgeArm d = some .dlExists :=
  if_pos (Option.isSome_iff_ne_none.mpr h)

theorem State.judgeArm_tableFull (hnew : s.spl.find d.id = none) (h : 4 ≤ s.spl.table.length) :
    s.judgeArm d = some .dlTableFull := by
  rw [State.judgeArm, if_neg (by simp [hnew]), if_pos h]

/-- A new record for which the table has room is judged by its range, the power and staging. -/
theorem State.judgeArm_new (hnew : s.spl.find d.id = none) (hroom : s.spl.table.length < 4) :
    s.judgeArm d =
      if 524288 < d.start + d.pages then some .storageRange
      else if (s.spl.table.any fun e => d.overlaps e) = true then some .dlOverlap
      else if s.pwr.cutoff = true then some .powerDown
      else if s.canCarry d = false then some .noMemory
      else none := by
  rw [State.judgeArm, if_neg (by simp [hnew]), if_neg (Nat.not_le.mpr hroom)]
  rfl

/-! ### The tests of Download Resume (R136) -/

theorem State.judgeResume_state (h : d.state ≠ .suspended ∨ d.removal = true) : s.judgeResume d = some .dlState :=
  if_pos (by simpa using h)

/-- A suspended record is judged by the power and staging. -/
theorem State.judgeResume_suspended (hstate : d.state = .suspended) (hkept : d.removal = false) :
    s.judgeResume d =
      if s.pwr.cutoff = true then some .powerDown else if s.canCarry d = false then some .noMemory else none :=
  if_neg (by simp [hstate, hkept])

end

/-! ### The two messages carried out -/

section
variable {s : State} {tag id : Byte} (hopen : s.linkOpen)
include hopen

section
variable {total start : U32} {size : U16}

theorem exec_downloadArm_bad (h : ¬goodArm id total.toNat size.toNat start.toNat = true) :
    exec (.downloadArm tag id total size start) s = .next (s.refusedBy 0x70#8 tag .badParam) :=
  (next_take_of_linkOpen hopen _).trans (congrArg Host.Outcome.next (if_neg h))

variable (hgood : goodArm id total.toNat size.toNat start.toNat = true)
include hgood

theorem exec_downloadArm_refused {e : Status}
    (hjudge : s.judgeArm (newDownload id total.toNat size.toNat start.toNat) = some e) :
    exec (.downloadArm tag id total size start) s = .next (s.refusedBy 0x70#8 tag e) := by
  have hjudge : s.newTransaction.judgeArm (newDownload id total.toNat size.toNat start.toNat) = some e := hjudge
  refine (next_take_of_linkOpen hopen _).trans (congrArg Host.Outcome.next ?_)
  rw [doDownloadArm, if_pos hgood]
  simp only [hjudge]
  rfl

/-- The record is made, with its stall timer running, and staging taken. -/
theorem exec_downloadArm_taken
    (hjudge : s.judgeArm (newDownload id total.toNat size.toNat start.toNat) = none) :
    let d := newDownload id total.toNat size.toNat start.toNat
    exec (.downloadArm tag id total size start) s =
      .next
        (State.settle
          { s with
            mem := s.takeStaging.mem
            spl := { s.takeStaging.spl with table := s.spl.table ++ [{ d with stall := some s.stallAt }] }
            lnk :=
              s.replied 0x70#8 tag .ok (le32 (BitVec.ofNat 32 d.segments) ++ le32 (BitVec.ofNat 32 d.pages)) }
          true) := by
  intro d
  have hjudge : s.newTransaction.judgeArm (newDownload id total.toNat size.toNat start.toNat) = none := hjudge
  refine (next_take_of_linkOpen hopen _).trans (congrArg Host.Outcome.next ?_)
  rw [doDownloadArm, if_pos hgood]
  simp only [hjudge, State.takeStaging_eq]
  rfl

end

section
variable {d : Download}

theorem exec_downloadResume_unknown (hnone : s.spl.find id = none) :
    exec (.downloadResume tag id) s = .next (s.refusedBy 0x71#8 tag .unknownDownload) := by
  have hnone : s.newTransaction.spl.find id = none := hnone
  refine (next_take_of_linkOpen hopen _).trans (congrArg Host.Outcome.next ?_)
  simp only [doDownloadResume, hnone]
  rfl

variable (hd : s.spl.find id = some d)
include hd

theorem exec_downloadResume_refused {e : Status} (hjudge : s.judgeResume d = some e) :
    exec (.downloadResume tag id) s = .next (s.refusedBy 0x71#8 tag e) := by
  have hd : s.newTransaction.spl.find id = some d := hd
  have hjudge : s.newTransaction.judgeResume d = some e := hjudge
  refine (next_take_of_linkOpen hopen _).trans (congrArg Host.Outcome.next ?_)
  simp only [doDownloadResume, hd, hjudge]
  rfl

/-- The record is RECEIVING again, and staging is taken. -/
theorem exec_downloadResume_taken (hjudge : s.judgeResume d = none) :
    exec (.downloadResume tag id) s =
      .next
        (State.settle
          { s with
            mem := s.takeStaging.mem
            spl :=
              s.takeStaging.spl.update id fun d =>
                { d with state := .receiving, fault := none, stall := some s.stallAt }
            lnk := s.replied 0x71#8 tag .ok (le32 (BitVec.ofNat 32 d.lowest)) }
          true) := by
  have hd : s.newTransaction.spl.find id = some d := hd
  have hjudge : s.newTransaction.judgeResume d = none := hjudge
  refine (next_take_of_linkOpen hopen _).trans (congrArg Host.Outcome.next ?_)
  simp only [doDownloadResume, hd, hjudge, State.takeStaging_eq]
  rfl

end

end

/-! ### Download Cancel and Download Clear (R137, R138) -/

/-- A storage operation for the record is in progress. -/
theorem State.opFor_eq (s : State) (id : Byte) :
    s.opFor id =
      match s.sto.op with
      | some o => decide (o.requester = .spooler ∧ o.download = id)
      | none => false := by
  cases h : s.sto.op <;> simp [State.opFor, h]

theorem State.opFor_congr {s t : State} (h : t.sto.op = s.sto.op) (id : Byte) : t.opFor id = s.opFor id := by
  simp only [State.opFor, h]

theorem Sto.withdrawnFor_cases (t : Sto) (id : Byte) :
    t.withdrawnFor id = t ∨ t.withdrawnFor id = { t with pending := { t.pending with spooler := none } } := by
  cases h : t.pending.spooler with
  | none => simp [Sto.withdrawnFor, h]
  | some q => by_cases hq : q.download = id <;> simp [Sto.withdrawnFor, h, hq]

theorem Sto.withdrawnFor_op (t : Sto) (id : Byte) : (t.withdrawnFor id).op = t.op := by
  obtain h | h := t.withdrawnFor_cases id <;> rw [h]

theorem Sto.withdrawnFor_withdrawnFor (t : Sto) (id : Byte) :
    (t.withdrawnFor id).withdrawnFor id = t.withdrawnFor id := by
  obtain h | h := t.withdrawnFor_cases id
  · rw [h, h]
  · rw [h]
    rfl

/-- SPL after a record's stall timer has stopped and its staged segments are gone. -/
def Spl.stopped (p : Spl) (id : Byte) : Spl :=
  { p with
    table := p.table.map fun d => if d.id = id then { d with stall := none } else d
    staged := p.staged.filter fun g => g.id ≠ id }

section
variable {s : State} {kind tag id : Byte}

theorem State.removeOrWait_waits (h : s.opFor id = true) :
    s.removeOrWait kind tag id =
      { s with
        spl := s.spl.update id fun d => { d with removal := true }
        lnk := { s.lnk with processing := some ⟨kind, tag, .removal⟩ } } :=
  if_pos h

theorem State.removeOrWait_removes (h : s.opFor id = false) :
    s.removeOrWait kind tag id =
      State.answer { s with spl := s.spl.remove id, sto := s.sto.withdrawnFor id } kind tag .ok := by
  rw [State.removeOrWait, if_neg (Bool.eq_false_iff.mp h), State.removeRecord, State.withdrawFor_eq]
  rfl

variable (hopen : s.linkOpen)
include hopen

theorem exec_downloadCancel_unknown (hnone : s.spl.find id = none) :
    exec (.downloadCancel tag id) s = .next (s.refusedBy 0x72#8 tag .unknownDownload) := by
  have hnone : s.newTransaction.spl.find id = none := hnone
  refine (next_take_of_linkOpen hopen _).trans (congrArg Host.Outcome.next ?_)
  simp only [doDownloadCancel, hnone]
  rfl

/-- The record's stall timer stops, and its segments and its pending request go, before it is removed (R137). -/
theorem exec_downloadCancel {d : Download} (hd : s.spl.find id = some d) :
    exec (.downloadCancel tag id) s =
      .next
        (State.afterRadio s.spl
          (State.removeOrWait { s.newTransaction with spl := s.spl.stopped id, sto := s.sto.withdrawnFor id } 0x72#8 tag
            id)) := by
  have hd : s.newTransaction.spl.find id = some d := hd
  refine (next_take_of_linkOpen hopen _).trans (congrArg Host.Outcome.next ?_)
  simp only [doDownloadCancel, hd, State.releaseRecord_eq]
  rfl

theorem exec_downloadCancel_removes {d : Download} (hd : s.spl.find id = some d) (hidle : s.opFor id = false) :
    exec (.downloadCancel tag id) s =
      .next
        (State.afterRadio s.spl
          { s with
            spl := (s.spl.stopped id).remove id
            sto := s.sto.withdrawnFor id
            lnk := s.replied 0x72#8 tag .ok [] }) := by
  have hop := State.opFor_congr (s := s)
    (t := { s.newTransaction with spl := s.spl.stopped id, sto := s.sto.withdrawnFor id }) (s.sto.withdrawnFor_op id) id
  rw [exec_downloadCancel hopen hd, State.removeOrWait_removes (hop.trans hidle), Sto.withdrawnFor_withdrawnFor]
  rfl

theorem exec_downloadCancel_waits {d : Download} (hd : s.spl.find id = some d) (hruns : s.opFor id = true) :
    exec (.downloadCancel tag id) s =
      .next
        (State.afterRadio s.spl
          { s with
            spl := (s.spl.stopped id).update id fun d => { d with removal := true }
            sto := s.sto.withdrawnFor id
            lnk := { s.lnk with receiver := .idle, processing := some ⟨0x72#8, tag, .removal⟩ } }) := by
  have hop := State.opFor_congr (s := s)
    (t := { s.newTransaction with spl := s.spl.stopped id, sto := s.sto.withdrawnFor id }) (s.sto.withdrawnFor_op id) id
  rw [exec_downloadCancel hopen hd, State.removeOrWait_waits (hop.trans hruns)]
  rfl

theorem exec_downloadClear_unknown (hnone : s.spl.find id = none) :
    exec (.downloadClear tag id) s = .next (s.refusedBy 0x73#8 tag .unknownDownload) := by
  have hnone : s.newTransaction.spl.find id = none := hnone
  refine (next_take_of_linkOpen hopen _).trans (congrArg Host.Outcome.next ?_)
  simp only [doDownloadClear, hnone]
  rfl

theorem exec_downloadClear {d : Download} (hd : s.spl.find id = some d) :
    exec (.downloadClear tag id) s =
      .next
        (if d.state = .complete ∨ d.state = .failed then
          State.afterRadio s.spl (s.newTransaction.removeOrWait 0x73#8 tag id)
        else s.refusedBy 0x73#8 tag .dlState) := by
  have hd : s.newTransaction.spl.find id = some d := hd
  refine (next_take_of_linkOpen hopen _).trans (congrArg Host.Outcome.next ?_)
  simp only [doDownloadClear, hd]
  rfl

variable {d : Download} (hd : s.spl.find id = some d) (hended : d.state = .complete ∨ d.state = .failed)
include hd hended

theorem exec_downloadClear_removes (hidle : s.opFor id = false) :
    exec (.downloadClear tag id) s =
      .next
        (State.afterRadio s.spl
          { s with
            spl := s.spl.remove id
            sto := s.sto.withdrawnFor id
            lnk := s.replied 0x73#8 tag .ok [] }) := by
  have hidle : s.newTransaction.opFor id = false := hidle
  rw [exec_downloadClear hopen hd, if_pos hended, State.removeOrWait_removes hidle]
  rfl

theorem exec_downloadClear_waits (hruns : s.opFor id = true) :
    exec (.downloadClear tag id) s =
      .next
        (State.afterRadio s.spl
          { s with
            spl := s.spl.update id fun d => { d with removal := true }
            lnk := { s.lnk with receiver := .idle, processing := some ⟨0x73#8, tag, .removal⟩ } }) := by
  have hruns : s.newTransaction.opFor id = true := hruns
  rw [exec_downloadClear hopen hd, if_pos hended, State.removeOrWait_waits hruns]
  rfl

end

/-! ### Spool Settings (R139) -/

theorem goodSpool_iff (budget : Nat) (stall : Byte) (hold : Nat) :
    goodSpool budget stall hold = true ↔ 4 ≤ budget ∧ budget ≤ 256 ∧ 1 ≤ stall.toNat ∧ hold ≤ 10000 := by
  have hstall : stall ≠ 0#8 ↔ 1 ≤ stall.toNat := by bv_omega
  simp [goodSpool, ← hstall, and_assoc]

/-- A frame in assembly is discarded; whose count rises is open (log entry 12). -/
theorem State.cutFrame_inFrame {s : State} (h : s.rad.inFrame = true) :
    s.cutFrame =
      { s with
        freeUsed := s.freeUsed + 1
        rad := s.rad.assembled .empty
        spl := (Config.idOfCutFrame s.freeUsed).elim s.spl s.spl.countDiscard } := by
  rw [State.cutFrame, if_pos h, ← Rad.settleAssembling_of_inFrame h]
  cases Config.idOfCutFrame s.freeUsed <;> rfl

section
variable {s : State} {budget stall hold rate : Nat}

/-- Without a new bit rate, or outside a frame, the four values are only stored. -/
theorem State.storeSpool_whole (h : rate = s.rad.rate ∨ s.rad.inFrame = false) :
    s.storeSpool budget stall hold rate =
      { s with
        spl := { s.spl with budget := budget, stallTime := stall, holdLimit := hold }
        rad := { s.rad with rate := rate } } := by
  by_cases hsame : rate = s.rad.rate
  · rw [State.storeSpool, if_pos hsame, hsame]
    rfl
  · have hframe : s.rad.inFrame = false := h.resolve_left hsame
    rw [State.storeSpool, if_neg hsame, State.cutFrame, if_neg (by simp [hframe])]
    rfl

theorem State.storeSpool_cuts (hnew : rate ≠ s.rad.rate) (hframe : s.rad.inFrame = true) :
    s.storeSpool budget stall hold rate =
      { s with
        freeUsed := s.freeUsed + 1
        spl :=
          let stored : Spl := { s.spl with budget := budget, stallTime := stall, holdLimit := hold }
          (Config.idOfCutFrame s.freeUsed).elim stored stored.countDiscard
        rad := { s.rad.assembled .empty with rate := rate } } := by
  rw [State.storeSpool, if_neg hnew, State.cutFrame_inFrame (s := s.onSpl _) hframe]
  rfl

end

section
variable {s : State} {tag : Byte} {budget hold : U16} {stall rate : Byte} (hopen : s.linkOpen)
include hopen

theorem exec_spoolSettings_bad
    (h : ¬(goodSpool budget.toNat stall hold.toNat = true ∧ rate.toNat ≤ 3)) :
    exec (.spoolSettings tag budget stall hold rate) s = .next (s.refusedBy 0x75#8 tag .badParam) := by
  refine (next_take_of_linkOpen hopen _).trans (congrArg Host.Outcome.next ?_)
  by_cases hrate : rate.toNat ≤ 3
  · simp only [doSpoolSettings, rateOf, if_pos hrate, if_neg fun hgood => h ⟨hgood, hrate⟩]
    rfl
  · simp only [doSpoolSettings, rateOf, if_neg hrate]
    rfl

variable (hgood : goodSpool budget.toNat stall hold.toNat = true) (hrate : rate.toNat ≤ 3)
include hgood hrate

theorem exec_spoolSettings :
    exec (.spoolSettings tag budget stall hold rate) s =
      .next
        (if rate.toNat ≠ s.rad.rate ∧ s.spl.receiving = true then s.refusedBy 0x75#8 tag .downloadActive
        else
          ((s.newTransaction.storeSpool budget.toNat stall.toNat hold.toNat rate.toNat).answer 0x75#8 tag .ok).settle
            true) := by
  refine (next_take_of_linkOpen hopen _).trans (congrArg Host.Outcome.next ?_)
  simp only [doSpoolSettings, rateOf, if_pos hrate, if_pos hgood]
  rfl

theorem exec_spoolSettings_active (hnew : rate.toNat ≠ s.rad.rate) (hactive : s.spl.receiving = true) :
    exec (.spoolSettings tag budget stall hold rate) s = .next (s.refusedBy 0x75#8 tag .downloadActive) := by
  rw [exec_spoolSettings hopen hgood hrate, if_pos ⟨hnew, hactive⟩]

theorem exec_spoolSettings_whole
    (h : rate.toNat = s.rad.rate ∨ (¬s.spl.receiving = true ∧ s.rad.inFrame = false)) :
    exec (.spoolSettings tag budget stall hold rate) s =
      .next
        (State.settle
          { s with
            spl := { s.spl with budget := budget.toNat, stallTime := stall.toNat, holdLimit := hold.toNat }
            rad := { s.rad with rate := rate.toNat }
            lnk := s.replied 0x75#8 tag .ok [] }
          true) := by
  have hstores : ¬(rate.toNat ≠ s.rad.rate ∧ s.spl.receiving = true) := fun ⟨hnew, hactive⟩ =>
    h.elim hnew fun hquiet => hquiet.1 hactive
  rw [exec_spoolSettings hopen hgood hrate, if_neg hstores,
    State.storeSpool_whole (s := s.newTransaction) (h.imp_right And.right)]
  rfl

theorem exec_spoolSettings_cuts (hnew : rate.toNat ≠ s.rad.rate) (hquiet : ¬s.spl.receiving = true)
    (hframe : s.rad.inFrame = true) :
    let stored : Spl := { s.spl with budget := budget.toNat, stallTime := stall.toNat, holdLimit := hold.toNat }
    exec (.spoolSettings tag budget stall hold rate) s =
      .next
        (State.settle
          { s with
            freeUsed := s.freeUsed + 1
            spl := (Config.idOfCutFrame s.freeUsed).elim stored stored.countDiscard
            rad := { s.rad.assembled .empty with rate := rate.toNat }
            lnk := s.replied 0x75#8 tag .ok [] }
          true) := by
  rw [exec_spoolSettings hopen hgood hrate, if_neg fun h => hquiet h.2,
    State.storeSpool_cuts (s := s.newTransaction) hnew hframe]
  rfl

end

end Sys2Proof.Machine

namespace Sys2Proof.Proofs
open Sys2Proof Sys2Proof.Machine

/-- Settles O52: each message by its tests in order, the stall timer by its record, and staging by who holds it. -/
theorem downloadMessagesAndStall : Obligations.DownloadMessagesAndStall := by
  intro tag id s renewed taken stopped resume cancel clear stallAt running programs withdrawn
  have hrunning : s.opFor id = running := s.opFor_eq id
  refine ⟨s.canCarry_iff, fun d e hd he => ?_, fun hopen =>
    ⟨fun total start size => ?_, ⟨fun hnone => exec_downloadResume_unknown hopen hnone, fun d hd => ?_⟩,
      ⟨fun hnone => exec_downloadCancel_unknown hopen hnone, fun hsome => ?_⟩,
      ⟨fun hnone => exec_downloadClear_unknown hopen hnone, fun d hd => ?_⟩, fun budget hold stall rate => ?_⟩,
    State.returnStaging_idle⟩
  · have hprograms : State.programFor { s with clock := max s.clock e } id = programs := s.programFor_eq id
    rw [exec_stallTimerExpiry hd he, State.suspend_eq, hprograms, State.withdrawFor_sto]
    rfl
  · intro arm refused good d meets
    have hgood : goodArm id total.toNat size.toNat start.toNat = true ↔ good := goodArm_iff ..
    have hmeets : (s.spl.table.any fun e => d.overlaps e) = true ↔ ∃ e ∈ s.spl.table, meets e := by
      simp only [List.any_eq_true, Download.overlaps_iff, meets]
    have hrefused {e : Status} (hall : good) (hjudge : s.judgeArm d = some e) : refused e :=
      exec_downloadArm_refused hopen (hgood.mpr hall) hjudge
    refine ⟨fun hbad => exec_downloadArm_bad hopen (mt hgood.mp hbad), fun hall =>
      ⟨fun hexists => hrefused hall (State.judgeArm_exists hexists), fun hnone =>
        ⟨fun hfull => hrefused hall (State.judgeArm_tableFull hnone hfull), fun hroom => ?_⟩⟩⟩
    have hjudge := State.judgeArm_new (d := d) hnone hroom
    refine ⟨fun hlong => hrefused hall ?_, fun hrange => ⟨fun hmeet => hrefused hall ?_, fun hnot => ?_⟩⟩
    · rw [hjudge, if_pos hlong]
    · rw [hjudge, if_neg (Nat.not_lt.mpr hrange), if_pos (hmeets.mpr hmeet)]
    have hapart : ¬(s.spl.table.any fun e => d.overlaps e) = true := by
      simpa only [hmeets, not_exists, not_and] using hnot
    rw [if_neg (Nat.not_lt.mpr hrange), if_neg hapart] at hjudge
    refine ⟨fun hcut => hrefused hall ?_, fun hcut hcarry => hrefused hall ?_, fun hcut hcarry => ?_⟩
    · rw [hjudge, if_pos hcut]
    · rw [hjudge, if_neg (by simp [hcut]), if_pos hcarry]
    · rw [if_neg (by simp [hcut]), if_neg (by simp [hcarry])] at hjudge
      refine (exec_downloadArm_taken hopen (hgood.mpr hall) hjudge).trans ?_
      rw [State.takeStaging_eq]
      rfl
  · refine ⟨fun hclosed => exec_downloadResume_refused hopen hd (State.judgeResume_state hclosed),
      fun hstate hkept => ?_⟩
    have hjudge := State.judgeResume_suspended (s := s) hstate hkept
    refine ⟨fun hcut => ?_, fun hcut hcarry => ?_, fun hcut hcarry => ?_⟩
    · exact exec_downloadResume_refused hopen hd (hjudge.trans (if_pos hcut))
    · rw [if_neg (by simp [hcut]), if_pos hcarry] at hjudge
      exact exec_downloadResume_refused hopen hd hjudge
    · rw [if_neg (by simp [hcut]), if_neg (by simp [hcarry])] at hjudge
      refine (exec_downloadResume_taken hopen hd hjudge).trans ?_
      rw [State.takeStaging_eq]
      rfl
  · obtain ⟨d, hd⟩ := Option.ne_none_iff_exists'.mp hsome
    exact ⟨fun hidle => exec_downloadCancel_removes hopen hd (hrunning.trans hidle),
      fun hruns => exec_downloadCancel_waits hopen hd (hrunning.trans hruns)⟩
  · refine ⟨fun hcomplete hfailed => (exec_downloadClear hopen hd).trans ?_, fun hended =>
      ⟨fun hidle => exec_downloadClear_removes hopen hd hended (hrunning.trans hidle),
        fun hruns => exec_downloadClear_waits hopen hd hended (hrunning.trans hruns)⟩⟩
    rw [if_neg (not_or.mpr ⟨hcomplete, hfailed⟩)]
  · intro answer good
    have hgood : goodSpool budget.toNat stall hold.toNat = true ∧ rate.toNat ≤ 3 ↔ good := by
      simp only [goodSpool_iff, good, and_assoc]
    have hquiet (h : ∀ d ∈ s.spl.table, d.state ≠ .receiving) : ¬s.spl.receiving = true := by
      simpa only [Spl.receiving_iff, not_exists, not_and] using h
    refine ⟨fun hbad => exec_spoolSettings_bad hopen (mt hgood.mp hbad), fun hall hnew hactive => ?_,
      fun hall hwhole => ?_, fun hall hnew hnone hframe => ?_⟩
    all_goals obtain ⟨hvalues, hrate⟩ := hgood.mpr hall
    · exact exec_spoolSettings_active hopen hvalues hrate hnew (s.spl.receiving_iff.mpr hactive)
    · exact exec_spoolSettings_whole hopen hvalues hrate (hwhole.imp_right (And.imp_left hquiet))
    · refine (exec_spoolSettings_cuts hopen hvalues hrate hnew (hquiet hnone) hframe).trans ?_
      cases Config.idOfCutFrame s.freeUsed <;> rfl

end Sys2Proof.Proofs
end

