-- ==== Sys2Proof/Proofs/StoragePhases.lean ====
section
/-! A storage operation from its start through its phases, byte by byte (sections 8.1 to 8.3). -/
namespace Sys2Proof.Machine
open Sys2Proof

/-! ### The arbiter (R160, R164 to R166) -/

/-- STO is free, and nothing holds the arbiter back. -/
abbrev State.ArbiterFree (s : State) : Prop :=
  s.live = true ∧ s.sto.op = none ∧ s.pwr.power ≠ .deep ∧ s.pwr.deepWait = none ∧ s.pwr.cutoff = false ∧
    s.draining = false

theorem State.stoMayStart_iff (s : State) : s.stoMayStart = true ↔ s.ArbiterFree := by
  simp [State.stoMayStart, State.inDeep, and_assoc]

theorem State.stoArbitrate_held {s : State} (h : ¬s.ArbiterFree) : s.stoArbitrate = s :=
  if_neg (mt s.stoMayStart_iff.mp h)

/-- The first requester of the round with a pending request is chosen. -/
theorem Sto.choice_first {t : Sto} {pre post : List Requester} {r : Requester} {q : StoRequest}
    (hround : t.pointer.roundFrom = pre ++ r :: post) (hpre : ∀ x ∈ pre, t.pending.get x = none)
    (hr : t.pending.get r = some q) : t.choice = some (r, q) := by
  have hbefore : (pre.findSome? fun r => (t.pending.get r).map fun q => (r, q)) = none :=
    List.findSome?_eq_none_iff.mpr fun x hx => by rw [hpre x hx, Option.map_none]
  rw [Sto.choice, hround, List.findSome?_append, hbefore, Option.none_or, List.findSome?_cons, hr, Option.map_some]

theorem Sto.choice_none {t : Sto} (h : ∀ x, t.pending.get x = none) : t.choice = none :=
  List.findSome?_eq_none_iff.mpr fun x _ => by rw [h x, Option.map_none]

theorem State.stoArbitrate_none {s : State} (h : s.sto.choice = none) : s.stoArbitrate = s := by
  simp only [State.stoArbitrate, h, ite_self]

/-- An operation starts in its ready wait, which ends at once where SRDY reads ready (R155). -/
theorem State.stoArbitrate_starts {s : State} {r : Requester} {q : StoRequest} (hfree : s.ArbiterFree)
    (hchoice : s.sto.choice = some (r, q)) :
    s.stoArbitrate =
      { s with
        sto :=
          { s.sto with
            op := some { s.operation r q with stage := if s.sto.srdy = true then .sending else .readyWait }
            pending := s.sto.pending.set r none
            pointer := r
            srdy := false } } := by
  simp only [State.stoArbitrate, if_pos (s.stoMayStart_iff.mpr hfree), hchoice]
  cases h : s.sto.srdy <;> simp [State.onSto, Sto.onReady, State.operation, h]

section
variable {s : State} {r : Requester} {q : StoRequest}

/-- Only a program takes data into the page buffer (R158). -/
theorem State.programData_other (h : q.kind ≠ .program) : s.programData r q = [] := by
  cases hk : q.kind with
  | program => exact absurd hk h
  | read => simp only [State.programData, hk]
  | erase => simp only [State.programData, hk]

theorem State.programData_own (hk : q.kind = .program) (hr : r ≠ .spooler) : s.programData r q = q.data := by
  cases r with
  | spooler => exact absurd rfl hr
  | link => simp only [State.programData, hk]
  | loader => simp only [State.programData, hk]

theorem State.programData_spooler {d : Download} (hk : q.kind = .program) (hr : r = .spooler)
    (hd : s.spl.find q.download = some d) : s.programData r q = s.composePage d (q.page - d.start) := by
  simp only [State.programData, hk, hr, hd]

end

/-! ### The bytes of an operation (R153 to R155) -/

/-- A word's two bytes are the word's (R154). -/
theorem le16_append (lo hi : Byte) : le16 (hi ++ lo) = [lo, hi] := by
  have hlow : (hi ++ lo).extractLsb' 0 8 = lo := BitVec.extractLsb'_append_eq_right
  have hhigh : (hi ++ lo).extractLsb' 8 8 = hi := BitVec.extractLsb'_append_eq_left
  rw [le16, hlow, hhigh]

/-- Bytes that make whole words come back from them (R154). -/
theorem ofWords_toWords : ∀ {bytes : List Byte}, 2 ∣ bytes.length → ofWords (toWords bytes) = bytes
  | [], _ => rfl
  | [_], h => absurd h (by simp)
  | lo :: hi :: rest, h => by
    have hrest : ofWords (toWords rest) = rest := ofWords_toWords ((Nat.dvd_add_right (Nat.dvd_refl 2)).mp (by
      rwa [Nat.add_comm 2]))
    rw [toWords, ofWords, List.flatMap_cons, le16_append, ← ofWords, hrest]
    rfl

theorem Op.script_eq (o : Op) :
    o.script =
      commandBytes o.kind.command o.page ++
        if o.kind = .program then (ofWords o.buffer).map fun b => ⟨false, some b⟩ else [] := by
  cases h : o.kind <;> simp [Op.script, h]

theorem Op.lastScript_eq (o : Op) :
    o.lastScript = if o.kind = .read then readBytes 2048 else commandBytes 0x4D#8 o.page ++ readBytes 1 := by
  cases h : o.kind <;> simp [Op.lastScript, h, Config.blockBytes]

section
variable {o : Op}

/-- Bytes are being moved. -/
abbrev Op.Moving (o : Op) : Prop := o.stage = .sending ∨ o.stage = .final

/-- SRDY is waited for. -/
abbrev Op.Waiting (o : Op) : Prop := o.stage = .readyWait ∨ o.stage = .busyWait

theorem Op.moving_iff (o : Op) : o.moving = true ↔ o.Moving := by simp [Op.moving]

theorem Op.not_moving (h : o.Waiting) : ¬o.moving = true := by
  obtain h | h := h <;> simp [Op.moving, h]

theorem Op.onBus_moving (h : o.Moving) : o.onBus = o.transfers[o.moved.length]? := by
  obtain h | h := h <;> simp only [Op.onBus, h]

theorem Op.onBus_waiting (h : o.Waiting) : o.onBus = none := by
  obtain h | h := h <;> simp only [Op.onBus, h]

theorem State.bus_of_live {s : State} (hlive : s.live = true) (ho : s.sto.op = some o) : s.bus = o.onBus := by
  simp [State.bus, hlive, ho]

/-- SPH follows the byte on the bus. -/
theorem State.sph_iff (s : State) : s.sph = true ↔ ∃ b, s.bus = some ⟨true, some b⟩ ∨ s.bus = some ⟨true, none⟩ := by
  rw [State.sph]
  match s.bus with
  | none => simp
  | some ⟨sph, none⟩ => simp
  | some ⟨sph, some v⟩ => simp

/-! ### A tick (R153) -/

theorem Op.overdue_iff (o : Op) (now : Nat) :
    o.overdue now = true ↔ ∃ start, o.stretch = some start ∧ start + 40 < now := by
  have hlimit : Config.swaitLimit = 40 := rfl
  cases h : o.stretch <;> simp [Op.overdue, h, hlimit]

variable {now : Nat} {held : Bool}

/-- SWAIT, or a stretch that has passed its limit, keeps the byte on the bus. -/
theorem Op.transferOne_stretched (hmove : o.Moving) (h : held = true ∨ o.overdue now = true) :
    o.transferOne now held = o.stretched now :=
  if_pos (by simpa [o.moving_iff.mpr hmove] using h)

theorem Op.transferOne_waiting (h : o.Waiting) : o.transferOne now held = o := by
  rw [Op.transferOne, if_neg (by simp [Op.not_moving h])]
  obtain h | h := h <;> simp only [h]

theorem Op.transferOne_sending (hheld : held = false) (hdue : ¬o.overdue now = true) (h : o.stage = .sending) :
    o.transferOne now held =
      if o.script.length ≤ o.moved.length + 1 then o.transferred now
      else { o with moved := o.script.take (o.moved.length + 1), stretch := none } := by
  rw [Op.transferOne, if_neg (by simp [hheld, hdue])]
  simp only [h]

theorem Op.transferOne_final (hheld : held = false) (hdue : ¬o.overdue now = true) (h : o.stage = .final) :
    o.transferOne now held =
      if o.moved.length + 1 < o.transfers.length then
        { o with moved := o.transfers.take (o.moved.length + 1), stretch := none }
      else o.stretched now := by
  rw [Op.transferOne, if_neg (by simp [hheld, hdue])]
  simp only [h]

end

/-! ### SRDY (R155, R156) -/

section
variable {t : Sto} {o : Op}

theorem Sto.onReady_moving (hop : t.op = some o) (h : o.Moving) : t.onReady = t := by
  obtain h | h := h <;> simp only [Sto.onReady, hop, h]

theorem Sto.onReady_notReady (h : t.srdy = false) : t.onReady = t := by
  cases hop : t.op with
  | none => simp only [Sto.onReady, hop]
  | some o => cases hs : o.stage <;> simp [Sto.onReady, hop, hs, h]

theorem Sto.onReady_none (h : t.op = none) : t.onReady = t := by
  simp only [Sto.onReady, h]

/-- The ready wait ends, and the flash leaves ready with the first byte (log entry 3). -/
theorem Sto.onReady_readyWait (hop : t.op = some o) (h : o.stage = .readyWait) (hready : t.srdy = true) :
    t.onReady = { t with op := some { o with stage := .sending }, srdy := false } := by
  simp [Sto.onReady, hop, h, hready]

theorem Sto.onReady_busyWait (hop : t.op = some o) (h : o.stage = .busyWait) (hready : t.srdy = true) :
    t.onReady = { t with op := some { o with stage := .final } } := by
  simp [Sto.onReady, hop, h, hready]

variable {now : Nat} {held : Bool}

theorem Sto.moveByte_eq (hop : t.op = some o) (now : Nat) (held : Bool) :
    t.moveByte now held = Sto.onReady { t with op := some (o.transferOne now held) } := by
  rw [Sto.moveByte, hop, Option.map_some]

/-- A tick that leaves an operation moving its bytes changes nothing else. -/
theorem Sto.moveByte_moving {p : Op} (hop : t.op = some o) (hone : o.transferOne now held = p) (h : p.Moving) :
    t.moveByte now held = { t with op := some p } := by
  rw [Sto.moveByte_eq hop, hone]
  exact Sto.onReady_moving rfl h

theorem Sto.moveByte_waiting (hop : t.op = some o) (h : o.Waiting) (hready : t.srdy = false) :
    t.moveByte now held = t := by
  have hsame : { t with op := some o } = t := by rw [← hop]
  rw [Sto.moveByte_eq hop, Op.transferOne_waiting h, hsame, Sto.onReady_notReady hready]

/-- With the last byte of phases 2 to 4 the busy wait begins, and ends at once where SRDY reads ready (R155). -/
theorem Sto.moveByte_transferred (hop : t.op = some o) (hone : o.transferOne now held = o.transferred now) :
    t.moveByte now held =
      { t with
        op := some (if t.srdy = true then { o.transferred now with stage := .final } else o.transferred now) } := by
  rw [Sto.moveByte_eq hop, hone]
  cases hready : t.srdy with
  | true => simp [Sto.onReady]
  | false => simp [Sto.onReady]

end

/-! ### The ends of the phases (R153, R155 to R158) -/

section
variable {s : State} {o : Op}

theorem exec_srdyReady {t : Sto} (h : Sto.onReady { s.sto with srdy := true } = t) :
    exec .srdyReady s = .next { s with sto := t } := by
  rw [← h]
  rfl

/-- A wait phase reaches its limit (R156). -/
theorem exec_waitTimeout {p : Op} (ho : s.sto.op = some o) (h : o.waiting s.sto.srdy s.clock = some p) :
    exec .waitTimeout s = .next (State.endOp { s with clock := max s.clock p.deadline } p .timeout []) := by
  have hbind : (s.sto.op.bind fun o => o.waiting s.sto.srdy s.clock) = some p := by rw [ho, Option.bind_some, h]
  refine congrArg Host.Outcome.next ?_
  simp only [hbind]
  rfl

theorem exec_waitTimeout_none (ho : s.sto.op = some o) (h : o.waiting s.sto.srdy s.clock = none) :
    exec .waitTimeout s = .next s := by
  have hbind : (s.sto.op.bind fun o => o.waiting s.sto.srdy s.clock) = none := by rw [ho, Option.bind_some, h]
  refine congrArg Host.Outcome.next ?_
  simp only [hbind]

theorem Op.waiting_self (h : o.Waiting) (ready : Bool) (now : Nat) : o.waiting ready now = some o := by
  obtain h | h := h <;> simp only [Op.waiting, h]

theorem Op.waiting_sending (h : o.stage = .sending) (ready : Bool) (now : Nat) :
    o.waiting ready now = if ready then none else some (o.transferred now) := by
  simp only [Op.waiting, h]

theorem Op.waiting_final (h : o.stage = .final) (ready : Bool) (now : Nat) : o.waiting ready now = none := by
  simp only [Op.waiting, h]

/-- A strobe stays stretched for 10 µs (R153). -/
theorem exec_swaitTimeout (ho : s.sto.op = some o) (h : o.Moving) :
    exec .swaitTimeout s =
      .next (State.endOp { s with clock := max s.clock (o.stretch.getD (s.clock + 1) + 40) } o .timeout []) := by
  refine congrArg Host.Outcome.next ?_
  simp only [ho, if_pos (o.moving_iff.mpr h)]
  rfl

theorem exec_swaitTimeout_waiting (ho : s.sto.op = some o) (h : o.Waiting) : exec .swaitTimeout s = .next s := by
  refine congrArg Host.Outcome.next ?_
  simp only [ho, if_neg (Op.not_moving h)]

/-- STORAGE_OPERATION_END on the operation as its last phase finds it. -/
theorem exec_storageOperationEnd (ho : s.sto.op = some o) (status : Byte) (bytes : List Byte) :
    exec (.storageOperationEnd status bytes) s =
      .next
        (((o.lastPhase s.sto.srdy).outcome status bytes).elim s fun out =>
          s.endOp (o.lastPhase s.sto.srdy) out
            (if (o.lastPhase s.sto.srdy).kind = .read then ofWords (toWords bytes) else [])) := by
  refine congrArg Host.Outcome.next ?_
  simp only [ho, Option.map_some]
  cases (o.lastPhase s.sto.srdy).outcome status bytes with
  | none => rw [Option.elim_none]
  | some out => rw [Option.elim_some]

theorem Op.lastPhase_other (h : o.stage ≠ .sending ∨ s.sto.srdy = false) : o.lastPhase s.sto.srdy = o := by
  refine if_neg ?_
  rintro ⟨hstage, hready⟩
  obtain h | h := h
  · exact h hstage
  · simp [h] at hready

theorem Op.lastPhase_sending (h : o.stage = .sending) (hready : s.sto.srdy = true) :
    o.lastPhase s.sto.srdy = { o with stage := .final, moved := o.script, stretch := none } :=
  if_pos ⟨h, hready⟩

theorem exec_storageOperationEnd_early (ho : s.sto.op = some o) (hsame : o.lastPhase s.sto.srdy = o)
    (h : o.stage ≠ .final) (status : Byte) (bytes : List Byte) :
    exec (.storageOperationEnd status bytes) s = .next s := by
  rw [exec_storageOperationEnd ho, hsame, Op.outcome, if_neg h, Option.elim_none]

variable {p : Op} {status : Byte} {bytes : List Byte} (ho : s.sto.op = some o) (hlast : o.lastPhase s.sto.srdy = p)
  (hfinal : p.stage = .final)
include ho hlast hfinal

/-- A read ends with its 2048 bytes (R155). -/
theorem exec_storageOperationEnd_read (hk : p.kind = .read) (hbytes : bytes.length = 2048) :
    exec (.storageOperationEnd status bytes) s = .next (s.endOp p .ok bytes) := by
  have hout : p.outcome status bytes = some .ok := by simp [Op.outcome, hfinal, hk, hbytes, Config.blockBytes]
  have hwords : ofWords (toWords bytes) = bytes := ofWords_toWords (by rw [hbytes]; decide)
  rw [exec_storageOperationEnd ho, hlast, hout, if_pos hk, hwords, Option.elim_some]

theorem exec_storageOperationEnd_short (hk : p.kind = .read) (hbytes : bytes.length ≠ 2048) :
    exec (.storageOperationEnd status bytes) s = .next s := by
  have hout : p.outcome status bytes = none := by simp [Op.outcome, hfinal, hk, hbytes, Config.blockBytes]
  rw [exec_storageOperationEnd ho, hlast, hout, Option.elim_none]

/-- A program or an erase ends as bit 0 of its status byte says (R157). -/
theorem exec_storageOperationEnd_status (hk : p.kind ≠ .read) :
    exec (.storageOperationEnd status bytes) s =
      .next (s.endOp p (if status.getLsbD 0 = true then .fault else .ok) []) := by
  have hout : p.outcome status bytes = some (if status.getLsbD 0 = true then .fault else .ok) := by
    rw [Op.outcome, if_pos hfinal]
    cases hkind : p.kind with
    | read => exact absurd hkind hk
    | program => simp only [apply_ite some]
    | erase => simp only [apply_ite some]
  rw [exec_storageOperationEnd ho, hlast, hout, if_neg hk, Option.elim_some]

end

end Sys2Proof.Machine

namespace Sys2Proof.Proofs
open Sys2Proof Sys2Proof.Machine

/-- Settles O53: the arbiter by its round, then the operation in progress by its stage. -/
theorem storageOperationsRunTheirPhases : Obligations.StorageOperationsRunTheirPhases := by
  refine fun s => ⟨fun hlive hop hdeep hwait hcut hdrain => ?_, fun hheld => ?_, rfl, fun r q =>
    ⟨State.programData_other, State.programData_own, fun d => State.programData_spooler⟩, fun hop => ?_, fun o ho => ?_⟩
  · have hfree : s.ArbiterFree := ⟨hlive, hop, hdeep, hwait, hcut, hdrain⟩
    exact ⟨fun pre r post q hround hpre hr =>
        congrArg Host.Outcome.next (State.stoArbitrate_starts hfree (Sto.choice_first hround hpre hr)),
      fun hnone => congrArg Host.Outcome.next (State.stoArbitrate_none (Sto.choice_none hnone))⟩
  · refine congrArg Host.Outcome.next (State.stoArbitrate_held ?_)
    rintro ⟨hlive, hop, hdeep, hwait, hcut, hdrain⟩
    simp [hlive, hop, hdeep, hwait, hcut, hdrain] at hheld
  · exact exec_srdyReady (Sto.onReady_none hop)
  · intro runs address raised data taken first last limit n busy moving waiting
    have hfirst : o.script = first := o.script_eq
    have hlast : o.lastScript = last := o.lastScript_eq
    have hall : o.transfers = first ++ last := by rw [Op.transfers, hfirst, hlast]
    have hbusy (now : Nat) : o.transferred now = busy now := by
      have hlimit : o.kind.busyLimit = limit := by
        simp only [limit]
        cases o.kind <;> rfl
      rw [Op.transferred, hfirst, hlimit]
    refine ⟨fun h => ?_, fun h => ?_, fun h => ?_, fun now held => ?_, fun hlive => ?_, fun h => ⟨?_, ?_⟩,
      fun h hready => ?_, fun h => ?_, exec_swaitTimeout ho, fun status bytes => ?_⟩
    · exact exec_srdyReady (Sto.onReady_readyWait ho h rfl)
    · exact exec_srdyReady (Sto.onReady_busyWait ho h rfl)
    · simp only [runs, ← ho]
      exact exec_srdyReady (Sto.onReady_moving ho h)
    · intro tick stretched overdue
      have hdue : o.overdue now = true ↔ overdue := o.overdue_iff now
      refine ⟨fun h hkeeps => ?_, fun hheld hnot => ?_, fun h hready => Sto.moveByte_waiting ho h hready⟩
      · exact Sto.moveByte_moving ho (Op.transferOne_stretched h (hkeeps.imp_right hdue.mpr)) h
      have hnot : ¬o.overdue now = true := mt hdue.mp hnot
      refine ⟨fun h hmore => ?_, fun h hend => ?_, fun h hmore => ?_, fun h hend => ?_⟩
      · have hone := Op.transferOne_sending hheld hnot h
        rw [hfirst, if_neg (Nat.not_le.mpr hmore)] at hone
        exact Sto.moveByte_moving ho hone (.inl h)
      · have hone := Op.transferOne_sending hheld hnot h
        rw [hfirst, if_pos hend] at hone
        rw [← hbusy]
        exact Sto.moveByte_transferred ho hone
      · have hone := Op.transferOne_final hheld hnot h
        rw [hall, if_pos hmore] at hone
        exact Sto.moveByte_moving ho hone (.inr h)
      · have hone := Op.transferOne_final hheld hnot h
        rw [hall, if_neg (Nat.not_lt.mpr hend)] at hone
        exact Sto.moveByte_moving ho hone (.inr h)
    · have hbus : s.bus = o.onBus := State.bus_of_live hlive ho
      refine ⟨fun h => ?_, fun h => ?_, s.sph_iff⟩
      · rw [hbus, Op.onBus_moving h, hall]
      · rw [hbus, Op.onBus_waiting h]
    · exact exec_waitTimeout ho (Op.waiting_self h _ _)
    · exact exec_swaitTimeout_waiting ho h
    · have hwaits : o.waiting s.sto.srdy s.clock = some (busy s.clock) := by
        rw [Op.waiting_sending h, hready, if_neg Bool.false_ne_true, hbusy]
      have hlate : max s.clock (busy s.clock).deadline = s.clock + limit := Nat.max_eq_right (Nat.le_add_right _ _)
      rw [exec_waitTimeout ho hwaits, hlate]
    · refine exec_waitTimeout_none ho ?_
      obtain h | ⟨h, hready⟩ := h
      · exact Op.waiting_final h _ _
      · rw [Op.waiting_sending h, hready, if_pos rfl]
    · intro ends
      have hends {p : Op} (hlastPhase : o.lastPhase s.sto.srdy = p) (hfinal : p.stage = .final)
          (hkind : p.kind = o.kind) : ends p :=
        ⟨fun hk => exec_storageOperationEnd_read ho hlastPhase hfinal (hkind.trans hk),
          fun hk => exec_storageOperationEnd_short ho hlastPhase hfinal (hkind.trans hk),
          fun hk => exec_storageOperationEnd_status ho hlastPhase hfinal (hkind ▸ hk)⟩
      refine ⟨fun h => hends (Op.lastPhase_other (.inl (by simp [h]))) h rfl, fun h hready => ?_, ?_⟩
      · rw [← hfirst]
        exact hends (Op.lastPhase_sending h hready) rfl rfl
      · rintro (hwaits | ⟨hsends, hready⟩)
        · obtain ⟨hsending, hfinal⟩ := not_or.mp (mt o.moving_iff.mpr (Op.not_moving hwaits))
          exact exec_storageOperationEnd_early ho (Op.lastPhase_other (.inl hsending)) hfinal status bytes
        · exact exec_storageOperationEnd_early ho (Op.lastPhase_other (.inr hready)) (by simp [hsends]) status bytes

end Sys2Proof.Proofs
end

