-- ==== Sys2Proof/Proofs/ResetsAndSupply.lean ====
section
/-! Power-on, the RESET line and a failing supply (sections 8.6, 9.6 and 10.1). -/
namespace Sys2Proof.Machine
open Sys2Proof

/-! ### A state that is lost, or reset (R166, R185) -/

/-- Only a transaction in progress is abandoned, and its rise of CS is waited for (R188, R195). -/
theorem Receiver.abandoned_eq (r : Receiver) : r.abandoned = if r = .idle then .idle else .unheard := by
  cases r <;> rfl

theorem Receiver.abandoned_idle_or_unheard (r : Receiver) : r.abandoned = .idle ∨ r.abandoned = .unheard := by
  rw [Receiver.abandoned_eq]
  split
  · exact .inl rfl
  · exact .inr rfl

/-- A key's debounce after a reset is settled at the level of its input (R76). -/
theorem Trn.fresh_get (n : Trn) (k : Key) :
    n.fresh.keys.get k =
      { input := (n.keys.get k).input
        debounce := if (n.keys.get k).input then .pressed else .released } := by
  cases k <;> rfl

/-- The state that is lost is the same whatever went before, but for the inputs' levels, the clock and the model's own
queue and counter; the charger filter runs in CUTOFF alone (R185). -/
theorem State.lost_active (s : State) (supply : Supply) :
    s.lost supply .active =
      { clock := s.clock
        freeUsed := s.freeUsed
        supply := supply
        sns := { powered := false }
        lgt := { nextBoundary := none }
        trn := { keys := s.trn.keys.map fun k => { input := k.input } }
        sto := { srdy := s.sto.srdy }
        lnk := { receiver := s.lnk.receiver.abandoned }
        pwr := { chargerInput := s.pwr.chargerInput }
        pending := s.pending } := by
  rw [State.lost, if_neg (by simp)]

@[simp] theorem State.lost_supply (s : State) (supply : Supply) (power : Power) :
    (s.lost supply power).supply = supply := rfl

/-- A lost key is released and settles nothing. -/
theorem State.lost_key (s : State) (supply : Supply) (power : Power) (k : Key) :
    (s.lost supply power).trn.keys.get k = { input := (s.trn.keys.get k).input } := by
  cases k <;> rfl

theorem State.fullReset_powerOn (s : State) :
    s.fullReset .powerOn =
      { State.reset with
        freeUsed := s.freeUsed
        trn := s.trn.fresh
        sto := { srdy := s.sto.srdy }
        lnk := { receiver := s.lnk.receiver.abandoned }
        pwr :=
          { State.reset.pwr with
            chargerInput := s.pwr.chargerInput
            charger := s.pwr.chargerInput
            resetCause := .powerOn }
        pending := s.pending } := rfl

/-! ### The part without supply, or under RESET (R185, R195) -/

section
variable {s : State}

theorem State.outputsOff_of_not_on (h : s.supply ≠ .on) : s.outputsOff := by
  simp [State.outputsOff, State.ready, State.attn, State.railen, State.radioEn, State.hold, State.ledw, State.ledc,
    State.lineOn, State.live, h]

theorem State.linkOn_of_not_on (h : s.supply ≠ .on) : s.linkOn = false := by simp [State.linkOn, h]

theorem State.tick_of_not_on (h : s.supply ≠ .on) : s.tick = s := if_neg h

end

/-! ### The RESET line (R185) -/

section
variable {s : State}

theorem exec_resetLineAssert_live (h : s.live = true) :
    exec .resetLineAssert s = .next (s.lost .resetHeld .active) := congrArg Host.Outcome.next (if_pos h)

theorem exec_resetLineAssert_not_live (h : s.live = false) : exec .resetLineAssert s = .next s :=
  congrArg Host.Outcome.next (if_neg (by simp [h]))

/-- The RESET line is watched where the part is supplied and not in CUTOFF. -/
theorem exec_resetLine_watched (hsupply : s.supply ≠ .off) (h : s.supply = .on → s.pwr.power ≠ .cutoff) :
    exec .resetLine s = .next (s.fullReset .resetLine) :=
  congrArg Host.Outcome.next (if_neg (by simpa [hsupply] using h))

theorem exec_resetLine_unwatched (h : s.supply = .off ∨ (s.supply = .on ∧ s.pwr.power = .cutoff)) :
    exec .resetLine s = .next s :=
  congrArg Host.Outcome.next (if_pos (by simpa using h))

end

/-! ### Commands that find the part without supply -/

section
variable {s : State}

/-- Every host message is its own `take`: the commands that `carryOut` does not name are no messages. -/
theorem exec_of_isMessage {i : Instr} (h : isMessage i = true) : exec i s = .next (s.take (carryOut i)) := by
  cases i <;> cases h <;> rfl

/-- With the port off a whole transaction is not taken, and one that was in progress ends (R188, R195). -/
theorem State.take_of_link_off (hoff : s.linkOn = false)
    (hrecv : s.lnk.receiver = .idle ∨ s.lnk.receiver = .unheard) (f : State → State) : s.take f = s.newTransaction := by
  obtain hidle | hunheard := hrecv
  · have hsame : s.newTransaction = s := by rw [State.newTransaction, State.onLnk, ← hidle]
    simp [State.take, State.atRise, hidle, hoff, hsame]
  · simp [State.take, State.atRise, hunheard]

/-- A key that is released has no press and no release to accept (R71). -/
theorem exec_key_of_released {k : Key} (h : (s.trn.keys.get k).debounce = .released) :
    exec (.keyPress k) s = .next s ∧ exec (.keyRelease k) s = .next s := by
  constructor
  · show execKeyPress k s = _
    simp only [execKeyPress, h]
  · show execKeyRelease k s = _
    simp only [execKeyRelease, h]

end

end Sys2Proof.Machine

namespace Sys2Proof.Proofs
open Sys2Proof Sys2Proof.Machine

/-- Settles O9: by the event, and for a failing supply by what comes after it. -/
theorem fullResetsAndLostSupply : Obligations.FullResetsAndLostSupply := by
  refine ⟨fun s => ⟨congrArg Host.Outcome.next s.fullReset_powerOn, Receiver.abandoned_eq _, Trn.fresh_get _⟩,
    fun s hon => ⟨fun hpower => ⟨?_, ?_⟩, fun hcutoff => ⟨?_, ?_⟩⟩, fun s => ⟨?_, fun t ht => ?_⟩⟩
  · have hheld : (s.lost .resetHeld .active).supply ≠ .on := by simp
    exact ⟨s.lost .resetHeld .active, exec_resetLineAssert_live (s.live_iff.mpr ⟨hon, hpower⟩), rfl,
      State.outputsOff_of_not_on hheld, rfl,
      exec_resetLine_watched (by simp) fun h => absurd h hheld⟩
  · exact exec_resetLine_watched (by simp [hon]) fun _ => hpower
  · exact exec_resetLineAssert_not_live (by simp [State.live, hcutoff])
  · exact exec_resetLine_unwatched (.inr ⟨hon, hcutoff⟩)
  · exact congrArg Host.Outcome.next (s.lost_active .off)
  · obtain rfl : s.lost .off .active = t := Host.Outcome.next.inj ht
    have hoff : (s.lost .off .active).supply ≠ .on := by simp
    have hlink : (s.lost .off .active).linkOn = false := State.linkOn_of_not_on hoff
    refine ⟨State.outputsOff_of_not_on hoff, hlink, exec_resetLine_unwatched (.inl rfl), fun i hi => ?_, fun k => ?_,
      fun hempty => ?_⟩
    · rw [exec_of_isMessage hi, State.take_of_link_off hlink s.lnk.receiver.abandoned_idle_or_unheard]
      rfl
    · exact exec_key_of_released (by rw [State.lost_key])
    · exact (step_of_empty (s := s.lost .off .active) hempty).trans (congrArg Host.Outcome.next (State.tick_of_not_on hoff))

end Sys2Proof.Proofs
end

