-- ==== Sys2Proof/Proofs/StorageMessages.lean ====
section
/-! Storage Read, Storage Program and Storage Erase (sections 8.4 and 8.5). -/
namespace Sys2Proof.Machine
open Sys2Proof

/-! ### Locked pages (R161) -/

/-- A page is locked by a record that is RECEIVING or DRAINING and whose range holds it. -/
theorem Spl.lockedPage_iff (p : Spl) (page : Nat) :
    p.lockedPage page = true ↔
      ∃ d ∈ p.table, (d.state = .receiving ∨ d.state = .draining) ∧ d.start ≤ page ∧ page < d.start + d.pages := by
  simp [Spl.lockedPage, Download.locked, Download.covers]

/-- Some page of a run of pages is locked. -/
theorem Spl.lockedRun_iff (p : Spl) (start n : Nat) :
    (List.range' start n).any p.lockedPage = true ↔ ∃ k < n, p.lockedPage (start + k) = true := by
  simp only [List.any_eq_true, List.mem_range', Nat.one_mul]
  constructor
  · rintro ⟨_, ⟨k, hk, rfl⟩, hlocked⟩
    exact ⟨k, hk, hlocked⟩
  · rintro ⟨k, hk, hlocked⟩
    exact ⟨start + k, ⟨k, hk, rfl⟩, hlocked⟩

/-! ### The tests of a storage message (R162) -/

section
variable {s : State} {tag : Byte} {q : StoRequest} {bad locked : Bool}

theorem State.storageMessage_bad (h : bad = true) :
    s.newTransaction.storageMessage tag q bad locked = s.refusedBy q.kind.message tag .badParam := by
  rw [h]
  rfl

theorem State.storageMessage_powerDown (h : bad = false) (hcut : s.pwr.cutoff = true) :
    s.newTransaction.storageMessage tag q bad locked = s.refusedBy q.kind.message tag .powerDown := by
  simp [State.storageMessage, State.judgeStorage, h, hcut, State.refusedBy]

theorem State.storageMessage_locked (h : bad = false) (hcut : s.pwr.cutoff = false) (hlocked : locked = true) :
    s.newTransaction.storageMessage tag q bad locked = s.refusedBy q.kind.message tag .storageLocked := by
  simp [State.storageMessage, State.judgeStorage, h, hcut, hlocked, State.refusedBy]

/-- A message that passes every test becomes the LINK request, and the arbiter acts (R159, R160). -/
theorem State.storageMessage_placed (h : bad = false) (hcut : s.pwr.cutoff = false) (hfree : locked = false) :
    s.newTransaction.storageMessage tag q bad locked =
      State.stoArbitrate
        { s with
          lnk :=
            { s.lnk with
              receiver := .idle
              processing := some ⟨q.kind.message, tag, .storage⟩ }
          sto := { s.sto with pending := { s.sto.pending with link := some q } } } := by
  simp [State.storageMessage, State.judgeStorage, h, hcut, hfree, State.placeLink, State.stoPlace, State.onLnk,
    State.onSto, PerRequester.set]

end

/-! ### The three messages -/

section
variable {s : State} (hopen : s.linkOpen) (tag : Byte) (page : U32)
include hopen

theorem exec_storageRead :
    exec (.storageRead tag page) s =
      .next
        (s.newTransaction.storageMessage tag { kind := .read, page := page.toNat }
          (decide (524288 ≤ page.toNat)) false) := next_take_of_linkOpen hopen _

theorem exec_storageProgram (data : List Byte) :
    exec (.storageProgram tag page data) s =
      .next
        (s.newTransaction.storageMessage tag { kind := .program, page := page.toNat, data := data }
          (decide (524288 ≤ page.toNat)) (s.spl.lockedPage page.toNat)) := next_take_of_linkOpen hopen _

theorem exec_storageErase :
    exec (.storageErase tag page) s =
      .next
        (s.newTransaction.storageMessage tag { kind := .erase, page := page.toNat }
          (decide (524288 ≤ page.toNat) || decide (page.toNat % 64 ≠ 0))
          ((List.range' page.toNat 64).any s.spl.lockedPage)) := next_take_of_linkOpen hopen _

end

end Sys2Proof.Machine

namespace Sys2Proof.Proofs
open Sys2Proof Sys2Proof.Machine

/-- Settles O55: test by test, each message by its own page and its own locked range. -/
theorem storageMessagesPlaceOrRefuse : Obligations.StorageMessagesPlaceOrRefuse := by
  intro tag page data s hopen p locked placed read program erase
  have hlocked (n : Nat) : s.spl.lockedPage n = true ↔ locked n := s.spl.lockedPage_iff n
  have hrun : (List.range' p 64).any s.spl.lockedPage = true ↔ ∃ k < 64, locked (p + k) := by
    simp only [Spl.lockedRun_iff, hlocked]
  have hread {t : State} (h : _ = t) : read = .next t := (exec_storageRead hopen tag page).trans (congrArg _ h)
  have hprogram {t : State} (h : _ = t) : program = .next t :=
    (exec_storageProgram hopen tag page data).trans (congrArg _ h)
  have herase {t : State} (h : _ = t) : erase = .next t := (exec_storageErase hopen tag page).trans (congrArg _ h)
  have hsmall (h : p < 524288) : decide (524288 ≤ p) = false := decide_eq_false (Nat.not_le.mpr h)
  have haligned (h : p < 524288) (h64 : p % 64 = 0) : (decide (524288 ≤ p) || decide (p % 64 ≠ 0)) = false := by
    simp [hsmall h, h64]
  refine ⟨fun hbig => ?_, fun hbad => ?_, fun hp hcut => ?_, fun hp hcut => ?_⟩
  · have hbad : decide (524288 ≤ p) = true := decide_eq_true hbig
    exact ⟨hread (State.storageMessage_bad hbad), hprogram (State.storageMessage_bad hbad)⟩
  · exact herase (State.storageMessage_bad (by simpa using hbad))
  · exact ⟨hread (State.storageMessage_powerDown (hsmall hp) hcut),
      hprogram (State.storageMessage_powerDown (hsmall hp) hcut),
      fun h64 => herase (State.storageMessage_powerDown (haligned hp h64) hcut)⟩
  · refine ⟨hread (State.storageMessage_placed (hsmall hp) hcut rfl), fun hl => ?_, fun hl => ?_, fun h64 hl => ?_,
      fun h64 hl => ?_⟩
    · exact hprogram (State.storageMessage_locked (hsmall hp) hcut ((hlocked p).mpr hl))
    · exact hprogram (State.storageMessage_placed (hsmall hp) hcut (Bool.eq_false_iff.mpr (mt (hlocked p).mp hl)))
    · exact herase (State.storageMessage_locked (haligned hp h64) hcut (hrun.mpr hl))
    · have hfree : ¬∃ k < 64, locked (p + k) := fun ⟨k, hk, hkl⟩ => hl k hk hkl
      exact herase (State.storageMessage_placed (haligned hp h64) hcut (Bool.eq_false_iff.mpr (mt hrun.mp hfree)))

end Sys2Proof.Proofs
end

