-- ==== Sys2Proof/Proofs/LinkAndPowerState.lean ====
section
/-! What a transaction does by the state of the link and of the power supervisor: discarded, not heard, or the end of
DOZE (R172, R173, R188, R189, R192, R195). -/
namespace Sys2Proof.Machine
open Sys2Proof

section
variable {s : State}

/-! ### A whole transaction at the rise of CS -/

theorem State.atRise_of_unheard (h : s.lnk.receiver = .unheard) (f : State → State) : s.atRise f = s.newTransaction :=
  if_pos h

theorem State.atRise_of_link_off (hoff : s.linkOn = false) (hrecv : s.lnk.receiver ≠ .unheard) (f : State → State) :
    s.atRise f = s := by
  simp [State.atRise, hrecv, hoff]

theorem State.atRise_of_heard (hon : s.linkOn = true) (hrecv : s.lnk.receiver ≠ .unheard) (f : State → State) :
    s.atRise f = f s.newTransaction := by
  simp [State.atRise, hrecv, hon]

/-- Messages and raw write frames are the commands that stand for a whole transaction (log entries 6 and 7). -/
theorem exec_eq_atRise {i : Instr} (h : isMessage i = true ∨ ∃ m, i = .writeFrame m) (s : State) :
    ∃ f, exec i s = .next (s.atRise f) := by
  obtain hmsg | ⟨m, rfl⟩ := h
  · exact ⟨_, exec_of_isMessage hmsg⟩
  · exact ⟨_, rfl⟩

/-- The header of Image Data or of a read frame begins nothing where the transaction is not heard (R188, R195). -/
theorem exec_header_of_not_hears {i : Instr} (hnot : s.hears = false)
    (h : (∃ n, i = .imageDataHeader n) ∨ i = .readReply) : exec i s = .next s := by
  have hnot : ¬s.hears = true := by simp [hnot]
  obtain ⟨n, rfl⟩ | rfl := h <;> exact congrArg Host.Outcome.next (if_neg hnot)

/-! ### A message that is heard (R189 cases 1 and 6) -/

theorem State.take_discards (hon : s.linkOn = true) (hrecv : s.lnk.receiver ≠ .unheard) (hproc : s.lnk.processing ≠ none)
    (f : State → State) : s.take f = s.newTransaction.discardFrame :=
  (State.atRise_of_heard hon hrecv _).trans (if_pos (Option.isSome_iff_ne_none.mpr hproc))

theorem State.take_carries (hon : s.linkOn = true) (hrecv : s.lnk.receiver ≠ .unheard) (hproc : s.lnk.processing = none)
    (f : State → State) : s.take f = f s.newTransaction.returnToActive :=
  (State.atRise_of_heard hon hrecv _).trans (if_neg (by simp [hproc]))

/-! ### A raw frame that is heard (R189 cases 2 and 3) -/

theorem judgeFrame_tooLong {n : Nat} (h : 4096 < n) (kind tag : Byte) (rest : List Byte) :
    judgeFrame kind tag n rest = .tooLong := if_pos h

theorem judgeFrame_cut {n : Nat} {rest : List Byte} (h : n ≤ 4096) (hcut : rest.length < n) (kind tag : Byte) :
    judgeFrame kind tag n rest = .cut := (if_neg (Nat.not_lt.mpr h)).trans (if_pos hcut)

/-- A frame that is no read frame, no Image Data and not discarded is judged by its header and its bytes. -/
theorem exec_writeFrame_judged (hon : s.linkOn = true) (hrecv : s.lnk.receiver ≠ .unheard)
    (hproc : s.lnk.processing = none) {kind tag lo hi : Byte} {rest : List Byte} {c : FrameCase} (hread : kind ≠ 0xFF#8)
    (himage : kind ≠ 0x11#8) (hcase : judgeFrame kind tag (lo.toNat + 256 * hi.toNat) rest = c) :
    exec (.writeFrame (kind :: tag :: lo :: hi :: rest)) s = .next (s.newTransaction.afterFrame kind tag c) := by
  have hframe : s.newTransaction.frame kind tag (un16 lo hi).toNat rest = s.newTransaction.afterFrame kind tag c := by
    rw [un16_toNat]
    simp [State.frame, kindReadReply, kindImageData, hread, himage, hproc, hcase]
  exact congrArg Host.Outcome.next ((State.atRise_of_heard hon hrecv _).trans hframe)

/-! ### The end of DOZE (R172, R173) -/

/-- The part in ACTIVE, with no DEEP entry, no pending wake and no deep-idle timer. -/
def State.awake (s : State) : State :=
  { s with pwr := { s.pwr with power := .active, deepWait := none, pendingWake := none, idleTimer := none } }

theorem State.returnToActive_of_doze (hdoze : s.pwr.power = .doze) (hwait : s.pwr.deepWait = none) :
    s.returnToActive = s.awake :=
  (if_pos hdoze).trans (State.abandonDeep_none hwait)

/-- Where a DEEP entry waits, its abandonment examines the queue and lets the arbiter act. -/
theorem State.returnToActive_of_waiting (hdoze : s.pwr.power = .doze) (hwait : s.pwr.deepWait ≠ none) :
    s.returnToActive = (s.awake.engine true).stoArbitrate :=
  (if_pos hdoze).trans (State.abandonDeep_waiting hwait)

/-- The link that took a transaction in DOZE takes it in ACTIVE. -/
theorem State.awake_linkOpen (hon : s.linkOn = true) (hrecv : s.lnk.receiver ≠ .unheard)
    (hproc : s.lnk.processing = none) : s.awake.linkOpen := by
  refine ⟨?_, rfl, hproc, hrecv⟩
  simp only [State.linkOn, Bool.and_eq_true] at hon
  obtain ⟨⟨hsupply, -⟩, hholdoff⟩ := hon
  simp only [State.linkOn, Bool.and_eq_true]
  exact ⟨⟨hsupply, rfl⟩, hholdoff⟩

end

end Sys2Proof.Machine

namespace Sys2Proof.Proofs
open Sys2Proof Sys2Proof.Machine

/-- Settles O6: a message that is discarded or not heard by the branches of its taking; in DOZE, by whether a DEEP entry
waits for the frame to abandon it. -/
theorem messagesByLinkAndPowerState : Obligations.MessagesByLinkAndPowerState := by
  refine ⟨fun i s hmsg hon hrecv hproc => ?_, fun i s hoff hcommand => ?_,
    fun i s hunheard => ⟨fun hwhole => ?_, fun hheader => ?_⟩, ?_⟩
  · rw [exec_of_isMessage hmsg, State.take_discards hon hrecv hproc]
    rfl
  · obtain ⟨hwhole, hrecv⟩ | hheader := hcommand
    · obtain ⟨f, hf⟩ := exec_eq_atRise hwhole s
      rw [hf, State.atRise_of_link_off hoff hrecv]
    · exact exec_header_of_not_hears (by simp [State.hears, hoff]) hheader
  · obtain ⟨f, hf⟩ := exec_eq_atRise hwhole s
    rw [hf, State.atRise_of_unheard hunheard]
    rfl
  · exact exec_header_of_not_hears (by simp [State.hears, hunheard]) hheader
  · intro s hon hdoze active free resumed
    have hfree (hwait : s.pwr.deepWait = none) : s.newTransaction.returnToActive = free :=
      State.returnToActive_of_doze (s := s.newTransaction) hdoze hwait
    have hresumed (hwait : s.pwr.deepWait ≠ none) : s.newTransaction.returnToActive = resumed :=
      State.returnToActive_of_waiting (s := s.newTransaction) hdoze hwait
    refine ⟨fun i hmsg hrecv hproc => ?_, ?_, fun stray hend => ?_⟩
    · have hcarried : exec i s = .next (carryOut i s.newTransaction.returnToActive) := by
        rw [exec_of_isMessage hmsg, State.take_carries hon hrecv hproc]
      refine ⟨fun hwait => ?_, fun hwait => by rw [hcarried, hresumed hwait]⟩
      have hactive : exec i active = .next (carryOut i free) :=
        (exec_of_isMessage hmsg).trans (next_take_of_linkOpen (State.awake_linkOpen hon hrecv hproc) _)
      rw [hcarried, hfree hwait, hactive]
    · intro kind tag lo hi rest hread himage hrecv hproc n frame
      have hjudged {c : FrameCase} (hcase : judgeFrame kind tag n rest = c) :
          frame = .next (s.newTransaction.afterFrame kind tag c) :=
        exec_writeFrame_judged hon hrecv hproc hread himage hcase
      refine ⟨fun hlong hwait => ?_, fun hlong hwait => ?_, fun hn hcut => hjudged (judgeFrame_cut hn hcut kind tag)⟩
      · rw [hjudged (judgeFrame_tooLong hlong kind tag rest), State.afterFrame, hfree hwait]
        rfl
      · rw [hjudged (judgeFrame_tooLong hlong kind tag rest), State.afterFrame, hresumed hwait]
    · have hended : exec .imageDataEnd s = .next s.newTransaction.returnToActive :=
        congrArg Host.Outcome.next (State.imageEnd_of_whole hend)
      exact ⟨fun hwait => by rw [hended, hfree hwait], fun hwait => by rw [hended, hresumed hwait]⟩

end Sys2Proof.Proofs
end

