-- ==== Sys2Proof/Proofs/NoticesAndAttn.lean ====
section
/-! Identify, the notice messages, and the line ATTN (R197 to R200). -/
namespace Sys2Proof.Machine
open Sys2Proof

section
variable {s : State}

/-- Identify answers the record of 11.6 and changes LNK's reply alone (R200). -/
theorem exec_identify (h : s.linkOpen) (tag : Byte) :
    exec (.identify tag) s = .next { s with lnk := s.replied 0x01#8 tag .ok identifyRecord } :=
  next_take_of_linkOpen h (doIdentify tag)

/-- Fetch Notices takes the selected kinds out of the pending set and returns them (R198). -/
theorem exec_fetchNotices (h : s.linkOpen) (tag : Byte) (selection : U16) :
    exec (.fetchNotices tag selection) s = .next
      { s with
        lnk :=
          { s.replied 0x02#8 tag .ok (le16 (s.lnk.notices &&& selection)) with
            notices := s.lnk.notices &&& ~~~selection } } :=
  next_take_of_linkOpen h (doFetchNotices tag selection)

/-- Set Notice Masks stores both masks, with BATTERY_CRITICAL in the wake mask (R199). -/
theorem exec_setNoticeMasks (h : s.linkOpen) (tag : Byte) (enable wake : U16) :
    exec (.setNoticeMasks tag enable wake) s = .next
      { s with
        lnk :=
          { s.replied 0x03#8 tag .ok (le16 enable ++ le16 (wake ||| Notice.batteryCritical.set)) with
            enable := enable
            wake := wake ||| Notice.batteryCritical.set } } :=
  next_take_of_linkOpen h (doSetNoticeMasks tag enable wake)

/-! ### ATTN (R197) -/

/-- Every bit of a notice set is the bit of a kind (11.7). -/
theorem Notice.exists_bit_eq : ∀ n : Nat, n < 16 → ∃ k : Notice, k.bit = n
  | 0, _ => ⟨.updateDone, rfl⟩
  | 1, _ => ⟨.keyUnserved, rfl⟩
  | 2, _ => ⟨.keyReport, rfl⟩
  | 3, _ => ⟨.ringLow, rfl⟩
  | 4, _ => ⟨.slotReady, rfl⟩
  | 5, _ => ⟨.waveformAdopted, rfl⟩
  | 6, _ => ⟨.downloadDone, rfl⟩
  | 7, _ => ⟨.downloadFault, rfl⟩
  | 8, _ => ⟨.batteryLow, rfl⟩
  | 9, _ => ⟨.batteryCritical, rfl⟩
  | 10, _ => ⟨.charger, rfl⟩
  | 11, _ => ⟨.tempRange, rfl⟩
  | 12, _ => ⟨.sensorFault, rfl⟩
  | 13, _ => ⟨.wakeTimer, rfl⟩
  | 14, _ => ⟨.powerKey, rfl⟩
  | 15, _ => ⟨.lightKey, rfl⟩
  | n + 16, h => absurd h (by omega)

/-- Two notice sets meet where a kind is in both. -/
theorem and_ne_zero_iff_exists_notice (pending mask : U16) :
    pending &&& mask ≠ 0#16 ↔ ∃ k : Notice, pending.getLsbD k.bit = true ∧ mask.getLsbD k.bit = true := by
  constructor
  · intro hmeet
    refine Classical.byContradiction fun hnone => hmeet (BitVec.eq_of_getLsbD_eq fun n hn => ?_)
    obtain ⟨k, rfl⟩ := Notice.exists_bit_eq n hn
    rw [BitVec.getLsbD_and, BitVec.getLsbD_zero, ← Bool.not_eq_true, Bool.and_eq_true]
    exact fun hboth => hnone ⟨k, hboth⟩
  · rintro ⟨k, hpending, hmask⟩ hzero
    have hbit : (pending &&& mask).getLsbD k.bit = true := by rw [BitVec.getLsbD_and, hpending, hmask]; rfl
    rw [hzero, BitVec.getLsbD_zero] at hbit
    cases hbit

/-- ATTN goes by the enable mask in ACTIVE, by the wake mask in DOZE and DEEP, and is deasserted in CUTOFF (R197). -/
theorem State.attn_iff (hsupply : s.supply = .on) :
    s.attn = true ↔
      (s.pwr.power = .active ∧ s.lnk.notices &&& s.lnk.enable ≠ 0#16) ∨
        ((s.pwr.power = .doze ∨ s.pwr.power = .deep) ∧ s.lnk.notices &&& s.lnk.wake ≠ 0#16) := by
  cases hpower : s.pwr.power <;> simp [State.attn, hsupply, hpower]

end

end Sys2Proof.Machine

namespace Sys2Proof.Proofs
open Sys2Proof Sys2Proof.Machine

/-- Settles O7: the three messages by their rows; ATTN by its masks, read kind by kind. -/
theorem identifyNoticesAndAttn : Obligations.IdentifyNoticesAndAttn := by
  refine ⟨fun tag _ hopen => exec_identify hopen tag, fun tag sel _ hopen => exec_fetchNotices hopen tag sel,
    fun tag enable wake _ hopen => exec_setNoticeMasks hopen tag enable wake, fun s hsupply => ?_⟩
  rw [State.attn_iff hsupply, and_ne_zero_iff_exists_notice, and_ne_zero_iff_exists_notice]

end Sys2Proof.Proofs
end

