-- ==== Sys2Proof/Proofs/ReadFrames.lean ====
section
/-! The read frame: its header, its bytes on MISO, and the collection of the reply (R188, R193 to R195). -/
namespace Sys2Proof.Machine
open Sys2Proof

section
variable {s : State}

theorem State.ready_iff :
    s.ready = true ↔ s.supply = .on ∧ s.pwr.power ≠ .cutoff ∧ ∃ r, s.lnk.reply = some r := by
  simp [State.ready, Option.isSome_iff_exists, and_assoc]

/-! ### The header and the collection -/

/-- The header of a read frame that is heard takes the slot's reply, or an EMPTY one, for MISO (R194). -/
theorem exec_readReply (hears : s.hears = true) :
    exec .readReply s = .next
      { s with
        lnk :=
          { s.lnk with receiver := .reading (s.lnk.reply.getD emptyReply).bytes s.lnk.reply.isSome } } :=
  congrArg Host.Outcome.next (if_pos hears)

/-- The read frame collects the reply that the slot still holds (R194). -/
theorem State.collect_current {miso : List Byte} (h : s.lnk.receiver = .reading miso true) :
    s.collect = { s with lnk := { s.lnk with reply := none, receiver := .idle } } := by
  simp [State.collect, h, State.onLnk]

/-- A reply that is no longer the slot's is not collected (R194). -/
theorem State.collect_replaced {miso : List Byte} (h : s.lnk.receiver = .reading miso false) :
    s.collect = s.newTransaction := by
  simp [State.collect, h]

theorem State.collect_unheard (h : s.lnk.receiver = .unheard) : s.collect = s.newTransaction := by
  simp [State.collect, h]

/-! ### MISO -/

/-- MISO carries 0x00 during the 4 header bytes of a read frame (R194). -/
theorem State.misoByte_reading_header (hlive : s.live = true) {miso : List Byte} {held : Bool}
    (h : s.lnk.receiver = .reading miso held) {k : Nat} (hk : k < 4) : s.misoByte k = some 0x00#8 := by
  simp only [State.misoByte, hlive, h, hk, if_true]

/-- After the header MISO carries the reply's bytes, and 0x00 after the last of them (R194). -/
theorem State.misoByte_reading_body (hlive : s.live = true) {miso : List Byte} {held : Bool}
    (h : s.lnk.receiver = .reading miso held) (k : Nat) : s.misoByte (k + 4) = some (miso[k]?.getD 0x00#8) := by
  have hk : ¬k + 4 < 4 := Nat.not_lt.mpr (Nat.le_add_left 4 k)
  simp only [State.misoByte, hlive, h, if_true, if_neg hk, Nat.add_sub_cancel, List.getD_eq_getElem?_getD]

/-- MISO carries 0x00 in every other transaction (R188, R195, log entry 20). -/
theorem State.misoByte_not_reading (hlive : s.live = true) (h : ∀ miso held, s.lnk.receiver ≠ .reading miso held)
    (k : Nat) : s.misoByte k = some 0x00#8 := by
  cases hrecv : s.lnk.receiver with
  | reading miso held => exact absurd hrecv (h miso held)
  | _ => simp [State.misoByte, hlive, hrecv]

/-- MISO is not driven where the blocks do not run (R185, R195). -/
theorem State.misoByte_not_live (hdead : s.live = false) (k : Nat) : s.misoByte k = none := by
  simp [State.misoByte, hdead]

end

end Sys2Proof.Machine

namespace Sys2Proof.Proofs
open Sys2Proof Sys2Proof.Machine

/-- Settles O8: the header, the collection by what the receiver holds, MISO byte by byte, and READY. -/
theorem readFrameCollectsTheReply : Obligations.ReadFrameCollectsTheReply := by
  intro s
  refine ⟨fun hon hrecv => ?_, fun miso h => congrArg Host.Outcome.next (State.collect_current h),
    fun miso h => congrArg Host.Outcome.next (State.collect_replaced h), fun hunheard => ⟨?_, ?_⟩,
    fun hlive => ⟨fun miso held h => ⟨fun k hk => State.misoByte_reading_header hlive h hk, ?_, ?_⟩,
      State.misoByte_not_reading hlive⟩, State.misoByte_not_live,
    State.ready_iff⟩
  · have hheader := exec_readReply (State.hears_of hon hrecv)
    refine ⟨fun r hreply => ?_, fun hempty => ?_⟩
    · rw [hheader, hreply]
      rfl
    · rw [hheader, hempty]
      rfl
  · exact exec_header_of_not_hears (by simp [State.hears, hunheard]) (.inr rfl)
  · exact congrArg Host.Outcome.next (State.collect_unheard hunheard)
  · intro k b hb
    rw [State.misoByte_reading_body hlive h, hb, Option.getD_some]
  · intro k hk
    rw [State.misoByte_reading_body hlive h, List.getElem?_eq_none hk, Option.getD_none]

end Sys2Proof.Proofs
end

