-- ==== Sys2Proof/Proofs/MessageFrames.lean ====
section
/-! Messages as frames: the fields of a body read back, and R189's cases of a write frame (R188, R189, R203). -/
namespace Sys2Proof

/-! ### Fields (R203) -/

/-- A 2-byte field reads back from its bytes. -/
theorem un16_le16 (v : U16) : un16 (v.extractLsb' 0 8) (v.extractLsb' 8 8) = v :=
  (BitVec.extractLsb'_append_extractLsb'_eq_extractLsb' rfl).trans BitVec.extractLsb'_eq_self

/-- A 4-byte field reads back from its bytes. -/
theorem un32_le32 (v : U32) :
    un32 (v.extractLsb' 0 8) (v.extractLsb' 8 8) (v.extractLsb' 16 8) (v.extractLsb' 24 8) = v := by
  have htop : v.extractLsb' 24 8 ++ v.extractLsb' 16 8 = v.extractLsb' 16 16 :=
    BitVec.extractLsb'_append_extractLsb'_eq_extractLsb' rfl
  have hupper : v.extractLsb' 16 16 ++ v.extractLsb' 8 8 = v.extractLsb' 8 24 :=
    BitVec.extractLsb'_append_extractLsb'_eq_extractLsb' rfl
  have hall : v.extractLsb' 8 24 ++ v.extractLsb' 0 8 = v.extractLsb' 0 32 :=
    BitVec.extractLsb'_append_extractLsb'_eq_extractLsb' rfl
  rw [un32, htop, hupper, hall, BitVec.extractLsb'_eq_self]

/-! ### Bodies (11.3, 11.5) -/

section
variable {i : Instr} {k : Byte}

/-- A message's body reads back as the message. The two bodies that carry data of their own are judged by its length; in
the others the decoder computes each field from its bytes. -/
theorem decodeMessage_messageBody (hwf : WellFormed i = true) (hk : messageKind i = some k) :
    decodeMessage k (messageTag i) (messageBody i) = some i := by
  cases i
  case waveformData tag offset data =>
    cases hk
    have hlen : data.length ≤ 4092 := of_decide_eq_true hwf
    exact (if_pos hlen).trans (congrArg (fun v => some (Instr.waveformData tag v data)) (un32_le32 offset))
  case storageProgram tag page data =>
    cases hk
    have hlen : data.length = 2048 := of_decide_eq_true hwf
    exact (if_pos hlen).trans (congrArg (fun v => some (Instr.storageProgram tag v data)) (un32_le32 page))
  all_goals cases hk
  all_goals
    conv => lhs; whnf
    simp only [messageTag, un16_le16, un32_le32]

end

end Sys2Proof

namespace Sys2Proof.Machine
open Sys2Proof

theorem allowedLength_of_bodyLengths {kind : Byte} {a b : Nat} (h : bodyLengths kind = some (a, b)) (n : Nat) :
    allowedLength kind n = true ↔ a ≤ n ∧ n ≤ b := by
  simp [allowedLength, h]

theorem allowedLength_iff (kind : Byte) (n : Nat) :
    allowedLength kind n = true ↔ ∃ a b, bodyLengths kind = some (a, b) ∧ a ≤ n ∧ n ≤ b := by
  match h : bodyLengths kind with
  | none =>
    have hno : allowedLength kind n = false := by simp only [allowedLength, h]
    exact ⟨fun hyes => absurd (hno.symm.trans hyes) Bool.false_ne_true, fun ⟨_, _, hkind, _⟩ => nomatch hkind⟩
  | some (a, b) =>
    rw [allowedLength_of_bodyLengths h]
    exact ⟨fun hlen => ⟨a, b, rfl, hlen⟩, fun ⟨_, _, hkind, hlen⟩ => by cases hkind; exact hlen⟩

/-- No kind allows a body that R189 case 2 refuses. -/
theorem bodyLengths_le_maxBody {kind : Byte} {a b : Nat} (h : bodyLengths kind = some (a, b)) : b ≤ Config.maxBody := by
  unfold bodyLengths at h
  split at h <;> cases h <;> decide

/-- A message's body has a length its kind allows (11.3). -/
theorem allowedLength_messageBody {i : Instr} {k : Byte} (hwf : WellFormed i = true) (hk : messageKind i = some k) :
    allowedLength k (messageBody i).length = true := by
  cases i
  case waveformData tag offset data =>
    cases hk
    have hlen : data.length ≤ 4092 := of_decide_eq_true hwf
    refine (allowedLength_of_bodyLengths rfl _).mpr ?_
    simp only [messageBody, List.length_append, le32_length]
    omega
  case storageProgram tag page data =>
    cases hk
    have hlen : data.length = 2048 := of_decide_eq_true hwf
    refine (allowedLength_of_bodyLengths rfl _).mpr ?_
    simp only [messageBody, List.length_append, le32_length]
    omega
  all_goals cases hk
  all_goals rfl

/-! ### R189's cases 4 to 6 -/

section
variable {kind tag : Byte} {n : Nat} {rest : List Byte}

theorem judgeFrame_unknownKind (hn : n ≤ Config.maxBody) (hrest : n ≤ rest.length) (hkind : bodyLengths kind = none) :
    judgeFrame kind tag n rest = .unknownKind := by
  simp [judgeFrame, Nat.not_lt.mpr hn, Nat.not_lt.mpr hrest, hkind]

theorem judgeFrame_badLength (hn : n ≤ Config.maxBody) (hrest : n ≤ rest.length) {a b : Nat}
    (hkind : bodyLengths kind = some (a, b)) (hlen : n < a ∨ b < n) : judgeFrame kind tag n rest = .badLength := by
  have hbad : allowedLength kind n = false := by
    rw [← Bool.not_eq_true, allowedLength_of_bodyLengths hkind]
    omega
  simp [judgeFrame, Nat.not_lt.mpr hn, Nat.not_lt.mpr hrest, hkind, hbad]

/-- A body of an allowed length is no longer than a frame's largest, so only its completeness is left to ask. -/
theorem judgeFrame_request (hrest : n ≤ rest.length) (hlen : allowedLength kind n = true) {i : Instr}
    (hbody : decodeMessage kind tag (rest.take n) = some i) : judgeFrame kind tag n rest = .request i := by
  obtain ⟨a, b, hkind, -, hb⟩ := (allowedLength_iff kind n).mp hlen
  have hn : n ≤ Config.maxBody := Nat.le_trans hb (bodyLengths_le_maxBody hkind)
  simp [judgeFrame, Nat.not_lt.mpr hn, Nat.not_lt.mpr hrest, hkind, hlen, hbody]

/-- A frame that spells a request is discarded or carried out as the request's own row is (R189 cases 1 and 6). -/
theorem State.frame_request (s : State) (hread : kind ≠ kindReadReply) (himage : kind ≠ kindImageData) {i : Instr}
    (hcase : judgeFrame kind tag n rest = .request i) :
    s.frame kind tag n rest =
      if s.lnk.processing.isSome then s.discardFrame else carryOut i s.returnToActive := by
  simp [State.frame, State.afterFrame, hread, himage, hcase]

end

/-! ### A message's own frame -/

/-- A frame's header declares the length of its body (11.2). -/
theorem State.heardFrame_header (s : State) (kind tag : Byte) (n : U16) (rest : List Byte) :
    s.heardFrame (kind :: tag :: (le16 n ++ rest)) = s.frame kind tag n.toNat rest := by
  show s.frame kind tag (un16 (n.extractLsb' 0 8) (n.extractLsb' 8 8)).toNat rest = _
  rw [un16_le16]

/-- A message's frame is its header and its body (11.2). -/
theorem encodeMessage_eq_some {i : Instr} {bytes : List Byte} (h : encodeMessage i = some bytes) :
    ∃ k, messageKind i = some k ∧
      bytes = k :: messageTag i :: (le16 (BitVec.ofNat 16 (messageBody i).length) ++ messageBody i) := by
  obtain ⟨k, hk, hbytes⟩ := Option.map_eq_some_iff.mp h
  exact ⟨k, hk, hbytes.symm⟩

/-- The write frame of a message does what the message does, whatever follows its body (R189). -/
theorem exec_writeFrame_of_encodeMessage {i : Instr} {bytes : List Byte} (hwf : WellFormed i = true)
    (h : encodeMessage i = some bytes) (extra : List Byte) (s : State) :
    exec (.writeFrame (bytes ++ extra)) s = exec i s := by
  obtain ⟨k, hk, rfl⟩ := encodeMessage_eq_some h
  have hlen := allowedLength_messageBody hwf hk
  obtain ⟨a, b, hkind, -, hb⟩ := (allowedLength_iff _ _).mp hlen
  have hread : k ≠ kindReadReply := by rintro rfl; cases hkind
  have himage : k ≠ kindImageData := by rintro rfl; cases hkind
  have hshort : (messageBody i).length < 2 ^ 16 :=
    Nat.lt_of_le_of_lt (Nat.le_trans hb (bodyLengths_le_maxBody hkind)) (by decide)
  have hcase : judgeFrame k (messageTag i) (messageBody i).length (messageBody i ++ extra) = .request i :=
    judgeFrame_request (by simp) hlen (by rw [List.take_left, decodeMessage_messageBody hwf hk])
  have hmsg : isMessage i = true := Option.isSome_of_mem hk
  rw [exec_of_isMessage hmsg]
  refine congrArg (fun heard => Host.Outcome.next (s.atRise heard)) (funext fun t => ?_)
  rw [List.cons_append, List.cons_append, List.append_assoc, State.heardFrame_header, BitVec.toNat_ofNat,
    Nat.mod_eq_of_lt hshort, State.frame_request t hread himage hcase]

/-- A transaction of fewer than 4 bytes has no header, and is discarded whole (R188). -/
theorem State.heardFrame_short (s : State) {short : List Byte} (h : short.length < 4) : s.heardFrame short = s := by
  match short, h with
  | [], _ | [_], _ | [_, _], _ | [_, _, _], _ => rfl

end Sys2Proof.Machine

namespace Sys2Proof.Proofs
open Sys2Proof Sys2Proof.Machine

/-- Settles O3: by the message, its fields by their bytes. -/
theorem messagesDecodeAsEncoded : Obligations.MessagesDecodeAsEncoded :=
  fun _ _ hwf hk => ⟨allowedLength_messageBody hwf hk, decodeMessage_messageBody hwf hk⟩

/-- Settles O4: the frame is judged to spell its message, so that both commands are one taking at the rise of CS. -/
theorem writeFrameRunsItsMessage : Obligations.WriteFrameRunsItsMessage :=
  fun _ _ extra s hwf h => exec_writeFrame_of_encodeMessage hwf h extra s

/-- Settles O5: by the case of R189 that the frame is judged to be; Fetch Notices as the message its bytes spell. -/
theorem writeFrameChecks : Obligations.WriteFrameChecks := by
  intro kind tag lo hi rest s hopen hread himage n frame free
  have ⟨hon, hpower, hproc, hrecv⟩ := hopen
  have hjudged {c : FrameCase} (hcase : judgeFrame kind tag n rest = c) :
      frame = .next (s.newTransaction.afterFrame kind tag c) :=
    exec_writeFrame_judged hon hrecv hproc hread himage hcase
  have hactive : s.newTransaction.returnToActive = free := State.returnToActive_of_active _ hpower
  refine ⟨fun hlong => ?_, fun hn hcut => hjudged (judgeFrame_cut hn hcut kind tag), fun hn hrest hkind => ?_,
    fun hn hrest a b hkind hlen => ?_, fun hn hrest a b i hkind ha hb hbody => ?_, fun selection extra => ?_,
    fun short hshort => ?_⟩
  · rw [hjudged (judgeFrame_tooLong hlong kind tag rest), State.afterFrame, hactive]
    rfl
  · rw [hjudged (judgeFrame_unknownKind hn hrest hkind), State.afterFrame, hactive]
    rfl
  · rw [hjudged (judgeFrame_badLength hn hrest hkind hlen), State.afterFrame, hactive]
    rfl
  · have hallowed : allowedLength kind n = true := (allowedLength_of_bodyLengths hkind n).mpr ⟨ha, hb⟩
    rw [hjudged (judgeFrame_request hrest hallowed hbody), State.afterFrame, hactive]
  · have hspells : encodeMessage (.fetchNotices tag selection) =
        some ([0x02#8, tag, 0x02#8, 0x00#8] ++ le16 selection) := by
      simp [encodeMessage, messageKind, messageTag, messageBody, le16]
    rw [exec_writeFrame_of_encodeMessage rfl hspells, exec_fetchNotices hopen]
  · exact congrArg Host.Outcome.next
      ((State.atRise_of_heard hon hrecv _).trans (State.heardFrame_short _ hshort))

end Sys2Proof.Proofs
end

