-- ==== Sys2Proof/Proofs/QueueFront.lean ====
section
/-! A step on a queue that is not empty (log entry 1); `step_of_empty` is the other case of a step. -/
namespace Sys2Proof.Machine
open Sys2Proof

/-- The front command leaves the queue before it runs: it finds only the queue's rest. -/
theorem step_of_front {s : State} {i : Instr} {rest : List Instr} (h : s.pending = i :: rest) :
    step s = exec i { s with pending := rest } := by simp only [step, h]

end Sys2Proof.Machine

namespace Sys2Proof.Proofs
open Sys2Proof Sys2Proof.Machine

/-- Settles O1: the queue with `i` put in front has `i` as its front and the queue of `s` as its rest. -/
theorem stepRunsTheFrontCommand : Obligations.StepRunsTheFrontCommand := by
  intro i s
  have hfront : ({ s with pending := i :: s.pending } : State).pending = i :: s.pending := rfl
  exact step_of_front hfront

end Sys2Proof.Proofs
end
